-- ==== Sys2Proof/Word.lean ====
section
/-! DEFINITION. The word types of the block: command words, bytes, register indices, offsets, register contents. -/

namespace Sys2Proof

/-- A 32-bit command or bus word (30_encoding.md R110, 20_memory.md R72). -/
abbrev Word := BitVec 32

/-- A byte of IOBUF (10_state.md R45). -/
abbrev Byte := BitVec 8

/-- An 8-bit register index or 8-bit count field of a command (30_encoding.md R111, R114). -/
abbrev RegIdx := BitVec 8

/-- A 16-bit immediate or IOBUF offset field (30_encoding.md R112, R113). -/
abbrev Half := BitVec 16

/-- The contents of one operand register, `RW` = 256 bits (10_state.md R31). -/
abbrev Elem := BitVec 256

end Sys2Proof
end

