-- ==== Sys2Proof/Config.lean ====
section
/-! DEFINITION. What this hardware fixes: its implementation parameters and the constants of the curve, and the one parameter left open (BASE). -/

namespace Sys2Proof.Config

/-- `NREG`, the number of operand registers (00_scope.md R9). -/
abbrev nreg : Nat := 256

/-- `IOBUF_SIZE` in bytes (00_scope.md R9). -/
abbrev iobufSize : Nat := 4096

/-- The size in bytes of the host window (20_memory.md R70). -/
abbrev windowSize : Nat := 8192

/-- The window offset at which IOBUF begins (20_memory.md R71). -/
abbrev iobufBase : Nat := 4096

/-- `ID_VALUE` (00_scope.md R9, 10_state.md R36). -/
def idValue : Word := 0x47313601

/-- The base-field prime p (00_scope.md R10). -/
def p : Nat := 21888242871839275222246405745257275088696311157297823662689037894645226208583

/-- The group order r (00_scope.md R11). -/
def r : Nat := 21888242871839275222246405745257275088548364400416034343698204186575808495617

/-- The Miller-loop parameter ATE = 6x + 2 (00_scope.md R12). -/
def ate : Nat := 29793968203157093288

/-- The coefficient b = 3 of E: y^2 = x^3 + 3 (00_scope.md R13). -/
def curveB : Nat := 3

/-- `BASE`, the host bus address of the window: OPEN, a parameter of the platform (00_scope.md R9, 92_eei_decisions.md D4).
An uninterpreted constant: nothing in Lean can prove a value of it (log 9). -/
opaque base : Nat

end Sys2Proof.Config
end

