-- ==== Sys2Proof/Machine/Field.lean ====
section
/-! DEFINITION. Base field arithmetic: integers in [0, p), every result reduced mod p (41_fp.md R140, R141), powers, and square roots. -/

namespace Sys2Proof.Machine

/-- The operations of a field, as the group law of 43_curve.md R230 needs them. -/
structure FieldOps (K : Type) where
  zero : K
  one : K
  add : K → K → K
  sub : K → K → K
  mul : K → K → K
  neg : K → K
  inv : K → K

/-- The `n`-fold product (or sum) of `x` under `mul`, by squaring and multiplying from the top bit down; `fuel` bounds the bits of `n`.
The method is free, only the value counts (41_fp.md R141, 43_curve.md R232, 44_pairing.md R288; log 12). -/
def powFuel {α : Type} (mul : α → α → α) (one x : α) : Nat → Nat → α
  | 0, _ => one
  | fuel + 1, n =>
    let y := powFuel mul one x fuel (n / 2)
    let z := mul y y
    if n % 2 = 1 then mul z x else z

/-- `x` to the power `n`. -/
def powBy {α : Type} (mul : α → α → α) (one x : α) (n : Nat) : α :=
  powFuel mul one x (n.log2 + 1) n

/-- (a + b) mod p (41_fp.md R142). -/
def fpAdd (a b : Nat) : Nat := (a + b) % Config.p

/-- (a - b) mod p, the representative in [0, p) (41_fp.md R143). -/
def fpSub (a b : Nat) : Nat := (a + (Config.p - b % Config.p)) % Config.p

/-- (p - a) mod p (41_fp.md R144). -/
def fpNeg (a : Nat) : Nat := (Config.p - a % Config.p) % Config.p

/-- (a * b) mod p with the full product reduced (41_fp.md R145). -/
def fpMul (a b : Nat) : Nat := (a * b) % Config.p

/-- a^n mod p. -/
def fpPow (a n : Nat) : Nat := powBy fpMul 1 a n

/-- inv_p(a), "equal to F[A]^(p-2) mod p" (41_fp.md R147). Callers guard a = 0 (R149). -/
def fpInv (a : Nat) : Nat := fpPow a (Config.p - 2)

/-- Fp as a field. -/
def fpOps : FieldOps Nat :=
  { zero := 0, one := 1, add := fpAdd, sub := fpSub, mul := fpMul, neg := fpNeg, inv := fpInv }

/-- A square root of a in Fp, rhs^((p+1)/4) because p = 3 mod 4, or none (45_codec.md R303; log 12). -/
def fpSqrt (a : Nat) : Option Nat :=
  let y := fpPow a ((Config.p + 1) / 4)
  if fpMul y y = a % Config.p then some y else none

/-- sgn(y) = 1 when y > (p - 1)/2 and 0 otherwise (45_codec.md R302). -/
def fpSgn (y : Nat) : Bool := decide ((Config.p - 1) / 2 < y)

end Sys2Proof.Machine
end

