-- ==== Sys2Proof/Machine/Tower.lean ====
section
/-! DEFINITION. The extension tower Fp2, Fp6, Fp12 with its arithmetic (42_tower.md R170 to R174, R203, R204, R207). -/

namespace Sys2Proof.Machine

/-! ### Fp2 = Fp[u]/(u^2 + 1) -/

/-- c0 + c1*u (42_tower.md R170). -/
structure Fp2 where
  c0 : Nat
  c1 : Nat
deriving DecidableEq, Repr

/-- Coordinate-wise sum (42_tower.md R171). -/
def Fp2.add (a c : Fp2) : Fp2 := ⟨fpAdd a.c0 c.c0, fpAdd a.c1 c.c1⟩

/-- Coordinate-wise difference (42_tower.md R171). -/
def Fp2.sub (a c : Fp2) : Fp2 := ⟨fpSub a.c0 c.c0, fpSub a.c1 c.c1⟩

/-- Coordinate-wise negation (42_tower.md R171). -/
def Fp2.neg (a : Fp2) : Fp2 := ⟨fpNeg a.c0, fpNeg a.c1⟩

/-- (a0*c0 - a1*c1) + (a0*c1 + a1*c0)*u (42_tower.md R171). -/
def Fp2.mul (a c : Fp2) : Fp2 :=
  ⟨fpSub (fpMul a.c0 c.c0) (fpMul a.c1 c.c1), fpAdd (fpMul a.c0 c.c1) (fpMul a.c1 c.c0)⟩

/-- a0 - a1*u, the first coordinate copied (42_tower.md R171, R181). -/
def Fp2.conj (a : Fp2) : Fp2 := ⟨a.c0, fpNeg a.c1⟩

/-- a0^2 + a1^2 (42_tower.md R171). -/
def Fp2.norm (a : Fp2) : Nat := fpAdd (fpMul a.c0 a.c0) (fpMul a.c1 a.c1)

/-- conj(a) * norm(a)^-1 (42_tower.md R171). Callers guard a = 0. -/
def Fp2.inv (a : Fp2) : Fp2 := Fp2.mul a.conj ⟨fpInv a.norm, 0⟩

def Fp2.zero : Fp2 := ⟨0, 0⟩

def Fp2.one : Fp2 := ⟨1, 0⟩

/-- xi = 9 + u (42_tower.md R170). -/
def Fp2.xi : Fp2 := ⟨9, 1⟩

/-- xi * a. -/
def Fp2.mulXi (a : Fp2) : Fp2 := Fp2.mul Fp2.xi a

/-- Fp2 as a field. -/
def fp2Ops : FieldOps Fp2 :=
  { zero := Fp2.zero, one := Fp2.one, add := Fp2.add, sub := Fp2.sub, mul := Fp2.mul, neg := Fp2.neg, inv := Fp2.inv }

/-- b' = 3/xi, the coefficient of the twist (00_scope.md R13). -/
def twistB : Fp2 := Fp2.mul ⟨Config.curveB, 0⟩ Fp2.xi.inv

/-- sgn(c1) when c1 != 0 and sgn(c0) otherwise (45_codec.md R302). -/
def Fp2.sgn (y : Fp2) : Bool := if y.c1 ≠ 0 then fpSgn y.c1 else fpSgn y.c0

/-- A candidate square root of a in Fp2, from a square root `sqrt` of Fp and `half` = 1/2: with n^2 = norm(a), x0^2 = (a0 + n)/2 or
(a0 - n)/2 and x1 = a1/(2*x0); an element of Fp is x0^2 or -(x1^2). -/
def Fp2.rootFrom (sqrt : Nat → Option Nat) (half : Nat) (a : Fp2) : Option Fp2 :=
  if a.c1 = 0 then
    match sqrt a.c0 with
    | some x => some ⟨x, 0⟩
    | none =>
      match sqrt (fpNeg a.c0) with
      | some x => some ⟨0, x⟩
      | none => none
  else
    match sqrt a.norm with
    | none => none
    | some n =>
      match sqrt (fpMul (fpAdd a.c0 n) half) with
      | some x => some ⟨x, fpMul (fpMul a.c1 half) (fpInv x)⟩
      | none =>
        match sqrt (fpMul (fpSub a.c0 n) half) with
        | some x => some ⟨x, fpMul (fpMul a.c1 half) (fpInv x)⟩
        | none => none

/-- The candidate of `Fp2.rootFrom` with the square root and the half of Fp. -/
def Fp2.rootCandidate (a : Fp2) : Option Fp2 := a.rootFrom fpSqrt (fpInv 2)

/-- A square root of a in Fp2, or none (45_codec.md R303: "The root algorithm is free"; log 12). -/
def Fp2.sqrt (a : Fp2) : Option Fp2 :=
  match a.rootCandidate with
  | some y => if Fp2.mul y y = a then some y else none
  | none => none

/-! ### Fp6 = Fp2[v]/(v^3 - xi) -/

/-- c0 + c1*v + c2*v^2 (42_tower.md R170). -/
structure Fp6 where
  c0 : Fp2
  c1 : Fp2
  c2 : Fp2
deriving DecidableEq, Repr

/-- Coordinate-wise sum (42_tower.md R172). -/
def Fp6.add (c d : Fp6) : Fp6 := ⟨c.c0.add d.c0, c.c1.add d.c1, c.c2.add d.c2⟩

/-- Coordinate-wise difference (42_tower.md R172). -/
def Fp6.sub (c d : Fp6) : Fp6 := ⟨c.c0.sub d.c0, c.c1.sub d.c1, c.c2.sub d.c2⟩

/-- Coordinate-wise negation (42_tower.md R172). -/
def Fp6.neg (c : Fp6) : Fp6 := ⟨c.c0.neg, c.c1.neg, c.c2.neg⟩

/-- The product, by the three sums of 42_tower.md R172. -/
def Fp6.mul (c d : Fp6) : Fp6 :=
  ⟨(c.c0.mul d.c0).add (((c.c1.mul d.c2).add (c.c2.mul d.c1)).mulXi),
   ((c.c0.mul d.c1).add (c.c1.mul d.c0)).add ((c.c2.mul d.c2).mulXi),
   ((c.c0.mul d.c2).add (c.c1.mul d.c1)).add (c.c2.mul d.c0)⟩

/-- "Multiplication by v maps (c0, c1, c2) to (xi*c2, c0, c1)" (42_tower.md R172). -/
def Fp6.mulV (c : Fp6) : Fp6 := ⟨c.c2.mulXi, c.c0, c.c1⟩

/-- t0 = c0^2 - xi*c1*c2, t1 = xi*c2^2 - c0*c1, t2 = c1^2 - c0*c2 (42_tower.md R172). -/
def Fp6.adjugate (c : Fp6) : Fp6 :=
  ⟨(c.c0.mul c.c0).sub (c.c1.mul c.c2).mulXi,
   (c.c2.mul c.c2).mulXi.sub (c.c0.mul c.c1),
   (c.c1.mul c.c1).sub (c.c0.mul c.c2)⟩

/-- n = c0*t0 + xi*(c2*t1 + c1*t2) (42_tower.md R172). -/
def Fp6.norm (c : Fp6) : Fp2 :=
  let t := c.adjugate
  (c.c0.mul t.c0).add ((c.c2.mul t.c1).add (c.c1.mul t.c2)).mulXi

/-- (t0*n^-1, t1*n^-1, t2*n^-1) (42_tower.md R172). Callers guard c = 0. -/
def Fp6.inv (c : Fp6) : Fp6 :=
  let t := c.adjugate
  let m := c.norm.inv
  ⟨t.c0.mul m, t.c1.mul m, t.c2.mul m⟩

def Fp6.zero : Fp6 := ⟨Fp2.zero, Fp2.zero, Fp2.zero⟩

def Fp6.one : Fp6 := ⟨Fp2.one, Fp2.zero, Fp2.zero⟩

/-! ### Fp12 = Fp6[w]/(w^2 - v) -/

/-- g + h*w (42_tower.md R170). -/
structure Fp12 where
  g : Fp6
  h : Fp6
deriving DecidableEq, Repr

/-- Half-wise sum (42_tower.md R173). -/
def Fp12.add (f e : Fp12) : Fp12 := ⟨f.g.add e.g, f.h.add e.h⟩

/-- Half-wise difference (42_tower.md R173). -/
def Fp12.sub (f e : Fp12) : Fp12 := ⟨f.g.sub e.g, f.h.sub e.h⟩

/-- Half-wise negation (42_tower.md R173). -/
def Fp12.neg (f : Fp12) : Fp12 := ⟨f.g.neg, f.h.neg⟩

/-- (g*g' + v*(h*h')) + (g*h' + h*g')*w (42_tower.md R173). -/
def Fp12.mul (f e : Fp12) : Fp12 :=
  ⟨(f.g.mul e.g).add (f.h.mul e.h).mulV, (f.g.mul e.h).add (f.h.mul e.g)⟩

/-- g - h*w, the first half copied (42_tower.md R173, R201). -/
def Fp12.conj (f : Fp12) : Fp12 := ⟨f.g, f.h.neg⟩

/-- (g - h*w) * (g^2 - v*h^2)^-1 (42_tower.md R173). Callers guard f = 0. -/
def Fp12.inv (f : Fp12) : Fp12 :=
  Fp12.mul f.conj ⟨((f.g.mul f.g).sub (f.h.mul f.h).mulV).inv, Fp6.zero⟩

def Fp12.zero : Fp12 := ⟨Fp6.zero, Fp6.zero⟩

def Fp12.one : Fp12 := ⟨Fp6.one, Fp6.zero⟩

/-- f^n. -/
def Fp12.pow (f : Fp12) (n : Nat) : Fp12 := powBy Fp12.mul Fp12.one f n

/-- Fp12 as a field. -/
def fp12Ops : FieldOps Fp12 :=
  { zero := Fp12.zero, one := Fp12.one, add := Fp12.add, sub := Fp12.sub, mul := Fp12.mul, neg := Fp12.neg, inv := Fp12.inv }

/-- gamma_1 = xi^((p-1)/6) (42_tower.md R204). -/
def gamma1 : Fp2 :=
  ⟨0x1284b71c2865a7dfe8b99fdd76e68b605c521e08292f2176d60b35dadcc9e470,
   0x246996f3b4fae7e6a6327cfe12150b8e747992778eeec7e5ca5cf05f80f362ac⟩

/-- gamma_2 (42_tower.md R204). -/
def gamma2 : Fp2 :=
  ⟨0x2fb347984f7911f74c0bec3cf559b143b78cc310c2c3330c99e39557176f553d,
   0x16c9e55061ebae204ba4cc8bd75a079432ae2a1d0b7c9dce1665d51c640fcba2⟩

/-- gamma_3 (42_tower.md R204). -/
def gamma3 : Fp2 :=
  ⟨0x063cf305489af5dcdc5ec698b6e2f9b9dbaae0eda9c95998dc54014671a0135a,
   0x07c03cbcac41049a0704b5a7ec796f2b21807dc98fa25bd282d37f632623b0e3⟩

/-- gamma_4 (42_tower.md R204). -/
def gamma4 : Fp2 :=
  ⟨0x05b54f5e64eea80180f3c0b75a181e84d33365f7be94ec72848a1f55921ea762,
   0x2c145edbe7fd8aee9f3a80b03b0b1c923685d2ea1bdec763c13b4711cd2b8126⟩

/-- gamma_5 (42_tower.md R204). -/
def gamma5 : Fp2 :=
  ⟨0x0183c1e74f798649e93a3661a4353ff4425c459b55aa1bd32ea2c810eab7692f,
   0x12acf2ca76fd0675a27fb246c7729f7db080cb99678e2ac024c6b8ee6e0c2c4b⟩

/-- f^p = sum of conj(g_i) * gamma_i * w^i, where f = sum of g_i * w^i with w^0, w^2, w^4 in the first half and w^1, w^3, w^5 in the
second (42_tower.md R204; log 11). -/
def Fp12.frob (f : Fp12) : Fp12 :=
  ⟨⟨f.g.c0.conj, f.g.c1.conj.mul gamma2, f.g.c2.conj.mul gamma4⟩,
   ⟨f.h.c0.conj.mul gamma1, f.h.c1.conj.mul gamma3, f.h.c2.conj.mul gamma5⟩⟩

/-- f^(p^k), the p-th power taken k times (42_tower.md R203). -/
def Fp12.frobPow (f : Fp12) : Nat → Fp12
  | 0 => f
  | k + 1 => (f.frobPow k).frob

/-- The sparse operand (s0, s1, s3) (42_tower.md R207). -/
structure Sparse where
  s0 : Fp2
  s1 : Fp2
  s3 : Fp2
deriving DecidableEq, Repr

/-- expand(s0, s1, s3) = s0 + s1*w + s3*w^3: first half (s0, 0, 0), second half (s1, s3, 0) (42_tower.md R207). -/
def Sparse.expand (s : Sparse) : Fp12 :=
  ⟨⟨s.s0, Fp2.zero, Fp2.zero⟩, ⟨s.s1, s.s3, Fp2.zero⟩⟩

/-- An element of Fp as an element of Fp12: first register, the rest 0 (44_pairing.md R283). -/
def Fp12.ofFp (x : Nat) : Fp12 := ⟨⟨⟨x, 0⟩, Fp2.zero, Fp2.zero⟩, Fp6.zero⟩

end Sys2Proof.Machine
end

