-- ==== Sys2Proof/Machine/Curve.lean ====
section
/-! DEFINITION. The affine group law, the curve and subgroup predicates, scalar multiplication and Jacobian points (43_curve.md R230 to R234). -/

namespace Sys2Proof.Machine

/-- An affine point of a curve, or its identity O (00_scope.md R20). -/
inductive Point (K : Type) where
  | inf
  | aff (x y : K)
deriving DecidableEq, Repr

/-- add(P1, P2) of 43_curve.md R230, case by case. -/
def Point.add {K : Type} [DecidableEq K] (F : FieldOps K) (P1 P2 : Point K) : Point K :=
  match P1, P2 with
  | .inf, _ => P2
  | .aff _ _, .inf => P1
  | .aff x1 y1, .aff x2 y2 =>
    if x1 = x2 ∧ F.add y1 y2 = F.zero then .inf
    else
      let x1sq := F.mul x1 x1
      let lambda :=
        if x1 = x2 then F.mul (F.add (F.add x1sq x1sq) x1sq) (F.inv (F.add y1 y1))
        else F.mul (F.sub y2 y1) (F.inv (F.sub x2 x1))
      let x3 := F.sub (F.sub (F.mul lambda lambda) x1) x2
      .aff x3 (F.sub (F.mul lambda (F.sub x1 x3)) y1)

/-- neg(O) = O; neg((x, y)) = (x, -y) (43_curve.md R230). -/
def Point.neg {K : Type} (F : FieldOps K) : Point K → Point K
  | .inf => .inf
  | .aff x y => .aff x (F.neg y)

/-- [k]Q, the k-fold sum (43_curve.md R232); the scalar is not reduced. -/
def Point.smul {K : Type} [DecidableEq K] (F : FieldOps K) (k : Nat) (Q : Point K) : Point K :=
  powBy (Point.add F) .inf Q k

/-- O, or y^2 = x^3 + B (00_scope.md R20). -/
def Point.onCurve {K : Type} [DecidableEq K] (F : FieldOps K) (B : K) : Point K → Bool
  | .inf => true
  | .aff x y => decide (F.mul y y = F.add (F.mul (F.mul x x) x) B)

/-- oncurve1 (00_scope.md R20). -/
def onCurve1 (P : Point Nat) : Bool := P.onCurve fpOps Config.curveB

/-- oncurve2 (00_scope.md R20). -/
def onCurve2 (Q : Point Fp2) : Bool := Q.onCurve fp2Ops twistB

/-- insub1(P): oncurve1(P) and [r]P = O (43_curve.md R233). -/
def inSub1 (P : Point Nat) : Bool := onCurve1 P && decide (P.smul fpOps Config.r = .inf)

/-- insub2(Q): oncurve2(Q) and [r]Q = O (43_curve.md R233). -/
def inSub2 (Q : Point Fp2) : Bool := onCurve2 Q && decide (Q.smul fp2Ops Config.r = .inf)

/-- A Jacobian triple (X, Y, Z): the point (X/Z^2, Y/Z^3), or O when Z = 0 (43_curve.md R234). -/
structure Jacobian (K : Type) where
  x : K
  y : K
  z : K
deriving DecidableEq, Repr

/-- "(x, y, 1) for an affine point and (1, 1, 0) for O" (43_curve.md R234). -/
def Point.toJac {K : Type} (F : FieldOps K) : Point K → Jacobian K
  | .inf => ⟨F.one, F.one, F.zero⟩
  | .aff x y => ⟨x, y, F.one⟩

/-- O when Z = 0, else (X * Z^-2, Y * Z^-3) (43_curve.md R244, R259). -/
def Jacobian.toAff {K : Type} [DecidableEq K] (F : FieldOps K) (J : Jacobian K) : Point K :=
  if J.z = F.zero then .inf
  else
    let zi := F.inv J.z
    let zi2 := F.mul zi zi
    .aff (F.mul J.x zi2) (F.mul J.y (F.mul zi2 zi))

end Sys2Proof.Machine
end

