-- ==== Sys2Proof/Syntax.lean ====
section
/-! DEFINITION. The whole instruction set as syntax: one constructor per row of spec/opcode_table.json (30_encoding.md R116). -/

namespace Sys2Proof

/-- A command of the block. Operand names are the fields of 30_encoding.md R111 to R113 (`d`, `a`, `b` for D, A, B; `r` for REG;
`off` for OFF16; `imm` for IMM16; `n` the count of MOV and `k` the count of F12_FROB, both in field B).
A field whose kind is "0" is no operand: it must be zero in the word (R118). -/
inductive Instr where
  /-- `NOP`, opcode 0x00 (46_control.md R340). -/
  | nop
  /-- `MOV`, opcode 0x01 (46_control.md R341). -/
  | mov (d a n : RegIdx)
  /-- `LDI`, opcode 0x02 (46_control.md R342). -/
  | ldi (d : RegIdx) (imm : Half)
  /-- `FP_ADD`, opcode 0x10 (41_fp.md R142). -/
  | fpAdd (d a b : RegIdx)
  /-- `FP_SUB`, opcode 0x11 (41_fp.md R143). -/
  | fpSub (d a b : RegIdx)
  /-- `FP_NEG`, opcode 0x12 (41_fp.md R144). -/
  | fpNeg (d a : RegIdx)
  /-- `FP_MUL`, opcode 0x13 (41_fp.md R145). -/
  | fpMul (d a b : RegIdx)
  /-- `FP_SQR`, opcode 0x14 (41_fp.md R146). -/
  | fpSqr (d a : RegIdx)
  /-- `FP_INV`, opcode 0x15 (41_fp.md R147). -/
  | fpInv (d a : RegIdx)
  /-- `FP_EQ`, opcode 0x16 (41_fp.md R148). -/
  | fpEq (a b : RegIdx)
  /-- `F2_ADD`, opcode 0x20 (42_tower.md R175). -/
  | f2Add (d a b : RegIdx)
  /-- `F2_SUB`, opcode 0x21 (42_tower.md R176). -/
  | f2Sub (d a b : RegIdx)
  /-- `F2_NEG`, opcode 0x22 (42_tower.md R177). -/
  | f2Neg (d a : RegIdx)
  /-- `F2_MUL`, opcode 0x23 (42_tower.md R178). -/
  | f2Mul (d a b : RegIdx)
  /-- `F2_SQR`, opcode 0x24 (42_tower.md R179). -/
  | f2Sqr (d a : RegIdx)
  /-- `F2_INV`, opcode 0x25 (42_tower.md R180). -/
  | f2Inv (d a : RegIdx)
  /-- `F2_CONJ`, opcode 0x26 (42_tower.md R181). -/
  | f2Conj (d a : RegIdx)
  /-- `F2_EQ`, opcode 0x27 (42_tower.md R182). -/
  | f2Eq (a b : RegIdx)
  /-- `F6_ADD`, opcode 0x30 (42_tower.md R185). -/
  | f6Add (d a b : RegIdx)
  /-- `F6_SUB`, opcode 0x31 (42_tower.md R186). -/
  | f6Sub (d a b : RegIdx)
  /-- `F6_NEG`, opcode 0x32 (42_tower.md R187). -/
  | f6Neg (d a : RegIdx)
  /-- `F6_MUL`, opcode 0x33 (42_tower.md R188). -/
  | f6Mul (d a b : RegIdx)
  /-- `F6_SQR`, opcode 0x34 (42_tower.md R189). -/
  | f6Sqr (d a : RegIdx)
  /-- `F6_INV`, opcode 0x35 (42_tower.md R190). -/
  | f6Inv (d a : RegIdx)
  /-- `F6_EQ`, opcode 0x36 (42_tower.md R191). -/
  | f6Eq (a b : RegIdx)
  /-- `F12_ADD`, opcode 0x40 (42_tower.md R195). -/
  | f12Add (d a b : RegIdx)
  /-- `F12_SUB`, opcode 0x41 (42_tower.md R196). -/
  | f12Sub (d a b : RegIdx)
  /-- `F12_NEG`, opcode 0x42 (42_tower.md R197). -/
  | f12Neg (d a : RegIdx)
  /-- `F12_MUL`, opcode 0x43 (42_tower.md R198). -/
  | f12Mul (d a b : RegIdx)
  /-- `F12_SQR`, opcode 0x44 (42_tower.md R199). -/
  | f12Sqr (d a : RegIdx)
  /-- `F12_INV`, opcode 0x45 (42_tower.md R200). -/
  | f12Inv (d a : RegIdx)
  /-- `F12_CONJ`, opcode 0x46 (42_tower.md R201). -/
  | f12Conj (d a : RegIdx)
  /-- `F12_EQ`, opcode 0x47 (42_tower.md R202). -/
  | f12Eq (a b : RegIdx)
  /-- `F12_FROB`, opcode 0x48 (42_tower.md R203). -/
  | f12Frob (d a k : RegIdx)
  /-- `F12_SPMUL`, opcode 0x49 (42_tower.md R208). -/
  | f12Spmul (d a b : RegIdx)
  /-- `F12_ONE`, opcode 0x4A (42_tower.md R205). -/
  | f12One (d : RegIdx)
  /-- `F12_ISONE`, opcode 0x4B (42_tower.md R206). -/
  | f12Isone (a : RegIdx)
  /-- `G1_ADD`, opcode 0x50 (43_curve.md R235). -/
  | g1Add (d a b : RegIdx)
  /-- `G1_DBL`, opcode 0x51 (43_curve.md R236). -/
  | g1Dbl (d a : RegIdx)
  /-- `G1_NEG`, opcode 0x52 (43_curve.md R237). -/
  | g1Neg (d a : RegIdx)
  /-- `G1_MUL`, opcode 0x53 (43_curve.md R238). -/
  | g1Mul (d a b : RegIdx)
  /-- `G1_EQ`, opcode 0x54 (43_curve.md R239). -/
  | g1Eq (a b : RegIdx)
  /-- `G1_ISINF`, opcode 0x55 (43_curve.md R240). -/
  | g1Isinf (a : RegIdx)
  /-- `G1_ONCRV`, opcode 0x56 (43_curve.md R241). -/
  | g1Oncrv (a : RegIdx)
  /-- `G1_INSUB`, opcode 0x57 (43_curve.md R242). -/
  | g1Insub (a : RegIdx)
  /-- `G1_TOJAC`, opcode 0x58 (43_curve.md R243). -/
  | g1Tojac (d a : RegIdx)
  /-- `G1_TOAFF`, opcode 0x59 (43_curve.md R244). -/
  | g1Toaff (d a : RegIdx)
  /-- `G2_ADD`, opcode 0x60 (43_curve.md R250). -/
  | g2Add (d a b : RegIdx)
  /-- `G2_DBL`, opcode 0x61 (43_curve.md R251). -/
  | g2Dbl (d a : RegIdx)
  /-- `G2_NEG`, opcode 0x62 (43_curve.md R252). -/
  | g2Neg (d a : RegIdx)
  /-- `G2_MUL`, opcode 0x63 (43_curve.md R253). -/
  | g2Mul (d a b : RegIdx)
  /-- `G2_EQ`, opcode 0x64 (43_curve.md R254). -/
  | g2Eq (a b : RegIdx)
  /-- `G2_ISINF`, opcode 0x65 (43_curve.md R255). -/
  | g2Isinf (a : RegIdx)
  /-- `G2_ONCRV`, opcode 0x66 (43_curve.md R256). -/
  | g2Oncrv (a : RegIdx)
  /-- `G2_INSUB`, opcode 0x67 (43_curve.md R257). -/
  | g2Insub (a : RegIdx)
  /-- `G2_TOJAC`, opcode 0x68 (43_curve.md R258). -/
  | g2Tojac (d a : RegIdx)
  /-- `G2_TOAFF`, opcode 0x69 (43_curve.md R259). -/
  | g2Toaff (d a : RegIdx)
  /-- `MILLER`, opcode 0x70 (44_pairing.md R285). -/
  | miller (d a b : RegIdx)
  /-- `MLACC`, opcode 0x71 (44_pairing.md R286). -/
  | mlacc (d a b : RegIdx)
  /-- `FEXP`, opcode 0x72 (44_pairing.md R287). -/
  | fexp (d a : RegIdx)
  /-- `FP_DEC`, opcode 0x80 (45_codec.md R304). -/
  | fpDec (r : RegIdx) (off : Half)
  /-- `FP_ENC`, opcode 0x81 (45_codec.md R305). -/
  | fpEnc (r : RegIdx) (off : Half)
  /-- `SC_DEC`, opcode 0x82 (45_codec.md R306). -/
  | scDec (r : RegIdx) (off : Half)
  /-- `F2_DEC`, opcode 0x83 (45_codec.md R307). -/
  | f2Dec (r : RegIdx) (off : Half)
  /-- `F2_ENC`, opcode 0x84 (45_codec.md R308). -/
  | f2Enc (r : RegIdx) (off : Half)
  /-- `G1_DECU`, opcode 0x85 (45_codec.md R313). -/
  | g1Decu (r : RegIdx) (off : Half)
  /-- `G1_ENCU`, opcode 0x86 (45_codec.md R314). -/
  | g1Encu (r : RegIdx) (off : Half)
  /-- `G1_DECC`, opcode 0x87 (45_codec.md R315). -/
  | g1Decc (r : RegIdx) (off : Half)
  /-- `G1_ENCC`, opcode 0x88 (45_codec.md R316). -/
  | g1Encc (r : RegIdx) (off : Half)
  /-- `G2_DECU`, opcode 0x89 (45_codec.md R317). -/
  | g2Decu (r : RegIdx) (off : Half)
  /-- `G2_ENCU`, opcode 0x8A (45_codec.md R318). -/
  | g2Encu (r : RegIdx) (off : Half)
  /-- `G2_DECC`, opcode 0x8B (45_codec.md R319). -/
  | g2Decc (r : RegIdx) (off : Half)
  /-- `G2_ENCC`, opcode 0x8C (45_codec.md R320). -/
  | g2Encc (r : RegIdx) (off : Half)
deriving DecidableEq, Repr

end Sys2Proof
end

