-- ==== Sys2Proof/WellFormed.lean ====
section
/-! DEFINITION. Which instructions have an encoding (30_encoding.md R118). -/

namespace Sys2Proof

/-- An instruction is well formed when some 32-bit word encodes it. Every operand has the width of its field, so the one
check left is the count of MOV, which "must be 1 to 255" (30_encoding.md R118). A window that passes F[255] or IOBUF[4095] is
well formed: it is the run-time error OperandRange (R121). -/
def Instr.wellFormed : Instr → Bool
  | .nop => true
  | .mov _ _ n => n != 0
  | .ldi _ _ => true
  | .fpAdd _ _ _ => true
  | .fpSub _ _ _ => true
  | .fpNeg _ _ => true
  | .fpMul _ _ _ => true
  | .fpSqr _ _ => true
  | .fpInv _ _ => true
  | .fpEq _ _ => true
  | .f2Add _ _ _ => true
  | .f2Sub _ _ _ => true
  | .f2Neg _ _ => true
  | .f2Mul _ _ _ => true
  | .f2Sqr _ _ => true
  | .f2Inv _ _ => true
  | .f2Conj _ _ => true
  | .f2Eq _ _ => true
  | .f6Add _ _ _ => true
  | .f6Sub _ _ _ => true
  | .f6Neg _ _ => true
  | .f6Mul _ _ _ => true
  | .f6Sqr _ _ => true
  | .f6Inv _ _ => true
  | .f6Eq _ _ => true
  | .f12Add _ _ _ => true
  | .f12Sub _ _ _ => true
  | .f12Neg _ _ => true
  | .f12Mul _ _ _ => true
  | .f12Sqr _ _ => true
  | .f12Inv _ _ => true
  | .f12Conj _ _ => true
  | .f12Eq _ _ => true
  | .f12Frob _ _ _ => true
  | .f12Spmul _ _ _ => true
  | .f12One _ => true
  | .f12Isone _ => true
  | .g1Add _ _ _ => true
  | .g1Dbl _ _ => true
  | .g1Neg _ _ => true
  | .g1Mul _ _ _ => true
  | .g1Eq _ _ => true
  | .g1Isinf _ => true
  | .g1Oncrv _ => true
  | .g1Insub _ => true
  | .g1Tojac _ _ => true
  | .g1Toaff _ _ => true
  | .g2Add _ _ _ => true
  | .g2Dbl _ _ => true
  | .g2Neg _ _ => true
  | .g2Mul _ _ _ => true
  | .g2Eq _ _ => true
  | .g2Isinf _ => true
  | .g2Oncrv _ => true
  | .g2Insub _ => true
  | .g2Tojac _ _ => true
  | .g2Toaff _ _ => true
  | .miller _ _ _ => true
  | .mlacc _ _ _ => true
  | .fexp _ _ => true
  | .fpDec _ _ => true
  | .fpEnc _ _ => true
  | .scDec _ _ => true
  | .f2Dec _ _ => true
  | .f2Enc _ _ => true
  | .g1Decu _ _ => true
  | .g1Encu _ _ => true
  | .g1Decc _ _ => true
  | .g1Encc _ _ => true
  | .g2Decu _ _ => true
  | .g2Encu _ _ => true
  | .g2Decc _ _ => true
  | .g2Encc _ _ => true

end Sys2Proof
end

