-- ==== Sys2Proof/Decode.lean ====
section
/-! DEFINITION. Decoding of command words, total on every 32-bit word and rejecting by name, and the encoder (spec/30_encoding.md). -/

namespace Sys2Proof

/-- Why a word is no command: stage 1 of 60_exceptions.md R354. All three are the error IllegalCommand. -/
inductive Reject where
  /-- the opcode is not in the table of 30_encoding.md R116 (R117) -/
  | undefinedOpcode
  /-- a field whose kind is "0" is nonzero (R118) -/
  | fieldNotZero
  /-- MOV with n = 0 (R118) -/
  | movCountZero
deriving DecidableEq, Repr

/-- `OPC = w[7:0]` (30_encoding.md R120). -/
def fieldOpc (w : Word) : BitVec 8 := w.extractLsb' 0 8

/-- `D = w[15:8]`, also `REG` of format M (30_encoding.md R120). -/
def fieldD (w : Word) : RegIdx := w.extractLsb' 8 8

/-- `A = w[23:16]` (30_encoding.md R120). -/
def fieldA (w : Word) : RegIdx := w.extractLsb' 16 8

/-- `B = w[31:24]` (30_encoding.md R120). -/
def fieldB (w : Word) : RegIdx := w.extractLsb' 24 8

/-- `IMM16 = w[31:16]`, also `OFF16` of format M (30_encoding.md R120). -/
def fieldHalf (w : Word) : Half := w.extractLsb' 16 16

/-- A word whose must-be-zero fields are `fields` and which otherwise is `i` (30_encoding.md R118). -/
def needZero (fields : List RegIdx) (i : Instr) : Except Reject Instr :=
  if fields.all (· == 0) then .ok i else .error .fieldNotZero

/-- The command a word is, from its fields (30_encoding.md R116 to R118). -/
def decodeFields (opc : Nat) (d a b : RegIdx) (half : Half) : Except Reject Instr :=
  match opc with
  | 0x00 => needZero [d, a, b] .nop
  | 0x01 => if b = 0 then .error .movCountZero else .ok (.mov d a b)
  | 0x02 => .ok (.ldi d half)
  | 0x10 => .ok (.fpAdd d a b)
  | 0x11 => .ok (.fpSub d a b)
  | 0x12 => needZero [b] (.fpNeg d a)
  | 0x13 => .ok (.fpMul d a b)
  | 0x14 => needZero [b] (.fpSqr d a)
  | 0x15 => needZero [b] (.fpInv d a)
  | 0x16 => needZero [d] (.fpEq a b)
  | 0x20 => .ok (.f2Add d a b)
  | 0x21 => .ok (.f2Sub d a b)
  | 0x22 => needZero [b] (.f2Neg d a)
  | 0x23 => .ok (.f2Mul d a b)
  | 0x24 => needZero [b] (.f2Sqr d a)
  | 0x25 => needZero [b] (.f2Inv d a)
  | 0x26 => needZero [b] (.f2Conj d a)
  | 0x27 => needZero [d] (.f2Eq a b)
  | 0x30 => .ok (.f6Add d a b)
  | 0x31 => .ok (.f6Sub d a b)
  | 0x32 => needZero [b] (.f6Neg d a)
  | 0x33 => .ok (.f6Mul d a b)
  | 0x34 => needZero [b] (.f6Sqr d a)
  | 0x35 => needZero [b] (.f6Inv d a)
  | 0x36 => needZero [d] (.f6Eq a b)
  | 0x40 => .ok (.f12Add d a b)
  | 0x41 => .ok (.f12Sub d a b)
  | 0x42 => needZero [b] (.f12Neg d a)
  | 0x43 => .ok (.f12Mul d a b)
  | 0x44 => needZero [b] (.f12Sqr d a)
  | 0x45 => needZero [b] (.f12Inv d a)
  | 0x46 => needZero [b] (.f12Conj d a)
  | 0x47 => needZero [d] (.f12Eq a b)
  | 0x48 => .ok (.f12Frob d a b)
  | 0x49 => .ok (.f12Spmul d a b)
  | 0x4A => needZero [a, b] (.f12One d)
  | 0x4B => needZero [d, b] (.f12Isone a)
  | 0x50 => .ok (.g1Add d a b)
  | 0x51 => needZero [b] (.g1Dbl d a)
  | 0x52 => needZero [b] (.g1Neg d a)
  | 0x53 => .ok (.g1Mul d a b)
  | 0x54 => needZero [d] (.g1Eq a b)
  | 0x55 => needZero [d, b] (.g1Isinf a)
  | 0x56 => needZero [d, b] (.g1Oncrv a)
  | 0x57 => needZero [d, b] (.g1Insub a)
  | 0x58 => needZero [b] (.g1Tojac d a)
  | 0x59 => needZero [b] (.g1Toaff d a)
  | 0x60 => .ok (.g2Add d a b)
  | 0x61 => needZero [b] (.g2Dbl d a)
  | 0x62 => needZero [b] (.g2Neg d a)
  | 0x63 => .ok (.g2Mul d a b)
  | 0x64 => needZero [d] (.g2Eq a b)
  | 0x65 => needZero [d, b] (.g2Isinf a)
  | 0x66 => needZero [d, b] (.g2Oncrv a)
  | 0x67 => needZero [d, b] (.g2Insub a)
  | 0x68 => needZero [b] (.g2Tojac d a)
  | 0x69 => needZero [b] (.g2Toaff d a)
  | 0x70 => .ok (.miller d a b)
  | 0x71 => .ok (.mlacc d a b)
  | 0x72 => needZero [b] (.fexp d a)
  | 0x80 => .ok (.fpDec d half)
  | 0x81 => .ok (.fpEnc d half)
  | 0x82 => .ok (.scDec d half)
  | 0x83 => .ok (.f2Dec d half)
  | 0x84 => .ok (.f2Enc d half)
  | 0x85 => .ok (.g1Decu d half)
  | 0x86 => .ok (.g1Encu d half)
  | 0x87 => .ok (.g1Decc d half)
  | 0x88 => .ok (.g1Encc d half)
  | 0x89 => .ok (.g2Decu d half)
  | 0x8A => .ok (.g2Encu d half)
  | 0x8B => .ok (.g2Decc d half)
  | 0x8C => .ok (.g2Encc d half)
  | _ => .error .undefinedOpcode

/-- The command of a word, or the reason it is illegal: "every 32-bit word is either exactly one defined command or illegal"
(30_encoding.md R118). -/
def decode (w : Word) : Except Reject Instr :=
  decodeFields (fieldOpc w).toNat (fieldD w) (fieldA w) (fieldB w) (fieldHalf w)

/-- A format R word (30_encoding.md R111). -/
def encodeR (opc : BitVec 8) (d a b : RegIdx) : Word := b ++ a ++ d ++ opc

/-- A format I or format M word (30_encoding.md R112, R113). -/
def encodeH (opc : BitVec 8) (d : RegIdx) (half : Half) : Word := half ++ d ++ opc

/-- The word of an instruction (30_encoding.md R111 to R113, R116). -/
def encode : Instr → Word
  | .nop => encodeR 0x00 0 0 0
  | .mov d a n => encodeR 0x01 d a n
  | .ldi d imm => encodeH 0x02 d imm
  | .fpAdd d a b => encodeR 0x10 d a b
  | .fpSub d a b => encodeR 0x11 d a b
  | .fpNeg d a => encodeR 0x12 d a 0
  | .fpMul d a b => encodeR 0x13 d a b
  | .fpSqr d a => encodeR 0x14 d a 0
  | .fpInv d a => encodeR 0x15 d a 0
  | .fpEq a b => encodeR 0x16 0 a b
  | .f2Add d a b => encodeR 0x20 d a b
  | .f2Sub d a b => encodeR 0x21 d a b
  | .f2Neg d a => encodeR 0x22 d a 0
  | .f2Mul d a b => encodeR 0x23 d a b
  | .f2Sqr d a => encodeR 0x24 d a 0
  | .f2Inv d a => encodeR 0x25 d a 0
  | .f2Conj d a => encodeR 0x26 d a 0
  | .f2Eq a b => encodeR 0x27 0 a b
  | .f6Add d a b => encodeR 0x30 d a b
  | .f6Sub d a b => encodeR 0x31 d a b
  | .f6Neg d a => encodeR 0x32 d a 0
  | .f6Mul d a b => encodeR 0x33 d a b
  | .f6Sqr d a => encodeR 0x34 d a 0
  | .f6Inv d a => encodeR 0x35 d a 0
  | .f6Eq a b => encodeR 0x36 0 a b
  | .f12Add d a b => encodeR 0x40 d a b
  | .f12Sub d a b => encodeR 0x41 d a b
  | .f12Neg d a => encodeR 0x42 d a 0
  | .f12Mul d a b => encodeR 0x43 d a b
  | .f12Sqr d a => encodeR 0x44 d a 0
  | .f12Inv d a => encodeR 0x45 d a 0
  | .f12Conj d a => encodeR 0x46 d a 0
  | .f12Eq a b => encodeR 0x47 0 a b
  | .f12Frob d a k => encodeR 0x48 d a k
  | .f12Spmul d a b => encodeR 0x49 d a b
  | .f12One d => encodeR 0x4A d 0 0
  | .f12Isone a => encodeR 0x4B 0 a 0
  | .g1Add d a b => encodeR 0x50 d a b
  | .g1Dbl d a => encodeR 0x51 d a 0
  | .g1Neg d a => encodeR 0x52 d a 0
  | .g1Mul d a b => encodeR 0x53 d a b
  | .g1Eq a b => encodeR 0x54 0 a b
  | .g1Isinf a => encodeR 0x55 0 a 0
  | .g1Oncrv a => encodeR 0x56 0 a 0
  | .g1Insub a => encodeR 0x57 0 a 0
  | .g1Tojac d a => encodeR 0x58 d a 0
  | .g1Toaff d a => encodeR 0x59 d a 0
  | .g2Add d a b => encodeR 0x60 d a b
  | .g2Dbl d a => encodeR 0x61 d a 0
  | .g2Neg d a => encodeR 0x62 d a 0
  | .g2Mul d a b => encodeR 0x63 d a b
  | .g2Eq a b => encodeR 0x64 0 a b
  | .g2Isinf a => encodeR 0x65 0 a 0
  | .g2Oncrv a => encodeR 0x66 0 a 0
  | .g2Insub a => encodeR 0x67 0 a 0
  | .g2Tojac d a => encodeR 0x68 d a 0
  | .g2Toaff d a => encodeR 0x69 d a 0
  | .miller d a b => encodeR 0x70 d a b
  | .mlacc d a b => encodeR 0x71 d a b
  | .fexp d a => encodeR 0x72 d a 0
  | .fpDec r off => encodeH 0x80 r off
  | .fpEnc r off => encodeH 0x81 r off
  | .scDec r off => encodeH 0x82 r off
  | .f2Dec r off => encodeH 0x83 r off
  | .f2Enc r off => encodeH 0x84 r off
  | .g1Decu r off => encodeH 0x85 r off
  | .g1Encu r off => encodeH 0x86 r off
  | .g1Decc r off => encodeH 0x87 r off
  | .g1Encc r off => encodeH 0x88 r off
  | .g2Decu r off => encodeH 0x89 r off
  | .g2Encu r off => encodeH 0x8A r off
  | .g2Decc r off => encodeH 0x8B r off
  | .g2Encc r off => encodeH 0x8C r off

/-- The instruction the decoder reads from a word numbered as spec/opcode_table.json numbers it. Every command is exactly one
32-bit word (30_encoding.md R110), so a row of `nbits` bits is that word with zeros above. -/
def decodeTableWord (nbits w : Nat) : Option Instr :=
  match decode (BitVec.ofNat 32 (w % 2 ^ nbits)) with
  | .ok i => some i
  | .error _ => none

end Sys2Proof
end

