-- ==== Sys2Proof/Machine/State.lean ====
section
/-! DEFINITION. The state of the block as plain data, its error kinds, the host's accesses as data, the reasons a step can stop, and reset. -/

namespace Sys2Proof.Machine

/-- The seven error kinds the block raises (60_exceptions.md R350, R351). InputLengthMismatch is the host software's (R353). -/
inductive ErrKind where
  | malformedEncoding
  | invalidPoint
  | invalidSubgroup
  | invalidFieldElement
  | illegalCommand
  | operandRange
  | unwrittenRegister
deriving DecidableEq, Repr

/-- The width of a host bus access (20_memory.md R72, R73). -/
inductive Width where
  | w8
  | w16
  | w32
  | w64
deriving DecidableEq, Repr

/-- What the world outside can do to the block in one step (70_reset_and_hazards.md R414). `off` is the offset in the 8 KiB window
(20_memory.md R71); an access outside the window is not the block's. -/
inductive Access where
  /-- a host read -/
  | read (w : Width) (off : BitVec 13)
  /-- a host write; an 8-bit access carries its byte in the low bits of `data` -/
  | write (w : Width) (off : BitVec 13) (data : Word)
  /-- the reset input (R391); `draw` is the content IOBUF happens to have afterwards, byte 0 first (log 4) -/
  | hardReset (draw : List Byte)
deriving DecidableEq, Repr

/-- One entry of the agenda: whose move it is (log 1). -/
inductive Turn where
  | host (a : Access)
  | engine
deriving DecidableEq, Repr

/-- The contents of IOBUF: (address, byte) pairs in the canonical form `Memory.wf` of Machine/Ops.lean. -/
abbrev Memory := List Host.Cell

/-- The state of the block (spec/10_state.md); the last two fields are the model's own. -/
structure State where
  /-- F[0..255], the operand registers (R31) -/
  f : Vector Elem 256
  /-- V[0..255], the valid bits (R32) -/
  v : Vector Bool 256
  /-- IOBUF[0..4095] (R45) -/
  iobuf : Memory
  /-- CTRL.FP2ORD (R37) -/
  fp2ord : Bool
  /-- CTRL.IE (R37) -/
  ie : Bool
  /-- STATUS.BUSY (R38) -/
  busy : Bool
  /-- STATUS.DONE (R38) -/
  done : Bool
  /-- STATUS.ERRF (R38) -/
  errf : Bool
  /-- STATUS.FLAG (R38, R39) -/
  flag : Bool
  /-- STATUS.OVR (R38) -/
  ovr : Bool
  /-- bits 7:0 of ERRCODE (R40); the other bits read 0 -/
  errcode : BitVec 8
  /-- ERRCMD (R41) -/
  errcmd : Word
  /-- CUR, the accepted command word while BUSY = 1, and none otherwise (R43) -/
  cur : Option Word
  /-- fp2ord_cmd, FP2ORD as sampled at acceptance (70_reset_and_hazards.md R400, R404) -/
  fp2ordCmd : Bool
  /-- the model's own: the turns to come, first one first (log 1) -/
  agenda : List Turn
  /-- the model's own: the data the last completed host read returned, none before the first (log 5) -/
  rdata : Option Word
deriving DecidableEq, Repr

/-- Why the machine stops. The block itself never stops on a command (60_exceptions.md R365). -/
inductive Fault where
  /-- Raised by a host access of a width or alignment the block refuses (20_memory.md R73, R72): the bus error. Safe: the spec gives
  such an access no step in the model, "the host is stuck" (log 7). -/
  | busError
deriving DecidableEq, Repr

/-- Why an instruction has no meaning in the model. -/
inductive Refusal where
  /-- Raised by an arm of `exec` whose instruction has no meaning yet; safe. No arm does. -/
  | notModelled (mnemonic : String)
deriving DecidableEq, Repr

/-- The state right after a hard reset in which IOBUF happens to hold `iobuf` (10_state.md R49, 70_reset_and_hazards.md R391). F is 0,
which nothing can observe because every valid bit is 0 (93_implementation_defined.md U1, log 3). -/
def State.resetWith (iobuf : Memory) : State where
  f := Vector.replicate 256 0
  v := Vector.replicate 256 false
  iobuf := iobuf
  fp2ord := false
  ie := false
  busy := false
  done := false
  errf := false
  flag := false
  ovr := false
  errcode := 0
  errcmd := 0
  cur := none
  fp2ordCmd := false
  agenda := []
  rdata := none

/-- The machine right after reset, IOBUF's draw being the one with nothing listed (log 4). -/
def State.reset : State := State.resetWith []

end Sys2Proof.Machine
end

