-- ==== Sys2Proof/Machine/Ops.lean ====
section
/-! DEFINITION. The named operations over IOBUF, the registers and the status: reading and writing, a command's commit, raising and clearing an error, acceptance, the two resets. -/

namespace Sys2Proof.Machine

/-- The code of an error kind in ERRCODE (60_exceptions.md R351). -/
def ErrKind.code : ErrKind → BitVec 8
  | .malformedEncoding => 0x01
  | .invalidPoint => 0x02
  | .invalidSubgroup => 0x03
  | .invalidFieldElement => 0x05
  | .illegalCommand => 0x08
  | .operandRange => 0x09
  | .unwrittenRegister => 0x0A

/-! ### IOBUF -/

/-- What an address of IOBUF that is not listed reads as: a byte of the model's canonical form, and so what State.reset's draw has
everywhere (DESIGN CHOICE, log 4). -/
def unlistedByte : Byte := 0

/-- The canonical form: addresses strictly rising and below 4096, and no byte listed that an unlisted address would read as. -/
abbrev Memory.wf (m : Memory) : Prop :=
  m.Pairwise (fun x y => x.1 < y.1) ∧ ∀ c ∈ m, c.1 < Config.iobufSize ∧ c.2 ≠ unlistedByte

/-- IOBUF[a] (10_state.md R45). -/
def Memory.read : Memory → Nat → Byte
  | [], _ => unlistedByte
  | (k, x) :: m, a => if a = k then x else Memory.read m a

/-- IOBUF[a] <- x, keeping the canonical form. -/
def Memory.write : Memory → Nat → Byte → Memory
  | [], a, x => if x = unlistedByte then [] else [(a, x)]
  | (k, y) :: m, a, x =>
    if a < k then (if x = unlistedByte then (k, y) :: m else (a, x) :: (k, y) :: m)
    else if a = k then (if x = unlistedByte then m else (a, x) :: m)
    else (k, y) :: Memory.write m a x

/-- `MemRead(off, n)` (00_scope.md R18). -/
def Memory.readBytes (m : Memory) : Nat → Nat → List Byte
  | _, 0 => []
  | off, n + 1 => m.read off :: m.readBytes (off + 1) n

/-- `MemWrite(off, n, s)` (00_scope.md R18). -/
def Memory.writeBytes (m : Memory) : Nat → List Byte → Memory
  | _, [] => m
  | off, x :: xs => (m.write off x).writeBytes (off + 1) xs

/-- IOBUF with `draw` as its bytes from byte 0 on, at most 4096 of them. -/
def Memory.ofDraw (draw : List Byte) : Memory :=
  Memory.writeBytes [] 0 (draw.take Config.iobufSize)

/-! ### Registers -/

/-- F[i] (10_state.md R31). The range check R121 of 30_encoding.md has been made before any command reads. -/
def State.reg (s : State) (i : Nat) : Elem := s.f.getD i 0

/-- V[i] (10_state.md R32). -/
def State.valid (s : State) (i : Nat) : Bool := s.v.getD i false

/-- `F[i] <- x`, which sets V[i] in the same commit (10_state.md R32, 00_scope.md R17). -/
def State.setReg (s : State) (i : Nat) (x : Elem) : State :=
  { s with f := s.f.setIfInBounds i x, v := s.v.setIfInBounds i true }

/-- Writing a view: all its registers at once (00_scope.md R17). -/
def State.setRegs (s : State) : Nat → List Elem → State
  | _, [] => s
  | b, x :: xs => (s.setReg b x).setRegs (b + 1) xs

/-! ### Ranges and valid bits -/

/-- The range of registers or of IOBUF bytes an operand occupies (30_encoding.md R114, R115). -/
inductive Extent where
  | regs (base size : Nat)
  | iobuf (off len : Nat)
deriving DecidableEq, Repr

/-- "in range when b + size(K) <= 256 ... when off + len <= 4096"; no wrap (30_encoding.md R121). -/
def Extent.inRange : Extent → Bool
  | .regs base size => decide (base + size ≤ Config.nreg)
  | .iobuf off len => decide (off + len ≤ Config.iobufSize)

/-- Every register of an extent has its valid bit (10_state.md R32). -/
def State.written (s : State) (base size : Nat) : Bool :=
  (List.range size).all (fun k => s.valid (base + k))

/-! ### What a command does -/

/-- The writes of a successful command (70_reset_and_hazards.md R402). -/
inductive Effect where
  | nothing
  | regs (base : Nat) (xs : List Elem)
  | flag (c : Bool)
  | bytes (off : Nat) (xs : List Byte)
deriving DecidableEq, Repr

/-- The writes alone. -/
def State.apply (s : State) : Effect → State
  | .nothing => s
  | .regs base xs => s.setRegs base xs
  | .flag c => { s with flag := c }
  | .bytes off xs => { s with iobuf := s.iobuf.writeBytes off xs }

/-- A completion without error: all writes become visible together, DONE is set, the engine is idle (70_reset_and_hazards.md R401, R402). -/
def State.commit (s : State) (e : Effect) : State :=
  { s.apply e with done := true, busy := false, cur := none }

/-- A completion with error `k`: exactly the changes of 60_exceptions.md R356, the block's trap entry. ERRCMD <- CUR; with no command in
flight, which no run reaches, CUR is none and 0 is recorded (log 8). -/
def State.raise (s : State) (k : ErrKind) : State :=
  { s with busy := false, errf := true, errcode := k.code, errcmd := s.cur.getD 0, cur := none }

/-- The completion step, given what EXEC answers (70_reset_and_hazards.md R401). -/
def State.complete (s : State) : Except ErrKind Effect → State
  | .ok e => s.commit e
  | .error k => s.raise k

/-- Stages 2 to 4 of 60_exceptions.md R354: the ranges, then the valid bits of the sources, then the operation. (Stage 1 is the decoder's.) -/
def State.checked (s : State) (extents : List Extent) (sources : List (Nat × Nat))
    (op : State → Except ErrKind Effect) : Except ErrKind Effect :=
  if extents.all Extent.inRange then
    if sources.all (fun w => s.written w.1 w.2) then op s
    else .error .unwrittenRegister
  else .error .operandRange

/-- One whole command: its checks, its operation on the state as it was (70_reset_and_hazards.md R403), its completion. -/
def perform (extents : List Extent) (sources : List (Nat × Nat)) (op : State → Except ErrKind Effect) (s : State) :
    Host.Outcome State Fault Refusal :=
  .next (s.complete (s.checked extents sources op))

/-! ### Errors, acceptance, resets -/

/-- Clearing a recorded error, the block's trap return: ERRF, ERRCODE and ERRCMD in one step; nothing is restored (60_exceptions.md R359). -/
def State.clearError (s : State) : State :=
  { s with errf := false, errcode := 0, errcmd := 0 }

/-- What acceptance of the word `w` does (70_reset_and_hazards.md R400, the else branch). -/
def State.latch (s : State) (w : Word) : State :=
  { s with cur := some w, busy := true, done := false, fp2ordCmd := s.fp2ord }

/-- A CMD write (70_reset_and_hazards.md R400): dropped with OVR set while BUSY or ERRF, accepted otherwise. -/
def State.accept (s : State) (w : Word) : State :=
  if s.busy || s.errf then { s with ovr := true } else s.latch w

/-- Soft reset (70_reset_and_hazards.md R392): everything but IOBUF and the bits of F; a command in flight is abandoned. -/
def State.softReset (s : State) : State :=
  { s with
    v := Vector.replicate 256 false
    fp2ord := false, ie := false
    busy := false, done := false, errf := false, flag := false, ovr := false
    errcode := 0, errcmd := 0, cur := none }

/-- Hard reset (70_reset_and_hazards.md R391) with the drawn bytes of IOBUF. The accesses still to come are the host's, so the agenda
stays (log 14). -/
def State.hardReset (s : State) (draw : List Byte) : State :=
  { State.resetWith (Memory.ofDraw draw) with agenda := s.agenda }

end Sys2Proof.Machine
end

