-- ==== Sys2Proof/Machine/Codec.lean ====
section
/-! DEFINITION. The wire encodings and their validation (45_codec.md R300 to R320). -/

namespace Sys2Proof.Machine

/-- `be(s)`: the unsigned integer of a byte string, first byte most significant (00_scope.md R18). -/
def beNat (xs : List Byte) : Nat := xs.foldl (fun acc x => acc * 256 + x.toNat) 0

/-- The low `n` bytes of `x`, most significant first. -/
def beBytes : Nat → Nat → List Byte
  | 0, _ => []
  | n + 1, x => BitVec.ofNat 8 (x / 256 ^ n) :: beBytes n x

/-- `be32(v)` (00_scope.md R18). -/
def be32 (x : Nat) : List Byte := beBytes 32 x

/-- Decoding an Fp wire element: v >= p fails (45_codec.md R300). -/
def decFp (xs : List Byte) : Except ErrKind Nat :=
  if beNat xs < Config.p then .ok (beNat xs) else .error .malformedEncoding

/-- Decoding a scalar: v >= r fails (45_codec.md R306). -/
def decScalar (xs : List Byte) : Except ErrKind Nat :=
  if beNat xs < Config.r then .ok (beNat xs) else .error .malformedEncoding

/-- An Fp2 value from its two halves in wire order, each below p; FP2ORD = 0 is c0 first, FP2ORD = 1 is c1 first (45_codec.md R301). -/
def fp2OfHalves (ord : Bool) (h0 h1 : Nat) : Except ErrKind Fp2 :=
  if h0 < Config.p then
    if h1 < Config.p then .ok (if ord then ⟨h1, h0⟩ else ⟨h0, h1⟩)
    else .error .malformedEncoding
  else .error .malformedEncoding

/-- dec2: decoding an Fp2 wire element of 64 bytes (45_codec.md R301, R307). -/
def decFp2 (ord : Bool) (xs : List Byte) : Except ErrKind Fp2 :=
  fp2OfHalves ord (beNat (xs.take 32)) (beNat (xs.drop 32))

/-- wire2: be32(c0) || be32(c1), or the other order when FP2ORD = 1 (45_codec.md R301). -/
def wire2 (ord : Bool) (a : Fp2) : List Byte :=
  if ord then be32 a.c1 ++ be32 a.c0 else be32 a.c0 ++ be32 a.c1

/-- Root selection: the root of y^2 = rhs with sgn(y) = sign (45_codec.md R303). -/
def selectRoot {K : Type} (neg : K → K) (sgn : K → Bool) (root : Option K) (sign : Bool) : Except ErrKind K :=
  match root with
  | none => .error .invalidPoint
  | some y => .ok (if sgn y = sign then y else neg y)

/-- x^3 + 3. -/
def rhs1 (x : Nat) : Nat := fpAdd (fpMul (fpMul x x) x) Config.curveB

/-- x^3 + b'. -/
def rhs2 (x : Fp2) : Fp2 := ((x.mul x).mul x).add twistB

/-- `INF`, bit 7 of byte 0 of a compressed form whose first half has the value `h` (45_codec.md R310, R312). -/
def infBit (h : Nat) : Bool := h.testBit 255

/-- `SIGN`, bit 6 of byte 0 (45_codec.md R310, R312). -/
def signBit (h : Nat) : Bool := h.testBit 254

/-- The first half with INF and SIGN cleared (45_codec.md R310, R312). -/
def clearFlags (h : Nat) : Nat := h % 2 ^ 254

/-- Setting SIGN in byte 0 of a compressed form: `b[0] | (sgn(y) << 6)` (45_codec.md R316, R320). -/
def setSign (sign : Bool) : List Byte → List Byte
  | [] => []
  | x :: xs => (x ||| (if sign then 0x40 else 0)) :: xs

/-- The identity of a compressed form of `n` bytes: 0x80, then zeros (45_codec.md R310, R312). -/
def compressedInf (n : Nat) : List Byte := 0x80 :: List.replicate (n - 1) 0

/-- G1_DECU (45_codec.md R313): canonical coordinates in wire order, then identity, then on the curve. -/
def decG1U (xs : List Byte) : Except ErrKind (Point Nat) :=
  match decFp (xs.take 32) with
  | .error k => .error k
  | .ok x =>
    match decFp (xs.drop 32) with
    | .error k => .error k
    | .ok y =>
      if x = 0 ∧ y = 0 then .ok .inf
      else if onCurve1 (.aff x y) then .ok (.aff x y) else .error .invalidPoint

/-- G1_ENCU (45_codec.md R314). -/
def encG1U (P : Point Nat) : Except ErrKind (List Byte) :=
  if onCurve1 P then
    match P with
    | .inf => .ok (List.replicate 64 0)
    | .aff x y => .ok (be32 x ++ be32 y)
  else .error .invalidPoint

/-- G1_DECC (45_codec.md R315). -/
def decG1C (xs : List Byte) : Except ErrKind (Point Nat) :=
  let h := beNat xs
  let x := clearFlags h
  if infBit h then
    if signBit h = true ∨ x ≠ 0 then .error .malformedEncoding else .ok .inf
  else if x < Config.p then
    match selectRoot fpNeg fpSgn (fpSqrt (rhs1 x)) (signBit h) with
    | .error k => .error k
    | .ok y => .ok (.aff x y)
  else .error .malformedEncoding

/-- G1_ENCC (45_codec.md R316). -/
def encG1C (P : Point Nat) : Except ErrKind (List Byte) :=
  if onCurve1 P then
    match P with
    | .inf => .ok (compressedInf 32)
    | .aff x y => .ok (setSign (fpSgn y) (be32 x))
  else .error .invalidPoint

/-- The last step of the G2 decoders: in the order-r subgroup, or InvalidSubgroup (45_codec.md R317, R319). -/
def requireSub2 (Q : Point Fp2) : Except ErrKind (Point Fp2) :=
  if Q.smul fp2Ops Config.r = .inf then .ok Q else .error .invalidSubgroup

/-- G2_DECU (45_codec.md R317): the four halves in wire order, identity, on the curve, subgroup. The halves of y stand as R301 and R318 order
them, not as R317's example writes them (log 20). -/
def decG2U (ord : Bool) (xs : List Byte) : Except ErrKind (Point Fp2) :=
  match decFp2 ord (xs.take 64) with
  | .error k => .error k
  | .ok x =>
    match decFp2 ord (xs.drop 64) with
    | .error k => .error k
    | .ok y =>
      if x = Fp2.zero ∧ y = Fp2.zero then .ok .inf
      else if onCurve2 (.aff x y) then requireSub2 (.aff x y) else .error .invalidPoint

/-- G2_ENCU (45_codec.md R318). -/
def encG2U (ord : Bool) (Q : Point Fp2) : Except ErrKind (List Byte) :=
  if onCurve2 Q then
    match Q with
    | .inf => .ok (List.replicate 128 0)
    | .aff x y => .ok (wire2 ord x ++ wire2 ord y)
  else .error .invalidPoint

/-- G2_DECC (45_codec.md R319). -/
def decG2C (ord : Bool) (xs : List Byte) : Except ErrKind (Point Fp2) :=
  let h0 := beNat (xs.take 32)
  let h1 := beNat (xs.drop 32)
  if infBit h0 then
    if signBit h0 = true ∨ clearFlags h0 ≠ 0 ∨ h1 ≠ 0 then .error .malformedEncoding else .ok .inf
  else
    match fp2OfHalves ord (clearFlags h0) h1 with
    | .error k => .error k
    | .ok x =>
      match selectRoot Fp2.neg Fp2.sgn (rhs2 x).sqrt (signBit h0) with
      | .error k => .error k
      | .ok y => requireSub2 (.aff x y)

/-- G2_ENCC (45_codec.md R320). -/
def encG2C (ord : Bool) (Q : Point Fp2) : Except ErrKind (List Byte) :=
  if onCurve2 Q then
    match Q with
    | .inf => .ok (compressedInf 64)
    | .aff x y => .ok (setSign y.sgn (wire2 ord x))
  else .error .invalidPoint

end Sys2Proof.Machine
end

