-- ==== Sys2Proof/Machine/Operands.lean ====
section
/-! DEFINITION. Every operand form: the typed views of consecutive registers (00_scope.md R17, 30_encoding.md R114), and the shapes of command they make. -/

namespace Sys2Proof.Machine

/-- A typed view of `size` consecutive registers: how it is read at a base, and the registers a value of it is written as. -/
structure View (α : Type) where
  size : Nat
  read : State → Nat → α
  write : α → List Elem

/-- The register contents of an integer in [0, p). -/
def elemOf (x : Nat) : Elem := BitVec.ofNat 256 x

/-- The integer in register `i`. -/
def State.fp (s : State) (i : Nat) : Nat := (s.reg i).toNat

/-- F2[b] = F[b] + F[b+1]*u. -/
def State.fp2 (s : State) (b : Nat) : Fp2 := ⟨s.fp b, s.fp (b + 1)⟩

/-- F6[b] = F2[b] + F2[b+2]*v + F2[b+4]*v^2. -/
def State.fp6 (s : State) (b : Nat) : Fp6 := ⟨s.fp2 b, s.fp2 (b + 2), s.fp2 (b + 4)⟩

/-- F12[b] = F6[b] + F6[b+6]*w. -/
def State.fp12 (s : State) (b : Nat) : Fp12 := ⟨s.fp6 b, s.fp6 (b + 6)⟩

/-- A G1 view: (0, 0) is the identity O (00_scope.md R17). -/
def pointOf1 (x y : Nat) : Point Nat := if x = 0 ∧ y = 0 then .inf else .aff x y

/-- A G2 view: all four registers 0 is the identity O (00_scope.md R17). -/
def pointOf2 (x y : Fp2) : Point Fp2 := if x = Fp2.zero ∧ y = Fp2.zero then .inf else .aff x y

/-- G1[b]. -/
def State.g1 (s : State) (b : Nat) : Point Nat := pointOf1 (s.fp b) (s.fp (b + 1))

/-- G2[b]. -/
def State.g2 (s : State) (b : Nat) : Point Fp2 := pointOf2 (s.fp2 b) (s.fp2 (b + 2))

def Fp2.regs (a : Fp2) : List Elem := [elemOf a.c0, elemOf a.c1]

def Fp6.regs (c : Fp6) : List Elem := c.c0.regs ++ c.c1.regs ++ c.c2.regs

def Fp12.regs (f : Fp12) : List Elem := f.g.regs ++ f.h.regs

/-- O is written as (0, 0) (43_curve.md R235). -/
def regsOf1 : Point Nat → List Elem
  | .inf => [0, 0]
  | .aff x y => [elemOf x, elemOf y]

/-- O is written as four zeros (43_curve.md R250). -/
def regsOf2 : Point Fp2 → List Elem
  | .inf => [0, 0, 0, 0]
  | .aff x y => x.regs ++ y.regs

/-- FP[b], and SC[b]: "the integer F[b] in [0, p), not reduced mod r". -/
def fpView : View Nat := { size := 1, read := State.fp, write := fun x => [elemOf x] }

/-- F2[b]. -/
def f2View : View Fp2 := { size := 2, read := State.fp2, write := Fp2.regs }

/-- F6[b]. -/
def f6View : View Fp6 := { size := 6, read := State.fp6, write := Fp6.regs }

/-- F12[b]. -/
def f12View : View Fp12 := { size := 12, read := State.fp12, write := Fp12.regs }

/-- SP[b] = (F2[b], F2[b+2], F2[b+4]). -/
def spView : View Sparse :=
  { size := 6, read := fun s b => ⟨s.fp2 b, s.fp2 (b + 2), s.fp2 (b + 4)⟩, write := fun x => x.s0.regs ++ x.s1.regs ++ x.s3.regs }

/-- G1[b]. -/
def g1View : View (Point Nat) := { size := 2, read := State.g1, write := regsOf1 }

/-- G2[b]. -/
def g2View : View (Point Fp2) := { size := 4, read := State.g2, write := regsOf2 }

/-- J1[b] = (F[b], F[b+1], F[b+2]). -/
def j1View : View (Jacobian Nat) :=
  { size := 3, read := fun s b => ⟨s.fp b, s.fp (b + 1), s.fp (b + 2)⟩, write := fun J => [elemOf J.x, elemOf J.y, elemOf J.z] }

/-- J2[b] = (F2[b], F2[b+2], F2[b+4]). -/
def j2View : View (Jacobian Fp2) :=
  { size := 6, read := fun s b => ⟨s.fp2 b, s.fp2 (b + 2), s.fp2 (b + 4)⟩, write := fun J => J.x.regs ++ J.y.regs ++ J.z.regs }

/-- The contents of `n` registers from `b` on. -/
def State.regList (s : State) (b : Nat) (n : Nat) : List Elem := (List.range n).map (fun k => s.reg (b + k))

/-- `n` raw registers (MOV and the equality tests). -/
def rawView (n : Nat) : View (List Elem) := { size := n, read := fun s b => s.regList b n, write := fun xs => xs }

/-- The extent a view occupies at a register field (30_encoding.md R114). -/
def View.extent {α : Type} (V : View α) (b : RegIdx) : Extent := .regs b.toNat V.size

/-- The source window of a view at a register field. -/
def View.src {α : Type} (V : View α) (b : RegIdx) : Nat × Nat := (b.toNat, V.size)

/-- Writing a value to the view at D. -/
def View.put {α : Type} (V : View α) (d : RegIdx) : Except ErrKind α → Except ErrKind Effect
  | .ok y => .ok (.regs d.toNat (V.write y))
  | .error k => .error k

/-- A command with destination D and no source (F12_ONE, LDI). -/
def cmdConst {β : Type} (W : View β) (y : β) (d : RegIdx) (s : State) : Host.Outcome State Fault Refusal :=
  perform [W.extent d] [] (fun _ => W.put d (.ok y)) s

/-- A command with destination D and source A; the windows are checked in the order D, A (60_exceptions.md R354). -/
def cmdUnary {α β : Type} (V : View α) (W : View β) (op : α → Except ErrKind β) (d a : RegIdx) (s : State) :
    Host.Outcome State Fault Refusal :=
  perform [W.extent d, V.extent a] [V.src a] (fun s => W.put d (op (V.read s a.toNat))) s

/-- A command with destination D and sources A and B, in the order D, A, B; A is checked for valid bits before B. -/
def cmdBinary {α β γ : Type} (VA : View α) (VB : View β) (W : View γ) (op : α → β → Except ErrKind γ)
    (d a b : RegIdx) (s : State) : Host.Outcome State Fault Refusal :=
  perform [W.extent d, VA.extent a, VB.extent b] [VA.src a, VB.src b]
    (fun s => W.put d (op (VA.read s a.toNat) (VB.read s b.toNat))) s

/-- A command with sources A, B and D, where D is also the destination (MLACC); valid bits in the order A, B, D. -/
def cmdAccumulate {α β γ : Type} (VA : View α) (VB : View β) (W : View γ) (op : γ → α → β → Except ErrKind γ)
    (d a b : RegIdx) (s : State) : Host.Outcome State Fault Refusal :=
  perform [W.extent d, VA.extent a, VB.extent b] [VA.src a, VB.src b, W.src d]
    (fun s => W.put d (op (W.read s d.toNat) (VA.read s a.toNat) (VB.read s b.toNat))) s

/-- A test command on one source: writes FLAG and no register (10_state.md R39). -/
def cmdTest {α : Type} (V : View α) (test : α → Bool) (a : RegIdx) (s : State) : Host.Outcome State Fault Refusal :=
  perform [V.extent a] [V.src a] (fun s => .ok (.flag (test (V.read s a.toNat)))) s

/-- A test command on two sources. -/
def cmdTest2 {α : Type} (V : View α) (test : α → α → Bool) (a b : RegIdx) (s : State) : Host.Outcome State Fault Refusal :=
  perform [V.extent a, V.extent b] [V.src a, V.src b] (fun s => .ok (.flag (test (V.read s a.toNat) (V.read s b.toNat)))) s

/-- A decoder: reads `len` bytes of IOBUF, writes the view at REG. The register window is checked before the IOBUF range
(60_exceptions.md R354); FP2ORD is the value sampled at acceptance (70_reset_and_hazards.md R404). -/
def cmdDecode {β : Type} (W : View β) (len : Nat) (op : Bool → List Byte → Except ErrKind β) (r : RegIdx) (off : Half)
    (s : State) : Host.Outcome State Fault Refusal :=
  perform [W.extent r, .iobuf off.toNat len] []
    (fun s => W.put r (op s.fp2ordCmd (s.iobuf.readBytes off.toNat len))) s

/-- An encoder: reads the view at REG, writes `len` bytes of IOBUF. -/
def cmdEncode {α : Type} (V : View α) (len : Nat) (op : Bool → α → Except ErrKind (List Byte)) (r : RegIdx) (off : Half)
    (s : State) : Host.Outcome State Fault Refusal :=
  perform [V.extent r, .iobuf off.toNat len] [V.src r]
    (fun s =>
      match op s.fp2ordCmd (V.read s r.toNat) with
      | .ok xs => .ok (.bytes off.toNat xs)
      | .error k => .error k) s

/-- The operand check of 43_curve.md R231 on a G1 operand, before its result. -/
def onG1 {β : Type} (op : Point Nat → β) (P : Point Nat) : Except ErrKind β :=
  if onCurve1 P then .ok (op P) else .error .invalidPoint

/-- The operand check of 43_curve.md R231 on a G2 operand, before its result. -/
def onG2 {β : Type} (op : Point Fp2 → β) (Q : Point Fp2) : Except ErrKind β :=
  if onCurve2 Q then .ok (op Q) else .error .invalidPoint

/-- Inversion: zero raises InvalidFieldElement (41_fp.md R147, 42_tower.md R180, R190, R200, 44_pairing.md R287). -/
def nonzero {β : Type} [DecidableEq β] (zero : β) (op : β → β) (x : β) : Except ErrKind β :=
  if x = zero then .error .invalidFieldElement else .ok (op x)

/-- An operation that cannot fail. -/
def pure1 {α β : Type} (op : α → β) (x : α) : Except ErrKind β := .ok (op x)

/-- An operation on two operands that cannot fail. -/
def pure2 {α β γ : Type} (op : α → β → γ) (x : α) (y : β) : Except ErrKind γ := .ok (op x y)

end Sys2Proof.Machine
end

