-- ==== Sys2Proof/Machine/CodecCmds.lean ====
section
/-! DEFINITION. The meanings of the codec commands (spec/45_codec.md sections 2 and 4). -/

namespace Sys2Proof.Machine

/-- `FP_DEC fr, [off]` (45_codec.md R304). -/
def execFpDec (r : RegIdx) (off : Half) (s : State) : Host.Outcome State Fault Refusal :=
  cmdDecode fpView 32 (fun _ => decFp) r off s

/-- `FP_ENC fr, [off]` (45_codec.md R305). -/
def execFpEnc (r : RegIdx) (off : Half) (s : State) : Host.Outcome State Fault Refusal :=
  cmdEncode fpView 32 (fun _ x => .ok (be32 x)) r off s

/-- `SC_DEC fr, [off]` (45_codec.md R306). -/
def execScDec (r : RegIdx) (off : Half) (s : State) : Host.Outcome State Fault Refusal :=
  cmdDecode fpView 32 (fun _ => decScalar) r off s

/-- `F2_DEC fr, [off]` (45_codec.md R307). -/
def execF2Dec (r : RegIdx) (off : Half) (s : State) : Host.Outcome State Fault Refusal :=
  cmdDecode f2View 64 decFp2 r off s

/-- `F2_ENC fr, [off]` (45_codec.md R308). -/
def execF2Enc (r : RegIdx) (off : Half) (s : State) : Host.Outcome State Fault Refusal :=
  cmdEncode f2View 64 (fun ord x => .ok (wire2 ord x)) r off s

/-- `G1_DECU fr, [off]` (45_codec.md R313). -/
def execG1Decu (r : RegIdx) (off : Half) (s : State) : Host.Outcome State Fault Refusal :=
  cmdDecode g1View 64 (fun _ => decG1U) r off s

/-- `G1_ENCU fr, [off]` (45_codec.md R314). -/
def execG1Encu (r : RegIdx) (off : Half) (s : State) : Host.Outcome State Fault Refusal :=
  cmdEncode g1View 64 (fun _ => encG1U) r off s

/-- `G1_DECC fr, [off]` (45_codec.md R315). -/
def execG1Decc (r : RegIdx) (off : Half) (s : State) : Host.Outcome State Fault Refusal :=
  cmdDecode g1View 32 (fun _ => decG1C) r off s

/-- `G1_ENCC fr, [off]` (45_codec.md R316). -/
def execG1Encc (r : RegIdx) (off : Half) (s : State) : Host.Outcome State Fault Refusal :=
  cmdEncode g1View 32 (fun _ => encG1C) r off s

/-- `G2_DECU fr, [off]` (45_codec.md R317). -/
def execG2Decu (r : RegIdx) (off : Half) (s : State) : Host.Outcome State Fault Refusal :=
  cmdDecode g2View 128 decG2U r off s

/-- `G2_ENCU fr, [off]` (45_codec.md R318). -/
def execG2Encu (r : RegIdx) (off : Half) (s : State) : Host.Outcome State Fault Refusal :=
  cmdEncode g2View 128 encG2U r off s

/-- `G2_DECC fr, [off]` (45_codec.md R319). -/
def execG2Decc (r : RegIdx) (off : Half) (s : State) : Host.Outcome State Fault Refusal :=
  cmdDecode g2View 64 decG2C r off s

/-- `G2_ENCC fr, [off]` (45_codec.md R320). -/
def execG2Encc (r : RegIdx) (off : Half) (s : State) : Host.Outcome State Fault Refusal :=
  cmdEncode g2View 64 encG2C r off s

end Sys2Proof.Machine
end

