-- ==== Sys2Proof/Machine/ControlCmds.lean ====
section
/-! DEFINITION. The meanings of NOP, MOV and LDI (spec/46_control.md). -/

namespace Sys2Proof.Machine

/-- `NOP`: accepted and completed like any other, with no other effect (46_control.md R340). -/
def execNop (s : State) : Host.Outcome State Fault Refusal :=
  perform [] [] (fun _ => .ok .nothing) s

/-- `MOV fd, fa, n`: all sources are read before any destination is written (46_control.md R341). -/
def execMov (d a n : RegIdx) (s : State) : Host.Outcome State Fault Refusal :=
  cmdUnary (rawView n.toNat) (rawView n.toNat) (pure1 id) d a s

/-- `LDI fd, imm16`: F[D] <- zero_extend(IMM16) (46_control.md R342). -/
def execLdi (d : RegIdx) (imm : Half) (s : State) : Host.Outcome State Fault Refusal :=
  cmdConst fpView imm.toNat d s

end Sys2Proof.Machine
end

