-- ==== Sys2Proof/Machine/Flags.lean ====
section
/-! DEFINITION. Every computation of FLAG (10_state.md R39), the STATUS and CTRL words and the interrupt level. -/

namespace Sys2Proof.Machine

/-- Equality of two views by all their registers: the condition of FP_EQ, F2_EQ, F6_EQ, F12_EQ, G1_EQ and G2_EQ (41_fp.md R148,
42_tower.md R182, R191, R202, 43_curve.md R239, R254). -/
def testEq (xs ys : List Elem) : Bool := decide (xs = ys)

/-- F12_ISONE: first register 1, the others 0 (42_tower.md R206). -/
def testIsOne (f : Fp12) : Bool := decide (f = Fp12.one)

/-- G1_ISINF and G2_ISINF: every register of the view 0 (43_curve.md R240, R255). -/
def testIsZero (xs : List Elem) : Bool := xs.all (fun x => decide (x = 0))

/-- G1_ONCRV: oncurve1 (43_curve.md R241). -/
def testOnCurve1 (P : Point Nat) : Bool := onCurve1 P

/-- G2_ONCRV: oncurve2 (43_curve.md R256). -/
def testOnCurve2 (Q : Point Fp2) : Bool := onCurve2 Q

/-- G1_INSUB: insub1 (43_curve.md R242). -/
def testInSub1 (P : Point Nat) : Bool := inSub1 P

/-- G2_INSUB: insub2 (43_curve.md R257). -/
def testInSub2 (Q : Point Fp2) : Bool := inSub2 Q

/-- A bit at a position of a 32-bit word. -/
def bitAt (i : Nat) (c : Bool) : Word := if c then BitVec.ofNat 32 (2 ^ i) else 0

/-- STATUS as the host reads it: BUSY, DONE, ERRF, FLAG, OVR in bits 0 to 4, the rest 0 (10_state.md R38). -/
def State.statusWord (s : State) : Word :=
  bitAt 0 s.busy ||| bitAt 1 s.done ||| bitAt 2 s.errf ||| bitAt 3 s.flag ||| bitAt 4 s.ovr

/-- CTRL as the host reads it: SRST reads 0, FP2ORD bit 1, IE bit 2, the rest 0 (10_state.md R37). -/
def State.ctrlWord (s : State) : Word := bitAt 1 s.fp2ord ||| bitAt 2 s.ie

/-- IRQ = CTRL.IE and (STATUS.DONE or STATUS.ERRF), a level (10_state.md R44, 60_exceptions.md R361). -/
def State.irq (s : State) : Bool := s.ie && (s.done || s.errf)

end Sys2Proof.Machine
end

