-- ==== Sys2Proof/Machine/Fp12Cmds.lean ====
section
/-! DEFINITION. The meanings of the Fp12 commands (spec/42_tower.md section 4). -/

namespace Sys2Proof.Machine

/-- `F12_ADD fd, fa, fb` (42_tower.md R195). -/
def execF12Add (d a b : RegIdx) (s : State) : Host.Outcome State Fault Refusal :=
  cmdBinary f12View f12View f12View (pure2 Fp12.add) d a b s

/-- `F12_SUB fd, fa, fb` (42_tower.md R196). -/
def execF12Sub (d a b : RegIdx) (s : State) : Host.Outcome State Fault Refusal :=
  cmdBinary f12View f12View f12View (pure2 Fp12.sub) d a b s

/-- `F12_NEG fd, fa` (42_tower.md R197). -/
def execF12Neg (d a : RegIdx) (s : State) : Host.Outcome State Fault Refusal :=
  cmdUnary f12View f12View (pure1 Fp12.neg) d a s

/-- `F12_MUL fd, fa, fb` (42_tower.md R198). -/
def execF12Mul (d a b : RegIdx) (s : State) : Host.Outcome State Fault Refusal :=
  cmdBinary f12View f12View f12View (pure2 Fp12.mul) d a b s

/-- `F12_SQR fd, fa` (42_tower.md R199). -/
def execF12Sqr (d a : RegIdx) (s : State) : Host.Outcome State Fault Refusal :=
  cmdUnary f12View f12View (pure1 (fun x => Fp12.mul x x)) d a s

/-- `F12_INV fd, fa`: InvalidFieldElement on a zero source (42_tower.md R200). -/
def execF12Inv (d a : RegIdx) (s : State) : Host.Outcome State Fault Refusal :=
  cmdUnary f12View f12View (nonzero Fp12.zero Fp12.inv) d a s

/-- `F12_CONJ fd, fa`: first half copied, second half negated (42_tower.md R201). -/
def execF12Conj (d a : RegIdx) (s : State) : Host.Outcome State Fault Refusal :=
  cmdUnary f12View f12View (pure1 Fp12.conj) d a s

/-- `F12_EQ fa, fb` (42_tower.md R202). -/
def execF12Eq (a b : RegIdx) (s : State) : Host.Outcome State Fault Refusal :=
  cmdTest2 (rawView 12) testEq a b s

/-- `F12_FROB fd, fa, k`: F12[A]^(p^k) (42_tower.md R203). -/
def execF12Frob (d a k : RegIdx) (s : State) : Host.Outcome State Fault Refusal :=
  cmdUnary f12View f12View (pure1 (fun f => f.frobPow k.toNat)) d a s

/-- `F12_SPMUL fd, fa, fb`: F12[A] * expand(SP[B]) (42_tower.md R208). -/
def execF12Spmul (d a b : RegIdx) (s : State) : Host.Outcome State Fault Refusal :=
  cmdBinary f12View spView f12View (pure2 (fun f l => f.mul l.expand)) d a b s

/-- `F12_ONE fd` (42_tower.md R205). -/
def execF12One (d : RegIdx) (s : State) : Host.Outcome State Fault Refusal :=
  cmdConst f12View Fp12.one d s

/-- `F12_ISONE fa` (42_tower.md R206). -/
def execF12Isone (a : RegIdx) (s : State) : Host.Outcome State Fault Refusal :=
  cmdTest f12View testIsOne a s

end Sys2Proof.Machine
end

