-- ==== Sys2Proof/Machine/Fp2Cmds.lean ====
section
/-! DEFINITION. The meanings of the Fp2 commands (spec/42_tower.md section 2). -/

namespace Sys2Proof.Machine

/-- `F2_ADD fd, fa, fb` (42_tower.md R175). -/
def execF2Add (d a b : RegIdx) (s : State) : Host.Outcome State Fault Refusal :=
  cmdBinary f2View f2View f2View (pure2 Fp2.add) d a b s

/-- `F2_SUB fd, fa, fb` (42_tower.md R176). -/
def execF2Sub (d a b : RegIdx) (s : State) : Host.Outcome State Fault Refusal :=
  cmdBinary f2View f2View f2View (pure2 Fp2.sub) d a b s

/-- `F2_NEG fd, fa` (42_tower.md R177). -/
def execF2Neg (d a : RegIdx) (s : State) : Host.Outcome State Fault Refusal :=
  cmdUnary f2View f2View (pure1 Fp2.neg) d a s

/-- `F2_MUL fd, fa, fb` (42_tower.md R178). -/
def execF2Mul (d a b : RegIdx) (s : State) : Host.Outcome State Fault Refusal :=
  cmdBinary f2View f2View f2View (pure2 Fp2.mul) d a b s

/-- `F2_SQR fd, fa` (42_tower.md R179). -/
def execF2Sqr (d a : RegIdx) (s : State) : Host.Outcome State Fault Refusal :=
  cmdUnary f2View f2View (pure1 (fun x => Fp2.mul x x)) d a s

/-- `F2_INV fd, fa`: InvalidFieldElement on a zero source (42_tower.md R180). -/
def execF2Inv (d a : RegIdx) (s : State) : Host.Outcome State Fault Refusal :=
  cmdUnary f2View f2View (nonzero Fp2.zero Fp2.inv) d a s

/-- `F2_CONJ fd, fa`: (F[A], (p - F[A+1]) mod p) (42_tower.md R181). -/
def execF2Conj (d a : RegIdx) (s : State) : Host.Outcome State Fault Refusal :=
  cmdUnary f2View f2View (pure1 Fp2.conj) d a s

/-- `F2_EQ fa, fb` (42_tower.md R182). -/
def execF2Eq (a b : RegIdx) (s : State) : Host.Outcome State Fault Refusal :=
  cmdTest2 (rawView 2) testEq a b s

end Sys2Proof.Machine
end

