-- ==== Sys2Proof/Machine/Fp6Cmds.lean ====
section
/-! DEFINITION. The meanings of the Fp6 commands (spec/42_tower.md section 3). -/

namespace Sys2Proof.Machine

/-- `F6_ADD fd, fa, fb` (42_tower.md R185). -/
def execF6Add (d a b : RegIdx) (s : State) : Host.Outcome State Fault Refusal :=
  cmdBinary f6View f6View f6View (pure2 Fp6.add) d a b s

/-- `F6_SUB fd, fa, fb` (42_tower.md R186). -/
def execF6Sub (d a b : RegIdx) (s : State) : Host.Outcome State Fault Refusal :=
  cmdBinary f6View f6View f6View (pure2 Fp6.sub) d a b s

/-- `F6_NEG fd, fa` (42_tower.md R187). -/
def execF6Neg (d a : RegIdx) (s : State) : Host.Outcome State Fault Refusal :=
  cmdUnary f6View f6View (pure1 Fp6.neg) d a s

/-- `F6_MUL fd, fa, fb` (42_tower.md R188). -/
def execF6Mul (d a b : RegIdx) (s : State) : Host.Outcome State Fault Refusal :=
  cmdBinary f6View f6View f6View (pure2 Fp6.mul) d a b s

/-- `F6_SQR fd, fa` (42_tower.md R189). -/
def execF6Sqr (d a : RegIdx) (s : State) : Host.Outcome State Fault Refusal :=
  cmdUnary f6View f6View (pure1 (fun x => Fp6.mul x x)) d a s

/-- `F6_INV fd, fa`: InvalidFieldElement on a zero source (42_tower.md R190). -/
def execF6Inv (d a : RegIdx) (s : State) : Host.Outcome State Fault Refusal :=
  cmdUnary f6View f6View (nonzero Fp6.zero Fp6.inv) d a s

/-- `F6_EQ fa, fb` (42_tower.md R191). -/
def execF6Eq (a b : RegIdx) (s : State) : Host.Outcome State Fault Refusal :=
  cmdTest2 (rawView 6) testEq a b s

end Sys2Proof.Machine
end

