-- ==== Sys2Proof/Machine/FpCmds.lean ====
section
/-! DEFINITION. The meanings of the base-field commands (spec/41_fp.md). -/

namespace Sys2Proof.Machine

/-- `FP_ADD fd, fa, fb`: F[D] <- (F[A] + F[B]) mod p (41_fp.md R142). -/
def execFpAdd (d a b : RegIdx) (s : State) : Host.Outcome State Fault Refusal :=
  cmdBinary fpView fpView fpView (pure2 fpAdd) d a b s

/-- `FP_SUB fd, fa, fb`: F[D] <- (F[A] - F[B]) mod p (41_fp.md R143). -/
def execFpSub (d a b : RegIdx) (s : State) : Host.Outcome State Fault Refusal :=
  cmdBinary fpView fpView fpView (pure2 fpSub) d a b s

/-- `FP_NEG fd, fa`: F[D] <- (p - F[A]) mod p (41_fp.md R144). -/
def execFpNeg (d a : RegIdx) (s : State) : Host.Outcome State Fault Refusal :=
  cmdUnary fpView fpView (pure1 fpNeg) d a s

/-- `FP_MUL fd, fa, fb`: F[D] <- (F[A] * F[B]) mod p (41_fp.md R145). -/
def execFpMul (d a b : RegIdx) (s : State) : Host.Outcome State Fault Refusal :=
  cmdBinary fpView fpView fpView (pure2 fpMul) d a b s

/-- `FP_SQR fd, fa`: F[D] <- (F[A] * F[A]) mod p (41_fp.md R146). -/
def execFpSqr (d a : RegIdx) (s : State) : Host.Outcome State Fault Refusal :=
  cmdUnary fpView fpView (pure1 (fun x => fpMul x x)) d a s

/-- `FP_INV fd, fa`: InvalidFieldElement on 0, else F[D] <- inv_p(F[A]) (41_fp.md R147). -/
def execFpInv (d a : RegIdx) (s : State) : Host.Outcome State Fault Refusal :=
  cmdUnary fpView fpView (nonzero 0 fpInv) d a s

/-- `FP_EQ fa, fb`: FLAG <- (F[A] = F[B]) (41_fp.md R148). -/
def execFpEq (a b : RegIdx) (s : State) : Host.Outcome State Fault Refusal :=
  cmdTest2 (rawView 1) testEq a b s

end Sys2Proof.Machine
end

