-- ==== Sys2Proof/Machine/G1Cmds.lean ====
section
/-! DEFINITION. The meanings of the G1 commands (spec/43_curve.md section 2). -/

namespace Sys2Proof.Machine

/-- `G1_ADD fd, fa, fb`: both operands on the curve, A first, then add(P1, P2) (43_curve.md R235). -/
def execG1Add (d a b : RegIdx) (s : State) : Host.Outcome State Fault Refusal :=
  cmdBinary g1View g1View g1View
    (fun P1 P2 => if onCurve1 P1 then onG1 (fun P2 => P1.add fpOps P2) P2 else .error .invalidPoint) d a b s

/-- `G1_DBL fd, fa`: add(P, P) (43_curve.md R236). -/
def execG1Dbl (d a : RegIdx) (s : State) : Host.Outcome State Fault Refusal :=
  cmdUnary g1View g1View (onG1 (fun P => P.add fpOps P)) d a s

/-- `G1_NEG fd, fa` (43_curve.md R237). -/
def execG1Neg (d a : RegIdx) (s : State) : Host.Outcome State Fault Refusal :=
  cmdUnary g1View g1View (onG1 (Point.neg fpOps)) d a s

/-- `G1_MUL fd, fa, fb`: [k]P with k = F[B] not reduced (43_curve.md R238, R232). -/
def execG1Mul (d a b : RegIdx) (s : State) : Host.Outcome State Fault Refusal :=
  cmdBinary g1View fpView g1View (fun P k => onG1 (Point.smul fpOps k) P) d a b s

/-- `G1_EQ fa, fb`: the registers are compared as they are (43_curve.md R239). -/
def execG1Eq (a b : RegIdx) (s : State) : Host.Outcome State Fault Refusal :=
  cmdTest2 (rawView 2) testEq a b s

/-- `G1_ISINF fa` (43_curve.md R240). -/
def execG1Isinf (a : RegIdx) (s : State) : Host.Outcome State Fault Refusal :=
  cmdTest (rawView 2) testIsZero a s

/-- `G1_ONCRV fa`: never InvalidPoint, the answer goes to FLAG (43_curve.md R241). -/
def execG1Oncrv (a : RegIdx) (s : State) : Host.Outcome State Fault Refusal :=
  cmdTest g1View testOnCurve1 a s

/-- `G1_INSUB fa` (43_curve.md R242). -/
def execG1Insub (a : RegIdx) (s : State) : Host.Outcome State Fault Refusal :=
  cmdTest g1View testInSub1 a s

/-- `G1_TOJAC fd, fa` (43_curve.md R243). -/
def execG1Tojac (d a : RegIdx) (s : State) : Host.Outcome State Fault Refusal :=
  cmdUnary g1View j1View (onG1 (Point.toJac fpOps)) d a s

/-- `G1_TOAFF fd, fa`: no curve check, Z = 0 gives O (43_curve.md R244). -/
def execG1Toaff (d a : RegIdx) (s : State) : Host.Outcome State Fault Refusal :=
  cmdUnary j1View g1View (pure1 (Jacobian.toAff fpOps)) d a s

end Sys2Proof.Machine
end

