-- ==== Sys2Proof/Machine/G2Cmds.lean ====
section
/-! DEFINITION. The meanings of the G2 commands (spec/43_curve.md section 3). -/

namespace Sys2Proof.Machine

/-- `G2_ADD fd, fa, fb`: both operands on the curve, A first, then add(P1, P2) (43_curve.md R250). -/
def execG2Add (d a b : RegIdx) (s : State) : Host.Outcome State Fault Refusal :=
  cmdBinary g2View g2View g2View
    (fun P1 P2 => if onCurve2 P1 then onG2 (fun P2 => P1.add fp2Ops P2) P2 else .error .invalidPoint) d a b s

/-- `G2_DBL fd, fa`: add(P, P) (43_curve.md R251). -/
def execG2Dbl (d a : RegIdx) (s : State) : Host.Outcome State Fault Refusal :=
  cmdUnary g2View g2View (onG2 (fun P => P.add fp2Ops P)) d a s

/-- `G2_NEG fd, fa` (43_curve.md R252). -/
def execG2Neg (d a : RegIdx) (s : State) : Host.Outcome State Fault Refusal :=
  cmdUnary g2View g2View (onG2 (Point.neg fp2Ops)) d a s

/-- `G2_MUL fd, fa, fb`: [k]P with k = F[B] not reduced (43_curve.md R253, R232). -/
def execG2Mul (d a b : RegIdx) (s : State) : Host.Outcome State Fault Refusal :=
  cmdBinary g2View fpView g2View (fun P k => onG2 (Point.smul fp2Ops k) P) d a b s

/-- `G2_EQ fa, fb`: the registers are compared as they are (43_curve.md R254). -/
def execG2Eq (a b : RegIdx) (s : State) : Host.Outcome State Fault Refusal :=
  cmdTest2 (rawView 4) testEq a b s

/-- `G2_ISINF fa` (43_curve.md R255). -/
def execG2Isinf (a : RegIdx) (s : State) : Host.Outcome State Fault Refusal :=
  cmdTest (rawView 4) testIsZero a s

/-- `G2_ONCRV fa`: never InvalidPoint, the answer goes to FLAG (43_curve.md R256). -/
def execG2Oncrv (a : RegIdx) (s : State) : Host.Outcome State Fault Refusal :=
  cmdTest g2View testOnCurve2 a s

/-- `G2_INSUB fa` (43_curve.md R257). -/
def execG2Insub (a : RegIdx) (s : State) : Host.Outcome State Fault Refusal :=
  cmdTest g2View testInSub2 a s

/-- `G2_TOJAC fd, fa` (43_curve.md R258). -/
def execG2Tojac (d a : RegIdx) (s : State) : Host.Outcome State Fault Refusal :=
  cmdUnary g2View j2View (onG2 (Point.toJac fp2Ops)) d a s

/-- `G2_TOAFF fd, fa`: no curve check, Z = 0 gives O (43_curve.md R259). -/
def execG2Toaff (d a : RegIdx) (s : State) : Host.Outcome State Fault Refusal :=
  cmdUnary j2View g2View (pure1 (Jacobian.toAff fp2Ops)) d a s

end Sys2Proof.Machine
end

