-- ==== Sys2Proof/Machine/Pairing.lean ====
section
/-! DEFINITION. The Miller value and the final exponentiation (44_pairing.md R281 to R283, R287). -/

namespace Sys2Proof.Machine

/-- psi(Q) = (x' * w^2, y' * w^3), with w^2 = v and w^3 = v*w; psi(O) = O (44_pairing.md R281). -/
def psi : Point Fp2 → Point Fp12
  | .inf => .inf
  | .aff x y => .aff ⟨⟨Fp2.zero, x, Fp2.zero⟩, Fp6.zero⟩ ⟨Fp6.zero, ⟨Fp2.zero, y, Fp2.zero⟩⟩

/-- pi: the p-th power of both coordinates (44_pairing.md R281). -/
def frobPoint : Point Fp12 → Point Fp12
  | .inf => .inf
  | .aff x y => .aff x.frob y.frob

/-- LINE(T, S, xP, yP): the line value and T + S (44_pairing.md R283), case by case. -/
def line (T S : Point Fp12) (xP yP : Fp12) : Fp12 × Point Fp12 :=
  match T, S with
  | .inf, _ => (Fp12.one, T.add fp12Ops S)
  | .aff _ _, .inf => (Fp12.one, T.add fp12Ops S)
  | .aff x1 y1, .aff x2 y2 =>
    let through (lambda : Fp12) : Fp12 × Point Fp12 :=
      let l := (yP.sub y1).sub (lambda.mul (xP.sub x1))
      let x3 := ((lambda.mul lambda).sub x1).sub x2
      (l, .aff x3 ((lambda.mul (x1.sub x3)).sub y1))
    if x1 ≠ x2 then through ((y2.sub y1).mul (x2.sub x1).inv)
    else if y1 = y2 ∧ y1 ≠ Fp12.zero then
      let x1sq := x1.mul x1
      through (((x1sq.add x1sq).add x1sq).mul (y1.add y1).inv)
    else (xP.sub x1, .inf)

/-- One turn of the loop of 44_pairing.md R282 for bit `i` of ATE: the doubling step, and the addition step where the bit is 1. -/
def millerBit (Qt : Point Fp12) (xP yP : Fp12) (i : Nat) (st : Fp12 × Point Fp12) : Fp12 × Point Fp12 :=
  let (l, T) := line st.2 st.2 xP yP
  let f := (st.1.mul st.1).mul l
  if Config.ate.testBit i then
    let (l', T') := line T Qt xP yP
    (f.mul l', T')
  else (f, T)

/-- The loop "for i = 63 downto 0" (44_pairing.md R282): bits `n - 1` down to 0. -/
def millerLoop (Qt : Point Fp12) (xP yP : Fp12) : Nat → Fp12 × Point Fp12 → Fp12 × Point Fp12
  | 0, st => st
  | n + 1, st => millerLoop Qt xP yP n (millerBit Qt xP yP n st)

/-- miller(P, Q) (44_pairing.md R282). -/
def miller (P : Point Nat) (Q : Point Fp2) : Fp12 :=
  match P, Q with
  | .inf, _ => Fp12.one
  | .aff _ _, .inf => Fp12.one
  | .aff x y, .aff x' y' =>
    let xP := Fp12.ofFp x
    let yP := Fp12.ofFp y
    let Qt := psi (.aff x' y')
    let (f, T) := millerLoop Qt xP yP 64 (Fp12.one, Qt)
    let Q1 := frobPoint Qt
    let Q2 := frobPoint Q1
    let (l, T) := line T Q1 xP yP
    let f := f.mul l
    let (l, _) := line T (Q2.neg fp12Ops) xP yP
    f.mul l

/-- The exact exponent (p^12 - 1)/r (44_pairing.md R287). -/
def fexpExponent : Nat := (Config.p ^ 12 - 1) / Config.r

/-- f^((p^12 - 1)/r) (44_pairing.md R287). -/
def finalExp (f : Fp12) : Fp12 := f.pow fexpExponent

end Sys2Proof.Machine
end

