-- ==== Sys2Proof/Machine/PairingCmds.lean ====
section
/-! DEFINITION. The meanings of MILLER, MLACC and FEXP (spec/44_pairing.md section 2). -/

namespace Sys2Proof.Machine

/-- `MILLER fd, fa, fb`: P on E, then Q on E', then miller(P, Q) (44_pairing.md R285). -/
def execMiller (d a b : RegIdx) (s : State) : Host.Outcome State Fault Refusal :=
  cmdBinary g1View g2View f12View
    (fun P Q => if onCurve1 P then onG2 (miller P) Q else .error .invalidPoint) d a b s

/-- `MLACC fd, fa, fb`: F12[D] <- acc * miller(P, Q) (44_pairing.md R286). -/
def execMlacc (d a b : RegIdx) (s : State) : Host.Outcome State Fault Refusal :=
  cmdAccumulate g1View g2View f12View
    (fun acc P Q => if onCurve1 P then onG2 (fun Q => acc.mul (miller P Q)) Q else .error .invalidPoint) d a b s

/-- `FEXP fd, fa`: InvalidFieldElement on 0, else f^((p^12 - 1)/r) (44_pairing.md R287). -/
def execFexp (d a : RegIdx) (s : State) : Host.Outcome State Fault Refusal :=
  cmdUnary f12View f12View (nonzero Fp12.zero finalExp) d a s

end Sys2Proof.Machine
end

