-- ==== Sys2Proof/Machine/Dispatch.lean ====
section
/-! DEFINITION. One arm per command: its meaning. -/

namespace Sys2Proof.Machine

/-- EXEC and the completion step of a command that stage 1 of 60_exceptions.md R354 lets through (70_reset_and_hazards.md R401). -/
def exec (i : Instr) (s : State) : Host.Outcome State Fault Refusal :=
  match i with
  | .nop => Sys2Proof.Machine.execNop s
  | .mov d a n => Sys2Proof.Machine.execMov d a n s
  | .ldi d imm => Sys2Proof.Machine.execLdi d imm s
  | .fpAdd d a b => Sys2Proof.Machine.execFpAdd d a b s
  | .fpSub d a b => Sys2Proof.Machine.execFpSub d a b s
  | .fpNeg d a => Sys2Proof.Machine.execFpNeg d a s
  | .fpMul d a b => Sys2Proof.Machine.execFpMul d a b s
  | .fpSqr d a => Sys2Proof.Machine.execFpSqr d a s
  | .fpInv d a => Sys2Proof.Machine.execFpInv d a s
  | .fpEq a b => Sys2Proof.Machine.execFpEq a b s
  | .f2Add d a b => Sys2Proof.Machine.execF2Add d a b s
  | .f2Sub d a b => Sys2Proof.Machine.execF2Sub d a b s
  | .f2Neg d a => Sys2Proof.Machine.execF2Neg d a s
  | .f2Mul d a b => Sys2Proof.Machine.execF2Mul d a b s
  | .f2Sqr d a => Sys2Proof.Machine.execF2Sqr d a s
  | .f2Inv d a => Sys2Proof.Machine.execF2Inv d a s
  | .f2Conj d a => Sys2Proof.Machine.execF2Conj d a s
  | .f2Eq a b => Sys2Proof.Machine.execF2Eq a b s
  | .f6Add d a b => Sys2Proof.Machine.execF6Add d a b s
  | .f6Sub d a b => Sys2Proof.Machine.execF6Sub d a b s
  | .f6Neg d a => Sys2Proof.Machine.execF6Neg d a s
  | .f6Mul d a b => Sys2Proof.Machine.execF6Mul d a b s
  | .f6Sqr d a => Sys2Proof.Machine.execF6Sqr d a s
  | .f6Inv d a => Sys2Proof.Machine.execF6Inv d a s
  | .f6Eq a b => Sys2Proof.Machine.execF6Eq a b s
  | .f12Add d a b => Sys2Proof.Machine.execF12Add d a b s
  | .f12Sub d a b => Sys2Proof.Machine.execF12Sub d a b s
  | .f12Neg d a => Sys2Proof.Machine.execF12Neg d a s
  | .f12Mul d a b => Sys2Proof.Machine.execF12Mul d a b s
  | .f12Sqr d a => Sys2Proof.Machine.execF12Sqr d a s
  | .f12Inv d a => Sys2Proof.Machine.execF12Inv d a s
  | .f12Conj d a => Sys2Proof.Machine.execF12Conj d a s
  | .f12Eq a b => Sys2Proof.Machine.execF12Eq a b s
  | .f12Frob d a k => Sys2Proof.Machine.execF12Frob d a k s
  | .f12Spmul d a b => Sys2Proof.Machine.execF12Spmul d a b s
  | .f12One d => Sys2Proof.Machine.execF12One d s
  | .f12Isone a => Sys2Proof.Machine.execF12Isone a s
  | .g1Add d a b => Sys2Proof.Machine.execG1Add d a b s
  | .g1Dbl d a => Sys2Proof.Machine.execG1Dbl d a s
  | .g1Neg d a => Sys2Proof.Machine.execG1Neg d a s
  | .g1Mul d a b => Sys2Proof.Machine.execG1Mul d a b s
  | .g1Eq a b => Sys2Proof.Machine.execG1Eq a b s
  | .g1Isinf a => Sys2Proof.Machine.execG1Isinf a s
  | .g1Oncrv a => Sys2Proof.Machine.execG1Oncrv a s
  | .g1Insub a => Sys2Proof.Machine.execG1Insub a s
  | .g1Tojac d a => Sys2Proof.Machine.execG1Tojac d a s
  | .g1Toaff d a => Sys2Proof.Machine.execG1Toaff d a s
  | .g2Add d a b => Sys2Proof.Machine.execG2Add d a b s
  | .g2Dbl d a => Sys2Proof.Machine.execG2Dbl d a s
  | .g2Neg d a => Sys2Proof.Machine.execG2Neg d a s
  | .g2Mul d a b => Sys2Proof.Machine.execG2Mul d a b s
  | .g2Eq a b => Sys2Proof.Machine.execG2Eq a b s
  | .g2Isinf a => Sys2Proof.Machine.execG2Isinf a s
  | .g2Oncrv a => Sys2Proof.Machine.execG2Oncrv a s
  | .g2Insub a => Sys2Proof.Machine.execG2Insub a s
  | .g2Tojac d a => Sys2Proof.Machine.execG2Tojac d a s
  | .g2Toaff d a => Sys2Proof.Machine.execG2Toaff d a s
  | .miller d a b => Sys2Proof.Machine.execMiller d a b s
  | .mlacc d a b => Sys2Proof.Machine.execMlacc d a b s
  | .fexp d a => Sys2Proof.Machine.execFexp d a s
  | .fpDec r off => Sys2Proof.Machine.execFpDec r off s
  | .fpEnc r off => Sys2Proof.Machine.execFpEnc r off s
  | .scDec r off => Sys2Proof.Machine.execScDec r off s
  | .f2Dec r off => Sys2Proof.Machine.execF2Dec r off s
  | .f2Enc r off => Sys2Proof.Machine.execF2Enc r off s
  | .g1Decu r off => Sys2Proof.Machine.execG1Decu r off s
  | .g1Encu r off => Sys2Proof.Machine.execG1Encu r off s
  | .g1Decc r off => Sys2Proof.Machine.execG1Decc r off s
  | .g1Encc r off => Sys2Proof.Machine.execG1Encc r off s
  | .g2Decu r off => Sys2Proof.Machine.execG2Decu r off s
  | .g2Encu r off => Sys2Proof.Machine.execG2Encu r off s
  | .g2Decc r off => Sys2Proof.Machine.execG2Decc r off s
  | .g2Encc r off => Sys2Proof.Machine.execG2Encc r off s

end Sys2Proof.Machine
end

