-- ==== Sys2Proof/Machine/Engine.lean ====
section
/-! DEFINITION. The engine's step: the completion of the command in CUR (70_reset_and_hazards.md R401). -/

namespace Sys2Proof.Machine

/-- EXEC of a command word: an illegal word is the error IllegalCommand (30_encoding.md R117, R118; stage 1 of 60_exceptions.md R354),
any other runs its command. -/
def execWord (w : Word) (s : State) : Host.Outcome State Fault Refusal :=
  match decode w with
  | .ok i => exec i s
  | .error _ => .next (s.raise .illegalCommand)

/-- The engine's one step: while BUSY = 1 the completion step of the command in CUR (70_reset_and_hazards.md R401); "When idle (BUSY = 0) the
engine does nothing" (60_exceptions.md R372). -/
def engineTurn (s : State) : Host.Outcome State Fault Refusal :=
  match s.busy, s.cur with
  | true, some w => execWord w s
  | _, _ => .next s

end Sys2Proof.Machine
end

