-- ==== Sys2Proof/Machine/HostPort.lean ====
section
/-! DEFINITION. The host's accesses to the block (20_memory.md R70 to R76, 70_reset_and_hazards.md R414). -/

namespace Sys2Proof.Machine

/-- Where an admitted access goes (20_memory.md R71, R72): a register offset, one byte of IOBUF, or four bytes of it. -/
inductive Target where
  | register (off : Nat)
  | byte (a : Nat)
  | lanes (a : Nat)
deriving DecidableEq, Repr

/-- The window offset of a bus address, none when the address is outside the block's 8 KiB window (20_memory.md R70, 00_scope.md R9). -/
def windowOffset (addr : Nat) : Option (BitVec 13) :=
  if Config.base ≤ addr ∧ addr < Config.base + Config.windowSize then some (BitVec.ofNat 13 (addr - Config.base)) else none

/-- Access widths: registers take aligned 32-bit accesses, IOBUF takes 8-bit and aligned 32-bit ones (20_memory.md R72); none is an
access the block refuses (R73). -/
def route (w : Width) (off : Nat) : Option Target :=
  match w with
  | .w8 => if Config.iobufBase ≤ off then some (.byte (off - Config.iobufBase)) else none
  | .w16 => none
  | .w32 =>
    if off % 4 = 0 then
      if Config.iobufBase ≤ off then some (.lanes (off - Config.iobufBase)) else some (.register off)
    else none
  | .w64 => none

/-- What a register offset reads (10_state.md R36 to R42, 20_memory.md R71, R74). -/
def State.readRegister (s : State) (off : Nat) : Word :=
  match off with
  | 0x00 => Config.idValue
  | 0x04 => s.ctrlWord
  | 0x08 => s.statusWord
  | 0x0C => s.errcode.setWidth 32
  | 0x10 => s.errcmd
  | _ => 0

/-- Four bytes of IOBUF as a bus word, IOBUF[a+i] in bits [8i+7:8i] (20_memory.md R75). -/
def Memory.readLanes (m : Memory) (a : Nat) : Word :=
  m.read (a + 3) ++ m.read (a + 2) ++ m.read (a + 1) ++ m.read a

/-- The bytes of a bus word, lane 0 first (20_memory.md R75). -/
def lanesOf (w : Word) : List Byte :=
  [w.extractLsb' 0 8, w.extractLsb' 8 8, w.extractLsb' 16 8, w.extractLsb' 24 8]

/-- What an admitted read returns; IOBUF reads 0 while BUSY = 1 (20_memory.md R76). A byte is held zero-extended (log 5). -/
def State.readTarget (s : State) : Target → Word
  | .register off => s.readRegister off
  | .byte a => if s.busy then 0 else (s.iobuf.read a).setWidth 32
  | .lanes a => if s.busy then 0 else s.iobuf.readLanes a

/-- A CTRL write (10_state.md R37): SRST = 1 is a soft reset and the other bits are ignored; else IE from bit 2, and FP2ORD from bit 1 only
when BUSY = 0. -/
def State.writeCtrl (s : State) (w : Word) : State :=
  if w.getLsbD 0 then s.softReset
  else { s with ie := w.getLsbD 2, fp2ord := if s.busy then s.fp2ord else w.getLsbD 1 }

/-- A STATUS write (10_state.md R38, 60_exceptions.md R359): a 1 in bit 1 clears DONE, in bit 2 the error, in bit 4 OVR. -/
def State.writeStatus (s : State) (w : Word) : State :=
  let s := if w.getLsbD 1 then { s with done := false } else s
  let s := if w.getLsbD 2 then s.clearError else s
  if w.getLsbD 4 then { s with ovr := false } else s

/-- A write to a register offset; ID, ERRCODE, ERRCMD and the reserved offsets ignore it (10_state.md R35, 20_memory.md R74). -/
def State.writeRegister (s : State) (off : Nat) (w : Word) : State :=
  match off with
  | 0x04 => s.writeCtrl w
  | 0x08 => s.writeStatus w
  | 0x14 => s.accept w
  | _ => s

/-- An admitted write; a write to IOBUF is dropped while BUSY = 1 (20_memory.md R76). -/
def State.writeTarget (s : State) (w : Word) : Target → State
  | .register off => s.writeRegister off w
  | .byte a => if s.busy then s else { s with iobuf := s.iobuf.write a (w.setWidth 8) }
  | .lanes a => if s.busy then s else { s with iobuf := s.iobuf.writeBytes a (lanesOf w) }

/-- One host step (70_reset_and_hazards.md R414). A refused access has no step: the host is stuck (20_memory.md R73; log 7). No read has a
side effect on the block (R81): the data goes to the model's own `rdata`. -/
def hostTurn (a : Access) (s : State) : Host.Outcome State Fault Refusal :=
  match a with
  | .read w off =>
    match route w off.toNat with
    | some t => .next { s with rdata := some (s.readTarget t) }
    | none => .fault .busError
  | .write w off data =>
    match route w off.toNat with
    | some t => .next (s.writeTarget data t)
    | none => .fault .busError
  | .hardReset draw => .next (s.hardReset draw)

end Sys2Proof.Machine
end

