-- ==== Sys2Proof/Machine/Step.lean ====
section
/-! DEFINITION. One step of the machine: the next turn of the agenda, or the engine's when no turn is given (log 1, log 2). -/

namespace Sys2Proof.Machine

/-- One step. The first turn of the agenda moves; with none left the engine does (weak fairness, 70_reset_and_hazards.md R405). -/
def step (s : State) : Host.Outcome State Fault Refusal :=
  match s.agenda with
  | [] => engineTurn s
  | .engine :: rest => engineTurn { s with agenda := rest }
  | .host a :: rest => hostTurn a { s with agenda := rest }

/-- `s` with the command word `w` accepted (70_reset_and_hazards.md R400) and the engine to move, so that the very next step is that
command's completion (log 13). -/
def State.withFetchWord (s : State) (nbits w : Nat) : State :=
  { s.latch (BitVec.ofNat 32 (w % 2 ^ nbits)) with agenda := .engine :: s.agenda }

end Sys2Proof.Machine
end

