-- ==== Sys2Proof/Machine/Windows.lean ====
section
/-! DEFINITION. Which windows each command has and which it reads, as the opcode map gives them (30_encoding.md R114 to R116): the terms in which claims say that a command is in range and its sources are written. -/

namespace Sys2Proof.Machine

/-- The windows of a command in the order they are checked: D, A, B of format R; the register window, then the IOBUF range of format M
(30_encoding.md R116, 60_exceptions.md R354). -/
def windowsOf : Instr → List Extent
  | .nop => []
  | .mov d a n => [.regs d.toNat n.toNat, .regs a.toNat n.toNat]
  | .ldi d _ => [.regs d.toNat 1]
  | .fpAdd d a b => [.regs d.toNat 1, .regs a.toNat 1, .regs b.toNat 1]
  | .fpSub d a b => [.regs d.toNat 1, .regs a.toNat 1, .regs b.toNat 1]
  | .fpNeg d a => [.regs d.toNat 1, .regs a.toNat 1]
  | .fpMul d a b => [.regs d.toNat 1, .regs a.toNat 1, .regs b.toNat 1]
  | .fpSqr d a => [.regs d.toNat 1, .regs a.toNat 1]
  | .fpInv d a => [.regs d.toNat 1, .regs a.toNat 1]
  | .fpEq a b => [.regs a.toNat 1, .regs b.toNat 1]
  | .f2Add d a b => [.regs d.toNat 2, .regs a.toNat 2, .regs b.toNat 2]
  | .f2Sub d a b => [.regs d.toNat 2, .regs a.toNat 2, .regs b.toNat 2]
  | .f2Neg d a => [.regs d.toNat 2, .regs a.toNat 2]
  | .f2Mul d a b => [.regs d.toNat 2, .regs a.toNat 2, .regs b.toNat 2]
  | .f2Sqr d a => [.regs d.toNat 2, .regs a.toNat 2]
  | .f2Inv d a => [.regs d.toNat 2, .regs a.toNat 2]
  | .f2Conj d a => [.regs d.toNat 2, .regs a.toNat 2]
  | .f2Eq a b => [.regs a.toNat 2, .regs b.toNat 2]
  | .f6Add d a b => [.regs d.toNat 6, .regs a.toNat 6, .regs b.toNat 6]
  | .f6Sub d a b => [.regs d.toNat 6, .regs a.toNat 6, .regs b.toNat 6]
  | .f6Neg d a => [.regs d.toNat 6, .regs a.toNat 6]
  | .f6Mul d a b => [.regs d.toNat 6, .regs a.toNat 6, .regs b.toNat 6]
  | .f6Sqr d a => [.regs d.toNat 6, .regs a.toNat 6]
  | .f6Inv d a => [.regs d.toNat 6, .regs a.toNat 6]
  | .f6Eq a b => [.regs a.toNat 6, .regs b.toNat 6]
  | .f12Add d a b => [.regs d.toNat 12, .regs a.toNat 12, .regs b.toNat 12]
  | .f12Sub d a b => [.regs d.toNat 12, .regs a.toNat 12, .regs b.toNat 12]
  | .f12Neg d a => [.regs d.toNat 12, .regs a.toNat 12]
  | .f12Mul d a b => [.regs d.toNat 12, .regs a.toNat 12, .regs b.toNat 12]
  | .f12Sqr d a => [.regs d.toNat 12, .regs a.toNat 12]
  | .f12Inv d a => [.regs d.toNat 12, .regs a.toNat 12]
  | .f12Conj d a => [.regs d.toNat 12, .regs a.toNat 12]
  | .f12Eq a b => [.regs a.toNat 12, .regs b.toNat 12]
  | .f12Frob d a _ => [.regs d.toNat 12, .regs a.toNat 12]
  | .f12Spmul d a b => [.regs d.toNat 12, .regs a.toNat 12, .regs b.toNat 6]
  | .f12One d => [.regs d.toNat 12]
  | .f12Isone a => [.regs a.toNat 12]
  | .g1Add d a b => [.regs d.toNat 2, .regs a.toNat 2, .regs b.toNat 2]
  | .g1Dbl d a => [.regs d.toNat 2, .regs a.toNat 2]
  | .g1Neg d a => [.regs d.toNat 2, .regs a.toNat 2]
  | .g1Mul d a b => [.regs d.toNat 2, .regs a.toNat 2, .regs b.toNat 1]
  | .g1Eq a b => [.regs a.toNat 2, .regs b.toNat 2]
  | .g1Isinf a => [.regs a.toNat 2]
  | .g1Oncrv a => [.regs a.toNat 2]
  | .g1Insub a => [.regs a.toNat 2]
  | .g1Tojac d a => [.regs d.toNat 3, .regs a.toNat 2]
  | .g1Toaff d a => [.regs d.toNat 2, .regs a.toNat 3]
  | .g2Add d a b => [.regs d.toNat 4, .regs a.toNat 4, .regs b.toNat 4]
  | .g2Dbl d a => [.regs d.toNat 4, .regs a.toNat 4]
  | .g2Neg d a => [.regs d.toNat 4, .regs a.toNat 4]
  | .g2Mul d a b => [.regs d.toNat 4, .regs a.toNat 4, .regs b.toNat 1]
  | .g2Eq a b => [.regs a.toNat 4, .regs b.toNat 4]
  | .g2Isinf a => [.regs a.toNat 4]
  | .g2Oncrv a => [.regs a.toNat 4]
  | .g2Insub a => [.regs a.toNat 4]
  | .g2Tojac d a => [.regs d.toNat 6, .regs a.toNat 4]
  | .g2Toaff d a => [.regs d.toNat 4, .regs a.toNat 6]
  | .miller d a b => [.regs d.toNat 12, .regs a.toNat 2, .regs b.toNat 4]
  | .mlacc d a b => [.regs d.toNat 12, .regs a.toNat 2, .regs b.toNat 4]
  | .fexp d a => [.regs d.toNat 12, .regs a.toNat 12]
  | .fpDec r off => [.regs r.toNat 1, .iobuf off.toNat 32]
  | .fpEnc r off => [.regs r.toNat 1, .iobuf off.toNat 32]
  | .scDec r off => [.regs r.toNat 1, .iobuf off.toNat 32]
  | .f2Dec r off => [.regs r.toNat 2, .iobuf off.toNat 64]
  | .f2Enc r off => [.regs r.toNat 2, .iobuf off.toNat 64]
  | .g1Decu r off => [.regs r.toNat 2, .iobuf off.toNat 64]
  | .g1Encu r off => [.regs r.toNat 2, .iobuf off.toNat 64]
  | .g1Decc r off => [.regs r.toNat 2, .iobuf off.toNat 32]
  | .g1Encc r off => [.regs r.toNat 2, .iobuf off.toNat 32]
  | .g2Decu r off => [.regs r.toNat 4, .iobuf off.toNat 128]
  | .g2Encu r off => [.regs r.toNat 4, .iobuf off.toNat 128]
  | .g2Decc r off => [.regs r.toNat 4, .iobuf off.toNat 64]
  | .g2Encc r off => [.regs r.toNat 4, .iobuf off.toNat 64]

/-- The registers a command reads, as (base, size), in the order they are checked (60_exceptions.md R354). -/
def sourcesOf : Instr → List (Nat × Nat)
  | .nop => []
  | .mov _ a n => [(a.toNat, n.toNat)]
  | .ldi _ _ => []
  | .fpAdd _ a b => [(a.toNat, 1), (b.toNat, 1)]
  | .fpSub _ a b => [(a.toNat, 1), (b.toNat, 1)]
  | .fpNeg _ a => [(a.toNat, 1)]
  | .fpMul _ a b => [(a.toNat, 1), (b.toNat, 1)]
  | .fpSqr _ a => [(a.toNat, 1)]
  | .fpInv _ a => [(a.toNat, 1)]
  | .fpEq a b => [(a.toNat, 1), (b.toNat, 1)]
  | .f2Add _ a b => [(a.toNat, 2), (b.toNat, 2)]
  | .f2Sub _ a b => [(a.toNat, 2), (b.toNat, 2)]
  | .f2Neg _ a => [(a.toNat, 2)]
  | .f2Mul _ a b => [(a.toNat, 2), (b.toNat, 2)]
  | .f2Sqr _ a => [(a.toNat, 2)]
  | .f2Inv _ a => [(a.toNat, 2)]
  | .f2Conj _ a => [(a.toNat, 2)]
  | .f2Eq a b => [(a.toNat, 2), (b.toNat, 2)]
  | .f6Add _ a b => [(a.toNat, 6), (b.toNat, 6)]
  | .f6Sub _ a b => [(a.toNat, 6), (b.toNat, 6)]
  | .f6Neg _ a => [(a.toNat, 6)]
  | .f6Mul _ a b => [(a.toNat, 6), (b.toNat, 6)]
  | .f6Sqr _ a => [(a.toNat, 6)]
  | .f6Inv _ a => [(a.toNat, 6)]
  | .f6Eq a b => [(a.toNat, 6), (b.toNat, 6)]
  | .f12Add _ a b => [(a.toNat, 12), (b.toNat, 12)]
  | .f12Sub _ a b => [(a.toNat, 12), (b.toNat, 12)]
  | .f12Neg _ a => [(a.toNat, 12)]
  | .f12Mul _ a b => [(a.toNat, 12), (b.toNat, 12)]
  | .f12Sqr _ a => [(a.toNat, 12)]
  | .f12Inv _ a => [(a.toNat, 12)]
  | .f12Conj _ a => [(a.toNat, 12)]
  | .f12Eq a b => [(a.toNat, 12), (b.toNat, 12)]
  | .f12Frob _ a _ => [(a.toNat, 12)]
  | .f12Spmul _ a b => [(a.toNat, 12), (b.toNat, 6)]
  | .f12One _ => []
  | .f12Isone a => [(a.toNat, 12)]
  | .g1Add _ a b => [(a.toNat, 2), (b.toNat, 2)]
  | .g1Dbl _ a => [(a.toNat, 2)]
  | .g1Neg _ a => [(a.toNat, 2)]
  | .g1Mul _ a b => [(a.toNat, 2), (b.toNat, 1)]
  | .g1Eq a b => [(a.toNat, 2), (b.toNat, 2)]
  | .g1Isinf a => [(a.toNat, 2)]
  | .g1Oncrv a => [(a.toNat, 2)]
  | .g1Insub a => [(a.toNat, 2)]
  | .g1Tojac _ a => [(a.toNat, 2)]
  | .g1Toaff _ a => [(a.toNat, 3)]
  | .g2Add _ a b => [(a.toNat, 4), (b.toNat, 4)]
  | .g2Dbl _ a => [(a.toNat, 4)]
  | .g2Neg _ a => [(a.toNat, 4)]
  | .g2Mul _ a b => [(a.toNat, 4), (b.toNat, 1)]
  | .g2Eq a b => [(a.toNat, 4), (b.toNat, 4)]
  | .g2Isinf a => [(a.toNat, 4)]
  | .g2Oncrv a => [(a.toNat, 4)]
  | .g2Insub a => [(a.toNat, 4)]
  | .g2Tojac _ a => [(a.toNat, 4)]
  | .g2Toaff _ a => [(a.toNat, 6)]
  | .miller _ a b => [(a.toNat, 2), (b.toNat, 4)]
  | .mlacc d a b => [(a.toNat, 2), (b.toNat, 4), (d.toNat, 12)]
  | .fexp _ a => [(a.toNat, 12)]
  | .fpDec _ _ => []
  | .fpEnc r _ => [(r.toNat, 1)]
  | .scDec _ _ => []
  | .f2Dec _ _ => []
  | .f2Enc r _ => [(r.toNat, 2)]
  | .g1Decu _ _ => []
  | .g1Encu r _ => [(r.toNat, 2)]
  | .g1Decc _ _ => []
  | .g1Encc r _ => [(r.toNat, 2)]
  | .g2Decu _ _ => []
  | .g2Encu r _ => [(r.toNat, 4)]
  | .g2Decc _ _ => []
  | .g2Encc r _ => [(r.toNat, 4)]

/-- The registers a command writes when it succeeds, as (base, size): its destination view (30_encoding.md R116). -/
def destinationOf : Instr → Option (Nat × Nat)
  | .nop => none
  | .mov d _ n => some (d.toNat, n.toNat)
  | .ldi d _ => some (d.toNat, 1)
  | .fpAdd d _ _ => some (d.toNat, 1)
  | .fpSub d _ _ => some (d.toNat, 1)
  | .fpNeg d _ => some (d.toNat, 1)
  | .fpMul d _ _ => some (d.toNat, 1)
  | .fpSqr d _ => some (d.toNat, 1)
  | .fpInv d _ => some (d.toNat, 1)
  | .fpEq _ _ => none
  | .f2Add d _ _ => some (d.toNat, 2)
  | .f2Sub d _ _ => some (d.toNat, 2)
  | .f2Neg d _ => some (d.toNat, 2)
  | .f2Mul d _ _ => some (d.toNat, 2)
  | .f2Sqr d _ => some (d.toNat, 2)
  | .f2Inv d _ => some (d.toNat, 2)
  | .f2Conj d _ => some (d.toNat, 2)
  | .f2Eq _ _ => none
  | .f6Add d _ _ => some (d.toNat, 6)
  | .f6Sub d _ _ => some (d.toNat, 6)
  | .f6Neg d _ => some (d.toNat, 6)
  | .f6Mul d _ _ => some (d.toNat, 6)
  | .f6Sqr d _ => some (d.toNat, 6)
  | .f6Inv d _ => some (d.toNat, 6)
  | .f6Eq _ _ => none
  | .f12Add d _ _ => some (d.toNat, 12)
  | .f12Sub d _ _ => some (d.toNat, 12)
  | .f12Neg d _ => some (d.toNat, 12)
  | .f12Mul d _ _ => some (d.toNat, 12)
  | .f12Sqr d _ => some (d.toNat, 12)
  | .f12Inv d _ => some (d.toNat, 12)
  | .f12Conj d _ => some (d.toNat, 12)
  | .f12Eq _ _ => none
  | .f12Frob d _ _ => some (d.toNat, 12)
  | .f12Spmul d _ _ => some (d.toNat, 12)
  | .f12One d => some (d.toNat, 12)
  | .f12Isone _ => none
  | .g1Add d _ _ => some (d.toNat, 2)
  | .g1Dbl d _ => some (d.toNat, 2)
  | .g1Neg d _ => some (d.toNat, 2)
  | .g1Mul d _ _ => some (d.toNat, 2)
  | .g1Eq _ _ => none
  | .g1Isinf _ => none
  | .g1Oncrv _ => none
  | .g1Insub _ => none
  | .g1Tojac d _ => some (d.toNat, 3)
  | .g1Toaff d _ => some (d.toNat, 2)
  | .g2Add d _ _ => some (d.toNat, 4)
  | .g2Dbl d _ => some (d.toNat, 4)
  | .g2Neg d _ => some (d.toNat, 4)
  | .g2Mul d _ _ => some (d.toNat, 4)
  | .g2Eq _ _ => none
  | .g2Isinf _ => none
  | .g2Oncrv _ => none
  | .g2Insub _ => none
  | .g2Tojac d _ => some (d.toNat, 6)
  | .g2Toaff d _ => some (d.toNat, 4)
  | .miller d _ _ => some (d.toNat, 12)
  | .mlacc d _ _ => some (d.toNat, 12)
  | .fexp d _ => some (d.toNat, 12)
  | .fpDec r _ => some (r.toNat, 1)
  | .fpEnc _ _ => none
  | .scDec r _ => some (r.toNat, 1)
  | .f2Dec r _ => some (r.toNat, 2)
  | .f2Enc _ _ => none
  | .g1Decu r _ => some (r.toNat, 2)
  | .g1Encu _ _ => none
  | .g1Decc r _ => some (r.toNat, 2)
  | .g1Encc _ _ => none
  | .g2Decu r _ => some (r.toNat, 4)
  | .g2Encu _ _ => none
  | .g2Decc r _ => some (r.toNat, 4)
  | .g2Encc _ _ => none

/-- The bytes of IOBUF a command writes when it succeeds, as (offset, length): the encoders only (20_memory.md R80). -/
def encodedRangeOf : Instr → Option (Nat × Nat)
  | .nop => none
  | .mov _ _ _ => none
  | .ldi _ _ => none
  | .fpAdd _ _ _ => none
  | .fpSub _ _ _ => none
  | .fpNeg _ _ => none
  | .fpMul _ _ _ => none
  | .fpSqr _ _ => none
  | .fpInv _ _ => none
  | .fpEq _ _ => none
  | .f2Add _ _ _ => none
  | .f2Sub _ _ _ => none
  | .f2Neg _ _ => none
  | .f2Mul _ _ _ => none
  | .f2Sqr _ _ => none
  | .f2Inv _ _ => none
  | .f2Conj _ _ => none
  | .f2Eq _ _ => none
  | .f6Add _ _ _ => none
  | .f6Sub _ _ _ => none
  | .f6Neg _ _ => none
  | .f6Mul _ _ _ => none
  | .f6Sqr _ _ => none
  | .f6Inv _ _ => none
  | .f6Eq _ _ => none
  | .f12Add _ _ _ => none
  | .f12Sub _ _ _ => none
  | .f12Neg _ _ => none
  | .f12Mul _ _ _ => none
  | .f12Sqr _ _ => none
  | .f12Inv _ _ => none
  | .f12Conj _ _ => none
  | .f12Eq _ _ => none
  | .f12Frob _ _ _ => none
  | .f12Spmul _ _ _ => none
  | .f12One _ => none
  | .f12Isone _ => none
  | .g1Add _ _ _ => none
  | .g1Dbl _ _ => none
  | .g1Neg _ _ => none
  | .g1Mul _ _ _ => none
  | .g1Eq _ _ => none
  | .g1Isinf _ => none
  | .g1Oncrv _ => none
  | .g1Insub _ => none
  | .g1Tojac _ _ => none
  | .g1Toaff _ _ => none
  | .g2Add _ _ _ => none
  | .g2Dbl _ _ => none
  | .g2Neg _ _ => none
  | .g2Mul _ _ _ => none
  | .g2Eq _ _ => none
  | .g2Isinf _ => none
  | .g2Oncrv _ => none
  | .g2Insub _ => none
  | .g2Tojac _ _ => none
  | .g2Toaff _ _ => none
  | .miller _ _ _ => none
  | .mlacc _ _ _ => none
  | .fexp _ _ => none
  | .fpDec _ _ => none
  | .fpEnc _ off => some (off.toNat, 32)
  | .scDec _ _ => none
  | .f2Dec _ _ => none
  | .f2Enc _ off => some (off.toNat, 64)
  | .g1Decu _ _ => none
  | .g1Encu _ off => some (off.toNat, 64)
  | .g1Decc _ _ => none
  | .g1Encc _ off => some (off.toNat, 32)
  | .g2Decu _ _ => none
  | .g2Encu _ off => some (off.toNat, 128)
  | .g2Decc _ _ => none
  | .g2Encc _ off => some (off.toNat, 64)

/-- The thirteen test commands (10_state.md R39). -/
def isTest : Instr → Bool
  | .nop => false
  | .mov _ _ _ => false
  | .ldi _ _ => false
  | .fpAdd _ _ _ => false
  | .fpSub _ _ _ => false
  | .fpNeg _ _ => false
  | .fpMul _ _ _ => false
  | .fpSqr _ _ => false
  | .fpInv _ _ => false
  | .fpEq _ _ => true
  | .f2Add _ _ _ => false
  | .f2Sub _ _ _ => false
  | .f2Neg _ _ => false
  | .f2Mul _ _ _ => false
  | .f2Sqr _ _ => false
  | .f2Inv _ _ => false
  | .f2Conj _ _ => false
  | .f2Eq _ _ => true
  | .f6Add _ _ _ => false
  | .f6Sub _ _ _ => false
  | .f6Neg _ _ => false
  | .f6Mul _ _ _ => false
  | .f6Sqr _ _ => false
  | .f6Inv _ _ => false
  | .f6Eq _ _ => true
  | .f12Add _ _ _ => false
  | .f12Sub _ _ _ => false
  | .f12Neg _ _ => false
  | .f12Mul _ _ _ => false
  | .f12Sqr _ _ => false
  | .f12Inv _ _ => false
  | .f12Conj _ _ => false
  | .f12Eq _ _ => true
  | .f12Frob _ _ _ => false
  | .f12Spmul _ _ _ => false
  | .f12One _ => false
  | .f12Isone _ => true
  | .g1Add _ _ _ => false
  | .g1Dbl _ _ => false
  | .g1Neg _ _ => false
  | .g1Mul _ _ _ => false
  | .g1Eq _ _ => true
  | .g1Isinf _ => true
  | .g1Oncrv _ => true
  | .g1Insub _ => true
  | .g1Tojac _ _ => false
  | .g1Toaff _ _ => false
  | .g2Add _ _ _ => false
  | .g2Dbl _ _ => false
  | .g2Neg _ _ => false
  | .g2Mul _ _ _ => false
  | .g2Eq _ _ => true
  | .g2Isinf _ => true
  | .g2Oncrv _ => true
  | .g2Insub _ => true
  | .g2Tojac _ _ => false
  | .g2Toaff _ _ => false
  | .miller _ _ _ => false
  | .mlacc _ _ _ => false
  | .fexp _ _ => false
  | .fpDec _ _ => false
  | .fpEnc _ _ => false
  | .scDec _ _ => false
  | .f2Dec _ _ => false
  | .f2Enc _ _ => false
  | .g1Decu _ _ => false
  | .g1Encu _ _ => false
  | .g1Decc _ _ => false
  | .g1Encc _ _ => false
  | .g2Decu _ _ => false
  | .g2Encu _ _ => false
  | .g2Decc _ _ => false
  | .g2Encc _ _ => false

/-- The error kinds each command's rule lists under "Exceptions", IllegalCommand apart, which is the decoder's (60_exceptions.md R351,
R352; for F12_ONE see log 17). -/
def exceptionsOf : Instr → List ErrKind
  | .nop => []
  | .mov _ _ _ => [.operandRange, .unwrittenRegister]
  | .ldi _ _ => []
  | .fpAdd _ _ _ => [.unwrittenRegister]
  | .fpSub _ _ _ => [.unwrittenRegister]
  | .fpNeg _ _ => [.unwrittenRegister]
  | .fpMul _ _ _ => [.unwrittenRegister]
  | .fpSqr _ _ => [.unwrittenRegister]
  | .fpInv _ _ => [.unwrittenRegister, .invalidFieldElement]
  | .fpEq _ _ => [.unwrittenRegister]
  | .f2Add _ _ _ => [.operandRange, .unwrittenRegister]
  | .f2Sub _ _ _ => [.operandRange, .unwrittenRegister]
  | .f2Neg _ _ => [.operandRange, .unwrittenRegister]
  | .f2Mul _ _ _ => [.operandRange, .unwrittenRegister]
  | .f2Sqr _ _ => [.operandRange, .unwrittenRegister]
  | .f2Inv _ _ => [.operandRange, .unwrittenRegister, .invalidFieldElement]
  | .f2Conj _ _ => [.operandRange, .unwrittenRegister]
  | .f2Eq _ _ => [.operandRange, .unwrittenRegister]
  | .f6Add _ _ _ => [.operandRange, .unwrittenRegister]
  | .f6Sub _ _ _ => [.operandRange, .unwrittenRegister]
  | .f6Neg _ _ => [.operandRange, .unwrittenRegister]
  | .f6Mul _ _ _ => [.operandRange, .unwrittenRegister]
  | .f6Sqr _ _ => [.operandRange, .unwrittenRegister]
  | .f6Inv _ _ => [.operandRange, .unwrittenRegister, .invalidFieldElement]
  | .f6Eq _ _ => [.operandRange, .unwrittenRegister]
  | .f12Add _ _ _ => [.operandRange, .unwrittenRegister]
  | .f12Sub _ _ _ => [.operandRange, .unwrittenRegister]
  | .f12Neg _ _ => [.operandRange, .unwrittenRegister]
  | .f12Mul _ _ _ => [.operandRange, .unwrittenRegister]
  | .f12Sqr _ _ => [.operandRange, .unwrittenRegister]
  | .f12Inv _ _ => [.operandRange, .unwrittenRegister, .invalidFieldElement]
  | .f12Conj _ _ => [.operandRange, .unwrittenRegister]
  | .f12Eq _ _ => [.operandRange, .unwrittenRegister]
  | .f12Frob _ _ _ => [.operandRange, .unwrittenRegister]
  | .f12Spmul _ _ _ => [.operandRange, .unwrittenRegister]
  | .f12One _ => [.operandRange]
  | .f12Isone _ => [.operandRange, .unwrittenRegister]
  | .g1Add _ _ _ => [.operandRange, .unwrittenRegister, .invalidPoint]
  | .g1Dbl _ _ => [.operandRange, .unwrittenRegister, .invalidPoint]
  | .g1Neg _ _ => [.operandRange, .unwrittenRegister, .invalidPoint]
  | .g1Mul _ _ _ => [.operandRange, .unwrittenRegister, .invalidPoint]
  | .g1Eq _ _ => [.operandRange, .unwrittenRegister]
  | .g1Isinf _ => [.operandRange, .unwrittenRegister]
  | .g1Oncrv _ => [.operandRange, .unwrittenRegister]
  | .g1Insub _ => [.operandRange, .unwrittenRegister]
  | .g1Tojac _ _ => [.operandRange, .unwrittenRegister, .invalidPoint]
  | .g1Toaff _ _ => [.operandRange, .unwrittenRegister]
  | .g2Add _ _ _ => [.operandRange, .unwrittenRegister, .invalidPoint]
  | .g2Dbl _ _ => [.operandRange, .unwrittenRegister, .invalidPoint]
  | .g2Neg _ _ => [.operandRange, .unwrittenRegister, .invalidPoint]
  | .g2Mul _ _ _ => [.operandRange, .unwrittenRegister, .invalidPoint]
  | .g2Eq _ _ => [.operandRange, .unwrittenRegister]
  | .g2Isinf _ => [.operandRange, .unwrittenRegister]
  | .g2Oncrv _ => [.operandRange, .unwrittenRegister]
  | .g2Insub _ => [.operandRange, .unwrittenRegister]
  | .g2Tojac _ _ => [.operandRange, .unwrittenRegister, .invalidPoint]
  | .g2Toaff _ _ => [.operandRange, .unwrittenRegister]
  | .miller _ _ _ => [.operandRange, .unwrittenRegister, .invalidPoint]
  | .mlacc _ _ _ => [.operandRange, .unwrittenRegister, .invalidPoint]
  | .fexp _ _ => [.operandRange, .unwrittenRegister, .invalidFieldElement]
  | .fpDec _ _ => [.operandRange, .malformedEncoding]
  | .fpEnc _ _ => [.operandRange, .unwrittenRegister]
  | .scDec _ _ => [.operandRange, .malformedEncoding]
  | .f2Dec _ _ => [.operandRange, .malformedEncoding]
  | .f2Enc _ _ => [.operandRange, .unwrittenRegister]
  | .g1Decu _ _ => [.operandRange, .malformedEncoding, .invalidPoint]
  | .g1Encu _ _ => [.operandRange, .unwrittenRegister, .invalidPoint]
  | .g1Decc _ _ => [.operandRange, .malformedEncoding, .invalidPoint]
  | .g1Encc _ _ => [.operandRange, .unwrittenRegister, .invalidPoint]
  | .g2Decu _ _ => [.operandRange, .malformedEncoding, .invalidPoint, .invalidSubgroup]
  | .g2Encu _ _ => [.operandRange, .unwrittenRegister, .invalidPoint]
  | .g2Decc _ _ => [.operandRange, .malformedEncoding, .invalidPoint, .invalidSubgroup]
  | .g2Encc _ _ => [.operandRange, .unwrittenRegister, .invalidPoint]

/-- Every window of the command is in range (30_encoding.md R121). -/
def InRange (i : Instr) : Prop := ∀ w ∈ windowsOf i, w.inRange = true

/-- Every register the command reads has its valid bit (10_state.md R32). -/
def SourcesWritten (i : Instr) (s : State) : Prop :=
  ∀ w ∈ sourcesOf i, ∀ k : Nat, k < w.2 → s.valid (w.1 + k) = true

/-- Stages 2 and 3 of 60_exceptions.md R354 find no error: the windows are in range and the sources are written. -/
def Ready (i : Instr) (s : State) : Prop := InRange i ∧ SourcesWritten i s

end Sys2Proof.Machine
end

