-- ==== Sys2Proof/Safety.lean ====
section
/-! DEFINITION. The terms of the claims: what every reachable state satisfies, the launch, the end and the observation of a run, the frame of a
command, and the meaning of register contents in any ring that has the tower's u, v and w. -/

namespace Sys2Proof.Machine

/-- A legal ERRCODE beside ERRF = 1: the codes of 60_exceptions.md R351 that the block writes; 0x04, 0x06, 0x07 and 0x0B to 0xFF are never
written (93_implementation_defined.md U6, U7). -/
abbrev legalErrcode (c : BitVec 8) : Prop :=
  c = 0x01 ∨ c = 0x02 ∨ c = 0x03 ∨ c = 0x05 ∨ c = 0x08 ∨ c = 0x09 ∨ c = 0x0A

/-- The invariant of the block. -/
structure State.Inv (s : State) : Prop where
  /-- every register whose valid bit is 1 holds an integer in [0, p) (10_state.md R33) -/
  canonical : ∀ i : Nat, s.valid i = true → s.fp i < Config.p
  /-- IOBUF is in its canonical form -/
  iobuf_wf : s.iobuf.wf
  /-- CUR holds a word exactly while BUSY = 1 (10_state.md R43) -/
  cur_busy : s.busy = s.cur.isSome
  /-- DONE and ERRF are never both 1 (10_state.md R38) -/
  done_errf : ¬(s.done = true ∧ s.errf = true)
  /-- while a command is in flight DONE and ERRF are 0 (70_reset_and_hazards.md R400) -/
  busy_idle : s.busy = true → s.done = false ∧ s.errf = false
  /-- the sampled FP2ORD and CTRL.FP2ORD are equal while a command runs (70_reset_and_hazards.md R404) -/
  busy_ord : s.busy = true → s.fp2ordCmd = s.fp2ord
  /-- ERRCODE and ERRCMD are 0 whenever ERRF = 0 (10_state.md R40, R41) -/
  clear_record : s.errf = false → s.errcode = 0 ∧ s.errcmd = 0
  /-- ERRCODE is a code of 60_exceptions.md R351 while ERRF = 1 -/
  legal_record : s.errf = true → legalErrcode s.errcode

/-- The launch premises: the state is one a hard reset leaves (70_reset_and_hazards.md R391, R413) but for FP2ORD, IE and IOBUF, which are
the program's; F is unspecified and unreadable. -/
structure State.Launch (s : State) : Prop where
  busy : s.busy = false
  errf : s.errf = false
  ovr : s.ovr = false
  done : s.done = false
  valid : ∀ i : Nat, s.valid i = false
  flag : s.flag = false
  errcode : s.errcode = 0
  errcmd : s.errcmd = 0
  cur : s.cur = none
  iobuf_wf : s.iobuf.wf

/-- What is observed at the end of a run (70_reset_and_hazards.md R412). -/
structure Observation where
  f : Vector Elem 256
  v : Vector Bool 256
  flag : Bool
  done : Bool
  errf : Bool
  ovr : Bool
  errcode : BitVec 8
  errcmd : Word
  iobuf : Memory
deriving DecidableEq, Repr

/-- The observation of a state (70_reset_and_hazards.md R412). -/
def State.observe (s : State) : Observation where
  f := s.f
  v := s.v
  flag := s.flag
  done := s.done
  errf := s.errf
  ovr := s.ovr
  errcode := s.errcode
  errcmd := s.errcmd
  iobuf := s.iobuf

/-- A write of CMD (10_state.md R42). -/
def Turn.writesCmd : Turn → Bool
  | .host (.write .w32 off _) => off == 0x014
  | _ => false

/-- A read of STATUS (10_state.md R38). -/
def Turn.readsStatus : Turn → Bool
  | .host (.read .w32 off) => off == 0x008
  | _ => false

/-- A reset of either kind (70_reset_and_hazards.md R390). -/
def Turn.resets : Turn → Bool
  | .host (.hardReset _) => true
  | .host (.write .w32 off x) => off == 0x004 && x.getLsbD 0
  | _ => false

/-- The data the host read last has bit 0, BUSY of STATUS, at 0. -/
def State.readIdle (s : State) : Bool :=
  match s.rdata with
  | some w => !w.getLsbD 0
  | none => false

/-- The end of the run that the turns make from a state: the state right after the first read of STATUS, with no CMD write still to come,
that returns BUSY = 0 (70_reset_and_hazards.md R412). A run with no such read has not ended; one that a reset interrupts, or in which the host
is stuck, has no end here (log 21). -/
def runEnd : List Turn → State → Option State
  | [], _ => none
  | x :: rest, s =>
    match step { s with agenda := x :: rest } with
    | .next t =>
      if x.resets then none
      else if x.readsStatus && !rest.any Turn.writesCmd && t.readIdle then some t
      else runEnd rest t
    | .fault _ => none
    | .refused _ => none

/-- The end of the run of the program on the agenda, from a launch state (70_reset_and_hazards.md R412). -/
def State.endOfRun (s : State) : Option State := runEnd s.agenda s

/-- "The run succeeded when ERRF = 0 and OVR = 0 at its end" (70_reset_and_hazards.md R412). -/
def State.succeeded (s : State) : Bool := !s.errf && !s.ovr

/-- What a run shows: its end's observation, whether it succeeded, and its boolean result, FLAG (70_reset_and_hazards.md R412); none for a
run that has not ended. -/
def State.runOutcome (s : State) : Option (Observation × Bool × Bool) :=
  s.endOfRun.map fun t => (t.observe, t.succeeded, t.flag)

/-! ### Frames -/

/-- What every command that completes without error does to the status, and what it leaves: CTRL, ERRF, OVR, ERRCODE, ERRCMD, the sampled
order and the model's own fields (70_reset_and_hazards.md R401). -/
structure Completes (s t : State) : Prop where
  done : t.done = true
  busy : t.busy = false
  cur : t.cur = none
  fp2ord : t.fp2ord = s.fp2ord
  ie : t.ie = s.ie
  errf : t.errf = s.errf
  ovr : t.ovr = s.ovr
  errcode : t.errcode = s.errcode
  errcmd : t.errcmd = s.errcmd
  fp2ordCmd : t.fp2ordCmd = s.fp2ordCmd
  agenda : t.agenda = s.agenda
  rdata : t.rdata = s.rdata

/-- A completion that writes the `n` registers from `d` on and nothing else. -/
structure WritesRegs (s t : State) (d n : Nat) : Prop extends Completes s t where
  written : ∀ k : Nat, k < n → t.valid (d + k) = true
  other : ∀ i : Nat, i < d ∨ d + n ≤ i → t.reg i = s.reg i ∧ t.valid i = s.valid i
  flag : t.flag = s.flag
  iobuf : ∀ a : Nat, t.iobuf.read a = s.iobuf.read a

/-- A completion that writes FLAG with `c` and nothing else. -/
structure WritesFlag (s t : State) (c : Bool) : Prop extends Completes s t where
  flag : t.flag = c
  regs : ∀ i : Nat, t.reg i = s.reg i ∧ t.valid i = s.valid i
  iobuf : ∀ a : Nat, t.iobuf.read a = s.iobuf.read a

/-- A completion that writes the `len` bytes of IOBUF from `off` on and nothing else. -/
structure WritesBytes (s t : State) (off len : Nat) : Prop extends Completes s t where
  regs : ∀ i : Nat, t.reg i = s.reg i ∧ t.valid i = s.valid i
  flag : t.flag = s.flag
  iobuf : ∀ a : Nat, a < off ∨ off + len ≤ a → t.iobuf.read a = s.iobuf.read a

/-- The state after the command word `w` raised the error of code `c`: the changes of 60_exceptions.md R356 and nothing else. -/
def State.raised (s : State) (w : Word) (c : BitVec 8) : State :=
  { s with busy := false, errf := true, errcode := c, errcmd := w, cur := none }

/-- The `n` registers from `b` on hold integers in [0, p). -/
def CanonicalRegs (s : State) (b n : Nat) : Prop := ∀ k : Nat, k < n → s.fp (b + k) < Config.p

/-! ### What register contents stand for -/

/-- A commutative ring of characteristic dividing p with elements u, v, w that satisfy the tower's relations u^2 = -1, v^3 = 9 + u and
w^2 = v (42_tower.md R170); Fp12 is the one in which the twelve products of R170 are independent. -/
structure TowerIn (R : Type) [CommRing R] (u v w : R) : Prop where
  char : (Config.p : R) = 0
  u_sq : u ^ 2 = -1
  v_cube : v ^ 3 = 9 + u
  w_sq : w ^ 2 = v

variable {R : Type} [CommRing R]

/-- The value of c0 + c1*u (42_tower.md R170). -/
def Fp2.val (a : Fp2) (u : R) : R := (a.c0 : R) + (a.c1 : R) * u

/-- The value of F2[b] (42_tower.md R170). -/
def State.value2 (s : State) (b : Nat) (u : R) : R := (s.fp b : R) + (s.fp (b + 1) : R) * u

/-- The value of F6[b] (42_tower.md R170). -/
def State.value6 (s : State) (b : Nat) (u v : R) : R :=
  s.value2 b u + s.value2 (b + 2) u * v + s.value2 (b + 4) u * v ^ 2

/-- The value of F12[b] (42_tower.md R170). -/
def State.value12 (s : State) (b : Nat) (u v w : R) : R := s.value6 b u v + s.value6 (b + 6) u v * w

/-- The value of the sparse operand SP[b], s0 + s1*w + s3*w^3 (42_tower.md R207). -/
def State.valueSparse (s : State) (b : Nat) (u w : R) : R :=
  s.value2 b u + s.value2 (b + 2) u * w + s.value2 (b + 4) u * w ^ 3

/-- `be` of the `n` bytes of IOBUF from `off` on (00_scope.md R18): the sum of the bytes by their weights. -/
def Memory.beAt (m : Memory) (off n : Nat) : Nat :=
  ∑ k ∈ Finset.range n, (m.read (off + k)).toNat * 256 ^ (n - 1 - k)

/-! ### Points -/

/-- A G1 point with coordinates in [0, p), or O. -/
def canonical1 : Point Nat → Prop
  | .inf => True
  | .aff x y => x < Config.p ∧ y < Config.p

/-- An Fp2 element with coordinates in [0, p). -/
def Fp2.canonical (a : Fp2) : Prop := a.c0 < Config.p ∧ a.c1 < Config.p

/-- A G2 point with coordinates in [0, p), or O. -/
def canonical2 : Point Fp2 → Prop
  | .inf => True
  | .aff x y => x.canonical ∧ y.canonical

/-- P3 is the sum of P1 and P2 by the case list of 43_curve.md R230, its division read as "lambda times the divisor is the dividend". -/
def ChordTangent {K : Type} (F : FieldOps K) : Point K → Point K → Point K → Prop
  | .inf, P2, P3 => P3 = P2
  | .aff x1 y1, .inf, P3 => P3 = .aff x1 y1
  | .aff x1 y1, .aff x2 y2, P3 =>
    (x1 = x2 ∧ F.add y1 y2 = F.zero ∧ P3 = .inf) ∨
    (¬(x1 = x2 ∧ F.add y1 y2 = F.zero) ∧ ∃ lambda x3 y3 : K, P3 = .aff x3 y3 ∧
      (x1 = x2 → F.mul lambda (F.add y1 y1) = F.add (F.add (F.mul x1 x1) (F.mul x1 x1)) (F.mul x1 x1)) ∧
      (x1 ≠ x2 → F.mul lambda (F.sub x2 x1) = F.sub y2 y1) ∧
      x3 = F.sub (F.sub (F.mul lambda lambda) x1) x2 ∧
      y3 = F.sub (F.mul lambda (F.sub x1 x3)) y1)

/-- The `k`-fold sum Q + Q + ... + Q, with [0]Q = O (43_curve.md R232). -/
def repeatedSum {K : Type} [DecidableEq K] (F : FieldOps K) (Q : Point K) : Nat → Point K
  | 0 => .inf
  | k + 1 => (repeatedSum F Q k).add F Q

/-! ### The Miller value -/

section Miller

variable (u w : R) (xP yP : Nat)

/-- The value of LINE at P = (xP, yP) for points T and S of the twist, by the cases of 44_pairing.md R283 and in the sparse form of R284. -/
def LineValue : Point Fp2 → Point Fp2 → R → Prop
  | .inf, _, l => l = 1
  | .aff _ _, .inf, l => l = 1
  | .aff x1 y1, .aff x2 y2, l =>
    let sparse (slope : R) : R := (yP : R) - slope * (xP : R) * w + (slope * x1.val u - y1.val u) * w ^ 3
    (x1 ≠ x2 → ∃ lambda : Fp2, lambda.mul (x2.sub x1) = y2.sub y1 ∧ l = sparse (lambda.val u)) ∧
    (x1 = x2 → y1 = y2 ∧ y1 ≠ Fp2.zero → ∃ lambda : Fp2,
      lambda.mul (y1.add y1) = ((x1.mul x1).add (x1.mul x1)).add (x1.mul x1) ∧ l = sparse (lambda.val u)) ∧
    (x1 = x2 → ¬(y1 = y2 ∧ y1 ≠ Fp2.zero) → l = (xP : R) - x1.val u * w ^ 2)

/-- The loop of 44_pairing.md R282 over bits `n - 1` down to 0 of ATE, from the value f and the running point T to g and U: line values
multiplied in, the running point following the sums of the group law. -/
def MillerLoop (Q : Point Fp2) : Nat → R → Point Fp2 → R → Point Fp2 → Prop
  | 0, f, T, g, U => g = f ∧ U = T
  | n + 1, f, T, g, U => ∃ (l : R) (T1 : Point Fp2), LineValue u w xP yP T T l ∧ ChordTangent fp2Ops T T T1 ∧
    (Nat.testBit 29793968203157093288 n = false → MillerLoop Q n (f * f * l) T1 g U) ∧
    (Nat.testBit 29793968203157093288 n = true → ∃ (l' : R) (T2 : Point Fp2), LineValue u w xP yP T1 Q l' ∧
      ChordTangent fp2Ops T1 Q T2 ∧ MillerLoop Q n (f * f * l * l') T2 g U)

/-- `z` is miller(P, Q) for the affine points P = (xP, yP) and Q = (x, y): the loop from 1 and Q, then the lines to Q1 and to -Q2, which are the
points of the twist whose images under psi are pi(psi(Q)) and pi^2(psi(Q)) (44_pairing.md R281, R282). -/
def MillerValue (x y : Fp2) (z : R) : Prop :=
  ∃ (g l1 l2 : R) (T T1 : Point Fp2) (x1 y1 x2 y2 : Fp2),
    MillerLoop u w xP yP (.aff x y) 64 1 (.aff x y) g T ∧
    (x1.canonical ∧ y1.canonical ∧ x1.val u * w ^ 2 = (x.val u * w ^ 2) ^ Config.p ∧ y1.val u * w ^ 3 = (y.val u * w ^ 3) ^ Config.p) ∧
    (x2.canonical ∧ y2.canonical ∧
      x2.val u * w ^ 2 = (x.val u * w ^ 2) ^ Config.p ^ 2 ∧ y2.val u * w ^ 3 = (y.val u * w ^ 3) ^ Config.p ^ 2) ∧
    LineValue u w xP yP T (.aff x1 y1) l1 ∧ ChordTangent fp2Ops T (.aff x1 y1) T1 ∧
    LineValue u w xP yP T1 (.aff x2 y2.neg) l2 ∧ z = g * l1 * l2

end Miller

end Sys2Proof.Machine
end

