-- ==== Sys2Proof/Certificates/Slice0/Obligations.lean ====
section
/-! DEFINITION. The statements for the provers: one definition each, named in OBLIGATIONS.json. -/

open Sys2Proof Sys2Proof.Machine

/-- The nine encoding examples decode to, and are the encodings of, the commands they stand for (stated: R123). -/
def Obligations.DecodeExamples : Prop :=
  (decode 0x02010313 = .ok (.fpMul 3 1 2) ∧ encode (.fpMul 3 1 2) = 0x02010313) ∧
  (decode 0x00010312 = .ok (.fpNeg 3 1) ∧ encode (.fpNeg 3 1) = 0x00010312) ∧
  (decode 0x02010016 = .ok (.fpEq 1 2) ∧ encode (.fpEq 1 2) = 0x02010016) ∧
  (decode 0x12340502 = .ok (.ldi 5 0x1234) ∧ encode (.ldi 5 0x1234) = 0x12340502) ∧
  (decode 0x0C140A01 = .ok (.mov 10 20 12) ∧ encode (.mov 10 20 12) = 0x0C140A01) ∧
  (decode 0x02342848 = .ok (.f12Frob 40 52 2) ∧ encode (.f12Frob 40 52 2) = 0x02342848) ∧
  (decode 0x01C40085 = .ok (.g1Decu 0 452) ∧ encode (.g1Decu 0 452) = 0x01C40085) ∧
  (decode 0x14122070 = .ok (.miller 32 18 20) ∧ encode (.miller 32 18 20) = 0x14122070) ∧
  (decode 0x00000000 = .ok .nop ∧ encode .nop = 0x00000000)

/-- Decoding the encoding of any well-formed command gives it back (derived: 30_encoding.md R111 to R113, R116, R118, R120). -/
def Obligations.DecodeEncode : Prop :=
  ∀ i : Instr, i.wellFormed = true → decode (encode i) = .ok i

/-- A word that decodes is well formed and is the one encoding of its command (derived: 30_encoding.md R110, R116, R118). -/
def Obligations.EncodeDecode : Prop :=
  ∀ (w : Word) (i : Instr), decode w = .ok i → i.wellFormed = true ∧ encode i = w

/-- The undefined opcodes are exactly the nine ranges of R117, and such a command raises IllegalCommand and does nothing else (stated:
R117). -/
def Obligations.IllegalOpcodes : Prop :=
  ∀ w : Word,
    let o := w.toNat % 256
    let illegal := (0x03 ≤ o ∧ o ≤ 0x0F) ∨ (0x17 ≤ o ∧ o ≤ 0x1F) ∨ (0x28 ≤ o ∧ o ≤ 0x2F) ∨ (0x37 ≤ o ∧ o ≤ 0x3F) ∨
      (0x4C ≤ o ∧ o ≤ 0x4F) ∨ (0x5A ≤ o ∧ o ≤ 0x5F) ∨ (0x6A ≤ o ∧ o ≤ 0x6F) ∨ (0x73 ≤ o ∧ o ≤ 0x7F) ∨ (0x8D ≤ o ∧ o ≤ 0xFF)
    (illegal ↔ decode w = .error .undefinedOpcode) ∧
    ∀ s : State, s.busy = true → s.cur = some w → illegal → engineTurn s = .next (s.raised w 0x08)

/-- A nonzero unused field and a MOV count of 0 raise IllegalCommand; the only NOP word is 0 (stated: R118). -/
def Obligations.UnusedFields : Prop :=
  ∀ w : Word,
    let o := w.toNat % 256
    let D := w.toNat / 2 ^ 8 % 256
    let A := w.toNat / 2 ^ 16 % 256
    let B := w.toNat / 2 ^ 24
    let zeroD := [0x00, 0x16, 0x27, 0x36, 0x47, 0x4B, 0x54, 0x55, 0x56, 0x57, 0x64, 0x65, 0x66, 0x67]
    let zeroA := [0x00, 0x4A]
    let zeroB := [0x00, 0x12, 0x14, 0x15, 0x22, 0x24, 0x25, 0x26, 0x32, 0x34, 0x35, 0x42, 0x44, 0x45, 0x46, 0x4A, 0x4B,
      0x51, 0x52, 0x55, 0x56, 0x57, 0x58, 0x59, 0x61, 0x62, 0x65, 0x66, 0x67, 0x68, 0x69, 0x72]
    let unused := (o ∈ zeroD ∧ D ≠ 0) ∨ (o ∈ zeroA ∧ A ≠ 0) ∨ (o ∈ zeroB ∧ B ≠ 0)
    let noCount := o = 0x01 ∧ B = 0
    (unused ↔ decode w = .error .fieldNotZero) ∧
    (noCount ↔ decode w = .error .movCountZero) ∧
    (∀ s : State, s.busy = true → s.cur = some w → unused ∨ noCount → engineTurn s = .next (s.raised w 0x08)) ∧
    (o = 0x02 ∨ (0x80 ≤ o ∧ o ≤ 0x8C) → ∃ i : Instr, decode w = .ok i) ∧
    (decode w = .ok .nop ↔ w = 0)

/-- A hard reset gives every piece of state its reset value in one step, for every content IOBUF may take (stated: R49, R391). -/
def Obligations.HardReset : Prop :=
  ∀ (s : State) (draw : List Byte), ∃ t : State, hostTurn (.hardReset draw) s = .next t ∧
    (∀ i : Nat, t.valid i = false) ∧ t.fp2ord = false ∧ t.ie = false ∧
    t.busy = false ∧ t.done = false ∧ t.errf = false ∧ t.flag = false ∧ t.ovr = false ∧
    t.errcode = 0 ∧ t.errcmd = 0 ∧ t.cur = none ∧ t.irq = false ∧ t.readRegister 0x00 = 0x47313601 ∧
    ∀ a : Nat, a < 4096 → a < draw.length → t.iobuf.read a = draw.getD a 0

/-- A CTRL write with bit 0 set is a soft reset: it keeps IOBUF and the bits of F and abandons a command in flight (stated: R392). -/
def Obligations.SoftReset : Prop :=
  ∀ (s : State) (x : Word), x.getLsbD 0 = true → ∃ t : State, hostTurn (.write .w32 0x004 x) s = .next t ∧
    t = { s with
      v := Vector.replicate 256 false, fp2ord := false, ie := false, busy := false, done := false, errf := false,
      flag := false, ovr := false, errcode := 0, errcmd := 0, cur := none } ∧
    engineTurn t = .next t

/-- The invariant holds at reset, whatever the bytes of IOBUF, and State.reset is what one hard reset leaves (the model's choice: logs 3, 4,
6, 14) (derived: 10_state.md R33, R38, R40, R41, R43, R49, 70_reset_and_hazards.md R404, model choice: logs 3, 4, 6, 14). -/
def Obligations.ResetInvariant : Prop :=
  (State.reset.Inv ∧ ∀ m : Memory, m.wf → (State.resetWith m).Inv) ∧
  (∃ draw : List Byte, hostTurn (.hardReset draw) State.reset = .next State.reset)

/-- Every step keeps the invariant: valid registers stay in [0, p), DONE and ERRF exclude each other, the record stays legal (derived:
10_state.md R33, R38, R40, R41, R43, 60_exceptions.md R351, 70_reset_and_hazards.md R400, R401, R404). -/
def Obligations.StepKeepsInvariant : Prop :=
  ∀ s t : State, s.Inv → step s = .next t → t.Inv

/-- A step runs the decoded command of CUR, an illegal word raises IllegalCommand, an idle engine does nothing (derived:
70_reset_and_hazards.md R401, R414, 60_exceptions.md R354, R372, model choice: logs 1, 2, 13). -/
def Obligations.StepRunsCommand : Prop :=
  (∀ (s : State) (w : Word), s.agenda = [] ∨ (∃ rest, s.agenda = .engine :: rest) → s.busy = true → s.cur = some w →
    (∀ i : Instr, decode w = .ok i → step s = exec i { s with agenda := s.agenda.tail }) ∧
    (∀ e : Reject, decode w = .error e → step s = .next (({ s with agenda := s.agenda.tail } : State).raised w 0x08))) ∧
  (∀ s : State, s.agenda = [] ∨ (∃ rest, s.agenda = .engine :: rest) → s.busy = false →
    step s = .next { s with agenda := s.agenda.tail }) ∧
  (∀ (s : State) (a : Access) (rest : List Turn), s.agenda = .host a :: rest → step s = hostTurn a { s with agenda := rest }) ∧
  (∀ (s : State) (w : Word) (i : Instr), decode w = .ok i →
    step (s.withFetchWord 32 w.toNat) = exec i { s with cur := some w, busy := true, done := false, fp2ordCmd := s.fp2ord })

/-- A CMD write is dropped with OVR set while BUSY or ERRF is 1, and is accepted unchecked otherwise (stated: R400). -/
def Obligations.Acceptance : Prop :=
  ∀ (s : State) (w : Word),
    (s.busy = true ∨ s.errf = true → hostTurn (.write .w32 0x014 w) s = .next { s with ovr := true }) ∧
    (s.busy = false → s.errf = false →
      let t : State := { s with cur := some w, busy := true, done := false, fp2ordCmd := s.fp2ord }
      hostTurn (.write .w32 0x014 w) s = .next t ∧
      ∀ e : Reject, decode w = .error e → engineTurn t = .next (t.raised w 0x08))

/-- ERRF rises only in the completion of a command, which then changes BUSY, ERRF, ERRCODE, ERRCMD and CUR and nothing else (derived:
60_exceptions.md R356, R357, R360, 70_reset_and_hazards.md R401). -/
def Obligations.ErrorEntry : Prop :=
  ∀ s t : State, s.Inv → s.errf = false → step s = .next t → t.errf = true →
    ∃ (w : Word) (k : ErrKind), s.busy = true ∧ s.cur = some w ∧
      t = { s with agenda := s.agenda.tail, busy := false, errf := true, errcode := k.code, errcmd := w, cur := none }

/-- A recorded error is sticky and never overwritten: only a STATUS write of bit 2, a soft reset or a hard reset ends it (derived:
60_exceptions.md R358, R359, R360). -/
def Obligations.RecordedErrorPersists : Prop :=
  ∀ s t : State, s.Inv → s.errf = true → step s = .next t →
    (t.errf = true ∧ t.errcode = s.errcode ∧ t.errcmd = s.errcmd ∧ t.busy = false ∧ t.f = s.f ∧ t.v = s.v ∧ t.flag = s.flag) ∨
    (t.errf = false ∧ ∃ (a : Access) (rest : List Turn), s.agenda = .host a :: rest ∧
      ((∃ draw, a = .hardReset draw) ∨ (∃ x : Word, a = .write .w32 0x004 x ∧ x.getLsbD 0 = true) ∨
        (∃ x : Word, a = .write .w32 0x008 x ∧ x.getLsbD 2 = true)))

/-- Every command word on every content of F and IOBUF completes: with DONE = 1, or with ERRF = 1 and a code of R351 (stated: R365). -/
def Obligations.NoPanics : Prop :=
  ∀ (s : State) (w : Word), s.busy = true → s.cur = some w → s.done = false → s.errf = false →
    ∃ t : State, engineTurn s = .next t ∧ t.busy = false ∧
      ((t.done = true ∧ t.errf = false) ∨ (t.done = false ∧ t.errf = true ∧ legalErrcode t.errcode))

/-- A command reads F, V, IOBUF and the sampled FP2ORD and nothing else (derived: 70_reset_and_hazards.md R401, R402, 10_state.md R46). -/
def Obligations.ExecInputs : Prop :=
  ∀ (i : Instr) (s1 s2 : State), s1.f = s2.f → s1.v = s2.v → s1.iobuf = s2.iobuf → s1.fp2ordCmd = s2.fp2ordCmd →
    ∃ r : Except ErrKind Effect, exec i s1 = .next (s1.complete r) ∧ exec i s2 = .next (s2.complete r)

/-- No host access but a reset changes the inputs of a command in flight (derived: 70_reset_and_hazards.md R401, R404, 20_memory.md R76). -/
def Obligations.InputsClosed : Prop :=
  ∀ (s t : State) (a : Access), s.busy = true → hostTurn a s = .next t →
    (∀ draw, a ≠ .hardReset draw) → (∀ x : Word, x.getLsbD 0 = true → a ≠ .write .w32 0x004 x) →
    t.f = s.f ∧ t.v = s.v ∧ t.iobuf = s.iobuf ∧ t.cur = s.cur ∧ t.busy = true ∧ t.fp2ord = s.fp2ord ∧ t.fp2ordCmd = s.fp2ordCmd

/-- What a command may change: its destination window, FLAG for a test command, its byte range for an encoder, and the status (derived:
10_state.md R39, 20_memory.md R80, 30_encoding.md R116, 70_reset_and_hazards.md R401, R402). -/
def Obligations.CommandFrame : Prop :=
  ∀ (i : Instr) (s t : State), exec i s = .next t →
    (∀ j : Nat, (∀ d n : Nat, destinationOf i = some (d, n) → j < d ∨ d + n ≤ j) → t.reg j = s.reg j ∧ t.valid j = s.valid j) ∧
    (isTest i = false → t.flag = s.flag) ∧
    (∀ a : Nat, (∀ off n : Nat, encodedRangeOf i = some (off, n) → a < off ∨ off + n ≤ a) → t.iobuf.read a = s.iobuf.read a) ∧
    t.fp2ord = s.fp2ord ∧ t.ie = s.ie ∧ t.ovr = s.ovr ∧ t.fp2ordCmd = s.fp2ordCmd ∧ t.agenda = s.agenda ∧ t.rdata = s.rdata ∧
    t.busy = false ∧ t.cur = none ∧
    (s.errf = false → t.errf = true → t.f = s.f ∧ t.v = s.v ∧ t.iobuf = s.iobuf ∧ t.flag = s.flag ∧ t.done = s.done)

/-- A command with a window past F[255] or a byte range past IOBUF[4095] raises OperandRange; windows do not wrap (stated: R121). -/
def Obligations.OperandRange : Prop :=
  ∀ (i : Instr) (s : State) (w : Word), s.cur = some w →
    ((∃ x ∈ windowsOf i, (∃ b n : Nat, x = .regs b n ∧ 256 < b + n) ∨ (∃ off len : Nat, x = .iobuf off len ∧ 4096 < off + len)) →
      exec i s = .next (s.raised w 0x09)) ∧
    ((∀ x ∈ windowsOf i, (∀ b n : Nat, x = .regs b n → b + n ≤ 256) ∧ (∀ off len : Nat, x = .iobuf off len → off + len ≤ 4096)) →
      s.errf = false → exec i s ≠ .next (s.raised w 0x09))

/-- A command whose windows are in range and which reads a register with valid bit 0 raises UnwrittenRegister (derived: 10_state.md R32,
60_exceptions.md R354). -/
def Obligations.UnwrittenRegister : Prop :=
  ∀ (i : Instr) (s : State) (w : Word), s.cur = some w → InRange i →
    (∃ x ∈ sourcesOf i, ∃ k : Nat, k < x.2 ∧ s.valid (x.1 + k) = false) → exec i s = .next (s.raised w 0x0A)

/-- A command raises only the kinds its rule lists under Exceptions (derived: 60_exceptions.md R351, R352 (for F12_ONE the model follows
42_tower.md R205, log 17)). -/
def Obligations.RaisesOnlyListed : Prop :=
  ∀ (i : Instr) (s t : State) (w : Word), s.cur = some w → s.errf = false → exec i s = .next t → t.errf = true →
    ∃ k ∈ exceptionsOf i, t = s.raised w k.code

/-- What a 32-bit read of each register offset returns, with no other effect (derived: 10_state.md R36 to R42, 20_memory.md R74). -/
def Obligations.RegisterReads : Prop :=
  ∀ (s : State) (off : BitVec 13), off.toNat < 0x1000 → off.toNat % 4 = 0 → ∃ x : Word,
    hostTurn (.read .w32 off) s = .next { s with rdata := some x } ∧
    (off.toNat = 0x000 → x = 0x47313601) ∧
    (off.toNat = 0x004 → x.toNat = 2 * s.fp2ord.toNat + 4 * s.ie.toNat) ∧
    (off.toNat = 0x008 → x.toNat = s.busy.toNat + 2 * s.done.toNat + 4 * s.errf.toNat + 8 * s.flag.toNat + 16 * s.ovr.toNat) ∧
    (off.toNat = 0x00C → x.toNat = s.errcode.toNat) ∧
    (off.toNat = 0x010 → x = s.errcmd) ∧
    (0x014 ≤ off.toNat → x = 0)

/-- CTRL: bit 0 written 1 is a soft reset, else IE takes bit 2 and FP2ORD takes bit 1 only while BUSY = 0; it reads back bits 1 and 2
(stated: R37). -/
def Obligations.ControlWrites : Prop :=
  (∀ (s : State) (x : Word), hostTurn (.write .w32 0x004 x) s = .next
    (if x.getLsbD 0 then
      { s with
        v := Vector.replicate 256 false, fp2ord := false, ie := false, busy := false, done := false, errf := false,
        flag := false, ovr := false, errcode := 0, errcmd := 0, cur := none }
    else { s with ie := x.getLsbD 2, fp2ord := if s.busy then s.fp2ord else x.getLsbD 1 })) ∧
  (∀ s : State, ∃ x : Word, hostTurn (.read .w32 0x004) s = .next { s with rdata := some x } ∧
    ∀ k : Nat, x.getLsbD k = ((k = 1 ∧ s.fp2ord = true) ∨ (k = 2 ∧ s.ie = true) : Bool)) ∧
  State.reset.fp2ord = false ∧ State.reset.ie = false

/-- A STATUS write clears DONE, the error record and OVR where it has a 1 in bits 1, 2 and 4; the read-only and reserved registers ignore
writes (derived: 10_state.md R38, 60_exceptions.md R359, 20_memory.md R74). -/
def Obligations.StatusWrites : Prop :=
  (∀ (s : State) (x : Word), hostTurn (.write .w32 0x008 x) s = .next { s with
    done := s.done && !x.getLsbD 1, errf := s.errf && !x.getLsbD 2,
    errcode := if x.getLsbD 2 then 0 else s.errcode, errcmd := if x.getLsbD 2 then 0 else s.errcmd,
    ovr := s.ovr && !x.getLsbD 4 }) ∧
  (∀ (s t : State) (x w : Word), x.getLsbD 2 = true → s.busy = false → hostTurn (.write .w32 0x008 x) s = .next t →
    ∃ t' : State, hostTurn (.write .w32 0x014 w) t = .next t' ∧ t'.cur = some w ∧ t'.busy = true) ∧
  (∀ (s : State) (off : BitVec 13) (x : Word), off.toNat < 0x1000 → off.toNat % 4 = 0 →
    off.toNat ≠ 0x004 → off.toNat ≠ 0x008 → off.toNat ≠ 0x014 → hostTurn (.write .w32 off x) s = .next s)

/-- The host port of IOBUF: byte and little-endian word accesses while idle, reads of 0 and dropped writes while BUSY = 1 (stated: R75,
R76). -/
def Obligations.IobufPort : Prop :=
  ∀ (s : State) (a : Nat), a < 4096 → s.iobuf.wf →
    let off : BitVec 13 := BitVec.ofNat 13 (0x1000 + a)
    (s.busy = true → ∀ x : Word,
      hostTurn (.read .w8 off) s = .next { s with rdata := some 0 } ∧ hostTurn (.write .w8 off x) s = .next s ∧
      (a % 4 = 0 → hostTurn (.read .w32 off) s = .next { s with rdata := some 0 } ∧ hostTurn (.write .w32 off x) s = .next s)) ∧
    (s.busy = false →
      (∃ x : Word, hostTurn (.read .w8 off) s = .next { s with rdata := some x } ∧ x.toNat = (s.iobuf.read a).toNat) ∧
      (∀ x : Word, ∃ m : Memory, hostTurn (.write .w8 off x) s = .next { s with iobuf := m } ∧
        (m.read a).toNat = x.toNat % 256 ∧ ∀ b : Nat, b ≠ a → m.read b = s.iobuf.read b) ∧
      (a % 4 = 0 →
        (∃ x : Word, hostTurn (.read .w32 off) s = .next { s with rdata := some x } ∧
          x.toNat = (s.iobuf.read a).toNat + 2 ^ 8 * (s.iobuf.read (a + 1)).toNat + 2 ^ 16 * (s.iobuf.read (a + 2)).toNat +
            2 ^ 24 * (s.iobuf.read (a + 3)).toNat) ∧
        (∀ x : Word, ∃ m : Memory, hostTurn (.write .w32 off x) s = .next { s with iobuf := m } ∧
          (∀ i : Nat, i < 4 → (m.read (a + i)).toNat = x.toNat / 2 ^ (8 * i) % 256) ∧
          ∀ b : Nat, b < a ∨ a + 4 ≤ b → m.read b = s.iobuf.read b)))

/-- A 16-bit or 64-bit access, a misaligned 32-bit access and an 8-bit access to a register offset are refused; every other access is
admitted (stated: R73). -/
def Obligations.RefusedAccess : Prop :=
  ∀ (s : State) (wd : Width) (off : BitVec 13) (x : Word),
    let refused := wd = .w16 ∨ wd = .w64 ∨ (wd = .w32 ∧ off.toNat % 4 ≠ 0) ∨ (wd = .w8 ∧ off.toNat < 0x1000)
    (refused → hostTurn (.read wd off) s = .fault .busError ∧ hostTurn (.write wd off x) s = .fault .busError) ∧
    (¬refused → (∃ t : State, hostTurn (.read wd off) s = .next t) ∧ ∃ t : State, hostTurn (.write wd off x) s = .next t)

/-- IRQ is IE and (DONE or ERRF): it is up after every completion with IE = 1, and falls with acceptance, a clearing STATUS write or IE = 0
(derived: 10_state.md R44, 60_exceptions.md R361, R362). -/
def Obligations.InterruptLevel : Prop :=
  (∀ s : State, s.irq = true ↔ s.ie = true ∧ (s.done = true ∨ s.errf = true)) ∧
  (∀ (s t : State) (w : Word), s.busy = true → s.cur = some w → s.ie = true → engineTurn s = .next t → t.irq = true) ∧
  (∀ (s t : State) (w : Word), s.busy = false → s.errf = false → hostTurn (.write .w32 0x014 w) s = .next t → t.irq = false) ∧
  (∀ (s t : State) (x : Word), x.getLsbD 1 = true → x.getLsbD 2 = true → hostTurn (.write .w32 0x008 x) s = .next t → t.irq = false) ∧
  (∀ (s t : State) (x : Word), x.getLsbD 0 = false → hostTurn (.write .w32 0x004 x) s = .next t →
    (x.getLsbD 2 = false → t.irq = false) ∧ (x.getLsbD 2 = true → t.irq = (s.done || s.errf)))

/-- NOP, LDI and F12_ONE complete and write nothing, the zero-extended immediate, and the twelve registers of 1 (derived: 46_control.md
R340, R342, 42_tower.md R205). -/
def Obligations.NopAndConstants : Prop :=
  (∀ s : State, exec .nop s = .next { s with done := true, busy := false, cur := none }) ∧
  (∀ (d : RegIdx) (imm : Half) (s : State), ∃ t : State, exec (.ldi d imm) s = .next t ∧ WritesRegs s t d.toNat 1 ∧
    t.fp d.toNat = imm.toNat ∧ t.fp d.toNat < Config.p) ∧
  (∀ (d : RegIdx) (s : State), Ready (.f12One d) s → ∃ t : State, exec (.f12One d) s = .next t ∧ WritesRegs s t d.toNat 12 ∧
    t.reg d.toNat = 1 ∧ ∀ k : Nat, 1 ≤ k → k < 12 → t.reg (d.toNat + k) = 0)

/-- MOV copies n registers as they were before the command, overlapping windows included, and writes nothing else (derived: 46_control.md
R341, 70_reset_and_hazards.md R403). -/
def Obligations.BlockCopy : Prop :=
  ∀ (d a n : RegIdx) (s : State), Ready (.mov d a n) s → ∃ t : State, exec (.mov d a n) s = .next t ∧
    WritesRegs s t d.toNat n.toNat ∧ ∀ k : Nat, k < n.toNat → t.reg (d.toNat + k) = s.reg (a.toNat + k)

/-- FP_ADD, FP_SUB, FP_MUL, FP_NEG and FP_SQR write the integer result reduced mod p to F[D] and nothing else (derived: 41_fp.md R140 to
R146). -/
def Obligations.FpArithmetic : Prop :=
  (∀ (d a b : RegIdx) (s : State), Ready (.fpAdd d a b) s → ∃ t : State, exec (.fpAdd d a b) s = .next t ∧
    WritesRegs s t d.toNat 1 ∧ (t.fp d.toNat : ℤ) = ((s.fp a.toNat : ℤ) + s.fp b.toNat) % Config.p) ∧
  (∀ (d a b : RegIdx) (s : State), Ready (.fpSub d a b) s → ∃ t : State, exec (.fpSub d a b) s = .next t ∧
    WritesRegs s t d.toNat 1 ∧ (t.fp d.toNat : ℤ) = ((s.fp a.toNat : ℤ) - s.fp b.toNat) % Config.p) ∧
  (∀ (d a b : RegIdx) (s : State), Ready (.fpMul d a b) s → ∃ t : State, exec (.fpMul d a b) s = .next t ∧
    WritesRegs s t d.toNat 1 ∧ (t.fp d.toNat : ℤ) = ((s.fp a.toNat : ℤ) * s.fp b.toNat) % Config.p) ∧
  (∀ (d a : RegIdx) (s : State), Ready (.fpNeg d a) s → ∃ t : State, exec (.fpNeg d a) s = .next t ∧
    WritesRegs s t d.toNat 1 ∧ (t.fp d.toNat : ℤ) = (Config.p - (s.fp a.toNat : ℤ)) % Config.p) ∧
  (∀ (d a : RegIdx) (s : State), Ready (.fpSqr d a) s → ∃ t : State, exec (.fpSqr d a) s = .next t ∧
    WritesRegs s t d.toNat 1 ∧ (t.fp d.toNat : ℤ) = ((s.fp a.toNat : ℤ) * s.fp a.toNat) % Config.p)

/-- FP_INV writes the number in [1, p) whose product with the source is 1 mod p (derived: 41_fp.md R147, 00_scope.md R16). -/
def Obligations.FpInverse : Prop :=
  ∀ (d a : RegIdx) (s : State), s.Inv → Ready (.fpInv d a) s → s.fp a.toNat ≠ 0 → ∃ t : State, exec (.fpInv d a) s = .next t ∧
    WritesRegs s t d.toNat 1 ∧ t.fp d.toNat < Config.p ∧ s.fp a.toNat * t.fp d.toNat % Config.p = 1

/-- FP_INV, F2_INV, F6_INV, F12_INV and FEXP of zero raise InvalidFieldElement and change nothing else (derived: 41_fp.md R147, R149,
42_tower.md R180, R190, R200, 44_pairing.md R287). -/
def Obligations.ZeroInversion : Prop :=
  ∀ (d a : RegIdx) (s : State) (w : Word), s.cur = some w →
    (Ready (.fpInv d a) s → (∀ k : Nat, k < 1 → s.reg (a.toNat + k) = 0) → exec (.fpInv d a) s = .next (s.raised w 0x05)) ∧
    (Ready (.f2Inv d a) s → (∀ k : Nat, k < 2 → s.reg (a.toNat + k) = 0) → exec (.f2Inv d a) s = .next (s.raised w 0x05)) ∧
    (Ready (.f6Inv d a) s → (∀ k : Nat, k < 6 → s.reg (a.toNat + k) = 0) → exec (.f6Inv d a) s = .next (s.raised w 0x05)) ∧
    (Ready (.f12Inv d a) s → (∀ k : Nat, k < 12 → s.reg (a.toNat + k) = 0) → exec (.f12Inv d a) s = .next (s.raised w 0x05)) ∧
    (Ready (.fexp d a) s → (∀ k : Nat, k < 12 → s.reg (a.toNat + k) = 0) → exec (.fexp d a) s = .next (s.raised w 0x05))

/-- The equality, ISONE and ISINF tests write FLAG with the comparison of the registers and change nothing else (derived: 41_fp.md R148,
42_tower.md R182, R191, R202, R206, 43_curve.md R239, R240, R254, R255, 10_state.md R39). -/
def Obligations.RegisterTests : Prop :=
  (∀ (a b : RegIdx) (s : State), Ready (.fpEq a b) s → ∃ (t : State) (c : Bool), exec (.fpEq a b) s = .next t ∧ WritesFlag s t c ∧
    (c = true ↔ ∀ k : Nat, k < 1 → s.reg (a.toNat + k) = s.reg (b.toNat + k))) ∧
  (∀ (a b : RegIdx) (s : State), Ready (.f2Eq a b) s → ∃ (t : State) (c : Bool), exec (.f2Eq a b) s = .next t ∧ WritesFlag s t c ∧
    (c = true ↔ ∀ k : Nat, k < 2 → s.reg (a.toNat + k) = s.reg (b.toNat + k))) ∧
  (∀ (a b : RegIdx) (s : State), Ready (.f6Eq a b) s → ∃ (t : State) (c : Bool), exec (.f6Eq a b) s = .next t ∧ WritesFlag s t c ∧
    (c = true ↔ ∀ k : Nat, k < 6 → s.reg (a.toNat + k) = s.reg (b.toNat + k))) ∧
  (∀ (a b : RegIdx) (s : State), Ready (.f12Eq a b) s → ∃ (t : State) (c : Bool), exec (.f12Eq a b) s = .next t ∧ WritesFlag s t c ∧
    (c = true ↔ ∀ k : Nat, k < 12 → s.reg (a.toNat + k) = s.reg (b.toNat + k))) ∧
  (∀ (a b : RegIdx) (s : State), Ready (.g1Eq a b) s → ∃ (t : State) (c : Bool), exec (.g1Eq a b) s = .next t ∧ WritesFlag s t c ∧
    (c = true ↔ ∀ k : Nat, k < 2 → s.reg (a.toNat + k) = s.reg (b.toNat + k))) ∧
  (∀ (a b : RegIdx) (s : State), Ready (.g2Eq a b) s → ∃ (t : State) (c : Bool), exec (.g2Eq a b) s = .next t ∧ WritesFlag s t c ∧
    (c = true ↔ ∀ k : Nat, k < 4 → s.reg (a.toNat + k) = s.reg (b.toNat + k))) ∧
  (∀ (a : RegIdx) (s : State), Ready (.f12Isone a) s → ∃ (t : State) (c : Bool), exec (.f12Isone a) s = .next t ∧ WritesFlag s t c ∧
    (c = true ↔ s.reg a.toNat = 1 ∧ ∀ k : Nat, 1 ≤ k → k < 12 → s.reg (a.toNat + k) = 0)) ∧
  (∀ (a : RegIdx) (s : State), Ready (.g1Isinf a) s → ∃ (t : State) (c : Bool), exec (.g1Isinf a) s = .next t ∧ WritesFlag s t c ∧
    (c = true ↔ ∀ k : Nat, k < 2 → s.reg (a.toNat + k) = 0)) ∧
  (∀ (a : RegIdx) (s : State), Ready (.g2Isinf a) s → ∃ (t : State) (c : Bool), exec (.g2Isinf a) s = .next t ∧ WritesFlag s t c ∧
    (c = true ↔ ∀ k : Nat, k < 4 → s.reg (a.toNat + k) = 0))

/-- ONCRV and INSUB write FLAG with the curve equation and with [r]Q = O, on any view, and change nothing else (derived: 43_curve.md R233,
R241, R242, R256, R257, 00_scope.md R13, R20, 10_state.md R39). -/
def Obligations.CurveTests : Prop :=
  twistB.mul ⟨9, 1⟩ = ⟨3, 0⟩ ∧
  (∀ (a : RegIdx) (s : State), Ready (.g1Oncrv a) s → ∃ (t : State) (c : Bool), exec (.g1Oncrv a) s = .next t ∧ WritesFlag s t c ∧
    (c = true ↔ ((s.fp a.toNat = 0 ∧ s.fp (a.toNat + 1) = 0) ∨
      s.fp (a.toNat + 1) * s.fp (a.toNat + 1) % Config.p = (s.fp a.toNat * s.fp a.toNat * s.fp a.toNat + 3) % Config.p))) ∧
  (∀ (a : RegIdx) (s : State), Ready (.g2Oncrv a) s → ∃ (t : State) (c : Bool), exec (.g2Oncrv a) s = .next t ∧ WritesFlag s t c ∧
    (c = true ↔ ((s.fp2 a.toNat = Fp2.zero ∧ s.fp2 (a.toNat + 2) = Fp2.zero) ∨
      (s.fp2 (a.toNat + 2)).mul (s.fp2 (a.toNat + 2)) = (((s.fp2 a.toNat).mul (s.fp2 a.toNat)).mul (s.fp2 a.toNat)).add twistB))) ∧
  (∀ (a : RegIdx) (s : State), Ready (.g1Insub a) s → ∃ (t : State) (c : Bool), exec (.g1Insub a) s = .next t ∧ WritesFlag s t c ∧
    (c = true ↔ ((s.fp a.toNat = 0 ∧ s.fp (a.toNat + 1) = 0) ∨
      s.fp (a.toNat + 1) * s.fp (a.toNat + 1) % Config.p = (s.fp a.toNat * s.fp a.toNat * s.fp a.toNat + 3) % Config.p) ∧
      (s.g1 a.toNat).smul fpOps Config.r = .inf)) ∧
  (∀ (a : RegIdx) (s : State), Ready (.g2Insub a) s → ∃ (t : State) (c : Bool), exec (.g2Insub a) s = .next t ∧ WritesFlag s t c ∧
    (c = true ↔ ((s.fp2 a.toNat = Fp2.zero ∧ s.fp2 (a.toNat + 2) = Fp2.zero) ∨
      (s.fp2 (a.toNat + 2)).mul (s.fp2 (a.toNat + 2)) = (((s.fp2 a.toNat).mul (s.fp2 a.toNat)).mul (s.fp2 a.toNat)).add twistB) ∧
      (s.g2 a.toNat).smul fp2Ops Config.r = .inf))

/-- The ADD, SUB and NEG commands of Fp2, Fp6 and Fp12 work coordinate by coordinate mod p, on the old values of overlapping windows
(derived: 42_tower.md R171 to R173, R175 to R177, R185 to R187, R195 to R197, 70_reset_and_hazards.md R403). -/
def Obligations.TowerLinear : Prop :=
  (∀ (d a b : RegIdx) (s : State), Ready (.f2Add d a b) s → ∃ t : State, exec (.f2Add d a b) s = .next t ∧
    WritesRegs s t d.toNat 2 ∧
    ∀ k : Nat, k < 2 → (t.fp (d.toNat + k) : ℤ) = ((s.fp (a.toNat + k) : ℤ) + s.fp (b.toNat + k)) % Config.p) ∧
  (∀ (d a b : RegIdx) (s : State), Ready (.f2Sub d a b) s → ∃ t : State, exec (.f2Sub d a b) s = .next t ∧
    WritesRegs s t d.toNat 2 ∧
    ∀ k : Nat, k < 2 → (t.fp (d.toNat + k) : ℤ) = ((s.fp (a.toNat + k) : ℤ) - s.fp (b.toNat + k)) % Config.p) ∧
  (∀ (d a : RegIdx) (s : State), Ready (.f2Neg d a) s → ∃ t : State, exec (.f2Neg d a) s = .next t ∧
    WritesRegs s t d.toNat 2 ∧
    ∀ k : Nat, k < 2 → (t.fp (d.toNat + k) : ℤ) = (-(s.fp (a.toNat + k) : ℤ)) % Config.p) ∧
  (∀ (d a b : RegIdx) (s : State), Ready (.f6Add d a b) s → ∃ t : State, exec (.f6Add d a b) s = .next t ∧
    WritesRegs s t d.toNat 6 ∧
    ∀ k : Nat, k < 6 → (t.fp (d.toNat + k) : ℤ) = ((s.fp (a.toNat + k) : ℤ) + s.fp (b.toNat + k)) % Config.p) ∧
  (∀ (d a b : RegIdx) (s : State), Ready (.f6Sub d a b) s → ∃ t : State, exec (.f6Sub d a b) s = .next t ∧
    WritesRegs s t d.toNat 6 ∧
    ∀ k : Nat, k < 6 → (t.fp (d.toNat + k) : ℤ) = ((s.fp (a.toNat + k) : ℤ) - s.fp (b.toNat + k)) % Config.p) ∧
  (∀ (d a : RegIdx) (s : State), Ready (.f6Neg d a) s → ∃ t : State, exec (.f6Neg d a) s = .next t ∧
    WritesRegs s t d.toNat 6 ∧
    ∀ k : Nat, k < 6 → (t.fp (d.toNat + k) : ℤ) = (-(s.fp (a.toNat + k) : ℤ)) % Config.p) ∧
  (∀ (d a b : RegIdx) (s : State), Ready (.f12Add d a b) s → ∃ t : State, exec (.f12Add d a b) s = .next t ∧
    WritesRegs s t d.toNat 12 ∧
    ∀ k : Nat, k < 12 → (t.fp (d.toNat + k) : ℤ) = ((s.fp (a.toNat + k) : ℤ) + s.fp (b.toNat + k)) % Config.p) ∧
  (∀ (d a b : RegIdx) (s : State), Ready (.f12Sub d a b) s → ∃ t : State, exec (.f12Sub d a b) s = .next t ∧
    WritesRegs s t d.toNat 12 ∧
    ∀ k : Nat, k < 12 → (t.fp (d.toNat + k) : ℤ) = ((s.fp (a.toNat + k) : ℤ) - s.fp (b.toNat + k)) % Config.p) ∧
  (∀ (d a : RegIdx) (s : State), Ready (.f12Neg d a) s → ∃ t : State, exec (.f12Neg d a) s = .next t ∧
    WritesRegs s t d.toNat 12 ∧
    ∀ k : Nat, k < 12 → (t.fp (d.toNat + k) : ℤ) = (-(s.fp (a.toNat + k) : ℤ)) % Config.p)

/-- MUL and SQR of Fp2, Fp6 and Fp12 and F12_SPMUL write the canonical coordinates of the product in the tower with u^2 = -1, v^3 = 9 + u,
w^2 = v (derived: 42_tower.md R170 to R174, R178, R179, R188, R189, R198, R199, R207, R208). -/
def Obligations.TowerProducts : Prop :=
  (∀ (d a b : RegIdx) (s : State), Ready (.f2Mul d a b) s → ∃ t : State, exec (.f2Mul d a b) s = .next t ∧
    WritesRegs s t d.toNat 2 ∧ CanonicalRegs t d.toNat 2 ∧ ∀ (R : Type) [CommRing R] (u v w : R), TowerIn R u v w →
      t.value2 d.toNat u = s.value2 a.toNat u * s.value2 b.toNat u) ∧
  (∀ (d a : RegIdx) (s : State), Ready (.f2Sqr d a) s → ∃ t : State, exec (.f2Sqr d a) s = .next t ∧
    WritesRegs s t d.toNat 2 ∧ CanonicalRegs t d.toNat 2 ∧ ∀ (R : Type) [CommRing R] (u v w : R), TowerIn R u v w →
      t.value2 d.toNat u = s.value2 a.toNat u * s.value2 a.toNat u) ∧
  (∀ (d a b : RegIdx) (s : State), Ready (.f6Mul d a b) s → ∃ t : State, exec (.f6Mul d a b) s = .next t ∧
    WritesRegs s t d.toNat 6 ∧ CanonicalRegs t d.toNat 6 ∧ ∀ (R : Type) [CommRing R] (u v w : R), TowerIn R u v w →
      t.value6 d.toNat u v = s.value6 a.toNat u v * s.value6 b.toNat u v) ∧
  (∀ (d a : RegIdx) (s : State), Ready (.f6Sqr d a) s → ∃ t : State, exec (.f6Sqr d a) s = .next t ∧
    WritesRegs s t d.toNat 6 ∧ CanonicalRegs t d.toNat 6 ∧ ∀ (R : Type) [CommRing R] (u v w : R), TowerIn R u v w →
      t.value6 d.toNat u v = s.value6 a.toNat u v * s.value6 a.toNat u v) ∧
  (∀ (d a b : RegIdx) (s : State), Ready (.f12Mul d a b) s → ∃ t : State, exec (.f12Mul d a b) s = .next t ∧
    WritesRegs s t d.toNat 12 ∧ CanonicalRegs t d.toNat 12 ∧ ∀ (R : Type) [CommRing R] (u v w : R), TowerIn R u v w →
      t.value12 d.toNat u v w = s.value12 a.toNat u v w * s.value12 b.toNat u v w) ∧
  (∀ (d a : RegIdx) (s : State), Ready (.f12Sqr d a) s → ∃ t : State, exec (.f12Sqr d a) s = .next t ∧
    WritesRegs s t d.toNat 12 ∧ CanonicalRegs t d.toNat 12 ∧ ∀ (R : Type) [CommRing R] (u v w : R), TowerIn R u v w →
      t.value12 d.toNat u v w = s.value12 a.toNat u v w * s.value12 a.toNat u v w) ∧
  (∀ (d a b : RegIdx) (s : State), Ready (.f12Spmul d a b) s → ∃ t : State, exec (.f12Spmul d a b) s = .next t ∧
    WritesRegs s t d.toNat 12 ∧ CanonicalRegs t d.toNat 12 ∧ ∀ (R : Type) [CommRing R] (u v w : R), TowerIn R u v w →
      t.value12 d.toNat u v w = s.value12 a.toNat u v w * s.valueSparse b.toNat u w)

/-- F2_INV, F6_INV and F12_INV of any nonzero element write its inverse: the product of the two views is 1 (derived: 42_tower.md R170 to
R174, R180, R190, R200). -/
def Obligations.TowerInverses : Prop :=
  (∀ (d a : RegIdx) (s : State), s.Inv → Ready (.f2Inv d a) s → (∃ k : Nat, k < 2 ∧ s.reg (a.toNat + k) ≠ 0) →
    ∃ t : State, exec (.f2Inv d a) s = .next t ∧ WritesRegs s t d.toNat 2 ∧ CanonicalRegs t d.toNat 2 ∧
    ∀ (R : Type) [CommRing R] (u v w : R), TowerIn R u v w →
      s.value2 a.toNat u * t.value2 d.toNat u = 1) ∧
  (∀ (d a : RegIdx) (s : State), s.Inv → Ready (.f6Inv d a) s → (∃ k : Nat, k < 6 ∧ s.reg (a.toNat + k) ≠ 0) →
    ∃ t : State, exec (.f6Inv d a) s = .next t ∧ WritesRegs s t d.toNat 6 ∧ CanonicalRegs t d.toNat 6 ∧
    ∀ (R : Type) [CommRing R] (u v w : R), TowerIn R u v w →
      s.value6 a.toNat u v * t.value6 d.toNat u v = 1) ∧
  (∀ (d a : RegIdx) (s : State), s.Inv → Ready (.f12Inv d a) s → (∃ k : Nat, k < 12 ∧ s.reg (a.toNat + k) ≠ 0) →
    ∃ t : State, exec (.f12Inv d a) s = .next t ∧ WritesRegs s t d.toNat 12 ∧ CanonicalRegs t d.toNat 12 ∧
    ∀ (R : Type) [CommRing R] (u v w : R), TowerIn R u v w →
      s.value12 a.toNat u v w * t.value12 d.toNat u v w = 1)

/-- F2_CONJ and F12_CONJ copy the first half of the view and negate the second half mod p (derived: 42_tower.md R171, R173, R181, R201). -/
def Obligations.Conjugates : Prop :=
  (∀ (d a : RegIdx) (s : State), Ready (.f2Conj d a) s → ∃ t : State, exec (.f2Conj d a) s = .next t ∧
    WritesRegs s t d.toNat 2 ∧ t.reg d.toNat = s.reg a.toNat ∧
    (t.fp (d.toNat + 1) : ℤ) = (-(s.fp (a.toNat + 1) : ℤ)) % Config.p) ∧
  (∀ (d a : RegIdx) (s : State), Ready (.f12Conj d a) s → ∃ t : State, exec (.f12Conj d a) s = .next t ∧
    WritesRegs s t d.toNat 12 ∧ (∀ k : Nat, k < 6 → t.reg (d.toNat + k) = s.reg (a.toNat + k)) ∧
    ∀ k : Nat, 6 ≤ k → k < 12 → (t.fp (d.toNat + k) : ℤ) = (-(s.fp (a.toNat + k) : ℤ)) % Config.p)

/-- F12_FROB writes the p^k-th power of the source (derived: 42_tower.md R203). -/
def Obligations.Frobenius : Prop :=
  ∀ (d a k : RegIdx) (s : State), Ready (.f12Frob d a k) s → ∃ t : State, exec (.f12Frob d a k) s = .next t ∧
    WritesRegs s t d.toNat 12 ∧ (CanonicalRegs s a.toNat 12 → CanonicalRegs t d.toNat 12) ∧
    ∀ (R : Type) [CommRing R] (u v w : R), TowerIn R u v w →
      t.value12 d.toNat u v w = s.value12 a.toNat u v w ^ Config.p ^ k.toNat

/-- F12_FROB depends on k only mod 12, and with k = 6 it is F12_CONJ (derived: 42_tower.md R173, R203). -/
def Obligations.FrobeniusCorners : Prop :=
  ∀ (d a k l : RegIdx) (s : State), s.Inv →
    (k.toNat % 12 = l.toNat % 12 → exec (.f12Frob d a k) s = exec (.f12Frob d a l) s) ∧
    (k.toNat % 12 = 6 → exec (.f12Frob d a k) s = exec (.f12Conj d a) s)

/-- G1_ADD and G1_DBL of points on the curve write their sum by the case list of the group law (derived: 43_curve.md R230, R231, R235,
R236). -/
def Obligations.G1Sum : Prop :=
  (∀ (d a b : RegIdx) (s : State), s.Inv → Ready (.g1Add d a b) s →
    onCurve1 (s.g1 a.toNat) = true → onCurve1 (s.g1 b.toNat) = true →
    ∃ t P3, exec (.g1Add d a b) s = .next t ∧ WritesRegs s t d.toNat 2 ∧ t.regList d.toNat 2 = regsOf1 P3 ∧
      ChordTangent fpOps (s.g1 a.toNat) (s.g1 b.toNat) P3) ∧
  (∀ (d a : RegIdx) (s : State), s.Inv → Ready (.g1Dbl d a) s → onCurve1 (s.g1 a.toNat) = true →
    ∃ t P3, exec (.g1Dbl d a) s = .next t ∧ WritesRegs s t d.toNat 2 ∧ t.regList d.toNat 2 = regsOf1 P3 ∧
      ChordTangent fpOps (s.g1 a.toNat) (s.g1 a.toNat) P3)

/-- G1_NEG keeps x and negates y mod p; G1_MUL writes [k]Q for the unreduced integer k = F[B] (derived: 43_curve.md R230 to R232, R237,
R238). -/
def Obligations.G1NegMul : Prop :=
  (∀ (d a : RegIdx) (s : State), Ready (.g1Neg d a) s → onCurve1 (s.g1 a.toNat) = true →
    ∃ t : State, exec (.g1Neg d a) s = .next t ∧ WritesRegs s t d.toNat 2 ∧
      t.reg d.toNat = s.reg a.toNat ∧ (t.fp (d.toNat + 1) : ℤ) = (-(s.fp (a.toNat + 1) : ℤ)) % Config.p) ∧
  (∀ (d a b : RegIdx) (s : State), Ready (.g1Mul d a b) s → onCurve1 (s.g1 a.toNat) = true →
    ∃ t : State, exec (.g1Mul d a b) s = .next t ∧ WritesRegs s t d.toNat 2 ∧
      t.regList d.toNat 2 = regsOf1 ((s.g1 a.toNat).smul fpOps (s.fp b.toNat)))

/-- G2_ADD and G2_DBL of points on the curve write their sum by the case list of the group law (derived: 43_curve.md R230, R231, R250,
R251). -/
def Obligations.G2Sum : Prop :=
  (∀ (d a b : RegIdx) (s : State), s.Inv → Ready (.g2Add d a b) s →
    onCurve2 (s.g2 a.toNat) = true → onCurve2 (s.g2 b.toNat) = true →
    ∃ t P3, exec (.g2Add d a b) s = .next t ∧ WritesRegs s t d.toNat 4 ∧ t.regList d.toNat 4 = regsOf2 P3 ∧
      ChordTangent fp2Ops (s.g2 a.toNat) (s.g2 b.toNat) P3) ∧
  (∀ (d a : RegIdx) (s : State), s.Inv → Ready (.g2Dbl d a) s → onCurve2 (s.g2 a.toNat) = true →
    ∃ t P3, exec (.g2Dbl d a) s = .next t ∧ WritesRegs s t d.toNat 4 ∧ t.regList d.toNat 4 = regsOf2 P3 ∧
      ChordTangent fp2Ops (s.g2 a.toNat) (s.g2 a.toNat) P3)

/-- G2_NEG keeps x and negates y mod p; G2_MUL writes [k]Q for the unreduced integer k = F[B] (derived: 43_curve.md R230 to R232, R252,
R253). -/
def Obligations.G2NegMul : Prop :=
  (∀ (d a : RegIdx) (s : State), Ready (.g2Neg d a) s → onCurve2 (s.g2 a.toNat) = true →
    ∃ t : State, exec (.g2Neg d a) s = .next t ∧ WritesRegs s t d.toNat 4 ∧
      (∀ k : Nat, k < 2 → t.reg (d.toNat + k) = s.reg (a.toNat + k)) ∧
      ∀ k : Nat, 2 ≤ k → k < 4 → (t.fp (d.toNat + k) : ℤ) = (-(s.fp (a.toNat + k) : ℤ)) % Config.p) ∧
  (∀ (d a b : RegIdx) (s : State), Ready (.g2Mul d a b) s → onCurve2 (s.g2 a.toNat) = true →
    ∃ t : State, exec (.g2Mul d a b) s = .next t ∧ WritesRegs s t d.toNat 4 ∧
      t.regList d.toNat 4 = regsOf2 ((s.g2 a.toNat).smul fp2Ops (s.fp b.toNat)))

/-- G1_TOJAC and G2_TOJAC write (x, y, 1) for a point and (1, 1, 0) for O (derived: 43_curve.md R231, R234, R243, R258). -/
def Obligations.ToJacobian : Prop :=
  (∀ (d a : RegIdx) (s : State), Ready (.g1Tojac d a) s → onCurve1 (s.g1 a.toNat) = true →
    ∃ t : State, exec (.g1Tojac d a) s = .next t ∧ WritesRegs s t d.toNat 3 ∧
      (s.g1 a.toNat = .inf → t.reg d.toNat = 1 ∧ t.reg (d.toNat + 1) = 1 ∧ t.reg (d.toNat + 2) = 0) ∧
      (s.g1 a.toNat ≠ .inf → t.reg d.toNat = s.reg a.toNat ∧ t.reg (d.toNat + 1) = s.reg (a.toNat + 1) ∧ t.reg (d.toNat + 2) = 1)) ∧
  (∀ (d a : RegIdx) (s : State), Ready (.g2Tojac d a) s → onCurve2 (s.g2 a.toNat) = true →
    ∃ t : State, exec (.g2Tojac d a) s = .next t ∧ WritesRegs s t d.toNat 6 ∧
      (s.g2 a.toNat = .inf → t.regList d.toNat 6 = [1, 0, 1, 0, 0, 0]) ∧
      (s.g2 a.toNat ≠ .inf → (∀ k : Nat, k < 4 → t.reg (d.toNat + k) = s.reg (a.toNat + k)) ∧
        t.reg (d.toNat + 4) = 1 ∧ t.reg (d.toNat + 5) = 0))

/-- G1_TOAFF and G2_TOAFF write the x and y with x*Z^2 = X and y*Z^3 = Y, and O when Z = 0, with no curve check (derived: 43_curve.md R234,
R244, R259, 41_fp.md R149). -/
def Obligations.ToAffine : Prop :=
  (∀ (d a : RegIdx) (s : State), s.Inv → Ready (.g1Toaff d a) s → ∃ t : State, exec (.g1Toaff d a) s = .next t ∧
    WritesRegs s t d.toNat 2 ∧ CanonicalRegs t d.toNat 2 ∧
    (s.fp (a.toNat + 2) = 0 → t.fp d.toNat = 0 ∧ t.fp (d.toNat + 1) = 0) ∧
    (s.fp (a.toNat + 2) ≠ 0 →
      t.fp d.toNat * s.fp (a.toNat + 2) ^ 2 % Config.p = s.fp a.toNat ∧
      t.fp (d.toNat + 1) * s.fp (a.toNat + 2) ^ 3 % Config.p = s.fp (a.toNat + 1))) ∧
  (∀ (d a : RegIdx) (s : State), s.Inv → Ready (.g2Toaff d a) s → ∃ t : State, exec (.g2Toaff d a) s = .next t ∧
    WritesRegs s t d.toNat 4 ∧ CanonicalRegs t d.toNat 4 ∧
    let Z := s.fp2 (a.toNat + 4)
    (Z = Fp2.zero → ∀ k : Nat, k < 4 → t.reg (d.toNat + k) = 0) ∧
    (Z ≠ Fp2.zero →
      (t.fp2 d.toNat).mul (Z.mul Z) = s.fp2 a.toNat ∧
      (t.fp2 (d.toNat + 2)).mul ((Z.mul Z).mul Z) = s.fp2 (a.toNat + 2)))

/-- Every point command raises InvalidPoint on an operand off its curve and changes nothing else (derived: 43_curve.md R231, 44_pairing.md
R285, R286, 45_codec.md R314, R316, R318, R320). -/
def Obligations.OffCurveOperands : Prop :=
  ∀ (d a b : RegIdx) (off : Half) (s : State) (w : Word), s.cur = some w →
    (Ready (.g1Add d a b) s → ¬(onCurve1 (s.g1 a.toNat) = true ∧ onCurve1 (s.g1 b.toNat) = true) →
      exec (.g1Add d a b) s = .next (s.raised w 0x02)) ∧
    (Ready (.g1Mul d a b) s → onCurve1 (s.g1 a.toNat) = false → exec (.g1Mul d a b) s = .next (s.raised w 0x02)) ∧
    (Ready (.g1Dbl d a) s → onCurve1 (s.g1 a.toNat) = false → exec (.g1Dbl d a) s = .next (s.raised w 0x02)) ∧
    (Ready (.g1Neg d a) s → onCurve1 (s.g1 a.toNat) = false → exec (.g1Neg d a) s = .next (s.raised w 0x02)) ∧
    (Ready (.g1Tojac d a) s → onCurve1 (s.g1 a.toNat) = false → exec (.g1Tojac d a) s = .next (s.raised w 0x02)) ∧
    (Ready (.g1Encu d off) s → onCurve1 (s.g1 d.toNat) = false → exec (.g1Encu d off) s = .next (s.raised w 0x02)) ∧
    (Ready (.g1Encc d off) s → onCurve1 (s.g1 d.toNat) = false → exec (.g1Encc d off) s = .next (s.raised w 0x02)) ∧
    (Ready (.g2Add d a b) s → ¬(onCurve2 (s.g2 a.toNat) = true ∧ onCurve2 (s.g2 b.toNat) = true) →
      exec (.g2Add d a b) s = .next (s.raised w 0x02)) ∧
    (Ready (.g2Mul d a b) s → onCurve2 (s.g2 a.toNat) = false → exec (.g2Mul d a b) s = .next (s.raised w 0x02)) ∧
    (Ready (.g2Dbl d a) s → onCurve2 (s.g2 a.toNat) = false → exec (.g2Dbl d a) s = .next (s.raised w 0x02)) ∧
    (Ready (.g2Neg d a) s → onCurve2 (s.g2 a.toNat) = false → exec (.g2Neg d a) s = .next (s.raised w 0x02)) ∧
    (Ready (.g2Tojac d a) s → onCurve2 (s.g2 a.toNat) = false → exec (.g2Tojac d a) s = .next (s.raised w 0x02)) ∧
    (Ready (.g2Encu d off) s → onCurve2 (s.g2 d.toNat) = false → exec (.g2Encu d off) s = .next (s.raised w 0x02)) ∧
    (Ready (.g2Encc d off) s → onCurve2 (s.g2 d.toNat) = false → exec (.g2Encc d off) s = .next (s.raised w 0x02)) ∧
    (Ready (.miller d a b) s → ¬(onCurve1 (s.g1 a.toNat) = true ∧ onCurve2 (s.g2 b.toNat) = true) →
      exec (.miller d a b) s = .next (s.raised w 0x02)) ∧
    (Ready (.mlacc d a b) s → ¬(onCurve1 (s.g1 a.toNat) = true ∧ onCurve2 (s.g2 b.toNat) = true) →
      exec (.mlacc d a b) s = .next (s.raised w 0x02))

/-- On G1 the scalar multiple is the k-fold sum, for every k (derived: 43_curve.md R232). -/
def Obligations.G1ScalarSum : Prop :=
  ∀ (P : Point Nat) (k : Nat), canonical1 P → onCurve1 P = true → P.smul fpOps k = repeatedSum fpOps P k

/-- On the twist the scalar multiple is the k-fold sum, for every k (derived: 43_curve.md R232). -/
def Obligations.G2ScalarSum : Prop :=
  ∀ (Q : Point Fp2) (k : Nat), canonical2 Q → onCurve2 Q = true → Q.smul fp2Ops k = repeatedSum fp2Ops Q k

/-- Every point of E is in the order-r subgroup: G1_INSUB agrees with G1_ONCRV (derived: 43_curve.md R233, R238, R242, 00_scope.md R13). -/
def Obligations.G1CurveInSubgroup : Prop :=
  ∀ P : Point Nat, canonical1 P → inSub1 P = onCurve1 P

/-- MILLER writes the nonzero Miller value, the loop over ATE with its sparse lines; MLACC multiplies the accumulator by it; an identity
pair contributes 1 (derived: 44_pairing.md R281 to R286). -/
def Obligations.MillerValues : Prop :=
  (∀ (d a b : RegIdx) (s : State), Ready (.miller d a b) s → onCurve1 (s.g1 a.toNat) = true → onCurve2 (s.g2 b.toNat) = true →
    ∃ t : State, exec (.miller d a b) s = .next t ∧ WritesRegs s t d.toNat 12 ∧ CanonicalRegs t d.toNat 12 ∧
      t.fp12 d.toNat = miller (s.g1 a.toNat) (s.g2 b.toNat) ∧
      (s.g1 a.toNat = .inf ∨ s.g2 b.toNat = .inf →
        t.reg d.toNat = 1 ∧ ∀ k : Nat, 1 ≤ k → k < 12 → t.reg (d.toNat + k) = 0) ∧
      (s.Inv → (∃ k : Nat, k < 12 ∧ t.reg (d.toNat + k) ≠ 0) ∧
        (s.g1 a.toNat ≠ .inf → s.g2 b.toNat ≠ .inf → ∀ (R : Type) [CommRing R] (u v w : R), TowerIn R u v w →
          MillerValue u w (s.fp a.toNat) (s.fp (a.toNat + 1)) (s.fp2 b.toNat) (s.fp2 (b.toNat + 2)) (t.value12 d.toNat u v w)))) ∧
  (∀ (d a b : RegIdx) (s : State), Ready (.mlacc d a b) s → onCurve1 (s.g1 a.toNat) = true → onCurve2 (s.g2 b.toNat) = true →
    ∃ t : State, exec (.mlacc d a b) s = .next t ∧ WritesRegs s t d.toNat 12 ∧ CanonicalRegs t d.toNat 12 ∧
      t.fp12 d.toNat = (s.fp12 d.toNat).mul (miller (s.g1 a.toNat) (s.g2 b.toNat)) ∧
      (s.g1 a.toNat = .inf ∨ s.g2 b.toNat = .inf → CanonicalRegs s d.toNat 12 →
        ∀ k : Nat, k < 12 → t.reg (d.toNat + k) = s.reg (d.toNat + k)) ∧
      (s.Inv →
        ((∃ k : Nat, k < 12 ∧ s.reg (d.toNat + k) ≠ 0) → ∃ k : Nat, k < 12 ∧ t.reg (d.toNat + k) ≠ 0) ∧
        (s.g1 a.toNat ≠ .inf → s.g2 b.toNat ≠ .inf → ∀ (R : Type) [CommRing R] (u v w : R), TowerIn R u v w →
          ∃ z : R, MillerValue u w (s.fp a.toNat) (s.fp (a.toNat + 1)) (s.fp2 b.toNat) (s.fp2 (b.toNat + 2)) z ∧
            t.value12 d.toNat u v w = s.value12 d.toNat u v w * z)))

/-- FEXP of a nonzero element writes its exact power (p^12 - 1)/r (derived: 44_pairing.md R287, R288). -/
def Obligations.FinalExponentiation : Prop :=
  Config.r ∣ Config.p ^ 12 - 1 ∧
  ∀ (d a : RegIdx) (s : State), Ready (.fexp d a) s → (∃ k : Nat, k < 12 ∧ s.reg (a.toNat + k) ≠ 0) →
    ∃ t : State, exec (.fexp d a) s = .next t ∧ WritesRegs s t d.toNat 12 ∧ CanonicalRegs t d.toNat 12 ∧
      ∀ (R : Type) [CommRing R] (u v w : R), TowerIn R u v w →
        t.value12 d.toNat u v w = s.value12 a.toNat u v w ^ ((Config.p ^ 12 - 1) / Config.r)

/-- Every result of FEXP has order dividing r (derived: 44_pairing.md R287, R289). -/
def Obligations.FexpOrder : Prop :=
  ∀ (d a : RegIdx) (s : State), s.Inv → Ready (.fexp d a) s → (∃ k : Nat, k < 12 ∧ s.reg (a.toNat + k) ≠ 0) →
    ∃ t : State, exec (.fexp d a) s = .next t ∧
      ∀ (R : Type) [CommRing R] (u v w : R), TowerIn R u v w → t.value12 d.toNat u v w ^ Config.r = 1

/-- FP_DEC, SC_DEC and F2_DEC write the big-endian integers of the bytes when they are below p (r for SC_DEC) and raise MalformedEncoding
otherwise (derived: 45_codec.md R300, R301, R304, R306, R307, 20_memory.md R77). -/
def Obligations.FieldDecoders : Prop :=
  ∀ (r : RegIdx) (off : Half) (s : State) (w : Word), s.cur = some w →
    (InRange (.fpDec r off) →
      (s.iobuf.beAt off.toNat 32 < Config.p → ∃ t : State, exec (.fpDec r off) s = .next t ∧ WritesRegs s t r.toNat 1 ∧
        t.fp r.toNat = s.iobuf.beAt off.toNat 32) ∧
      (Config.p ≤ s.iobuf.beAt off.toNat 32 → exec (.fpDec r off) s = .next (s.raised w 0x01))) ∧
    (InRange (.scDec r off) →
      (s.iobuf.beAt off.toNat 32 < Config.r → ∃ t : State, exec (.scDec r off) s = .next t ∧ WritesRegs s t r.toNat 1 ∧
        t.fp r.toNat = s.iobuf.beAt off.toNat 32) ∧
      (Config.r ≤ s.iobuf.beAt off.toNat 32 → exec (.scDec r off) s = .next (s.raised w 0x01))) ∧
    (InRange (.f2Dec r off) →
      let h0 := s.iobuf.beAt off.toNat 32
      let h1 := s.iobuf.beAt (off.toNat + 32) 32
      (h0 < Config.p → h1 < Config.p → ∃ t : State, exec (.f2Dec r off) s = .next t ∧ WritesRegs s t r.toNat 2 ∧
        t.fp r.toNat = (if s.fp2ordCmd then h1 else h0) ∧ t.fp (r.toNat + 1) = (if s.fp2ordCmd then h0 else h1)) ∧
      (Config.p ≤ h0 ∨ Config.p ≤ h1 → exec (.f2Dec r off) s = .next (s.raised w 0x01)))

/-- FP_ENC and F2_ENC write the registers big-endian to IOBUF, the halves of Fp2 in the order the sampled FP2ORD gives (derived: 45_codec.md
R300, R301, R305, R308, 20_memory.md R77). -/
def Obligations.FieldEncoders : Prop :=
  ∀ (r : RegIdx) (off : Half) (s : State), s.Inv →
    (Ready (.fpEnc r off) s → ∃ t : State, exec (.fpEnc r off) s = .next t ∧ WritesBytes s t off.toNat 32 ∧
      t.iobuf.beAt off.toNat 32 = s.fp r.toNat) ∧
    (Ready (.f2Enc r off) s → ∃ t : State, exec (.f2Enc r off) s = .next t ∧ WritesBytes s t off.toNat 64 ∧
      t.iobuf.beAt off.toNat 32 = (if s.fp2ordCmd then s.fp (r.toNat + 1) else s.fp r.toNat) ∧
      t.iobuf.beAt (off.toNat + 32) 32 = (if s.fp2ordCmd then s.fp r.toNat else s.fp (r.toNat + 1)))

/-- G1_DECU and G1_DECC: canonical coordinates, the identity forms, the curve equation and the selected root decide between the point and
each error (derived: 45_codec.md R302, R303, R309, R310, R313, R315). -/
def Obligations.G1Decoders : Prop :=
  ∀ (r : RegIdx) (off : Half) (s : State) (w : Word), s.cur = some w →
    (InRange (.g1Decu r off) →
      let x := s.iobuf.beAt off.toNat 32
      let y := s.iobuf.beAt (off.toNat + 32) 32
      let point := (x = 0 ∧ y = 0) ∨ y * y % Config.p = (x * x * x + 3) % Config.p
      (Config.p ≤ x ∨ Config.p ≤ y → exec (.g1Decu r off) s = .next (s.raised w 0x01)) ∧
      (x < Config.p → y < Config.p → ¬point → exec (.g1Decu r off) s = .next (s.raised w 0x02)) ∧
      (x < Config.p → y < Config.p → point → ∃ t : State, exec (.g1Decu r off) s = .next t ∧ WritesRegs s t r.toNat 2 ∧
        t.fp r.toNat = x ∧ t.fp (r.toNat + 1) = y)) ∧
    (InRange (.g1Decc r off) →
      let h := s.iobuf.beAt off.toNat 32
      let x := h % 2 ^ 254
      let root := fun y : Nat => y < Config.p ∧ y * y % Config.p = (x * x * x + 3) % Config.p
      (h.testBit 255 = true → h.testBit 254 = true ∨ x ≠ 0 → exec (.g1Decc r off) s = .next (s.raised w 0x01)) ∧
      (h.testBit 255 = true → h.testBit 254 = false → x = 0 → ∃ t : State, exec (.g1Decc r off) s = .next t ∧
        WritesRegs s t r.toNat 2 ∧ t.fp r.toNat = 0 ∧ t.fp (r.toNat + 1) = 0) ∧
      (h.testBit 255 = false → Config.p ≤ x → exec (.g1Decc r off) s = .next (s.raised w 0x01)) ∧
      (h.testBit 255 = false → x < Config.p → (∀ y : Nat, ¬root y) → exec (.g1Decc r off) s = .next (s.raised w 0x02)) ∧
      (h.testBit 255 = false → x < Config.p → (∃ y : Nat, root y) → ∃ t : State, exec (.g1Decc r off) s = .next t ∧
        WritesRegs s t r.toNat 2 ∧ t.fp r.toNat = x ∧ root (t.fp (r.toNat + 1)) ∧
        (h.testBit 254 = true ↔ (Config.p - 1) / 2 < t.fp (r.toNat + 1))))

/-- G1_ENCU writes x and y big-endian, zeros for O; G1_ENCC writes x with the sign of y in bit 254, and bit 255 alone for O (derived:
45_codec.md R302, R309, R310, R314, R316). -/
def Obligations.G1Encoders : Prop :=
  ∀ (r : RegIdx) (off : Half) (s : State), s.Inv → onCurve1 (s.g1 r.toNat) = true →
    (Ready (.g1Encu r off) s → ∃ t : State, exec (.g1Encu r off) s = .next t ∧ WritesBytes s t off.toNat 64 ∧
      t.iobuf.beAt off.toNat 32 = s.fp r.toNat ∧ t.iobuf.beAt (off.toNat + 32) 32 = s.fp (r.toNat + 1)) ∧
    (Ready (.g1Encc r off) s → ∃ t : State, exec (.g1Encc r off) s = .next t ∧ WritesBytes s t off.toNat 32 ∧
      t.iobuf.beAt off.toNat 32 =
        if s.fp r.toNat = 0 ∧ s.fp (r.toNat + 1) = 0 then 2 ^ 255
        else s.fp r.toNat + (if (Config.p - 1) / 2 < s.fp (r.toNat + 1) then 2 ^ 254 else 0))

/-- G2_DECU and G2_DECC: canonical halves, the identity forms, the twist equation, the selected root and [r]Q = O decide between the point
and each error (derived: 45_codec.md R301 to R303, R311, R312, R317 (but for its example, log 20), R319). -/
def Obligations.G2Decoders : Prop :=
  ∀ (r : RegIdx) (off : Half) (s : State) (w : Word), s.cur = some w →
    (InRange (.g2Decu r off) →
      let h := fun i : Nat => s.iobuf.beAt (off.toNat + 32 * i) 32
      let x : Fp2 := if s.fp2ordCmd then ⟨h 1, h 0⟩ else ⟨h 0, h 1⟩
      let y : Fp2 := if s.fp2ordCmd then ⟨h 3, h 2⟩ else ⟨h 2, h 3⟩
      let isZero := x = Fp2.zero ∧ y = Fp2.zero
      let onTwist := y.mul y = ((x.mul x).mul x).add twistB
      let inSubgroup := (Point.aff x y).smul fp2Ops Config.r = .inf
      ((∃ i : Nat, i < 4 ∧ Config.p ≤ h i) → exec (.g2Decu r off) s = .next (s.raised w 0x01)) ∧
      ((∀ i : Nat, i < 4 → h i < Config.p) → ¬isZero → ¬onTwist → exec (.g2Decu r off) s = .next (s.raised w 0x02)) ∧
      ((∀ i : Nat, i < 4 → h i < Config.p) → ¬isZero → onTwist → ¬inSubgroup → exec (.g2Decu r off) s = .next (s.raised w 0x03)) ∧
      ((∀ i : Nat, i < 4 → h i < Config.p) → isZero ∨ (onTwist ∧ inSubgroup) → ∃ t : State, exec (.g2Decu r off) s = .next t ∧
        WritesRegs s t r.toNat 4 ∧ t.fp2 r.toNat = x ∧ t.fp2 (r.toNat + 2) = y)) ∧
    (InRange (.g2Decc r off) →
      let h0 := s.iobuf.beAt off.toNat 32
      let h1 := s.iobuf.beAt (off.toNat + 32) 32
      let c := h0 % 2 ^ 254
      let x : Fp2 := if s.fp2ordCmd then ⟨h1, c⟩ else ⟨c, h1⟩
      let root := fun y : Fp2 => y.canonical ∧ y.mul y = ((x.mul x).mul x).add twistB
      (h0.testBit 255 = true → h0.testBit 254 = true ∨ c ≠ 0 ∨ h1 ≠ 0 → exec (.g2Decc r off) s = .next (s.raised w 0x01)) ∧
      (h0.testBit 255 = true → h0.testBit 254 = false → c = 0 → h1 = 0 → ∃ t : State, exec (.g2Decc r off) s = .next t ∧
        WritesRegs s t r.toNat 4 ∧ t.fp2 r.toNat = Fp2.zero ∧ t.fp2 (r.toNat + 2) = Fp2.zero) ∧
      (h0.testBit 255 = false → Config.p ≤ c ∨ Config.p ≤ h1 → exec (.g2Decc r off) s = .next (s.raised w 0x01)) ∧
      (h0.testBit 255 = false → c < Config.p → h1 < Config.p → (∀ y : Fp2, ¬root y) →
        exec (.g2Decc r off) s = .next (s.raised w 0x02)) ∧
      (h0.testBit 255 = false → c < Config.p → h1 < Config.p → (∃ y : Fp2, root y) → ∃ y : Fp2, root y ∧
        y.sgn = h0.testBit 254 ∧
        ((Point.aff x y).smul fp2Ops Config.r ≠ .inf → exec (.g2Decc r off) s = .next (s.raised w 0x03)) ∧
        ((Point.aff x y).smul fp2Ops Config.r = .inf → ∃ t : State, exec (.g2Decc r off) s = .next t ∧
          WritesRegs s t r.toNat 4 ∧ t.fp2 r.toNat = x ∧ t.fp2 (r.toNat + 2) = y)))

/-- G2_ENCU writes the four halves in the order FP2ORD gives, zeros for O; G2_ENCC writes x with the sign of y in bit 254 of the first half
(derived: 45_codec.md R301, R302, R311, R312, R318, R320). -/
def Obligations.G2Encoders : Prop :=
  ∀ (r : RegIdx) (off : Half) (s : State), s.Inv → onCurve2 (s.g2 r.toNat) = true →
    let o := if s.fp2ordCmd then 1 else 0
    (Ready (.g2Encu r off) s → ∃ t : State, exec (.g2Encu r off) s = .next t ∧ WritesBytes s t off.toNat 128 ∧
      t.iobuf.beAt off.toNat 32 = s.fp (r.toNat + o) ∧ t.iobuf.beAt (off.toNat + 32) 32 = s.fp (r.toNat + 1 - o) ∧
      t.iobuf.beAt (off.toNat + 64) 32 = s.fp (r.toNat + 2 + o) ∧ t.iobuf.beAt (off.toNat + 96) 32 = s.fp (r.toNat + 3 - o)) ∧
    (Ready (.g2Encc r off) s → ∃ t : State, exec (.g2Encc r off) s = .next t ∧ WritesBytes s t off.toNat 64 ∧
      t.iobuf.beAt off.toNat 32 =
        (if s.g2 r.toNat = .inf then 2 ^ 255
        else s.fp (r.toNat + o) + (if (s.fp2 (r.toNat + 2)).sgn then 2 ^ 254 else 0)) ∧
      t.iobuf.beAt (off.toNat + 32) 32 = s.fp (r.toNat + 1 - o))

/-- Every point a decoder writes is canonical and on its curve, and for G2 in the order-r subgroup (derived: 45_codec.md R321, 43_curve.md
R233). -/
def Obligations.DecodedPointsValid : Prop :=
  ∀ (r : RegIdx) (off : Half) (s t : State), s.done = false → t.done = true →
    (exec (.g1Decu r off) s = .next t → canonical1 (t.g1 r.toNat) ∧ onCurve1 (t.g1 r.toNat) = true) ∧
    (exec (.g1Decc r off) s = .next t → canonical1 (t.g1 r.toNat) ∧ onCurve1 (t.g1 r.toNat) = true) ∧
    (exec (.g2Decu r off) s = .next t → canonical2 (t.g2 r.toNat) ∧ inSub2 (t.g2 r.toNat) = true) ∧
    (exec (.g2Decc r off) s = .next t → canonical2 (t.g2 r.toNat) ∧ inSub2 (t.g2 r.toNat) = true)

/-- Encoding and then decoding gives the registers back, for Fp, Fp2, and both forms of G1 and G2, O included; a twist point outside G2
fails to decode (stated: R322). -/
def Obligations.RoundTrip : Prop :=
  ∀ (r q : RegIdx) (off : Half) (s : State), s.Inv →
    (Ready (.fpEnc r off) s → InRange (.fpDec q off) → ∃ t t' : State, exec (.fpEnc r off) s = .next t ∧
      WritesBytes s t off.toNat 32 ∧ exec (.fpDec q off) t = .next t' ∧ WritesRegs t t' q.toNat 1 ∧
      ∀ k : Nat, k < 1 → t'.reg (q.toNat + k) = s.reg (r.toNat + k)) ∧
    (Ready (.f2Enc r off) s → InRange (.f2Dec q off) → ∃ t t' : State, exec (.f2Enc r off) s = .next t ∧
      WritesBytes s t off.toNat 64 ∧ exec (.f2Dec q off) t = .next t' ∧ WritesRegs t t' q.toNat 2 ∧
      ∀ k : Nat, k < 2 → t'.reg (q.toNat + k) = s.reg (r.toNat + k)) ∧
    (Ready (.g1Encu r off) s → onCurve1 (s.g1 r.toNat) = true → InRange (.g1Decu q off) → ∃ t t' : State, exec (.g1Encu r off) s = .next t ∧
      WritesBytes s t off.toNat 64 ∧ exec (.g1Decu q off) t = .next t' ∧ WritesRegs t t' q.toNat 2 ∧
      ∀ k : Nat, k < 2 → t'.reg (q.toNat + k) = s.reg (r.toNat + k)) ∧
    (Ready (.g1Encc r off) s → onCurve1 (s.g1 r.toNat) = true → InRange (.g1Decc q off) → ∃ t t' : State, exec (.g1Encc r off) s = .next t ∧
      WritesBytes s t off.toNat 32 ∧ exec (.g1Decc q off) t = .next t' ∧ WritesRegs t t' q.toNat 2 ∧
      ∀ k : Nat, k < 2 → t'.reg (q.toNat + k) = s.reg (r.toNat + k)) ∧
    (Ready (.g2Encu r off) s → inSub2 (s.g2 r.toNat) = true → InRange (.g2Decu q off) → ∃ t t' : State, exec (.g2Encu r off) s = .next t ∧
      WritesBytes s t off.toNat 128 ∧ exec (.g2Decu q off) t = .next t' ∧ WritesRegs t t' q.toNat 4 ∧
      ∀ k : Nat, k < 4 → t'.reg (q.toNat + k) = s.reg (r.toNat + k)) ∧
    (Ready (.g2Encc r off) s → inSub2 (s.g2 r.toNat) = true → InRange (.g2Decc q off) → ∃ t t' : State, exec (.g2Encc r off) s = .next t ∧
      WritesBytes s t off.toNat 64 ∧ exec (.g2Decc q off) t = .next t' ∧ WritesRegs t t' q.toNat 4 ∧
      ∀ k : Nat, k < 4 → t'.reg (q.toNat + k) = s.reg (r.toNat + k)) ∧
    (Ready (.g2Encu r off) s → onCurve2 (s.g2 r.toNat) = true → inSub2 (s.g2 r.toNat) = false → InRange (.g2Decu q off) →
      ∃ t : State, exec (.g2Encu r off) s = .next t ∧ WritesBytes s t off.toNat 128 ∧ ∀ w : Word,
        let t' : State := { t with cur := some w, busy := true, done := false }
        exec (.g2Decu q off) t' = .next (t'.raised w 0x03))
end

