-- ==== Sys2Proof/Laws/Primes.lean ====
section
/-! SUPPORT. p and r are primes (00_scope.md R10, R11), by Lucas certificates. -/

namespace Sys2Proof.Machine

set_option Elab.async false

/-- a^e mod n, by squaring; `fuel` bounds the bits of e. -/
def powMod (n a : Nat) : Nat → Nat → Nat
  | 0, _ => 1 % n
  | fuel + 1, e =>
    let y := powMod n a fuel (e / 2)
    if e % 2 = 1 then y * y % n * a % n else y * y % n

theorem powMod_eq (n a fuel e : Nat) (h : e < 2 ^ fuel) : powMod n a fuel e = a ^ e % n := by
  induction fuel generalizing e with
  | zero => simp [powMod, show e = 0 by simpa using h]
  | succ fuel ih =>
    have hy : powMod n a fuel (e / 2) = a ^ (e / 2) % n := ih _ (by omega)
    have sq : powMod n a fuel (e / 2) * powMod n a fuel (e / 2) % n = a ^ (2 * (e / 2)) % n := by
      rw [hy, ← Nat.mul_mod, ← pow_add, two_mul]
    rw [powMod]
    simp only [sq]
    split
    · rw [Nat.mod_mul_mod, ← pow_succ, show 2 * (e / 2) + 1 = e by omega]
    · rw [show 2 * (e / 2) = e by omega]

/-- Lucas: n is prime when some a has order n - 1; `fs` are the prime factors of n - 1, with multiplicity. -/
theorem prime_of_certificate (n a : Nat) (fs : List Nat) (hn : 1 < n ∧ n < 2 ^ 256) (hp : ∀ q ∈ fs, q.Prime)
    (hprod : fs.prod = n - 1) (h1 : powMod n a 256 (n - 1) = 1) (h2 : ∀ q ∈ fs, powMod n a 256 ((n - 1) / q) ≠ 1) : n.Prime := by
  have cast : ∀ e, e < 2 ^ 256 → ((a : ZMod n) ^ e = 1 ↔ powMod n a 256 e = 1) := fun e he => by
    rw [powMod_eq n a 256 e he, ← Nat.cast_pow, ← Nat.cast_one, ZMod.natCast_eq_natCast_iff', Nat.mod_eq_of_lt hn.1]
  refine lucas_primality n (a : ZMod n) ((cast _ (by omega)).2 h1) fun q hq hdvd => ?_
  have hmem : q ∈ fs := by
    rw [← hprod] at hdvd
    obtain ⟨f, hf, hqf⟩ := (Nat.Prime.prime hq).dvd_prod_iff.1 hdvd
    rwa [(Nat.prime_dvd_prime_iff_eq hq (hp f hf)).1 hqf]
  rw [Ne, cast _ (lt_of_le_of_lt (Nat.div_le_self _ _) (by omega))]
  exact h2 q hmem

theorem prime_1263766531 : Nat.Prime 1263766531 := by
  refine prime_of_certificate 1263766531 10 [2, 3, 5, 13, 911, 3557] (by decide +kernel) ?_ (by decide +kernel) (by decide +kernel) (by decide +kernel)
  simp only [List.forall_mem_cons, List.not_mem_nil, false_implies, implies_true, and_true]
  exact ⟨by norm_num, by norm_num, by norm_num, by norm_num, by norm_num, by norm_num⟩

theorem prime_35385462869 : Nat.Prime 35385462869 := by
  refine prime_of_certificate 35385462869 2 [2, 2, 7, 1263766531] (by decide +kernel) ?_ (by decide +kernel) (by decide +kernel) (by decide +kernel)
  simp only [List.forall_mem_cons, List.not_mem_nil, false_implies, implies_true, and_true]
  exact ⟨by norm_num, by norm_num, by norm_num, prime_1263766531⟩

theorem prime_2480874801745591 : Nat.Prime 2480874801745591 := by
  refine prime_of_certificate 2480874801745591 6 [2, 3, 3, 5, 19, 41, 35385462869] (by decide +kernel) ?_ (by decide +kernel) (by decide +kernel) (by decide +kernel)
  simp only [List.forall_mem_cons, List.not_mem_nil, false_implies, implies_true, and_true]
  exact ⟨by norm_num, by norm_num, by norm_num, by norm_num, by norm_num, by norm_num, prime_35385462869⟩

theorem prime_173171039 : Nat.Prime 173171039 := by
  refine prime_of_certificate 173171039 13 [2, 73, 89, 13327] (by decide +kernel) ?_ (by decide +kernel) (by decide +kernel) (by decide +kernel)
  simp only [List.forall_mem_cons, List.not_mem_nil, false_implies, implies_true, and_true]
  exact ⟨by norm_num, by norm_num, by norm_num, by norm_num⟩

theorem prime_4562087 : Nat.Prime 4562087 := by
  refine prime_of_certificate 4562087 5 [2, 17, 109, 1231] (by decide +kernel) ?_ (by decide +kernel) (by decide +kernel) (by decide +kernel)
  simp only [List.forall_mem_cons, List.not_mem_nil, false_implies, implies_true, and_true]
  exact ⟨by norm_num, by norm_num, by norm_num, by norm_num⟩

theorem prime_1853641 : Nat.Prime 1853641 := by
  refine prime_of_certificate 1853641 17 [2, 2, 2, 3, 3, 5, 19, 271] (by decide +kernel) ?_ (by decide +kernel) (by decide +kernel) (by decide +kernel)
  simp only [List.forall_mem_cons, List.not_mem_nil, false_implies, implies_true, and_true]
  exact ⟨by norm_num, by norm_num, by norm_num, by norm_num, by norm_num, by norm_num, by norm_num, by norm_num⟩

theorem prime_13427688667394608761327070753331941386769 : Nat.Prime 13427688667394608761327070753331941386769 := by
  refine prime_of_certificate 13427688667394608761327070753331941386769 17 [2, 2, 2, 2, 3, 7, 11, 1853641, 4562087, 173171039, 2480874801745591] (by decide +kernel) ?_ (by decide +kernel) (by decide +kernel) (by decide +kernel)
  simp only [List.forall_mem_cons, List.not_mem_nil, false_implies, implies_true, and_true]
  exact ⟨by norm_num, by norm_num, by norm_num, by norm_num, by norm_num, by norm_num, by norm_num, prime_1853641, prime_4562087, prime_173171039, prime_2480874801745591⟩

theorem prime_327599 : Nat.Prime 327599 := by
  refine prime_of_certificate 327599 19 [2, 19, 37, 233] (by decide +kernel) ?_ (by decide +kernel) (by decide +kernel) (by decide +kernel)
  simp only [List.forall_mem_cons, List.not_mem_nil, false_implies, implies_true, and_true]
  exact ⟨by norm_num, by norm_num, by norm_num, by norm_num⟩

theorem prime_11465965001 : Nat.Prime 11465965001 := by
  refine prime_of_certificate 11465965001 3 [2, 2, 2, 5, 5, 5, 5, 7, 327599] (by decide +kernel) ?_ (by decide +kernel) (by decide +kernel) (by decide +kernel)
  simp only [List.forall_mem_cons, List.not_mem_nil, false_implies, implies_true, and_true]
  exact ⟨by norm_num, by norm_num, by norm_num, by norm_num, by norm_num, by norm_num, by norm_num, by norm_num, prime_327599⟩

theorem prime_405928799 : Nat.Prime 405928799 := by
  refine prime_of_certificate 405928799 22 [2, 11, 3691, 4999] (by decide +kernel) ?_ (by decide +kernel) (by decide +kernel) (by decide +kernel)
  simp only [List.forall_mem_cons, List.not_mem_nil, false_implies, implies_true, and_true]
  exact ⟨by norm_num, by norm_num, by norm_num, by norm_num⟩

theorem prime_p : Nat.Prime Config.p := by
  refine prime_of_certificate 21888242871839275222246405745257275088696311157297823662689037894645226208583 3 [2, 3, 3, 13, 29, 67, 229, 311, 983, 11003, 405928799, 11465965001, 13427688667394608761327070753331941386769] (by decide +kernel) ?_ (by decide +kernel) (by decide +kernel) (by decide +kernel)
  simp only [List.forall_mem_cons, List.not_mem_nil, false_implies, implies_true, and_true]
  exact ⟨by norm_num, by norm_num, by norm_num, by norm_num, by norm_num, by norm_num, by norm_num, by norm_num, by norm_num, by norm_num, prime_405928799, prime_11465965001, prime_13427688667394608761327070753331941386769⟩

theorem prime_639533339 : Nat.Prime 639533339 := by
  refine prime_of_certificate 639533339 2 [2, 229, 853, 1637] (by decide +kernel) ?_ (by decide +kernel) (by decide +kernel) (by decide +kernel)
  simp only [List.forall_mem_cons, List.not_mem_nil, false_implies, implies_true, and_true]
  exact ⟨by norm_num, by norm_num, by norm_num, by norm_num⟩

theorem prime_65865678001877903 : Nat.Prime 65865678001877903 := by
  refine prime_of_certificate 65865678001877903 5 [2, 83, 379, 1637, 639533339] (by decide +kernel) ?_ (by decide +kernel) (by decide +kernel) (by decide +kernel)
  simp only [List.forall_mem_cons, List.not_mem_nil, false_implies, implies_true, and_true]
  exact ⟨by norm_num, by norm_num, by norm_num, by norm_num, prime_639533339⟩

theorem prime_1593227 : Nat.Prime 1593227 := by
  refine prime_of_certificate 1593227 2 [2, 19, 41927] (by decide +kernel) ?_ (by decide +kernel) (by decide +kernel) (by decide +kernel)
  simp only [List.forall_mem_cons, List.not_mem_nil, false_implies, implies_true, and_true]
  exact ⟨by norm_num, by norm_num, by norm_num⟩

theorem prime_13818364434197438864469338081 : Nat.Prime 13818364434197438864469338081 := by
  refine prime_of_certificate 13818364434197438864469338081 3 [2, 2, 2, 2, 2, 5, 823, 1593227, 65865678001877903] (by decide +kernel) ?_ (by decide +kernel) (by decide +kernel) (by decide +kernel)
  simp only [List.forall_mem_cons, List.not_mem_nil, false_implies, implies_true, and_true]
  exact ⟨by norm_num, by norm_num, by norm_num, by norm_num, by norm_num, by norm_num, by norm_num, prime_1593227, prime_65865678001877903⟩

theorem prime_12048837557 : Nat.Prime 12048837557 := by
  refine prime_of_certificate 12048837557 2 [2, 2, 7, 7, 661, 93001] (by decide +kernel) ?_ (by decide +kernel) (by decide +kernel) (by decide +kernel)
  simp only [List.forall_mem_cons, List.not_mem_nil, false_implies, implies_true, and_true]
  exact ⟨by norm_num, by norm_num, by norm_num, by norm_num, by norm_num, by norm_num⟩

theorem prime_5156902474397 : Nat.Prime 5156902474397 := by
  refine prime_of_certificate 5156902474397 2 [2, 2, 107, 12048837557] (by decide +kernel) ?_ (by decide +kernel) (by decide +kernel) (by decide +kernel)
  simp only [List.forall_mem_cons, List.not_mem_nil, false_implies, implies_true, and_true]
  exact ⟨by norm_num, by norm_num, by norm_num, prime_12048837557⟩

theorem prime_1670836401704629 : Nat.Prime 1670836401704629 := by
  refine prime_of_certificate 1670836401704629 2 [2, 2, 3, 3, 3, 3, 5156902474397] (by decide +kernel) ?_ (by decide +kernel) (by decide +kernel) (by decide +kernel)
  simp only [List.forall_mem_cons, List.not_mem_nil, false_implies, implies_true, and_true]
  exact ⟨by norm_num, by norm_num, by norm_num, by norm_num, by norm_num, by norm_num, prime_5156902474397⟩

theorem prime_237073 : Nat.Prime 237073 := by
  refine prime_of_certificate 237073 15 [2, 2, 2, 2, 3, 11, 449] (by decide +kernel) ?_ (by decide +kernel) (by decide +kernel) (by decide +kernel)
  simp only [List.forall_mem_cons, List.not_mem_nil, false_implies, implies_true, and_true]
  exact ⟨by norm_num, by norm_num, by norm_num, by norm_num, by norm_num, by norm_num, by norm_num⟩

theorem prime_r : Nat.Prime Config.r := by
  refine prime_of_certificate 21888242871839275222246405745257275088548364400416034343698204186575808495617 5 [2, 2, 2, 2, 2, 2, 2, 2, 2, 2, 2, 2, 2, 2, 2, 2, 2, 2, 2, 2, 2, 2, 2, 2, 2, 2, 2, 2, 3, 3, 13, 29, 983, 11003, 237073, 405928799, 1670836401704629, 13818364434197438864469338081] (by decide +kernel) ?_ (by decide +kernel) (by decide +kernel) (by decide +kernel)
  simp only [List.forall_mem_cons, Nat.prime_two, Nat.prime_three, true_and, List.not_mem_nil, false_implies, implies_true, and_true]
  exact ⟨by norm_num, by norm_num, by norm_num, by norm_num, prime_237073, prime_405928799, prime_1670836401704629, prime_13818364434197438864469338081⟩

end Sys2Proof.Machine
end

