-- ==== Sys2Proof/Laws/Field.lean ====
section
/-! SUPPORT. Base field arithmetic as arithmetic of any commutative ring in which p is 0, and in particular of ZMod p; powers; inverses; square roots. -/

namespace Sys2Proof.Machine

set_option Elab.async false

theorem p_pos : 0 < Config.p := by decide

theorem p_lt : Config.p < 2 ^ 254 := by decide

/-! ### Results are in [0, p) -/

theorem fpAdd_lt (a b : Nat) : fpAdd a b < Config.p := Nat.mod_lt _ p_pos
theorem fpSub_lt (a b : Nat) : fpSub a b < Config.p := Nat.mod_lt _ p_pos
theorem fpNeg_lt (a : Nat) : fpNeg a < Config.p := Nat.mod_lt _ p_pos
theorem fpMul_lt (a b : Nat) : fpMul a b < Config.p := Nat.mod_lt _ p_pos

/-! ### As integers modulo p -/

theorem fpSub_int (a b : Nat) : (fpSub a b : ℤ) = ((a : ℤ) - b) % Config.p := by
  have hb := Nat.mod_lt b p_pos
  have : ((Config.p - b % Config.p : ℕ) : ℤ) = (Config.p : ℤ) - (b : ℤ) % Config.p := by
    rw [Nat.cast_sub hb.le, Int.natCast_mod]
  rw [fpSub, Int.natCast_mod, Nat.cast_add, this,
    show (a : ℤ) + (Config.p - (b : ℤ) % Config.p) = (a - (b : ℤ) % Config.p) + Config.p * 1 by ring, Int.add_mul_emod_self_left,
    Int.sub_emod, Int.emod_emod_of_dvd _ (dvd_refl _), ← Int.sub_emod]

theorem fpNeg_eq_sub (a : Nat) : fpNeg a = fpSub 0 a := by simp [fpNeg, fpSub]

theorem fpNeg_int (a : Nat) : (fpNeg a : ℤ) = (-(a : ℤ)) % Config.p := by
  rw [fpNeg_eq_sub, fpSub_int]
  simp

/-! ### As elements of a ring in which p = 0 -/

section Ring

variable {R : Type} [CommRing R] (hp : (Config.p : R) = 0)
include hp

theorem cast_mod_p (n : Nat) : ((n % Config.p : ℕ) : R) = n := by
  conv_rhs => rw [← Nat.div_add_mod n Config.p]
  push_cast
  rw [hp]
  ring

theorem cast_fpAdd (a b : Nat) : (fpAdd a b : R) = a + b := by
  rw [fpAdd, cast_mod_p hp, Nat.cast_add]

theorem cast_fpSub (a b : Nat) : (fpSub a b : R) = a - b := by
  rw [fpSub, cast_mod_p hp, Nat.cast_add, Nat.cast_sub (Nat.mod_lt _ p_pos).le, cast_mod_p hp, hp]
  ring

theorem cast_fpNeg (a : Nat) : (fpNeg a : R) = -a := by
  rw [fpNeg_eq_sub, cast_fpSub hp]
  simp

theorem cast_fpMul (a b : Nat) : (fpMul a b : R) = a * b := by
  rw [fpMul, cast_mod_p hp, Nat.cast_mul]

end Ring

/-- p is 0 in ZMod p. -/
theorem p_zmod : (Config.p : ZMod Config.p) = 0 := ZMod.natCast_self _

/-- Two integers in [0, p) are equal when they are equal in ZMod p. -/
theorem eq_of_zmod {a b : Nat} (ha : a < Config.p) (hb : b < Config.p) (h : (a : ZMod Config.p) = b) : a = b := by
  have := (ZMod.natCast_eq_natCast_iff' a b Config.p).1 h
  rwa [Nat.mod_eq_of_lt ha, Nat.mod_eq_of_lt hb] at this

theorem fact_p : Fact (Nat.Prime Config.p) := ⟨prime_p⟩

/-- An integer in (0, p) is not 0 in ZMod p. -/
theorem zmod_ne_zero {a : Nat} (ha : a < Config.p) (h0 : a ≠ 0) : (a : ZMod Config.p) ≠ 0 := fun h =>
  h0 (eq_of_zmod ha p_pos (by simpa using h))

/-! ### Powers -/

/-- A map that turns `mul` into a monoid's product turns the power by squaring into the monoid's power. -/
theorem powFuel_map {α M : Type} [Monoid M] (mul : α → α → α) (one : α) (φ : α → M) (hone : φ one = 1)
    (hmul : ∀ x y, φ (mul x y) = φ x * φ y) (x : α) (fuel n : Nat) (h : n < 2 ^ fuel) :
    φ (powFuel mul one x fuel n) = φ x ^ n := by
  induction fuel generalizing n with
  | zero => simp [powFuel, hone, show n = 0 by simpa using h]
  | succ fuel ih =>
    have hy := ih (n / 2) (by omega)
    rw [powFuel]
    split
    · rw [hmul, hmul, hy, ← pow_add, ← pow_succ]
      congr 1
      omega
    · rw [hmul, hy, ← pow_add]
      congr 1
      omega

theorem powBy_map {α M : Type} [Monoid M] (mul : α → α → α) (one : α) (φ : α → M) (hone : φ one = 1)
    (hmul : ∀ x y, φ (mul x y) = φ x * φ y) (x : α) (n : Nat) : φ (powBy mul one x n) = φ x ^ n :=
  powFuel_map mul one φ hone hmul x _ n Nat.lt_log2_self

theorem cast_fpPow {R : Type} [CommRing R] (hp : (Config.p : R) = 0) (a n : Nat) : (fpPow a n : R) = (a : R) ^ n :=
  powBy_map fpMul 1 (fun x : Nat => (x : R)) (by simp) (cast_fpMul hp) a n

/-- A property that `one` has and `mul` always gives holds of every power. -/
theorem powBy_prop {α : Type} (mul : α → α → α) (one x : α) (P : α → Prop) (h1 : P one) (hm : ∀ a b, P (mul a b)) (n : Nat) :
    P (powBy mul one x n) := by
  have : ∀ fuel n, P (powFuel mul one x fuel n) := by
    intro fuel
    induction fuel with
    | zero => exact fun _ => h1
    | succ fuel ih =>
      intro n
      rw [powFuel]
      split <;> exact hm _ _
  exact this _ n

theorem fpPow_lt (a n : Nat) : fpPow a n < Config.p :=
  powBy_prop fpMul 1 a (· < Config.p) (by decide) fpMul_lt n

/-! ### Inverses -/

theorem fpInv_lt (a : Nat) : fpInv a < Config.p := fpPow_lt _ _

/-- Fermat: inv_p(a) is the inverse of a. -/
theorem fpInv_zmod (a : Nat) : (fpInv a : ZMod Config.p) = (a : ZMod Config.p)⁻¹ := by
  have := fact_p
  rw [fpInv, cast_fpPow p_zmod]
  by_cases h : (a : ZMod Config.p) = 0
  · rw [h, inv_zero, zero_pow (by decide)]
  · have h1 := ZMod.pow_card_sub_one_eq_one h
    rw [show Config.p - 1 = Config.p - 2 + 1 by decide, pow_succ] at h1
    exact eq_inv_of_mul_eq_one_left h1

/-- a * inv_p(a) = 1 for a in (0, p). -/
theorem mul_fpInv (a : Nat) (ha : a < Config.p) (h0 : a ≠ 0) : fpMul a (fpInv a) = 1 := by
  have := fact_p
  refine eq_of_zmod (fpMul_lt _ _) (by decide) ?_
  rw [cast_fpMul p_zmod, fpInv_zmod, Nat.cast_one]
  exact mul_inv_cancel₀ (zmod_ne_zero ha h0)

/-- In a ring in which p = 0 too. -/
theorem cast_mul_fpInv {R : Type} [CommRing R] (hp : (Config.p : R) = 0) (a : Nat) (ha : a < Config.p) (h0 : a ≠ 0) :
    (a : R) * (fpInv a : R) = 1 := by
  rw [← cast_fpMul hp, mul_fpInv a ha h0, Nat.cast_one]

/-! ### Squares -/

theorem p_mod_four : Config.p % 4 = 3 := by decide

/-- -1 is not a square mod p. -/
theorem neg_one_not_square : ¬IsSquare (-1 : ZMod Config.p) := by
  have := fact_p
  rw [ZMod.exists_sq_eq_neg_one_iff]
  simp [p_mod_four]

/-- A sum of two squares is 0 only when both are. -/
theorem sum_two_squares {x y : ZMod Config.p} (h : x ^ 2 + y ^ 2 = 0) : x = 0 ∧ y = 0 := by
  have := fact_p
  by_cases hy : y = 0
  · subst hy
    exact ⟨by simpa using h, rfl⟩
  · refine absurd ⟨x / y, ?_⟩ neg_one_not_square
    field_simp
    linear_combination -h

/-- The root of fpSqrt is a root. -/
theorem fpSqrt_some (a y : Nat) (h : fpSqrt a = some y) : fpMul y y = a % Config.p ∧ y < Config.p := by
  rw [fpSqrt] at h
  split at h
  · rename_i hy
    obtain rfl := Option.some.inj h
    exact ⟨hy, fpPow_lt _ _⟩
  · exact absurd h (by simp)

/-- fpSqrt answers none only when there is no root. -/
theorem fpSqrt_none (a : Nat) (h : fpSqrt a = none) (y : Nat) : fpMul y y ≠ a % Config.p := by
  have := fact_p
  intro hy
  rw [fpSqrt] at h
  split at h
  · exact absurd h (by simp)
  · rename_i hn
    apply hn
    refine eq_of_zmod (fpMul_lt _ _) (Nat.mod_lt _ p_pos) ?_
    have hya : (a : ZMod Config.p) = (y : ZMod Config.p) ^ 2 := by
      rw [← cast_mod_p p_zmod a, ← hy, cast_fpMul p_zmod, sq]
    rw [cast_fpMul p_zmod, cast_fpPow p_zmod, cast_mod_p p_zmod, hya, ← pow_add, ← pow_mul]
    by_cases h0 : (y : ZMod Config.p) = 0
    · rw [h0, zero_pow (by decide), zero_pow (by decide)]
    · have h1 := ZMod.pow_card_sub_one_eq_one h0
      rw [show 2 * ((Config.p + 1) / 4 + (Config.p + 1) / 4) = (Config.p - 1) + 2 by decide, pow_add, h1, one_mul]

end Sys2Proof.Machine
end

