-- ==== Sys2Proof/Laws/Tower.lean ====
section
/-! SUPPORT. The tower's arithmetic as arithmetic of any ring that has the tower's u, v and w; results are canonical; the tower's own ring. -/

namespace Sys2Proof.Machine

set_option Elab.async false

/-! ### Values -/

section Values

variable {R : Type} [CommRing R]

/-- c0 + c1*v + c2*v^2. -/
def Fp6.val (c : Fp6) (u v : R) : R := c.c0.val u + c.c1.val u * v + c.c2.val u * v ^ 2

/-- g + h*w. -/
def Fp12.val (f : Fp12) (u v w : R) : R := f.g.val u v + f.h.val u v * w

theorem value2_eq (s : State) (b : Nat) (u : R) : s.value2 b u = (s.fp2 b).val u := rfl
theorem value6_eq (s : State) (b : Nat) (u v : R) : s.value6 b u v = (s.fp6 b).val u v := rfl
theorem value12_eq (s : State) (b : Nat) (u v w : R) : s.value12 b u v w = (s.fp12 b).val u v w := rfl

theorem Fp2.val_zero (u : R) : Fp2.zero.val u = 0 := by simp [Fp2.val, Fp2.zero]
theorem Fp2.val_one (u : R) : Fp2.one.val u = 1 := by simp [Fp2.val, Fp2.one]
theorem Fp2.val_xi (u : R) : Fp2.xi.val u = 9 + u := by simp [Fp2.val, Fp2.xi]
theorem Fp6.val_zero (u v : R) : Fp6.zero.val u v = 0 := by simp [Fp6.val, Fp6.zero, Fp2.val_zero]
theorem Fp6.val_one (u v : R) : Fp6.one.val u v = 1 := by simp [Fp6.val, Fp6.one, Fp2.val_zero, Fp2.val_one]
theorem Fp12.val_zero (u v w : R) : Fp12.zero.val u v w = 0 := by simp [Fp12.val, Fp12.zero, Fp6.val_zero]
theorem Fp12.val_one (u v w : R) : Fp12.one.val u v w = 1 := by simp [Fp12.val, Fp12.one, Fp6.val_zero, Fp6.val_one]

variable {u v w : R} (t : TowerIn R u v w)
include t

theorem Fp2.val_add (a c : Fp2) : (a.add c).val u = a.val u + c.val u := by
  simp only [Fp2.val, Fp2.add, cast_fpAdd t.char]
  ring

theorem Fp2.val_sub (a c : Fp2) : (a.sub c).val u = a.val u - c.val u := by
  simp only [Fp2.val, Fp2.sub, cast_fpSub t.char]
  ring

theorem Fp2.val_neg (a : Fp2) : a.neg.val u = -a.val u := by
  simp only [Fp2.val, Fp2.neg, cast_fpNeg t.char]
  ring

theorem Fp2.val_mul (a c : Fp2) : (a.mul c).val u = a.val u * c.val u := by
  simp only [Fp2.val, Fp2.mul, cast_fpAdd t.char, cast_fpSub t.char, cast_fpMul t.char]
  linear_combination (-(a.c1 : R) * c.c1) * t.u_sq

theorem Fp2.val_mulXi (a : Fp2) : a.mulXi.val u = (9 + u) * a.val u := by
  rw [Fp2.mulXi, Fp2.val_mul t, Fp2.val_xi]

theorem Fp6.val_add (c d : Fp6) : (c.add d).val u v = c.val u v + d.val u v := by
  simp only [Fp6.val, Fp6.add, Fp2.val_add t]
  ring

theorem Fp6.val_sub (c d : Fp6) : (c.sub d).val u v = c.val u v - d.val u v := by
  simp only [Fp6.val, Fp6.sub, Fp2.val_sub t]
  ring

theorem Fp6.val_neg (c : Fp6) : c.neg.val u v = -c.val u v := by
  simp only [Fp6.val, Fp6.neg, Fp2.val_neg t]
  ring

theorem Fp6.val_mul (c d : Fp6) : (c.mul d).val u v = c.val u v * d.val u v := by
  simp only [Fp6.val, Fp6.mul, Fp2.val_add t, Fp2.val_mul t, Fp2.val_mulXi t]
  linear_combination (-(c.c1.val u * d.c2.val u + c.c2.val u * d.c1.val u) - c.c2.val u * d.c2.val u * v) * t.v_cube

theorem Fp6.val_mulV (c : Fp6) : c.mulV.val u v = v * c.val u v := by
  simp only [Fp6.val, Fp6.mulV, Fp2.val_mulXi t]
  linear_combination (-c.c2.val u) * t.v_cube

theorem Fp12.val_add (f e : Fp12) : (f.add e).val u v w = f.val u v w + e.val u v w := by
  simp only [Fp12.val, Fp12.add, Fp6.val_add t]
  ring

theorem Fp12.val_sub (f e : Fp12) : (f.sub e).val u v w = f.val u v w - e.val u v w := by
  simp only [Fp12.val, Fp12.sub, Fp6.val_sub t]
  ring

theorem Fp12.val_neg (f : Fp12) : f.neg.val u v w = -f.val u v w := by
  simp only [Fp12.val, Fp12.neg, Fp6.val_neg t]
  ring

theorem Fp12.val_mul (f e : Fp12) : (f.mul e).val u v w = f.val u v w * e.val u v w := by
  simp only [Fp12.val, Fp12.mul, Fp6.val_add t, Fp6.val_mul t, Fp6.val_mulV t]
  linear_combination (-(f.h.val u v * e.h.val u v)) * t.w_sq

theorem Fp12.val_pow (f : Fp12) (n : Nat) : (f.pow n).val u v w = f.val u v w ^ n :=
  powBy_map Fp12.mul Fp12.one (fun x => x.val u v w) (Fp12.val_one u v w) (Fp12.val_mul t) f n

theorem Sparse.val_expand (x : Sparse) : x.expand.val u v w = x.s0.val u + x.s1.val u * w + x.s3.val u * w ^ 3 := by
  simp only [Fp12.val, Fp6.val, Sparse.expand, Fp2.val_zero]
  linear_combination (-(x.s3.val u * w)) * t.w_sq

end Values

/-! ### Results are canonical -/

/-- All six coordinates in [0, p). -/
def Fp6.canonical (c : Fp6) : Prop := c.c0.canonical ∧ c.c1.canonical ∧ c.c2.canonical

/-- All twelve coordinates in [0, p). -/
def Fp12.canonical (f : Fp12) : Prop := f.g.canonical ∧ f.h.canonical

theorem Fp2.canonical_zero : Fp2.zero.canonical := ⟨p_pos, p_pos⟩
theorem Fp2.canonical_one : Fp2.one.canonical := ⟨by decide, p_pos⟩
theorem Fp2.canonical_add (a c : Fp2) : (a.add c).canonical := ⟨fpAdd_lt _ _, fpAdd_lt _ _⟩
theorem Fp2.canonical_sub (a c : Fp2) : (a.sub c).canonical := ⟨fpSub_lt _ _, fpSub_lt _ _⟩
theorem Fp2.canonical_neg (a : Fp2) : a.neg.canonical := ⟨fpNeg_lt _, fpNeg_lt _⟩
theorem Fp2.canonical_mul (a c : Fp2) : (a.mul c).canonical := ⟨fpSub_lt _ _, fpAdd_lt _ _⟩
theorem Fp2.canonical_inv (a : Fp2) : a.inv.canonical := Fp2.canonical_mul _ _
theorem Fp2.canonical_conj (a : Fp2) (h : a.canonical) : a.conj.canonical := ⟨h.1, fpNeg_lt _⟩
theorem Fp6.canonical_zero : Fp6.zero.canonical := ⟨Fp2.canonical_zero, Fp2.canonical_zero, Fp2.canonical_zero⟩
theorem Fp6.canonical_one : Fp6.one.canonical := ⟨Fp2.canonical_one, Fp2.canonical_zero, Fp2.canonical_zero⟩
theorem Fp6.canonical_add (c d : Fp6) : (c.add d).canonical := ⟨Fp2.canonical_add _ _, Fp2.canonical_add _ _, Fp2.canonical_add _ _⟩
theorem Fp6.canonical_sub (c d : Fp6) : (c.sub d).canonical := ⟨Fp2.canonical_sub _ _, Fp2.canonical_sub _ _, Fp2.canonical_sub _ _⟩
theorem Fp6.canonical_neg (c : Fp6) : c.neg.canonical := ⟨Fp2.canonical_neg _, Fp2.canonical_neg _, Fp2.canonical_neg _⟩
theorem Fp6.canonical_mul (c d : Fp6) : (c.mul d).canonical := ⟨Fp2.canonical_add _ _, Fp2.canonical_add _ _, Fp2.canonical_add _ _⟩
theorem Fp6.canonical_inv (c : Fp6) : c.inv.canonical := ⟨Fp2.canonical_mul _ _, Fp2.canonical_mul _ _, Fp2.canonical_mul _ _⟩
theorem Fp12.canonical_zero : Fp12.zero.canonical := ⟨Fp6.canonical_zero, Fp6.canonical_zero⟩
theorem Fp12.canonical_one : Fp12.one.canonical := ⟨Fp6.canonical_one, Fp6.canonical_zero⟩
theorem Fp12.canonical_add (f e : Fp12) : (f.add e).canonical := ⟨Fp6.canonical_add _ _, Fp6.canonical_add _ _⟩
theorem Fp12.canonical_sub (f e : Fp12) : (f.sub e).canonical := ⟨Fp6.canonical_sub _ _, Fp6.canonical_sub _ _⟩
theorem Fp12.canonical_neg (f : Fp12) : f.neg.canonical := ⟨Fp6.canonical_neg _, Fp6.canonical_neg _⟩
theorem Fp12.canonical_mul (f e : Fp12) : (f.mul e).canonical := ⟨Fp6.canonical_add _ _, Fp6.canonical_add _ _⟩
theorem Fp12.canonical_inv (f : Fp12) : f.inv.canonical := Fp12.canonical_mul _ _
theorem Fp12.canonical_conj (f : Fp12) (h : f.canonical) : f.conj.canonical := ⟨h.1, Fp6.canonical_neg _⟩
theorem Fp12.canonical_pow (f : Fp12) (n : Nat) : (f.pow n).canonical :=
  powBy_prop Fp12.mul Fp12.one f Fp12.canonical Fp12.canonical_one Fp12.canonical_mul n
theorem Fp12.canonical_frob (f : Fp12) (h : f.canonical) : f.frob.canonical :=
  ⟨⟨Fp2.canonical_conj _ h.1.1, Fp2.canonical_mul _ _, Fp2.canonical_mul _ _⟩,
   ⟨Fp2.canonical_mul _ _, Fp2.canonical_mul _ _, Fp2.canonical_mul _ _⟩⟩
theorem Fp12.canonical_frobPow (f : Fp12) (h : f.canonical) (k : Nat) : (f.frobPow k).canonical := by
  induction k with
  | zero => exact h
  | succ k ih => exact Fp12.canonical_frob _ ih

/-! ### The tower's own ring -/

open Polynomial in
/-- The minimal polynomial of w: w^12 - 18*w^6 + 82. -/
noncomputable def towerPoly : (ZMod Config.p)[X] := X ^ 12 - 18 * X ^ 6 + 82

/-- Fp12 as a quotient of polynomials in w. -/
abbrev TowerRing : Type := AdjoinRoot towerPoly

/-- In that ring u = w^6 - 9 and v = w^2 satisfy the tower's relations. -/
theorem towerRing_tower :
    TowerIn TowerRing (AdjoinRoot.root towerPoly ^ 6 - 9) (AdjoinRoot.root towerPoly ^ 2) (AdjoinRoot.root towerPoly) where
  char := by
    rw [← map_natCast (AdjoinRoot.of towerPoly), p_zmod, map_zero]
  u_sq := by
    have h : AdjoinRoot.root towerPoly ^ 12 - 18 * AdjoinRoot.root towerPoly ^ 6 + 82 = 0 := by
      have h : Polynomial.eval₂ (AdjoinRoot.of towerPoly) (AdjoinRoot.root towerPoly)
          (Polynomial.X ^ 12 - 18 * Polynomial.X ^ 6 + 82) = 0 := AdjoinRoot.eval₂_root towerPoly
      simpa using h
    linear_combination h
  v_cube := by ring
  w_sq := rfl

end Sys2Proof.Machine
end

