-- ==== Sys2Proof/Laws/Inverse.lean ====
section
/-! SUPPORT. Fp2 as a field; xi is neither a square nor a cube in it, so each extension is a field: every nonzero element of Fp2, Fp6 and Fp12 times its inverse is 1. -/

namespace Sys2Proof.Machine

set_option Elab.async false

/-! ### Fp2 as a field -/

/-- Fp2 as Mathlib's quadratic algebra with u^2 = -1. -/
abbrev K2 : Type := QuadraticAlgebra (ZMod Config.p) (-1) 0

theorem fact_k2 : Fact (∀ x : ZMod Config.p, x ^ 2 ≠ -1 + 0 * x) :=
  ⟨fun x h => neg_one_not_square ⟨x, by rw [← sq, h]; ring⟩⟩

/-- The element of K2 that a pair of integers stands for. -/
def Fp2.toK (a : Fp2) : K2 := ⟨(a.c0 : ZMod Config.p), (a.c1 : ZMod Config.p)⟩

theorem Fp2.toK_inj {a b : Fp2} (ha : a.canonical) (hb : b.canonical) (h : a.toK = b.toK) : a = b := by
  have h0 := eq_of_zmod ha.1 hb.1 (congrArg QuadraticAlgebra.re h)
  have h1 := eq_of_zmod ha.2 hb.2 (congrArg QuadraticAlgebra.im h)
  cases a; cases b
  simp_all

theorem Fp2.toK_zero : Fp2.zero.toK = 0 := by ext <;> simp [Fp2.toK, Fp2.zero]
theorem Fp2.toK_one : Fp2.one.toK = 1 := by ext <;> simp [Fp2.toK, Fp2.one, QuadraticAlgebra.re_one, QuadraticAlgebra.im_one]

theorem Fp2.toK_add (a c : Fp2) : (a.add c).toK = a.toK + c.toK := by
  ext <;> simp [Fp2.toK, Fp2.add, cast_fpAdd p_zmod]

theorem Fp2.toK_sub (a c : Fp2) : (a.sub c).toK = a.toK - c.toK := by
  ext <;> simp [Fp2.toK, Fp2.sub, cast_fpSub p_zmod]

theorem Fp2.toK_neg (a : Fp2) : a.neg.toK = -a.toK := by
  ext <;> simp [Fp2.toK, Fp2.neg, cast_fpNeg p_zmod]

theorem Fp2.toK_mul (a c : Fp2) : (a.mul c).toK = a.toK * c.toK := by
  ext <;> simp [Fp2.toK, Fp2.mul, cast_fpAdd p_zmod, cast_fpSub p_zmod, cast_fpMul p_zmod]; ring

theorem Fp2.toK_mulXi (a : Fp2) : a.mulXi.toK = Fp2.xi.toK * a.toK := Fp2.toK_mul _ _

/-- The power by squaring. -/
theorem Fp2.toK_pow (a : Fp2) (n : Nat) : (powBy Fp2.mul Fp2.one a n).toK = a.toK ^ n :=
  powBy_map Fp2.mul Fp2.one Fp2.toK Fp2.toK_one Fp2.toK_mul a n

theorem Fp2.toK_ne_zero {a : Fp2} (ha : a.canonical) (h : a ≠ Fp2.zero) : a.toK ≠ 0 := fun h0 =>
  h (Fp2.toK_inj ha Fp2.canonical_zero (h0.trans Fp2.toK_zero.symm))

theorem Fp2.norm_ne_zero {a : Fp2} (ha : a.canonical) (h : a ≠ Fp2.zero) : a.norm ≠ 0 := by
  intro h0
  have h1 : (a.c0 : ZMod Config.p) ^ 2 + (a.c1 : ZMod Config.p) ^ 2 = 0 := by
    have := congrArg (Nat.cast : ℕ → ZMod Config.p) h0
    rw [Fp2.norm, cast_fpAdd p_zmod, cast_fpMul p_zmod, cast_fpMul p_zmod, Nat.cast_zero] at this
    linear_combination this
  obtain ⟨h2, h3⟩ := sum_two_squares h1
  refine Fp2.toK_ne_zero ha h ?_
  ext
  · exact h2
  · exact h3

/-- The norm of a product is the product of the norms. -/
theorem Fp2.norm_mul (a c : Fp2) : (a.mul c).norm = fpMul a.norm c.norm := by
  refine eq_of_zmod (fpAdd_lt _ _) (fpMul_lt _ _) ?_
  simp only [Fp2.norm, Fp2.mul, cast_fpAdd p_zmod, cast_fpSub p_zmod, cast_fpMul p_zmod]
  ring

/-- An element whose norm has no root in Fp has none in Fp2. -/
theorem Fp2.no_root (a : Fp2) (h : fpSqrt a.norm = none) (y : Fp2) : y.mul y ≠ a := by
  rintro rfl
  rw [Fp2.norm_mul] at h
  exact fpSqrt_none _ h y.norm (Nat.mod_eq_of_lt (fpMul_lt _ _)).symm

/-- a * a^-1 = 1 in Fp2 (42_tower.md R171). -/
theorem Fp2.val_inv {R : Type} [CommRing R] {u v w : R} (t : TowerIn R u v w) {a : Fp2} (ha : a.canonical) (h : a ≠ Fp2.zero) :
    a.val u * a.inv.val u = 1 := by
  have hn := cast_mul_fpInv t.char a.norm (fpAdd_lt _ _) (Fp2.norm_ne_zero ha h)
  rw [Fp2.norm, cast_fpAdd t.char, cast_fpMul t.char, cast_fpMul t.char] at hn
  rw [Fp2.inv, Fp2.val_mul t]
  simp only [Fp2.val, Fp2.conj, cast_fpNeg t.char, Nat.cast_zero]
  rw [← Fp2.norm] at hn
  linear_combination hn - (a.c1 : R) ^ 2 * (fpInv a.norm : R) * t.u_sq

theorem Fp2.toK_inv {a : Fp2} (ha : a.canonical) (h : a ≠ Fp2.zero) : a.toK * a.inv.toK = 1 := by
  have hn := cast_mul_fpInv p_zmod a.norm (fpAdd_lt _ _) (Fp2.norm_ne_zero ha h)
  rw [Fp2.norm, cast_fpAdd p_zmod, cast_fpMul p_zmod, cast_fpMul p_zmod, ← Fp2.norm] at hn
  rw [Fp2.inv, Fp2.toK_mul]
  ext
  · simp only [Fp2.toK, Fp2.conj, cast_fpNeg p_zmod, Nat.cast_zero, QuadraticAlgebra.re_mul, QuadraticAlgebra.im_mul,
      QuadraticAlgebra.re_one]
    linear_combination hn
  · simp only [Fp2.toK, Fp2.conj, cast_fpNeg p_zmod, Nat.cast_zero, QuadraticAlgebra.re_mul, QuadraticAlgebra.im_mul,
      QuadraticAlgebra.im_one]
    ring

/-! ### xi is neither a square nor a cube -/

/-- Fermat in Fp2: a^(p^2 - 1) = 1. -/
theorem k2_pow (x : K2) (hx : x ≠ 0) : x ^ (Config.p ^ 2 - 1) = 1 := by
  have := fact_p
  have := fact_k2
  let _ : Fintype K2 := Fintype.ofEquiv _ (QuadraticAlgebra.equivProd (-1 : ZMod Config.p) 0).symm
  have hc : Fintype.card K2 = Config.p ^ 2 := by
    rw [Fintype.card_congr (QuadraticAlgebra.equivProd (-1 : ZMod Config.p) 0), Fintype.card_prod, ZMod.card, sq]
  rw [← hc]
  exact FiniteField.pow_card_sub_one_eq_one x hx

theorem xi_canonical : Fp2.xi.canonical := ⟨by decide, by decide⟩

theorem xi_toK_ne_zero : Fp2.xi.toK ≠ 0 := Fp2.toK_ne_zero xi_canonical (by decide)

theorem xi_pow_ne_one (n : Nat) (h : powBy Fp2.mul Fp2.one Fp2.xi n ≠ Fp2.one) : Fp2.xi.toK ^ n ≠ 1 := fun h1 =>
  h (Fp2.toK_inj (powBy_prop Fp2.mul Fp2.one Fp2.xi Fp2.canonical Fp2.canonical_one Fp2.canonical_mul n) Fp2.canonical_one
    (by rw [Fp2.toK_pow, h1, Fp2.toK_one]))

/-- 3 divides p^2 - 1 and xi^((p^2 - 1)/3) is not 1. -/
theorem xi_not_cube (y : K2) : y ^ 3 ≠ Fp2.xi.toK := by
  have := fact_p
  have := fact_k2
  intro h
  have hy : y ≠ 0 := fun h0 => xi_toK_ne_zero (by rw [← h, h0]; simp)
  refine xi_pow_ne_one ((Config.p ^ 2 - 1) / 3) (by decide +kernel) ?_
  rw [← h, ← pow_mul, show 3 * ((Config.p ^ 2 - 1) / 3) = Config.p ^ 2 - 1 by decide +kernel]
  exact k2_pow y hy

/-- 2 divides p^2 - 1 and xi^((p^2 - 1)/2) is not 1. -/
theorem xi_not_square (y : K2) : y ^ 2 ≠ Fp2.xi.toK := by
  have := fact_p
  have := fact_k2
  intro h
  have hy : y ≠ 0 := fun h0 => xi_toK_ne_zero (by rw [← h, h0]; simp)
  refine xi_pow_ne_one ((Config.p ^ 2 - 1) / 2) (by decide +kernel) ?_
  rw [← h, ← pow_mul, show 2 * ((Config.p ^ 2 - 1) / 2) = Config.p ^ 2 - 1 by decide +kernel]
  exact k2_pow y hy

/-! ### Fp6 -/

section Cubic

variable {K : Type} [Field K] {c : K}

theorem cubic_zero (hc : ∀ y : K, y ^ 3 ≠ c) {x y z : K} (h0 : x ^ 2 = c * y * z) (h1 : c * z ^ 2 = x * y) (h2 : y ^ 2 = x * z) :
    x = 0 ∧ y = 0 ∧ z = 0 := by
  have hz : z = 0 := by
    by_contra hz
    refine hc (y / z) ?_
    field_simp
    linear_combination y * h2 - z * h1
  subst hz
  have hy : y = 0 := by simpa using h2
  subst hy
  exact ⟨by simpa using h0, rfl, rfl⟩

/-- The norm form of v^3 - c has no zero but 0 when c is no cube. -/
theorem cubic_norm (hc : ∀ y : K, y ^ 3 ≠ c) {x y z : K}
    (hn : x ^ 3 + c * y ^ 3 + c ^ 2 * z ^ 3 - 3 * c * x * y * z = 0) : x = 0 ∧ y = 0 ∧ z = 0 := by
  obtain ⟨h0, h1, h2⟩ := cubic_zero hc (x := x ^ 2 - c * y * z) (y := c * z ^ 2 - x * y) (z := y ^ 2 - x * z)
    (by linear_combination x * hn) (by linear_combination y * hn) (by linear_combination z * hn)
  exact cubic_zero hc (sub_eq_zero.1 h0) (sub_eq_zero.1 h1) (sub_eq_zero.1 h2)

end Cubic

/-- The norm form of v^3 - c. -/
def normForm {K : Type} [CommRing K] (c x y z : K) : K := x ^ 3 + c * y ^ 3 + c ^ 2 * z ^ 3 - 3 * c * x * y * z

theorem normForm_mul {K : Type} [CommRing K] (c x y z x' y' z' : K) :
    normForm c (x * x' + c * (y * z' + z * y')) (x * y' + y * x' + c * (z * z')) (x * z' + y * y' + z * x')
      = normForm c x y z * normForm c x' y' z' := by
  simp only [normForm]
  ring

theorem normForm_mulV {K : Type} [CommRing K] (c x y z : K) : normForm c (c * z) x y = c * normForm c x y z := by
  simp only [normForm]
  ring

/-- The norm form of Fp6 over Fp2. -/
def norm6 (x y z : K2) : K2 := normForm Fp2.xi.toK x y z

theorem Fp6.toK_norm (c : Fp6) : c.norm.toK = norm6 c.c0.toK c.c1.toK c.c2.toK := by
  simp only [Fp6.norm, Fp6.adjugate, Fp2.toK_add, Fp2.toK_sub, Fp2.toK_mul, Fp2.toK_mulXi, norm6, normForm]
  ring

theorem Fp6.norm_ne_zero {c : Fp6} (hc : c.canonical) (h : c ≠ Fp6.zero) : c.norm ≠ Fp2.zero := by
  have := fact_p
  have := fact_k2
  intro h0
  have h1 : norm6 c.c0.toK c.c1.toK c.c2.toK = 0 := by rw [← Fp6.toK_norm, h0, Fp2.toK_zero]
  obtain ⟨ha, hb, hd⟩ := cubic_norm xi_not_cube h1
  refine h ?_
  have e0 := Fp2.toK_inj hc.1 Fp2.canonical_zero (ha.trans Fp2.toK_zero.symm)
  have e1 := Fp2.toK_inj hc.2.1 Fp2.canonical_zero (hb.trans Fp2.toK_zero.symm)
  have e2 := Fp2.toK_inj hc.2.2 Fp2.canonical_zero (hd.trans Fp2.toK_zero.symm)
  cases c
  simp_all [Fp6.zero]

/-- c * c^-1 = 1 in Fp6 (42_tower.md R172). -/
theorem Fp6.val_inv {R : Type} [CommRing R] {u v w : R} (t : TowerIn R u v w) {c : Fp6} (hc : c.canonical) (h : c ≠ Fp6.zero) :
    c.val u v * c.inv.val u v = 1 := by
  have hn := Fp2.val_inv t (a := c.norm) (Fp2.canonical_add _ _) (Fp6.norm_ne_zero hc h)
  have hv : c.norm.val u = c.c0.val u * c.adjugate.c0.val u +
      (9 + u) * (c.c2.val u * c.adjugate.c1.val u + c.c1.val u * c.adjugate.c2.val u) := by
    simp only [Fp6.norm, Fp2.val_add t, Fp2.val_mul t, Fp2.val_mulXi t]
  simp only [Fp6.val, Fp6.inv, Fp2.val_mul t]
  rw [hv] at hn
  have a0 : c.adjugate.c0.val u = c.c0.val u ^ 2 - (9 + u) * c.c1.val u * c.c2.val u := by
    simp only [Fp6.adjugate, Fp2.val_sub t, Fp2.val_mul t, Fp2.val_mulXi t]
    ring
  have a1 : c.adjugate.c1.val u = (9 + u) * c.c2.val u ^ 2 - c.c0.val u * c.c1.val u := by
    simp only [Fp6.adjugate, Fp2.val_sub t, Fp2.val_mul t, Fp2.val_mulXi t]
    ring
  have a2 : c.adjugate.c2.val u = c.c1.val u ^ 2 - c.c0.val u * c.c2.val u := by
    simp only [Fp6.adjugate, Fp2.val_sub t, Fp2.val_mul t]
    ring
  rw [a0, a1, a2] at hn ⊢
  linear_combination hn + (c.norm.inv.val u) *
    (c.c1.val u * (c.c1.val u ^ 2 - c.c0.val u * c.c2.val u) + c.c2.val u * ((9 + u) * c.c2.val u ^ 2 - c.c0.val u * c.c1.val u)
      + c.c2.val u * (c.c1.val u ^ 2 - c.c0.val u * c.c2.val u) * v) * t.v_cube

/-! ### Fp12 -/

theorem Fp12.normRoot_ne_zero {f : Fp12} (hf : f.canonical) (h : f ≠ Fp12.zero) :
    (f.g.mul f.g).sub (f.h.mul f.h).mulV ≠ Fp6.zero := by
  have := fact_p
  have := fact_k2
  intro h0
  have e0 := congrArg (fun c : Fp6 => c.c0.toK) h0
  have e1 := congrArg (fun c : Fp6 => c.c1.toK) h0
  have e2 := congrArg (fun c : Fp6 => c.c2.toK) h0
  simp only [Fp6.sub, Fp6.mulV, Fp6.mul, Fp6.zero, Fp2.toK_sub, Fp2.toK_add, Fp2.toK_mul, Fp2.toK_mulXi, Fp2.toK_zero, sub_eq_zero]
    at e0 e1 e2
  have hN : norm6 f.g.c0.toK f.g.c1.toK f.g.c2.toK ^ 2 = Fp2.xi.toK * norm6 f.h.c0.toK f.h.c1.toK f.h.c2.toK ^ 2 := by
    rw [sq, sq, norm6, norm6, ← normForm_mul, ← normForm_mul, ← normForm_mulV, e0, e1, e2]
  by_cases hh : norm6 f.h.c0.toK f.h.c1.toK f.h.c2.toK = 0
  · rw [hh] at hN
    have hg : norm6 f.g.c0.toK f.g.c1.toK f.g.c2.toK = 0 := by simpa using hN
    have z6 : ∀ c : Fp6, c.canonical → norm6 c.c0.toK c.c1.toK c.c2.toK = 0 → c = Fp6.zero := fun c hc hz => by
      by_contra hne
      refine Fp6.norm_ne_zero hc hne (Fp2.toK_inj (Fp2.canonical_add _ _) Fp2.canonical_zero ?_)
      rw [Fp6.toK_norm, hz, Fp2.toK_zero]
    refine h ?_
    have hg' := z6 f.g hf.1 hg
    have hh' := z6 f.h hf.2 hh
    cases f
    simp_all [Fp12.zero]
  · refine xi_not_square (norm6 f.g.c0.toK f.g.c1.toK f.g.c2.toK / norm6 f.h.c0.toK f.h.c1.toK f.h.c2.toK) ?_
    rw [div_pow, hN, mul_div_assoc, div_self (pow_ne_zero 2 hh), mul_one]

/-- f * f^-1 = 1 in Fp12 (42_tower.md R173). -/
theorem Fp12.val_inv {R : Type} [CommRing R] {u v w : R} (t : TowerIn R u v w) {f : Fp12} (hf : f.canonical) (h : f ≠ Fp12.zero) :
    f.val u v w * f.inv.val u v w = 1 := by
  have hn := Fp6.val_inv t (c := (f.g.mul f.g).sub (f.h.mul f.h).mulV) (Fp6.canonical_sub _ _) (Fp12.normRoot_ne_zero hf h)
  rw [Fp6.val_sub t, Fp6.val_mulV t, Fp6.val_mul t, Fp6.val_mul t] at hn
  rw [Fp12.inv, Fp12.val_mul t]
  simp only [Fp12.val, Fp12.conj, Fp6.val_neg t, Fp6.val_zero]
  linear_combination hn - (f.h.val u v) ^ 2 * (((f.g.mul f.g).sub (f.h.mul f.h).mulV).inv.val u v) * t.w_sq

end Sys2Proof.Machine
end

