-- ==== Sys2Proof/Laws/State.lean ====
section
/-! SUPPORT. One lemma per field per update of State, true by rfl, so that no proof unfolds a record update. -/

namespace Sys2Proof.Machine

set_option Elab.async false

variable (s : State)


/-! ### setReg -/

@[simp] theorem State.setReg_f (i : Nat) (x : Elem) : (s.setReg i x).f = s.f.setIfInBounds i x := rfl
@[simp] theorem State.setReg_v (i : Nat) (x : Elem) : (s.setReg i x).v = s.v.setIfInBounds i true := rfl
@[simp] theorem State.setReg_iobuf (i : Nat) (x : Elem) : (s.setReg i x).iobuf = s.iobuf := rfl
@[simp] theorem State.setReg_fp2ord (i : Nat) (x : Elem) : (s.setReg i x).fp2ord = s.fp2ord := rfl
@[simp] theorem State.setReg_ie (i : Nat) (x : Elem) : (s.setReg i x).ie = s.ie := rfl
@[simp] theorem State.setReg_busy (i : Nat) (x : Elem) : (s.setReg i x).busy = s.busy := rfl
@[simp] theorem State.setReg_done (i : Nat) (x : Elem) : (s.setReg i x).done = s.done := rfl
@[simp] theorem State.setReg_errf (i : Nat) (x : Elem) : (s.setReg i x).errf = s.errf := rfl
@[simp] theorem State.setReg_flag (i : Nat) (x : Elem) : (s.setReg i x).flag = s.flag := rfl
@[simp] theorem State.setReg_ovr (i : Nat) (x : Elem) : (s.setReg i x).ovr = s.ovr := rfl
@[simp] theorem State.setReg_errcode (i : Nat) (x : Elem) : (s.setReg i x).errcode = s.errcode := rfl
@[simp] theorem State.setReg_errcmd (i : Nat) (x : Elem) : (s.setReg i x).errcmd = s.errcmd := rfl
@[simp] theorem State.setReg_cur (i : Nat) (x : Elem) : (s.setReg i x).cur = s.cur := rfl
@[simp] theorem State.setReg_fp2ordCmd (i : Nat) (x : Elem) : (s.setReg i x).fp2ordCmd = s.fp2ordCmd := rfl
@[simp] theorem State.setReg_agenda (i : Nat) (x : Elem) : (s.setReg i x).agenda = s.agenda := rfl
@[simp] theorem State.setReg_rdata (i : Nat) (x : Elem) : (s.setReg i x).rdata = s.rdata := rfl

/-! ### raise -/

@[simp] theorem State.raise_f (k : ErrKind) : (s.raise k).f = s.f := rfl
@[simp] theorem State.raise_v (k : ErrKind) : (s.raise k).v = s.v := rfl
@[simp] theorem State.raise_iobuf (k : ErrKind) : (s.raise k).iobuf = s.iobuf := rfl
@[simp] theorem State.raise_fp2ord (k : ErrKind) : (s.raise k).fp2ord = s.fp2ord := rfl
@[simp] theorem State.raise_ie (k : ErrKind) : (s.raise k).ie = s.ie := rfl
@[simp] theorem State.raise_busy (k : ErrKind) : (s.raise k).busy = false := rfl
@[simp] theorem State.raise_done (k : ErrKind) : (s.raise k).done = s.done := rfl
@[simp] theorem State.raise_errf (k : ErrKind) : (s.raise k).errf = true := rfl
@[simp] theorem State.raise_flag (k : ErrKind) : (s.raise k).flag = s.flag := rfl
@[simp] theorem State.raise_ovr (k : ErrKind) : (s.raise k).ovr = s.ovr := rfl
@[simp] theorem State.raise_errcode (k : ErrKind) : (s.raise k).errcode = k.code := rfl
@[simp] theorem State.raise_errcmd (k : ErrKind) : (s.raise k).errcmd = s.cur.getD 0 := rfl
@[simp] theorem State.raise_cur (k : ErrKind) : (s.raise k).cur = none := rfl
@[simp] theorem State.raise_fp2ordCmd (k : ErrKind) : (s.raise k).fp2ordCmd = s.fp2ordCmd := rfl
@[simp] theorem State.raise_agenda (k : ErrKind) : (s.raise k).agenda = s.agenda := rfl
@[simp] theorem State.raise_rdata (k : ErrKind) : (s.raise k).rdata = s.rdata := rfl

/-! ### commit -/

@[simp] theorem State.commit_f (e : Effect) : (s.commit e).f = (s.apply e).f := rfl
@[simp] theorem State.commit_v (e : Effect) : (s.commit e).v = (s.apply e).v := rfl
@[simp] theorem State.commit_iobuf (e : Effect) : (s.commit e).iobuf = (s.apply e).iobuf := rfl
@[simp] theorem State.commit_fp2ord (e : Effect) : (s.commit e).fp2ord = (s.apply e).fp2ord := rfl
@[simp] theorem State.commit_ie (e : Effect) : (s.commit e).ie = (s.apply e).ie := rfl
@[simp] theorem State.commit_busy (e : Effect) : (s.commit e).busy = false := rfl
@[simp] theorem State.commit_done (e : Effect) : (s.commit e).done = true := rfl
@[simp] theorem State.commit_errf (e : Effect) : (s.commit e).errf = (s.apply e).errf := rfl
@[simp] theorem State.commit_flag (e : Effect) : (s.commit e).flag = (s.apply e).flag := rfl
@[simp] theorem State.commit_ovr (e : Effect) : (s.commit e).ovr = (s.apply e).ovr := rfl
@[simp] theorem State.commit_errcode (e : Effect) : (s.commit e).errcode = (s.apply e).errcode := rfl
@[simp] theorem State.commit_errcmd (e : Effect) : (s.commit e).errcmd = (s.apply e).errcmd := rfl
@[simp] theorem State.commit_cur (e : Effect) : (s.commit e).cur = none := rfl
@[simp] theorem State.commit_fp2ordCmd (e : Effect) : (s.commit e).fp2ordCmd = (s.apply e).fp2ordCmd := rfl
@[simp] theorem State.commit_agenda (e : Effect) : (s.commit e).agenda = (s.apply e).agenda := rfl
@[simp] theorem State.commit_rdata (e : Effect) : (s.commit e).rdata = (s.apply e).rdata := rfl

/-! ### latch -/

@[simp] theorem State.latch_f (w : Word) : (s.latch w).f = s.f := rfl
@[simp] theorem State.latch_v (w : Word) : (s.latch w).v = s.v := rfl
@[simp] theorem State.latch_iobuf (w : Word) : (s.latch w).iobuf = s.iobuf := rfl
@[simp] theorem State.latch_fp2ord (w : Word) : (s.latch w).fp2ord = s.fp2ord := rfl
@[simp] theorem State.latch_ie (w : Word) : (s.latch w).ie = s.ie := rfl
@[simp] theorem State.latch_busy (w : Word) : (s.latch w).busy = true := rfl
@[simp] theorem State.latch_done (w : Word) : (s.latch w).done = false := rfl
@[simp] theorem State.latch_errf (w : Word) : (s.latch w).errf = s.errf := rfl
@[simp] theorem State.latch_flag (w : Word) : (s.latch w).flag = s.flag := rfl
@[simp] theorem State.latch_ovr (w : Word) : (s.latch w).ovr = s.ovr := rfl
@[simp] theorem State.latch_errcode (w : Word) : (s.latch w).errcode = s.errcode := rfl
@[simp] theorem State.latch_errcmd (w : Word) : (s.latch w).errcmd = s.errcmd := rfl
@[simp] theorem State.latch_cur (w : Word) : (s.latch w).cur = some w := rfl
@[simp] theorem State.latch_fp2ordCmd (w : Word) : (s.latch w).fp2ordCmd = s.fp2ord := rfl
@[simp] theorem State.latch_agenda (w : Word) : (s.latch w).agenda = s.agenda := rfl
@[simp] theorem State.latch_rdata (w : Word) : (s.latch w).rdata = s.rdata := rfl

/-! ### clearError -/

@[simp] theorem State.clearError_f : (s.clearError).f = s.f := rfl
@[simp] theorem State.clearError_v : (s.clearError).v = s.v := rfl
@[simp] theorem State.clearError_iobuf : (s.clearError).iobuf = s.iobuf := rfl
@[simp] theorem State.clearError_fp2ord : (s.clearError).fp2ord = s.fp2ord := rfl
@[simp] theorem State.clearError_ie : (s.clearError).ie = s.ie := rfl
@[simp] theorem State.clearError_busy : (s.clearError).busy = s.busy := rfl
@[simp] theorem State.clearError_done : (s.clearError).done = s.done := rfl
@[simp] theorem State.clearError_errf : (s.clearError).errf = false := rfl
@[simp] theorem State.clearError_flag : (s.clearError).flag = s.flag := rfl
@[simp] theorem State.clearError_ovr : (s.clearError).ovr = s.ovr := rfl
@[simp] theorem State.clearError_errcode : (s.clearError).errcode = 0 := rfl
@[simp] theorem State.clearError_errcmd : (s.clearError).errcmd = 0 := rfl
@[simp] theorem State.clearError_cur : (s.clearError).cur = s.cur := rfl
@[simp] theorem State.clearError_fp2ordCmd : (s.clearError).fp2ordCmd = s.fp2ordCmd := rfl
@[simp] theorem State.clearError_agenda : (s.clearError).agenda = s.agenda := rfl
@[simp] theorem State.clearError_rdata : (s.clearError).rdata = s.rdata := rfl

/-! ### softReset -/

@[simp] theorem State.softReset_f : (s.softReset).f = s.f := rfl
@[simp] theorem State.softReset_v : (s.softReset).v = Vector.replicate 256 false := rfl
@[simp] theorem State.softReset_iobuf : (s.softReset).iobuf = s.iobuf := rfl
@[simp] theorem State.softReset_fp2ord : (s.softReset).fp2ord = false := rfl
@[simp] theorem State.softReset_ie : (s.softReset).ie = false := rfl
@[simp] theorem State.softReset_busy : (s.softReset).busy = false := rfl
@[simp] theorem State.softReset_done : (s.softReset).done = false := rfl
@[simp] theorem State.softReset_errf : (s.softReset).errf = false := rfl
@[simp] theorem State.softReset_flag : (s.softReset).flag = false := rfl
@[simp] theorem State.softReset_ovr : (s.softReset).ovr = false := rfl
@[simp] theorem State.softReset_errcode : (s.softReset).errcode = 0 := rfl
@[simp] theorem State.softReset_errcmd : (s.softReset).errcmd = 0 := rfl
@[simp] theorem State.softReset_cur : (s.softReset).cur = none := rfl
@[simp] theorem State.softReset_fp2ordCmd : (s.softReset).fp2ordCmd = s.fp2ordCmd := rfl
@[simp] theorem State.softReset_agenda : (s.softReset).agenda = s.agenda := rfl
@[simp] theorem State.softReset_rdata : (s.softReset).rdata = s.rdata := rfl

/-! ### hardReset -/

@[simp] theorem State.hardReset_f (draw : List Byte) : (s.hardReset draw).f = Vector.replicate 256 0 := rfl
@[simp] theorem State.hardReset_v (draw : List Byte) : (s.hardReset draw).v = Vector.replicate 256 false := rfl
@[simp] theorem State.hardReset_iobuf (draw : List Byte) : (s.hardReset draw).iobuf = Memory.ofDraw draw := rfl
@[simp] theorem State.hardReset_fp2ord (draw : List Byte) : (s.hardReset draw).fp2ord = false := rfl
@[simp] theorem State.hardReset_ie (draw : List Byte) : (s.hardReset draw).ie = false := rfl
@[simp] theorem State.hardReset_busy (draw : List Byte) : (s.hardReset draw).busy = false := rfl
@[simp] theorem State.hardReset_done (draw : List Byte) : (s.hardReset draw).done = false := rfl
@[simp] theorem State.hardReset_errf (draw : List Byte) : (s.hardReset draw).errf = false := rfl
@[simp] theorem State.hardReset_flag (draw : List Byte) : (s.hardReset draw).flag = false := rfl
@[simp] theorem State.hardReset_ovr (draw : List Byte) : (s.hardReset draw).ovr = false := rfl
@[simp] theorem State.hardReset_errcode (draw : List Byte) : (s.hardReset draw).errcode = 0 := rfl
@[simp] theorem State.hardReset_errcmd (draw : List Byte) : (s.hardReset draw).errcmd = 0 := rfl
@[simp] theorem State.hardReset_cur (draw : List Byte) : (s.hardReset draw).cur = none := rfl
@[simp] theorem State.hardReset_fp2ordCmd (draw : List Byte) : (s.hardReset draw).fp2ordCmd = false := rfl
@[simp] theorem State.hardReset_agenda (draw : List Byte) : (s.hardReset draw).agenda = s.agenda := rfl
@[simp] theorem State.hardReset_rdata (draw : List Byte) : (s.hardReset draw).rdata = none := rfl

/-! ### resetWith and reset -/

@[simp] theorem State.resetWith_f (m : Memory) : (State.resetWith m).f = Vector.replicate 256 0 := rfl
@[simp] theorem State.resetWith_v (m : Memory) : (State.resetWith m).v = Vector.replicate 256 false := rfl
@[simp] theorem State.resetWith_iobuf (m : Memory) : (State.resetWith m).iobuf = m := rfl
@[simp] theorem State.resetWith_fp2ord (m : Memory) : (State.resetWith m).fp2ord = false := rfl
@[simp] theorem State.resetWith_ie (m : Memory) : (State.resetWith m).ie = false := rfl
@[simp] theorem State.resetWith_busy (m : Memory) : (State.resetWith m).busy = false := rfl
@[simp] theorem State.resetWith_done (m : Memory) : (State.resetWith m).done = false := rfl
@[simp] theorem State.resetWith_errf (m : Memory) : (State.resetWith m).errf = false := rfl
@[simp] theorem State.resetWith_flag (m : Memory) : (State.resetWith m).flag = false := rfl
@[simp] theorem State.resetWith_ovr (m : Memory) : (State.resetWith m).ovr = false := rfl
@[simp] theorem State.resetWith_errcode (m : Memory) : (State.resetWith m).errcode = 0 := rfl
@[simp] theorem State.resetWith_errcmd (m : Memory) : (State.resetWith m).errcmd = 0 := rfl
@[simp] theorem State.resetWith_cur (m : Memory) : (State.resetWith m).cur = none := rfl
@[simp] theorem State.resetWith_fp2ordCmd (m : Memory) : (State.resetWith m).fp2ordCmd = false := rfl
@[simp] theorem State.resetWith_agenda (m : Memory) : (State.resetWith m).agenda = [] := rfl
@[simp] theorem State.resetWith_rdata (m : Memory) : (State.resetWith m).rdata = none := rfl

theorem State.reset_eq : State.reset = State.resetWith [] := rfl


/-! ### withFetchWord -/

@[simp] theorem State.withFetchWord_f (nbits w : Nat) : (s.withFetchWord nbits w).f = s.f := rfl
@[simp] theorem State.withFetchWord_v (nbits w : Nat) : (s.withFetchWord nbits w).v = s.v := rfl
@[simp] theorem State.withFetchWord_iobuf (nbits w : Nat) : (s.withFetchWord nbits w).iobuf = s.iobuf := rfl
@[simp] theorem State.withFetchWord_fp2ord (nbits w : Nat) : (s.withFetchWord nbits w).fp2ord = s.fp2ord := rfl
@[simp] theorem State.withFetchWord_ie (nbits w : Nat) : (s.withFetchWord nbits w).ie = s.ie := rfl
@[simp] theorem State.withFetchWord_busy (nbits w : Nat) : (s.withFetchWord nbits w).busy = true := rfl
@[simp] theorem State.withFetchWord_done (nbits w : Nat) : (s.withFetchWord nbits w).done = false := rfl
@[simp] theorem State.withFetchWord_errf (nbits w : Nat) : (s.withFetchWord nbits w).errf = s.errf := rfl
@[simp] theorem State.withFetchWord_flag (nbits w : Nat) : (s.withFetchWord nbits w).flag = s.flag := rfl
@[simp] theorem State.withFetchWord_ovr (nbits w : Nat) : (s.withFetchWord nbits w).ovr = s.ovr := rfl
@[simp] theorem State.withFetchWord_errcode (nbits w : Nat) : (s.withFetchWord nbits w).errcode = s.errcode := rfl
@[simp] theorem State.withFetchWord_errcmd (nbits w : Nat) : (s.withFetchWord nbits w).errcmd = s.errcmd := rfl
@[simp] theorem State.withFetchWord_cur (nbits w : Nat) : (s.withFetchWord nbits w).cur = some (BitVec.ofNat 32 (w % 2 ^ nbits)) := rfl
@[simp] theorem State.withFetchWord_fp2ordCmd (nbits w : Nat) : (s.withFetchWord nbits w).fp2ordCmd = s.fp2ord := rfl
@[simp] theorem State.withFetchWord_agenda (nbits w : Nat) : (s.withFetchWord nbits w).agenda = Turn.engine :: s.agenda := rfl
@[simp] theorem State.withFetchWord_rdata (nbits w : Nat) : (s.withFetchWord nbits w).rdata = s.rdata := rfl

/-! ### apply: what no effect of a command touches -/

@[simp] theorem State.setRegs_iobuf (b : Nat) (xs : List Elem) : (s.setRegs b xs).iobuf = s.iobuf := by
  induction xs generalizing s b with
  | nil => rfl
  | cons x xs ih => exact ih _ _

@[simp] theorem State.setRegs_fp2ord (b : Nat) (xs : List Elem) : (s.setRegs b xs).fp2ord = s.fp2ord := by
  induction xs generalizing s b with
  | nil => rfl
  | cons x xs ih => exact ih _ _

@[simp] theorem State.setRegs_ie (b : Nat) (xs : List Elem) : (s.setRegs b xs).ie = s.ie := by
  induction xs generalizing s b with
  | nil => rfl
  | cons x xs ih => exact ih _ _

@[simp] theorem State.setRegs_busy (b : Nat) (xs : List Elem) : (s.setRegs b xs).busy = s.busy := by
  induction xs generalizing s b with
  | nil => rfl
  | cons x xs ih => exact ih _ _

@[simp] theorem State.setRegs_done (b : Nat) (xs : List Elem) : (s.setRegs b xs).done = s.done := by
  induction xs generalizing s b with
  | nil => rfl
  | cons x xs ih => exact ih _ _

@[simp] theorem State.setRegs_errf (b : Nat) (xs : List Elem) : (s.setRegs b xs).errf = s.errf := by
  induction xs generalizing s b with
  | nil => rfl
  | cons x xs ih => exact ih _ _

@[simp] theorem State.setRegs_flag (b : Nat) (xs : List Elem) : (s.setRegs b xs).flag = s.flag := by
  induction xs generalizing s b with
  | nil => rfl
  | cons x xs ih => exact ih _ _

@[simp] theorem State.setRegs_ovr (b : Nat) (xs : List Elem) : (s.setRegs b xs).ovr = s.ovr := by
  induction xs generalizing s b with
  | nil => rfl
  | cons x xs ih => exact ih _ _

@[simp] theorem State.setRegs_errcode (b : Nat) (xs : List Elem) : (s.setRegs b xs).errcode = s.errcode := by
  induction xs generalizing s b with
  | nil => rfl
  | cons x xs ih => exact ih _ _

@[simp] theorem State.setRegs_errcmd (b : Nat) (xs : List Elem) : (s.setRegs b xs).errcmd = s.errcmd := by
  induction xs generalizing s b with
  | nil => rfl
  | cons x xs ih => exact ih _ _

@[simp] theorem State.setRegs_cur (b : Nat) (xs : List Elem) : (s.setRegs b xs).cur = s.cur := by
  induction xs generalizing s b with
  | nil => rfl
  | cons x xs ih => exact ih _ _

@[simp] theorem State.setRegs_fp2ordCmd (b : Nat) (xs : List Elem) : (s.setRegs b xs).fp2ordCmd = s.fp2ordCmd := by
  induction xs generalizing s b with
  | nil => rfl
  | cons x xs ih => exact ih _ _

@[simp] theorem State.setRegs_agenda (b : Nat) (xs : List Elem) : (s.setRegs b xs).agenda = s.agenda := by
  induction xs generalizing s b with
  | nil => rfl
  | cons x xs ih => exact ih _ _

@[simp] theorem State.setRegs_rdata (b : Nat) (xs : List Elem) : (s.setRegs b xs).rdata = s.rdata := by
  induction xs generalizing s b with
  | nil => rfl
  | cons x xs ih => exact ih _ _

@[simp] theorem State.apply_fp2ord (e : Effect) : (s.apply e).fp2ord = s.fp2ord := by cases e <;> simp [State.apply]
@[simp] theorem State.apply_ie (e : Effect) : (s.apply e).ie = s.ie := by cases e <;> simp [State.apply]
@[simp] theorem State.apply_busy (e : Effect) : (s.apply e).busy = s.busy := by cases e <;> simp [State.apply]
@[simp] theorem State.apply_done (e : Effect) : (s.apply e).done = s.done := by cases e <;> simp [State.apply]
@[simp] theorem State.apply_errf (e : Effect) : (s.apply e).errf = s.errf := by cases e <;> simp [State.apply]
@[simp] theorem State.apply_ovr (e : Effect) : (s.apply e).ovr = s.ovr := by cases e <;> simp [State.apply]
@[simp] theorem State.apply_errcode (e : Effect) : (s.apply e).errcode = s.errcode := by cases e <;> simp [State.apply]
@[simp] theorem State.apply_errcmd (e : Effect) : (s.apply e).errcmd = s.errcmd := by cases e <;> simp [State.apply]
@[simp] theorem State.apply_cur (e : Effect) : (s.apply e).cur = s.cur := by cases e <;> simp [State.apply]
@[simp] theorem State.apply_fp2ordCmd (e : Effect) : (s.apply e).fp2ordCmd = s.fp2ordCmd := by cases e <;> simp [State.apply]
@[simp] theorem State.apply_agenda (e : Effect) : (s.apply e).agenda = s.agenda := by cases e <;> simp [State.apply]
@[simp] theorem State.apply_rdata (e : Effect) : (s.apply e).rdata = s.rdata := by cases e <;> simp [State.apply]

@[simp] theorem State.apply_nothing : s.apply .nothing = s := rfl
@[simp] theorem State.apply_regs (b : Nat) (xs : List Elem) : s.apply (.regs b xs) = s.setRegs b xs := rfl
@[simp] theorem State.apply_flag_flag (c : Bool) : (s.apply (.flag c)).flag = c := rfl
@[simp] theorem State.apply_flag_f (c : Bool) : (s.apply (.flag c)).f = s.f := rfl
@[simp] theorem State.apply_flag_v (c : Bool) : (s.apply (.flag c)).v = s.v := rfl
@[simp] theorem State.apply_flag_iobuf (c : Bool) : (s.apply (.flag c)).iobuf = s.iobuf := rfl
@[simp] theorem State.apply_bytes_flag (off : Nat) (xs : List Byte) : (s.apply (.bytes off xs)).flag = s.flag := rfl
@[simp] theorem State.apply_bytes_f (off : Nat) (xs : List Byte) : (s.apply (.bytes off xs)).f = s.f := rfl
@[simp] theorem State.apply_bytes_v (off : Nat) (xs : List Byte) : (s.apply (.bytes off xs)).v = s.v := rfl
@[simp] theorem State.apply_bytes_iobuf (off : Nat) (xs : List Byte) :
    (s.apply (.bytes off xs)).iobuf = s.iobuf.writeBytes off xs := rfl

end Sys2Proof.Machine
end

