-- ==== Sys2Proof/Laws/Memory.lean ====
section
/-! SUPPORT. IOBUF: read after write, the canonical form is kept, equal readings are equal contents, byte strings and the integers they stand for. -/

namespace Sys2Proof.Machine

set_option Elab.async false

/-! ### One byte -/

@[simp] theorem Memory.read_nil (a : Nat) : Memory.read [] a = unlistedByte := rfl

/-- An address below every listed one reads as unlisted. -/
theorem Memory.read_of_lt (m : Memory) (a : Nat) (h : ∀ c ∈ m, a < c.1) : m.read a = unlistedByte := by
  induction m with
  | nil => rfl
  | cons c m ih =>
    obtain ⟨k, x⟩ := c
    have hk : a < k := h (k, x) (by simp)
    rw [Memory.read, if_neg (by omega)]
    exact ih fun c hc => h c (by simp [hc])

theorem Memory.wf_cons {k : Nat} {x : Byte} {m : Memory} :
    Memory.wf ((k, x) :: m) ↔ (∀ c ∈ m, k < c.1) ∧ k < Config.iobufSize ∧ x ≠ unlistedByte ∧ m.wf := by
  simp only [Memory.wf, List.pairwise_cons, List.forall_mem_cons]
  tauto

theorem Memory.wf_nil : Memory.wf [] := by simp [Memory.wf]

/-- Read after write, in a memory whose addresses rise. -/
theorem Memory.read_write (m : Memory) (a : Nat) (x : Byte) (j : Nat) (h : m.Pairwise (fun c d => c.1 < d.1)) :
    (m.write a x).read j = if j = a then x else m.read j := by
  induction m with
  | nil => by_cases hx : x = unlistedByte <;> simp [Memory.write, Memory.read, hx]
  | cons c m ih =>
    obtain ⟨k, y⟩ := c
    rw [List.pairwise_cons] at h
    have low : ∀ b, b ≤ k → Memory.read m b = unlistedByte := fun b hb =>
      Memory.read_of_lt m b fun c hc => lt_of_le_of_lt hb (h.1 c hc)
    rw [Memory.write]
    split
    · rename_i hak
      split
      · rename_i hx
        rw [Memory.read]
        by_cases hj : j = a
        · rw [if_neg (by omega), if_pos hj, low j (by omega), hx]
        · rw [if_neg hj]
      · rw [Memory.read]
    · split
      · rename_i hak
        subst hak
        split
        · rename_i hx
          by_cases hj : j = a
          · rw [if_pos hj, low j (by omega), hx]
          · rw [if_neg hj, Memory.read, if_neg hj]
        · rw [Memory.read, Memory.read]
          by_cases hj : j = a <;> simp [hj]
      · rename_i hak
        rw [Memory.read, Memory.read, ih h.2]
        by_cases hk : j = k
        · rw [if_pos hk, if_neg (by omega), if_pos hk]
        · rw [if_neg hk, if_neg hk]

theorem Memory.mem_write (m : Memory) (a : Nat) (x : Byte) (c : Host.Cell) (h : c ∈ m.write a x) :
    c ∈ m ∨ c = (a, x) ∧ x ≠ unlistedByte := by
  induction m with
  | nil =>
    rw [Memory.write] at h
    split at h <;> simp_all
  | cons d m ih =>
    rw [Memory.write] at h
    split_ifs at h with h1 h2 h3 h4
    · exact .inl h
    · rcases List.mem_cons.1 h with h | h
      · exact .inr ⟨h, h2⟩
      · exact .inl h
    · exact .inl (List.mem_cons_of_mem _ h)
    · rcases List.mem_cons.1 h with h | h
      · exact .inr ⟨h, h4⟩
      · exact .inl (List.mem_cons_of_mem _ h)
    · rcases List.mem_cons.1 h with h | h
      · exact .inl (by simp [h])
      · rcases ih h with h | h
        · exact .inl (List.mem_cons_of_mem _ h)
        · exact .inr h

/-- A write inside IOBUF keeps the canonical form. -/
theorem Memory.wf_write (m : Memory) (a : Nat) (x : Byte) (h : m.wf) (ha : a < Config.iobufSize) : (m.write a x).wf := by
  induction m with
  | nil =>
    rw [Memory.write]
    split
    · exact Memory.wf_nil
    · rename_i hx
      simp [Memory.wf, ha, hx]
  | cons d m ih =>
    obtain ⟨k, y⟩ := d
    have hd := Memory.wf_cons.1 h
    rw [Memory.write]
    split_ifs with h1 h2 h3 h4
    · exact h
    · refine Memory.wf_cons.2 ⟨?_, ha, h2, h⟩
      intro c hc
      rcases List.mem_cons.1 hc with rfl | hc
      · exact h1
      · exact lt_trans h1 (hd.1 c hc)
    · exact hd.2.2.2
    · subst h3
      exact Memory.wf_cons.2 ⟨hd.1, ha, h4, hd.2.2.2⟩
    · refine Memory.wf_cons.2 ⟨?_, hd.2.1, hd.2.2.1, ih hd.2.2.2⟩
      intro c hc
      rcases Memory.mem_write m a x c hc with hc | ⟨rfl, -⟩
      · exact hd.1 c hc
      · show k < a
        omega

/-- Two memories in canonical form that read the same everywhere are equal. -/
theorem Memory.ext_of_wf (m n : Memory) (hm : m.wf) (hn : n.wf) (h : ∀ a, m.read a = n.read a) : m = n := by
  induction m generalizing n with
  | nil =>
    cases n with
    | nil => rfl
    | cons d n =>
      obtain ⟨k, y⟩ := d
      exact absurd (by simpa [Memory.read] using (h k).symm) (Memory.wf_cons.1 hn).2.2.1
  | cons c m ih =>
    obtain ⟨j, x⟩ := c
    have hc := Memory.wf_cons.1 hm
    cases n with
    | nil => exact absurd (by simpa [Memory.read] using h j) hc.2.2.1
    | cons d n =>
      obtain ⟨k, y⟩ := d
      have hd := Memory.wf_cons.1 hn
      have hjk : j = k := by
        rcases lt_trichotomy j k with hlt | he | hlt
        · have h1 := h j
          rw [Memory.read, if_pos rfl, Memory.read, if_neg (by omega),
            Memory.read_of_lt n j fun c hc => lt_trans hlt (hd.1 c hc)] at h1
          exact absurd h1 hc.2.2.1
        · exact he
        · have h1 := h k
          rw [Memory.read, if_neg (by omega), Memory.read, if_pos rfl,
            Memory.read_of_lt m k fun c hc' => lt_trans hlt (hc.1 c hc')] at h1
          exact absurd h1.symm hd.2.2.1
      subst hjk
      have hxy : x = y := by simpa [Memory.read] using h j
      subst hxy
      rw [ih n hc.2.2.2 hd.2.2.2]
      intro a
      by_cases haj : a = j
      · subst haj
        rw [Memory.read_of_lt m a hc.1, Memory.read_of_lt n a hd.1]
      · simpa [Memory.read, haj] using h a

/-! ### Byte strings -/

theorem Memory.wf_writeBytes (m : Memory) (off : Nat) (xs : List Byte) (h : m.wf) (ho : off + xs.length ≤ Config.iobufSize) :
    (m.writeBytes off xs).wf := by
  induction xs generalizing m off with
  | nil => exact h
  | cons x xs ih =>
    simp only [List.length_cons] at ho
    exact ih _ _ (Memory.wf_write m off x h (by omega)) (by omega)

/-- The draw of a hard reset is in canonical form. -/
theorem Memory.wf_ofDraw (draw : List Byte) : (Memory.ofDraw draw).wf := by
  refine Memory.wf_writeBytes [] 0 _ Memory.wf_nil ?_
  simp

/-- Read after writing a byte string that fits in IOBUF. -/
theorem Memory.read_writeBytes (m : Memory) (off : Nat) (xs : List Byte) (h : m.wf) (ho : off + xs.length ≤ Config.iobufSize)
    (a : Nat) :
    (m.writeBytes off xs).read a = if off ≤ a ∧ a < off + xs.length then xs.getD (a - off) 0 else m.read a := by
  induction xs generalizing m off with
  | nil => simp [Memory.writeBytes]
  | cons x xs ih =>
    simp only [List.length_cons] at ho
    rw [Memory.writeBytes, ih _ _ (Memory.wf_write m off x h (by omega)) (by omega), Memory.read_write m off x a h.1]
    simp only [List.length_cons]
    by_cases h1 : off + 1 ≤ a ∧ a < off + 1 + xs.length
    · rw [if_pos h1, if_pos (by omega), show a - off = a - (off + 1) + 1 by omega, List.getD_cons_succ]
    · rw [if_neg h1]
      by_cases h2 : a = off
      · subst h2; rw [if_pos rfl, if_pos (by omega)]; simp
      · rw [if_neg h2, if_neg (by omega)]

@[simp] theorem Memory.length_readBytes (m : Memory) (off n : Nat) : (m.readBytes off n).length = n := by
  induction n generalizing off with
  | zero => rfl
  | succ n ih => simp [Memory.readBytes, ih]

theorem Memory.readBytes_eq (m : Memory) (off n : Nat) :
    m.readBytes off n = (List.range n).map (fun k => m.read (off + k)) := by
  induction n generalizing off with
  | zero => rfl
  | succ n ih =>
    rw [Memory.readBytes, ih, List.range_succ_eq_map, List.map_cons, List.map_map]
    simp only [Nat.add_zero, Function.comp_def, Nat.succ_eq_add_one]
    congr 1
    exact List.map_congr_left fun k _ => by rw [show off + 1 + k = off + (k + 1) by omega]

/-- Reading back a byte string that has been written. -/
theorem Memory.readBytes_writeBytes (m : Memory) (off : Nat) (xs : List Byte) (h : m.wf)
    (ho : off + xs.length ≤ Config.iobufSize) : (m.writeBytes off xs).readBytes off xs.length = xs := by
  rw [Memory.readBytes_eq]
  refine List.ext_getElem (by simp) fun k h1 h2 => ?_
  simp only [List.length_map, List.length_range] at h1
  rw [List.getElem_map, List.getElem_range, Memory.read_writeBytes m off xs h ho, if_pos (by omega)]
  simp [h1]

end Sys2Proof.Machine
end

