-- ==== Sys2Proof/Laws/Codec.lean ====
section
/-! SUPPORT. Big-endian byte strings and the integers they stand for; signs; square roots in Fp2 are found whenever they exist. -/

namespace Sys2Proof.Machine

set_option Elab.async false

/-! ### Byte strings -/

theorem foldl_be (ys : List Byte) (a : Nat) :
    ys.foldl (fun acc x => acc * 256 + x.toNat) a = a * 256 ^ ys.length + ys.foldl (fun acc x => acc * 256 + x.toNat) 0 := by
  induction ys generalizing a with
  | nil => simp
  | cons y ys ih =>
    rw [List.foldl_cons, ih, List.foldl_cons, ih (0 * 256 + y.toNat), List.length_cons]
    ring

theorem beNat_append (xs ys : List Byte) : beNat (xs ++ ys) = beNat xs * 256 ^ ys.length + beNat ys := by
  rw [beNat, List.foldl_append, foldl_be]
  rfl

theorem beNat_cons (x : Byte) (xs : List Byte) : beNat (x :: xs) = x.toNat * 256 ^ xs.length + beNat xs := by
  rw [show x :: xs = [x] ++ xs from rfl, beNat_append]
  simp [beNat]

theorem beNat_lt (xs : List Byte) : beNat xs < 256 ^ xs.length := by
  induction xs with
  | nil => simp [beNat]
  | cons x xs ih =>
    rw [beNat_cons, List.length_cons, pow_succ]
    have hx := x.isLt
    nlinarith

@[simp] theorem length_beBytes (n x : Nat) : (beBytes n x).length = n := by
  induction n with
  | zero => rfl
  | succ n ih => rw [beBytes, List.length_cons, ih]

@[simp] theorem length_be32 (x : Nat) : (be32 x).length = 32 := length_beBytes 32 x

theorem beNat_beBytes (n x : Nat) : beNat (beBytes n x) = x % 256 ^ n := by
  induction n with
  | zero => simp [beBytes, beNat, Nat.mod_one]
  | succ n ih =>
    have h : x % 256 ^ (n + 1) = x % 256 ^ n + 256 ^ n * (x / 256 ^ n % 256) := by rw [pow_succ, Nat.mod_mul]
    rw [beBytes, beNat_cons, ih, length_beBytes, BitVec.toNat_ofNat, h, Nat.add_comm, Nat.mul_comm]

/-- `be(be32(x)) = x`. -/
theorem beNat_be32 (x : Nat) (h : x < 2 ^ 256) : beNat (be32 x) = x := by
  rw [be32, beNat_beBytes, Nat.mod_eq_of_lt (by simpa using h)]

/-- `be32(be(s)) = s`. -/
theorem beBytes_beNat (xs : List Byte) : beBytes xs.length (beNat xs) = xs := by
  have h : ∀ (ys : List Byte) (n a : Nat), ys.length = n → beBytes n (a * 256 ^ n + beNat ys) = ys := by
    intro ys
    induction ys with
    | nil => rintro n a rfl; rfl
    | cons y ys ih =>
      rintro n a rfl
      rw [List.length_cons, beBytes, beNat_cons]
      have hy := beNat_lt ys
      have he : a * 256 ^ (ys.length + 1) + (y.toNat * 256 ^ ys.length + beNat ys) =
          (a * 256 + y.toNat) * 256 ^ ys.length + beNat ys := by ring
      rw [he, ih _ _ rfl]
      congr 1
      apply BitVec.eq_of_toNat_eq
      rw [BitVec.toNat_ofNat, Nat.add_comm, Nat.add_mul_div_right _ _ (by positivity), Nat.div_eq_of_lt hy]
      have := y.isLt
      omega
  simpa using h xs _ 0 rfl

/-- The weighted sum of the claims is the integer of the byte string. -/
theorem Memory.beAt_eq (m : Memory) (off n : Nat) : m.beAt off n = beNat (m.readBytes off n) := by
  induction n generalizing off with
  | zero => rfl
  | succ n ih =>
    rw [Memory.readBytes, beNat_cons, Memory.length_readBytes, ← ih, Memory.beAt, Finset.sum_range_succ', Memory.beAt]
    rw [Nat.add_comm]
    congr 1
    refine Finset.sum_congr rfl fun k _ => ?_
    rw [show off + (k + 1) = off + 1 + k by omega, show n + 1 - 1 - (k + 1) = n - 1 - k by omega]

theorem Memory.readBytes_append (m : Memory) (off a b : Nat) :
    m.readBytes off (a + b) = m.readBytes off a ++ m.readBytes (off + a) b := by
  induction a generalizing off with
  | zero => simp [Memory.readBytes]
  | succ a ih =>
    rw [show a + 1 + b = (a + b) + 1 by omega, Memory.readBytes, ih, Memory.readBytes, List.cons_append,
      show off + 1 + a = off + (a + 1) by omega]

theorem Memory.take_readBytes (m : Memory) (off a b : Nat) : (m.readBytes off (a + b)).take a = m.readBytes off a := by
  rw [Memory.readBytes_append, List.take_left' (by simp)]

theorem Memory.drop_readBytes (m : Memory) (off a b : Nat) : (m.readBytes off (a + b)).drop a = m.readBytes (off + a) b := by
  rw [Memory.readBytes_append, List.drop_left' (by simp)]

@[simp] theorem length_wire2 (ord : Bool) (a : Fp2) : (wire2 ord a).length = 64 := by cases ord <;> simp [wire2]

@[simp] theorem length_setSign (c : Bool) (xs : List Byte) : (setSign c xs).length = xs.length := by cases xs <;> rfl

/-- SIGN is bit 254: setting it in the first of 32 bytes adds 2^254 to an integer below 2^254. -/
theorem beNat_setSign (c : Bool) (x : Nat) (h : x < 2 ^ 254) (ys : List Byte) :
    setSign c (be32 x ++ ys) = be32 (x + if c then 2 ^ 254 else 0) ++ ys := by
  have hb : be32 x = BitVec.ofNat 8 (x / 256 ^ 31) :: beBytes 31 x := rfl
  have hlow : ∀ (n m : Nat), n ≤ 31 → beBytes n (x + 2 ^ 254) = beBytes n x := by
    intro n _ hn
    have h1 : beNat (beBytes n (x + 2 ^ 254)) = beNat (beBytes n x) := by
      rw [beNat_beBytes, beNat_beBytes, show 254 = 8 * n + (254 - 8 * n) by omega, pow_add, pow_mul,
        show (2 ^ 8) ^ n = 256 ^ n by norm_num]
      simp
    have h2 := congrArg (beBytes n) h1
    have h3 := beBytes_beNat (beBytes n (x + 2 ^ 254))
    have h4 := beBytes_beNat (beBytes n x)
    rw [length_beBytes] at h3 h4
    rw [← h3, ← h4, h2]
  cases c with
  | false =>
    rw [hb, List.cons_append, setSign]
    simp [hb]
  | true =>
    rw [hb, List.cons_append, setSign]
    simp only [if_true]
    rw [show be32 (x + 2 ^ 254) = BitVec.ofNat 8 ((x + 2 ^ 254) / 256 ^ 31) :: beBytes 31 (x + 2 ^ 254) from rfl,
      hlow 31 0 le_rfl, List.cons_append]
    congr 1
    have hd : (x + 2 ^ 254) / 256 ^ 31 = x / 256 ^ 31 + 64 := by
      rw [show 2 ^ 254 = 64 * 256 ^ 31 by norm_num, Nat.add_mul_div_right _ _ (by positivity)]
    rw [hd]
    have hx : x / 256 ^ 31 < 64 := Nat.div_lt_of_lt_mul (by simpa using h)
    generalize x / 256 ^ 31 = y at hx
    interval_cases y <;> decide

/-! ### Signs -/

/-- Exactly one of y and -y has sign 1 unless y = 0 (45_codec.md R302). -/
theorem fpSgn_fpNeg (y : Nat) (h : y < Config.p) (h0 : y ≠ 0) : fpSgn (fpNeg y) = !fpSgn y := by
  have hn : fpNeg y = Config.p - y := by
    rw [fpNeg, Nat.mod_eq_of_lt h, Nat.mod_eq_of_lt (by omega)]
  have hp : Config.p % 2 = 1 := by decide
  rw [fpSgn, fpSgn, hn]
  by_cases hy : (Config.p - 1) / 2 < y
  · rw [decide_eq_true hy, decide_eq_false (by omega)]
    rfl
  · rw [decide_eq_false hy, decide_eq_true (by omega)]
    rfl

theorem fpNeg_eq_zero {y : Nat} (h : y < Config.p) : fpNeg y = 0 ↔ y = 0 := by
  rw [fpNeg, Nat.mod_eq_of_lt h]
  constructor
  · intro h1
    by_contra h0
    rw [Nat.mod_eq_of_lt (by omega)] at h1
    omega
  · rintro rfl
    simp

theorem Fp2.sgn_neg (y : Fp2) (h : y.canonical) (h0 : y ≠ Fp2.zero) : y.neg.sgn = !y.sgn := by
  obtain ⟨y0, y1⟩ := y
  by_cases h1 : y1 = 0
  · subst h1
    have h2 : y0 ≠ 0 := fun h2 => h0 (by rw [h2]; rfl)
    have hn : Fp2.neg ⟨y0, 0⟩ = ⟨fpNeg y0, 0⟩ := by rw [Fp2.neg, show fpNeg 0 = 0 by decide]
    rw [hn]
    exact fpSgn_fpNeg y0 h.1 h2
  · have hs : ∀ a b : Nat, b ≠ 0 → Fp2.sgn ⟨a, b⟩ = fpSgn b := fun a b hb => if_pos hb
    rw [Fp2.neg, hs _ _ (fun h2 => h1 ((fpNeg_eq_zero h.2).1 h2)), hs _ _ h1, fpSgn_fpNeg y1 h.2 h1]

/-! ### Square roots in Fp2 -/

/-- Fp2.sqrt answers only roots. -/
theorem Fp2.sqrt_some {a y : Fp2} (h : a.sqrt = some y) : y.mul y = a := by
  rw [Fp2.sqrt] at h
  split at h
  · split at h
    · rename_i hy
      obtain rfl := Option.some.inj h
      exact hy
    · exact absurd h (by simp)
  · exact absurd h (by simp)

/-- fpSqrt finds a root of a square; the root squares to it in ZMod p. -/
theorem fpSqrt_of_square {a : Nat} {z : ZMod Config.p} (h : (a : ZMod Config.p) = z ^ 2) :
    ∃ x, fpSqrt a = some x ∧ x < Config.p ∧ (x : ZMod Config.p) ^ 2 = a := by
  have := fact_p
  cases hs : fpSqrt a with
  | none =>
    refine absurd ?_ (fpSqrt_none a hs z.val)
    refine eq_of_zmod (fpMul_lt _ _) (Nat.mod_lt _ p_pos) ?_
    rw [cast_fpMul p_zmod, cast_mod_p p_zmod, ZMod.natCast_val, ZMod.cast_id', id, h, sq]
  | some x =>
    obtain ⟨h1, h2⟩ := fpSqrt_some a x hs
    refine ⟨x, rfl, h2, ?_⟩
    have := congrArg (Nat.cast : ℕ → ZMod Config.p) h1
    rwa [cast_fpMul p_zmod, cast_mod_p p_zmod, ← sq] at this

theorem fpSqrt_zmod {a x : Nat} (hs : fpSqrt a = some x) : (x : ZMod Config.p) ^ 2 = a := by
  have := congrArg (Nat.cast : ℕ → ZMod Config.p) (fpSqrt_some a x hs).1
  rwa [cast_fpMul p_zmod, cast_mod_p p_zmod, ← sq] at this

/-- An Fp2 element is known by its two coordinates in ZMod p. -/
theorem Fp2.eq_of_zmod {a b : Fp2} (ha : a.canonical) (hb : b.canonical) (h0 : (a.c0 : ZMod Config.p) = b.c0)
    (h1 : (a.c1 : ZMod Config.p) = b.c1) : a = b :=
  Fp2.toK_inj ha hb (by ext; exacts [h0, h1])

theorem Fp2.mul_self_c0 (y : Fp2) : ((y.mul y).c0 : ZMod Config.p) = (y.c0 : ZMod Config.p) ^ 2 - (y.c1 : ZMod Config.p) ^ 2 := by
  simp only [Fp2.mul, cast_fpSub p_zmod, cast_fpMul p_zmod]; ring

theorem Fp2.mul_self_c1 (y : Fp2) : ((y.mul y).c1 : ZMod Config.p) = 2 * (y.c0 : ZMod Config.p) * (y.c1 : ZMod Config.p) := by
  simp only [Fp2.mul, cast_fpAdd p_zmod, cast_fpMul p_zmod]; ring

theorem two_ne_zero_p : (2 : ZMod Config.p) ≠ 0 := by
  have := zmod_ne_zero (a := 2) (by decide) (by decide)
  simpa using this

/-- The candidate of the case a1 ≠ 0 is a root when x^2 = s with s^2 - a0*s - a1^2/4 = 0. -/
theorem Fp2.candidate_root {a : Fp2} {half : Nat} (hh : (half : ZMod Config.p) * 2 = 1) (ha : a.canonical) (x : Nat) (s : ZMod Config.p) (hx : (x : ZMod Config.p) ^ 2 = s) (hs0 : s ≠ 0)
    (hs : 4 * s ^ 2 - 4 * (a.c0 : ZMod Config.p) * s - (a.c1 : ZMod Config.p) ^ 2 = 0) :
    Fp2.mul ⟨x, fpMul (fpMul a.c1 half) (fpInv x)⟩ ⟨x, fpMul (fpMul a.c1 half) (fpInv x)⟩ = a := by
  have := fact_p
  subst hx
  have hx0 : (x : ZMod Config.p) ≠ 0 := by
    rintro h
    exact hs0 (by rw [h]; ring)
  have h2 := two_ne_zero_p
  have hh' : (half : ZMod Config.p) = 1 / 2 := by field_simp; exact hh
  refine Fp2.eq_of_zmod (Fp2.canonical_mul _ _) ha ?_ ?_
  · rw [Fp2.mul_self_c0]
    simp only [cast_fpMul p_zmod, fpInv_zmod, hh']
    field_simp
    linear_combination hs
  · rw [Fp2.mul_self_c1]
    simp only [cast_fpMul p_zmod, fpInv_zmod, hh']
    field_simp

/-- What the candidate needs of the square root of Fp: it answers roots, and one whenever there is one. -/
structure FindsRoots (sqrt : Nat → Option Nat) : Prop where
  sound : ∀ a x, sqrt a = some x → (x : ZMod Config.p) ^ 2 = a
  complete : ∀ (a : Nat) (z : ZMod Config.p), (a : ZMod Config.p) = z ^ 2 → ∃ x, sqrt a = some x

theorem findsRoots_fpSqrt : FindsRoots fpSqrt where
  sound _ _ h := fpSqrt_zmod h
  complete _ _ h := (fpSqrt_of_square h).imp fun _ h => h.1

variable {sqrt : Nat → Option Nat} {half : Nat} {a y : Fp2}

theorem Fp2.rootFrom_real (hq : FindsRoots sqrt) (ha : a.canonical) (h1 : a.c1 = 0)
    (e0 : (a.c0 : ZMod Config.p) = (y.c0 : ZMod Config.p) ^ 2 - (y.c1 : ZMod Config.p) ^ 2)
    (e1 : (a.c1 : ZMod Config.p) = 2 * (y.c0 : ZMod Config.p) * (y.c1 : ZMod Config.p)) :
    ∃ z : Fp2, a.rootFrom sqrt half = some z ∧ z.mul z = a := by
  have := fact_p
  rw [Fp2.rootFrom, if_pos h1]
  rw [h1, Nat.cast_zero] at e1
  cases hs : sqrt a.c0 with
  | some x =>
    refine ⟨_, rfl, Fp2.eq_of_zmod (Fp2.canonical_mul _ _) ha ?_ ?_⟩
    · rw [Fp2.mul_self_c0, hq.sound _ _ hs]; simp
    · rw [Fp2.mul_self_c1, h1]; simp
  | none =>
    have hy0 : (y.c0 : ZMod Config.p) = 0 := by
      by_contra hne
      have hy1 : (y.c1 : ZMod Config.p) = 0 := by
        have := e1.symm
        simpa [two_ne_zero_p, hne] using this
      obtain ⟨x, hx⟩ := hq.complete a.c0 (y.c0 : ZMod Config.p) (by rw [e0, hy1]; ring)
      rw [hs] at hx
      exact absurd hx (by simp)
    obtain ⟨x, hx⟩ := hq.complete (fpNeg a.c0) (y.c1 : ZMod Config.p) (by rw [cast_fpNeg p_zmod, e0, hy0]; ring)
    rw [hx]
    refine ⟨_, rfl, Fp2.eq_of_zmod (Fp2.canonical_mul _ _) ha ?_ ?_⟩
    · rw [Fp2.mul_self_c0, hq.sound _ _ hx, cast_fpNeg p_zmod]; simp
    · rw [Fp2.mul_self_c1, h1]; simp

/-- One of the halves of the two sums is a square, and either gives a root. -/
theorem Fp2.rootFrom_general (hq : FindsRoots sqrt) (hh : (half : ZMod Config.p) * 2 = 1) (ha : a.canonical) (h1 : a.c1 ≠ 0)
    (e0 : (a.c0 : ZMod Config.p) = (y.c0 : ZMod Config.p) ^ 2 - (y.c1 : ZMod Config.p) ^ 2)
    (e1 : (a.c1 : ZMod Config.p) = 2 * (y.c0 : ZMod Config.p) * (y.c1 : ZMod Config.p)) :
    ∃ z : Fp2, a.rootFrom sqrt half = some z ∧ z.mul z = a := by
  have := fact_p
  have h1' := zmod_ne_zero ha.2 h1
  have hN : (a.norm : ZMod Config.p) = ((y.c0 : ZMod Config.p) ^ 2 + (y.c1 : ZMod Config.p) ^ 2) ^ 2 := by
    rw [Fp2.norm, cast_fpAdd p_zmod, cast_fpMul p_zmod, cast_fpMul p_zmod, e0, e1]; ring
  obtain ⟨n, hn⟩ := hq.complete _ _ hN
  have hn2 := hq.sound _ _ hn
  rw [hN] at hn2
  have hnn : (n : ZMod Config.p) ^ 2 = (a.c0 : ZMod Config.p) ^ 2 + (a.c1 : ZMod Config.p) ^ 2 := by rw [hn2, e0, e1]; ring
  have root : ∀ (s x : Nat) (e : ZMod Config.p), e ^ 2 = (n : ZMod Config.p) ^ 2 → (s : ZMod Config.p) * 2 = a.c0 + e → sqrt s = some x →
      Fp2.mul ⟨x, fpMul (fpMul a.c1 half) (fpInv x)⟩ ⟨x, fpMul (fpMul a.c1 half) (fpInv x)⟩ = a := by
    intro s x e he hs hx
    have q : 4 * (s : ZMod Config.p) ^ 2 - 4 * (a.c0 : ZMod Config.p) * s - (a.c1 : ZMod Config.p) ^ 2 = 0 := by
      linear_combination (2 * (s : ZMod Config.p) - (a.c0 : ZMod Config.p) + e) * hs + he + hnn
    refine Fp2.candidate_root hh ha x _ (hq.sound _ _ hx) (fun h0 => h1' ?_) q
    have : (a.c1 : ZMod Config.p) ^ 2 = 0 := by rw [h0] at q; linear_combination -q
    simpa using this
  have hs1 : ((fpMul (fpAdd a.c0 n) half : ℕ) : ZMod Config.p) * 2 = a.c0 + n := by
    rw [cast_fpMul p_zmod, cast_fpAdd p_zmod, mul_assoc, hh, mul_one]
  have hs2 : ((fpMul (fpSub a.c0 n) half : ℕ) : ZMod Config.p) * 2 = a.c0 - n := by
    rw [cast_fpMul p_zmod, cast_fpSub p_zmod, mul_assoc, hh, mul_one]
  rw [Fp2.rootFrom, if_neg h1, hn]
  dsimp only
  generalize fpMul (fpAdd a.c0 n) half = s1 at hs1 ⊢
  generalize fpMul (fpSub a.c0 n) half = s2 at hs2 ⊢
  cases hx : sqrt s1 with
  | some x => exact ⟨_, rfl, root s1 x n rfl hs1 hx⟩
  | none =>
    have hsgn : (n : ZMod Config.p) = -((y.c0 : ZMod Config.p) ^ 2 + (y.c1 : ZMod Config.p) ^ 2) := by
      rcases sq_eq_sq_iff_eq_or_eq_neg.1 hn2 with h | h
      · exfalso
        obtain ⟨x, hx'⟩ := hq.complete s1 (y.c0 : ZMod Config.p) (mul_right_cancel₀ two_ne_zero_p (by rw [hs1, h, e0]; ring))
        rw [hx] at hx'
        exact absurd hx' (by simp)
      · exact h
    obtain ⟨x, hx'⟩ := hq.complete s2 (y.c0 : ZMod Config.p) (mul_right_cancel₀ two_ne_zero_p (by rw [hs2, hsgn, e0]; ring))
    rw [hx']
    exact ⟨_, rfl, root s2 x (-n) (by ring) (by rw [hs2]; ring) hx'⟩

theorem half_p : ((fpInv 2 : ℕ) : ZMod Config.p) * 2 = 1 := by
  have := fact_p
  rw [fpInv_zmod, Nat.cast_ofNat, inv_mul_cancel₀ two_ne_zero_p]

/-- Fp2.sqrt finds a root whenever there is one (45_codec.md R303). -/
theorem Fp2.sqrt_complete {a y : Fp2} (ha : a.canonical) (hy : y.mul y = a) : ∃ z, a.sqrt = some z := by
  have e0 : (a.c0 : ZMod Config.p) = (y.c0 : ZMod Config.p) ^ 2 - (y.c1 : ZMod Config.p) ^ 2 := by rw [← hy, Fp2.mul_self_c0]
  have e1 : (a.c1 : ZMod Config.p) = 2 * (y.c0 : ZMod Config.p) * (y.c1 : ZMod Config.p) := by rw [← hy, Fp2.mul_self_c1]
  have key : ∃ z : Fp2, a.rootCandidate = some z ∧ z.mul z = a := by
    by_cases h1 : a.c1 = 0
    · exact Fp2.rootFrom_real findsRoots_fpSqrt ha h1 e0 e1
    · exact Fp2.rootFrom_general findsRoots_fpSqrt half_p ha h1 e0 e1
  obtain ⟨z, hz, hzz⟩ := key
  exact ⟨z, by rw [Fp2.sqrt, hz]; exact if_pos hzz⟩
/-! ### Root selection -/

/-- No point of E has y = 0: -3 is not a cube mod p. -/
theorem rhs1_ne_zero (x : Nat) : rhs1 x ≠ 0 := by
  have := fact_p
  intro h
  have h1 : (x : ZMod Config.p) ^ 3 = -3 := by
    have := congrArg (Nat.cast : ℕ → ZMod Config.p) h
    simp only [rhs1, cast_fpAdd p_zmod, cast_fpMul p_zmod, Config.curveB, Nat.cast_zero, Nat.cast_ofNat] at this
    linear_combination this
  have hx : (x : ZMod Config.p) ≠ 0 := by
    intro h0
    rw [h0] at h1
    have h3 : ((3 : ℕ) : ZMod Config.p) = 0 := by push_cast; linear_combination h1
    exact zmod_ne_zero (a := 3) (by decide) (by decide) h3
  have h2 := ZMod.pow_card_sub_one_eq_one hx
  rw [show Config.p - 1 = 3 * ((Config.p - 1) / 3) by decide, pow_mul, h1] at h2
  have h3 : (fpPow (fpNeg 3) ((Config.p - 1) / 3) : ZMod Config.p) = (1 : ℕ) := by
    rw [cast_fpPow p_zmod, cast_fpNeg p_zmod]
    simpa using h2
  exact absurd (eq_of_zmod (fpPow_lt _ _) (by decide) h3) (by decide +kernel)

theorem toK_rhs2 (x : Fp2) : (rhs2 x).toK = x.toK ^ 3 + twistB.toK := by
  rw [rhs2, Fp2.toK_add, Fp2.toK_mul, Fp2.toK_mul]
  ring

/-- No point of the twist has y = 0: -b' is not a cube in Fp2. -/
theorem rhs2_ne_zero (x : Fp2) : rhs2 x ≠ Fp2.zero := by
  intro h
  have h1 : x.toK ^ 3 = twistB.neg.toK := by
    have := congrArg Fp2.toK h
    rw [toK_rhs2, Fp2.toK_zero] at this
    rw [Fp2.toK_neg]
    linear_combination this
  have hx : x.toK ≠ 0 := by
    intro h0
    rw [h0] at h1
    exact Fp2.toK_ne_zero (Fp2.canonical_neg twistB) (by decide +kernel) (by rw [← h1]; ring)
  have h2 := k2_pow x.toK hx
  rw [show Config.p ^ 2 - 1 = 3 * ((Config.p ^ 2 - 1) / 3) by decide, pow_mul, h1, ← Fp2.toK_pow, ← Fp2.toK_one] at h2
  exact absurd (Fp2.toK_inj (powBy_prop Fp2.mul Fp2.one _ Fp2.canonical Fp2.canonical_one Fp2.canonical_mul _) Fp2.canonical_one h2)
    (by decide +kernel)

theorem fpMul_fpNeg (y : Nat) : fpMul (fpNeg y) (fpNeg y) = fpMul y y := by
  refine eq_of_zmod (fpMul_lt _ _) (fpMul_lt _ _) ?_
  rw [cast_fpMul p_zmod, cast_fpMul p_zmod, cast_fpNeg p_zmod]
  ring

theorem Fp2.mul_neg_neg (y : Fp2) : y.neg.mul y.neg = y.mul y := by
  refine Fp2.toK_inj (Fp2.canonical_mul _ _) (Fp2.canonical_mul _ _) ?_
  rw [Fp2.toK_mul, Fp2.toK_mul, Fp2.toK_neg]
  ring

/-- G1: without a root the selection raises InvalidPoint; with one it answers the root of the given sign, and only that. -/
theorem selectRoot1 (x : Nat) (sign : Bool) :
    ((∀ y, fpMul y y ≠ rhs1 x) ∧ selectRoot fpNeg fpSgn (fpSqrt (rhs1 x)) sign = .error .invalidPoint) ∨
    ∃ y, y < Config.p ∧ fpMul y y = rhs1 x ∧ fpSgn y = sign ∧ selectRoot fpNeg fpSgn (fpSqrt (rhs1 x)) sign = .ok y := by
  have hr : rhs1 x % Config.p = rhs1 x := Nat.mod_eq_of_lt (fpAdd_lt _ _)
  cases h : fpSqrt (rhs1 x) with
  | none => exact .inl ⟨fun y hy => fpSqrt_none _ h y (hy.trans hr.symm), rfl⟩
  | some y =>
    obtain ⟨hy, hlt⟩ := fpSqrt_some _ _ h
    rw [hr] at hy
    have h0 : y ≠ 0 := by
      rintro rfl
      exact rhs1_ne_zero x (hy.symm.trans (by decide))
    refine .inr ?_
    rw [selectRoot]
    by_cases hs : fpSgn y = sign
    · exact ⟨y, hlt, hy, hs, by rw [if_pos hs]⟩
    · refine ⟨fpNeg y, fpNeg_lt _, (fpMul_fpNeg y).trans hy, ?_, by rw [if_neg hs]⟩
      rw [fpSgn_fpNeg y hlt h0]
      cases hy : fpSgn y <;> cases sign <;> simp_all

theorem Fp2.rootFrom_canonical {sqrt : Nat → Option Nat} (hq : ∀ a x, sqrt a = some x → x < Config.p) {half : Nat} {a z : Fp2}
    (h : a.rootFrom sqrt half = some z) : z.canonical := by
  rw [Fp2.rootFrom] at h
  split at h
  · split at h
    · rename_i hx
      exact Option.some.inj h ▸ ⟨hq _ _ hx, p_pos⟩
    · split at h
      · rename_i hx
        exact Option.some.inj h ▸ ⟨p_pos, hq _ _ hx⟩
      · exact absurd h (by simp)
  · split at h
    · exact absurd h (by simp)
    · split at h
      · rename_i hx
        exact Option.some.inj h ▸ ⟨hq _ _ hx, fpMul_lt _ _⟩
      · split at h
        · rename_i hx
          exact Option.some.inj h ▸ ⟨hq _ _ hx, fpMul_lt _ _⟩
        · exact absurd h (by simp)

theorem Fp2.sqrt_canonical {a y : Fp2} (h : a.sqrt = some y) : y.canonical := by
  rw [Fp2.sqrt] at h
  split at h
  · rename_i z hz
    split at h
    · exact Option.some.inj h ▸ Fp2.rootFrom_canonical (fun a x hx => (fpSqrt_some a x hx).2) hz
    · exact absurd h (by simp)
  · exact absurd h (by simp)

/-- G2: the same. -/
theorem selectRoot2 (x : Fp2) (sign : Bool) :
    ((∀ y : Fp2, y.mul y ≠ rhs2 x) ∧ selectRoot Fp2.neg Fp2.sgn (rhs2 x).sqrt sign = .error .invalidPoint) ∨
    ∃ y : Fp2, y.canonical ∧ y.mul y = rhs2 x ∧ y.sgn = sign ∧ selectRoot Fp2.neg Fp2.sgn (rhs2 x).sqrt sign = .ok y := by
  have hc : (rhs2 x).canonical := Fp2.canonical_add _ _
  cases h : (rhs2 x).sqrt with
  | none =>
    refine .inl ⟨fun y hy => ?_, rfl⟩
    obtain ⟨z, hz⟩ := Fp2.sqrt_complete hc hy
    rw [h] at hz
    exact absurd hz (by simp)
  | some y =>
    have hy := Fp2.sqrt_some h
    have hlt := Fp2.sqrt_canonical h
    have h0 : y ≠ Fp2.zero := by
      rintro rfl
      exact rhs2_ne_zero x (hy.symm.trans (by decide))
    refine .inr ?_
    rw [selectRoot]
    by_cases hs : y.sgn = sign
    · exact ⟨y, hlt, hy, hs, by rw [if_pos hs]⟩
    · refine ⟨y.neg, Fp2.canonical_neg _, (Fp2.mul_neg_neg y).trans hy, ?_, by rw [if_neg hs]⟩
      rw [Fp2.sgn_neg y hlt h0]
      cases hy : y.sgn <;> cases sign <;> simp_all
end Sys2Proof.Machine
end

