-- ==== Sys2Proof/Laws/Curve.lean ====
section
/-! SUPPORT. The group law of 43_curve.md R230 as the group of points of Mathlib's Weierstrass curve: sums and multiples of canonical points of the curve denote the sums and multiples of the group. -/

namespace Sys2Proof.Machine

set_option Elab.async false

/-- What the group law needs of the operations of a field: a map to a field that respects them, one to one on the elements `C`, which the
operations keep. -/
structure Models {A K : Type} [Field K] (F : FieldOps A) (φ : A → K) (C : A → Prop) : Prop where
  zero : φ F.zero = 0
  add : ∀ x y, φ (F.add x y) = φ x + φ y
  sub : ∀ x y, φ (F.sub x y) = φ x - φ y
  mul : ∀ x y, φ (F.mul x y) = φ x * φ y
  neg : ∀ x, φ (F.neg x) = -φ x
  inv : ∀ x, C x → φ x ≠ 0 → φ (F.inv x) = (φ x)⁻¹
  inj : ∀ x y, C x → C y → φ x = φ y → x = y
  zero_mem : C F.zero
  add_mem : ∀ x y, C (F.add x y)
  sub_mem : ∀ x y, C (F.sub x y)
  mul_mem : ∀ x y, C (F.mul x y)
  neg_mem : ∀ x, C (F.neg x)

variable {A K : Type} [Field K] {F : FieldOps A} {φ : A → K} {C : A → Prop}

/-- A point whose coordinates are in `C`, or O. -/
def PointIn (C : A → Prop) : Point A → Prop
  | .inf => True
  | .aff x y => C x ∧ C y

/-- y^2 = x^3 + c as a curve of Mathlib. -/
def curve (c : K) : WeierstrassCurve.Affine K := { a₁ := 0, a₂ := 0, a₃ := 0, a₄ := 0, a₆ := c }

/-- `P` and the point `W` of Mathlib's curve are the same point. -/
def Denotes (φ : A → K) {c : K} (P : Point A) (W : (curve c).Point) : Prop :=
  match P with
  | .inf => W = 0
  | .aff x y => ∃ h, W = .some (φ x) (φ y) h

variable [DecidableEq A]

theorem pointIn_add (m : Models F φ C) {P Q : Point A} (hP : PointIn C P) (hQ : PointIn C Q) : PointIn C (P.add F Q) := by
  cases P with
  | inf => exact hQ
  | aff x1 y1 =>
    cases Q with
    | inf => exact hP
    | aff x2 y2 =>
      rw [Point.add]
      split
      · trivial
      · exact ⟨m.sub_mem _ _, m.sub_mem _ _⟩

theorem denotes_add [DecidableEq K] (m : Models F φ C) {c : K} {P Q : Point A} {V W : (curve c).Point} (hP : PointIn C P) (hQ : PointIn C Q)
    (h1 : Denotes φ P V) (h2 : Denotes φ Q W) : Denotes φ (P.add F Q) (V + W) := by
  cases P with
  | inf =>
    rw [show V = 0 from h1, zero_add]
    exact h2
  | aff x1 y1 =>
    cases Q with
    | inf =>
      rw [show W = 0 from h2, add_zero]
      exact h1
    | aff x2 y2 =>
      obtain ⟨n1, rfl⟩ := h1
      obtain ⟨n2, rfl⟩ := h2
      have hneg : (curve c).negY (φ x2) (φ y2) = -φ y2 := by simp [WeierstrassCurve.Affine.negY, curve]
      have hx : x1 = x2 ↔ φ x1 = φ x2 := ⟨fun h => by rw [h], m.inj _ _ hP.1 hQ.1⟩
      have hy : F.add y1 y2 = F.zero ↔ φ y1 = (curve c).negY (φ x2) (φ y2) := by
        rw [hneg, eq_neg_iff_add_eq_zero, ← m.add, ← m.zero]
        exact ⟨fun h => by rw [h], m.inj _ _ (m.add_mem _ _) m.zero_mem⟩
      rw [Point.add]
      by_cases hc : x1 = x2 ∧ F.add y1 y2 = F.zero
      · rw [if_pos hc]
        exact WeierstrassCurve.Affine.Point.add_of_Y_eq (hx.1 hc.1) (hy.1 hc.2)
      · rw [if_neg hc]
        have hc' : ¬(φ x1 = φ x2 ∧ φ y1 = (curve c).negY (φ x2) (φ y2)) := by rwa [← hx, ← hy]
        rw [WeierstrassCurve.Affine.Point.add_some hc']
        have hs : φ (if x1 = x2 then F.mul (F.add (F.add (F.mul x1 x1) (F.mul x1 x1)) (F.mul x1 x1)) (F.inv (F.add y1 y1))
            else F.mul (F.sub y2 y1) (F.inv (F.sub x2 x1))) = (curve c).slope (φ x1) (φ x2) (φ y1) (φ y2) := by
          by_cases hxx : x1 = x2
          · have hyne : φ y1 ≠ (curve c).negY (φ x2) (φ y2) := fun h => hc' ⟨hx.1 hxx, h⟩
            have hyy : φ y1 = φ y2 := WeierstrassCurve.Affine.Y_eq_of_Y_ne n1.1 n2.1 (hx.1 hxx) hyne
            have hne : φ (F.add y1 y1) ≠ 0 := by
              rw [m.add]
              intro h0
              apply hyne
              rw [hneg, ← hyy]
              linear_combination h0
            rw [if_pos hxx, WeierstrassCurve.Affine.slope_of_Y_ne (hx.1 hxx) hyne, m.mul, m.inv _ (m.add_mem _ _) hne]
            simp only [m.add, m.mul, WeierstrassCurve.Affine.negY, curve]
            rw [m.add] at hne
            ring_nf
          · rw [if_neg hxx, WeierstrassCurve.Affine.slope_of_X_ne (fun h => hxx (hx.2 h)), m.mul,
              m.inv _ (m.sub_mem _ _) (by rw [m.sub, sub_ne_zero]; exact fun h => hxx (hx.2 h.symm)), m.sub, m.sub,
              ← neg_sub (φ y1), ← neg_sub (φ x1), neg_mul, inv_neg, mul_neg, neg_neg, div_eq_mul_inv]
        simp only [Denotes]
        generalize (if x1 = x2 then F.mul (F.add (F.add (F.mul x1 x1) (F.mul x1 x1)) (F.mul x1 x1)) (F.inv (F.add y1 y1))
            else F.mul (F.sub y2 y1) (F.inv (F.sub x2 x1))) = l at hs
        have e1 : φ (F.sub (F.sub (F.mul l l) x1) x2) = (curve c).addX (φ x1) (φ x2) ((curve c).slope (φ x1) (φ x2) (φ y1) (φ y2)) := by
          rw [m.sub, m.sub, m.mul, hs, WeierstrassCurve.Affine.addX]
          simp only [curve]
          ring
        have e2 : φ (F.sub (F.mul l (F.sub x1 (F.sub (F.sub (F.mul l l) x1) x2))) y1) =
            (curve c).addY (φ x1) (φ x2) (φ y1) ((curve c).slope (φ x1) (φ x2) (φ y1) (φ y2)) := by
          rw [m.sub, m.mul, m.sub, e1, hs, WeierstrassCurve.Affine.addY, WeierstrassCurve.Affine.negAddY, WeierstrassCurve.Affine.negY]
          simp only [curve]
          ring
        have key : ∀ (a b : K) (n : (curve c).Nonsingular ((curve c).addX (φ x1) (φ x2) ((curve c).slope (φ x1) (φ x2) (φ y1) (φ y2)))
            ((curve c).addY (φ x1) (φ x2) (φ y1) ((curve c).slope (φ x1) (φ x2) (φ y1) (φ y2)))),
            a = (curve c).addX (φ x1) (φ x2) ((curve c).slope (φ x1) (φ x2) (φ y1) (φ y2)) →
            b = (curve c).addY (φ x1) (φ x2) (φ y1) ((curve c).slope (φ x1) (φ x2) (φ y1) (φ y2)) →
            ∃ h, WeierstrassCurve.Affine.Point.some _ _ n = .some a b h := by
          rintro _ _ n rfl rfl
          exact ⟨n, rfl⟩
        exact key _ _ _ e1 e2

theorem pointIn_powFuel (m : Models F φ C) {Q : Point A} (hQ : PointIn C Q) (fuel n : Nat) :
    PointIn C (powFuel (Point.add F) .inf Q fuel n) := by
  induction fuel generalizing n with
  | zero => trivial
  | succ fuel ih =>
    rw [powFuel]
    have h2 := pointIn_add m (ih (n / 2)) (ih (n / 2))
    split
    · exact pointIn_add m h2 hQ
    · exact h2

theorem denotes_powFuel [DecidableEq K] (m : Models F φ C) {c : K} {Q : Point A} {W : (curve c).Point} (hQ : PointIn C Q) (h : Denotes φ Q W)
    (fuel n : Nat) (hn : n < 2 ^ fuel) : Denotes φ (powFuel (Point.add F) .inf Q fuel n) (n • W) := by
  induction fuel generalizing n with
  | zero =>
    rw [show n = 0 by simpa using hn, zero_smul]
    rfl
  | succ fuel ih =>
    have hi := pointIn_powFuel m hQ fuel (n / 2)
    have h1 := ih (n / 2) (by omega)
    have h2 := denotes_add m hi hi h1 h1
    rw [← add_smul] at h2
    rw [powFuel]
    split
    · have h3 := denotes_add m (pointIn_add m hi hi) hQ h2 h
      rwa [← succ_nsmul, show n / 2 + n / 2 + 1 = n by omega] at h3
    · rwa [show n / 2 + n / 2 = n by omega] at h2

theorem pointIn_smul (m : Models F φ C) {Q : Point A} (hQ : PointIn C Q) (k : Nat) : PointIn C (Q.smul F k) :=
  pointIn_powFuel m hQ _ k

/-- [k]Q denotes the k-th multiple in the group (43_curve.md R232). -/
theorem denotes_smul [DecidableEq K] (m : Models F φ C) {c : K} {Q : Point A} {W : (curve c).Point} (hQ : PointIn C Q) (h : Denotes φ Q W) (k : Nat) :
    Denotes φ (Q.smul F k) (k • W) :=
  denotes_powFuel m hQ h _ k Nat.lt_log2_self

omit [DecidableEq A] in
/-- Two points of `C` that denote the same point are equal. -/
theorem denotes_inj (m : Models F φ C) {c : K} {P Q : Point A} {W : (curve c).Point} (hP : PointIn C P) (hQ : PointIn C Q)
    (h1 : Denotes φ P W) (h2 : Denotes φ Q W) : P = Q := by
  cases P with
  | inf =>
    cases Q with
    | inf => rfl
    | aff x y =>
      obtain ⟨n, e⟩ := h2
      rw [show W = 0 from h1] at e
      exact absurd e.symm (WeierstrassCurve.Affine.Point.some_ne_zero n)
  | aff x1 y1 =>
    obtain ⟨n, rfl⟩ := h1
    cases Q with
    | inf => exact absurd h2 (WeierstrassCurve.Affine.Point.some_ne_zero n)
    | aff x2 y2 =>
      obtain ⟨n2, e⟩ := h2
      have e' := WeierstrassCurve.Affine.Point.some.inj e
      rw [m.inj _ _ hP.1 hQ.1 e'.1, m.inj _ _ hP.2 hQ.2 e'.2]

/-- A point on the curve y^2 = x^3 + B denotes a point of Mathlib's curve, when 6*B is not 0. -/
theorem exists_denotes (m : Models F φ C) {B : A} (h6 : (6 : K) ≠ 0) (hB : φ B ≠ 0) {P : Point A} (h : P.onCurve F B = true) :
    ∃ W : (curve (φ B)).Point, Denotes φ P W := by
  cases P with
  | inf => exact ⟨0, rfl⟩
  | aff x y =>
    have he : (curve (φ B)).Equation (φ x) (φ y) := by
      have := congrArg φ (of_decide_eq_true h)
      simp only [m.mul, m.add] at this
      rw [WeierstrassCurve.Affine.equation_iff]
      simp only [curve]
      linear_combination this
    have hD : (curve (φ B)).Δ ≠ 0 := by
      have : (curve (φ B)).Δ = -(12 * 36 * φ B ^ 2) := by
        simp only [WeierstrassCurve.Δ, WeierstrassCurve.b₂, WeierstrassCurve.b₄, WeierstrassCurve.b₆, WeierstrassCurve.b₈, curve]
        ring
      rw [this, neg_ne_zero]
      have h12 : (12 : K) * 36 ≠ 0 := by
        have h2 : (2 : K) ≠ 0 := fun h => h6 (by linear_combination 3 * h)
        rw [show (12 : K) * 36 = 2 * 6 * (6 * 6) by norm_num]
        exact mul_ne_zero (mul_ne_zero h2 h6) (mul_ne_zero h6 h6)
      exact mul_ne_zero h12 (pow_ne_zero 2 hB)
    exact ⟨.some _ _ ((WeierstrassCurve.Affine.equation_iff_nonsingular_of_Δ_ne_zero hD).1 he), _, rfl⟩

/-- A point that denotes one of Mathlib's curve is on the curve. -/
theorem onCurve_of_denotes (m : Models F φ C) {B : A} {P : Point A} {W : (curve (φ B)).Point} (h : Denotes φ P W) :
    P.onCurve F B = true := by
  cases P with
  | inf => rfl
  | aff x y =>
    obtain ⟨n, -⟩ := h
    have he := (WeierstrassCurve.Affine.equation_iff _ _).1 n.1
    refine decide_eq_true (m.inj _ _ (m.mul_mem _ _) (m.add_mem _ _) ?_)
    simp only [m.mul, m.add]
    simp only [curve] at he
    linear_combination he

/-! ### The sum without division, and closure -/

/-- Two points of the curve with one x have the same y or opposite ones. -/
theorem same_x (m : Models F φ C) {B x y1 y2 : A} (h1 : (Point.aff x y1).onCurve F B = true) (h2 : (Point.aff x y2).onCurve F B = true)
    (c1 : C y1) (c2 : C y2) : y1 = y2 ∨ F.add y1 y2 = F.zero := by
  have h := (of_decide_eq_true h1).trans (of_decide_eq_true h2).symm
  have h' : (φ y1 - φ y2) * (φ y1 + φ y2) = 0 := by
    have := congrArg φ h
    rw [m.mul, m.mul] at this
    linear_combination this
  rcases mul_eq_zero.1 h' with h0 | h0
  · exact .inl (m.inj _ _ c1 c2 (sub_eq_zero.1 h0))
  · exact .inr (m.inj _ _ (m.add_mem _ _) m.zero_mem (by rw [m.add, m.zero, h0]))

omit [DecidableEq A] in
/-- y + y = 0 only for y = 0, when 2 is not 0. -/
theorem double_eq_zero (m : Models F φ C) (h2 : (2 : K) ≠ 0) {y : A} (c : C y) (h : F.add y y = F.zero) : y = F.zero := by
  have := congrArg φ h
  rw [m.add, m.zero, ← two_mul] at this
  exact m.inj _ _ c m.zero_mem (by rw [m.zero]; exact (mul_eq_zero.1 this).resolve_left h2)

omit [DecidableEq A] in
/-- n * d^-1 times d is n. -/
theorem div_mul_eq (m : Models F φ C) {n d : A} (cn : C n) (cd : C d) (h : d ≠ F.zero) : F.mul (F.mul n (F.inv d)) d = n := by
  have h0 : φ d ≠ 0 := fun e => h (m.inj _ _ cd m.zero_mem (e.trans m.zero.symm))
  refine m.inj _ _ (m.mul_mem _ _) cn ?_
  rw [m.mul, m.mul, m.inv _ cd h0, mul_assoc, inv_mul_cancel₀ h0, mul_one]

omit [DecidableEq A] in
/-- Different elements have a nonzero difference. -/
theorem sub_ne_zero_of_models (m : Models F φ C) {x y : A} (cx : C x) (cy : C y) (h : x ≠ y) : F.sub y x ≠ F.zero := fun e => h (by
  have := congrArg φ e
  rw [m.sub, m.zero, sub_eq_zero] at this
  exact m.inj _ _ cx cy this.symm)

/-- The model's sum of two points of the curve is the sum of the case list of 43_curve.md R230. -/
theorem chordTangent_add (m : Models F φ C) {B : A} {P Q : Point A} (hP : PointIn C P) (hQ : PointIn C Q)
    (cP : P.onCurve F B = true) (cQ : Q.onCurve F B = true) : ChordTangent F P Q (P.add F Q) := by
  cases P with
  | inf => exact rfl
  | aff x1 y1 =>
    cases Q with
    | inf => exact rfl
    | aff x2 y2 =>
      rw [Point.add]
      by_cases hc : x1 = x2 ∧ F.add y1 y2 = F.zero
      · rw [if_pos hc]
        exact .inl ⟨hc.1, hc.2, rfl⟩
      · rw [if_neg hc]
        refine .inr ⟨hc, _, _, _, rfl, fun hx => ?_, fun hx => ?_, rfl, rfl⟩
        · subst hx
          rw [if_pos rfl]
          refine div_mul_eq m (m.add_mem _ _) (m.add_mem _ _) fun h0 => ?_
          rcases same_x m cP cQ hP.2 hQ.2 with h | h
          · subst h
            exact hc ⟨rfl, h0⟩
          · exact hc ⟨rfl, h⟩
        · rw [if_neg hx]
          exact div_mul_eq m (m.sub_mem _ _) (m.sub_mem _ _) (sub_ne_zero_of_models m hP.1 hQ.1 hx)

/-- The curve is closed under the sum, when 6*B is not 0. -/
theorem onCurve_add [DecidableEq K] (m : Models F φ C) (h6 : (6 : K) ≠ 0) {B : A} (hB : φ B ≠ 0) {P Q : Point A} (hP : PointIn C P) (hQ : PointIn C Q)
    (cP : P.onCurve F B = true) (cQ : Q.onCurve F B = true) : (P.add F Q).onCurve F B = true := by
  obtain ⟨V, hV⟩ := exists_denotes m h6 hB cP
  obtain ⟨W, hW⟩ := exists_denotes m h6 hB cQ
  exact onCurve_of_denotes m (denotes_add m hP hQ hV hW)

/-! ### E and the twist -/

theorem models_fp : have := fact_p; Models fpOps (fun x : Nat => (x : ZMod Config.p)) (· < Config.p) := by
  have := fact_p
  exact {
    zero := Nat.cast_zero
    add := cast_fpAdd p_zmod
    sub := cast_fpSub p_zmod
    mul := cast_fpMul p_zmod
    neg := cast_fpNeg p_zmod
    inv := fun x _ _ => fpInv_zmod x
    inj := fun _ _ => eq_of_zmod
    zero_mem := p_pos
    add_mem := fpAdd_lt
    sub_mem := fpSub_lt
    mul_mem := fpMul_lt
    neg_mem := fpNeg_lt }

theorem models_fp2 : have := fact_p; have := fact_k2; Models fp2Ops Fp2.toK Fp2.canonical := by
  have := fact_p
  have := fact_k2
  exact {
    zero := Fp2.toK_zero
    add := Fp2.toK_add
    sub := Fp2.toK_sub
    mul := Fp2.toK_mul
    neg := Fp2.toK_neg
    inv := fun x hx h => eq_inv_of_mul_eq_one_right (Fp2.toK_inv hx fun h0 => h (by rw [h0, Fp2.toK_zero]))
    inj := fun _ _ => Fp2.toK_inj
    zero_mem := Fp2.canonical_zero
    add_mem := Fp2.canonical_add
    sub_mem := Fp2.canonical_sub
    mul_mem := Fp2.canonical_mul
    neg_mem := Fp2.canonical_neg }

end Sys2Proof.Machine
end

