-- ==== Sys2Proof/Laws/Decode.lean ====
section
/-! SUPPORT. The fields of an encoded word, and the word its fields make. -/

namespace Sys2Proof

set_option Elab.async false

theorem encodeR_toNat (o : BitVec 8) (d a b : RegIdx) :
    (encodeR o d a b).toNat = b.toNat * 2 ^ 24 + a.toNat * 2 ^ 16 + d.toNat * 2 ^ 8 + o.toNat := by
  have := o.isLt
  have := d.isLt
  have := a.isLt
  simp only [encodeR, BitVec.toNat_append]
  rw [← Nat.shiftLeft_add_eq_or_of_lt (by omega), ← Nat.shiftLeft_add_eq_or_of_lt (by omega), ← Nat.shiftLeft_add_eq_or_of_lt (by omega)]
  simp only [Nat.shiftLeft_eq]
  omega

theorem encodeH_toNat (o : BitVec 8) (d : RegIdx) (h : Half) :
    (encodeH o d h).toNat = h.toNat * 2 ^ 16 + d.toNat * 2 ^ 8 + o.toNat := by
  have := o.isLt
  have := d.isLt
  simp only [encodeH, BitVec.toNat_append]
  rw [← Nat.shiftLeft_add_eq_or_of_lt (by omega), ← Nat.shiftLeft_add_eq_or_of_lt (by omega)]
  simp only [Nat.shiftLeft_eq]
  omega

theorem fieldOpc_toNat (w : Word) : (fieldOpc w).toNat = w.toNat % 2 ^ 8 := by
  simp [fieldOpc, BitVec.extractLsb'_toNat]

theorem fieldD_toNat (w : Word) : (fieldD w).toNat = w.toNat / 2 ^ 8 % 2 ^ 8 := by
  simp [fieldD, BitVec.extractLsb'_toNat, Nat.shiftRight_eq_div_pow]

theorem fieldA_toNat (w : Word) : (fieldA w).toNat = w.toNat / 2 ^ 16 % 2 ^ 8 := by
  simp [fieldA, BitVec.extractLsb'_toNat, Nat.shiftRight_eq_div_pow]

theorem fieldB_toNat (w : Word) : (fieldB w).toNat = w.toNat / 2 ^ 24 := by
  have := w.isLt
  simp only [fieldB, BitVec.extractLsb'_toNat, Nat.shiftRight_eq_div_pow]
  omega

theorem fieldHalf_toNat (w : Word) : (fieldHalf w).toNat = w.toNat / 2 ^ 16 := by
  have := w.isLt
  simp only [fieldHalf, BitVec.extractLsb'_toNat, Nat.shiftRight_eq_div_pow]
  omega

/-- The fields of a format R word (30_encoding.md R111, R120). -/
theorem fields_encodeR (o : BitVec 8) (d a b : RegIdx) :
    fieldOpc (encodeR o d a b) = o ∧ fieldD (encodeR o d a b) = d ∧ fieldA (encodeR o d a b) = a ∧ fieldB (encodeR o d a b) = b := by
  have := o.isLt
  have := d.isLt
  have := a.isLt
  have := b.isLt
  refine ⟨BitVec.eq_of_toNat_eq ?_, BitVec.eq_of_toNat_eq ?_, BitVec.eq_of_toNat_eq ?_, BitVec.eq_of_toNat_eq ?_⟩
  · rw [fieldOpc_toNat, encodeR_toNat]; omega
  · rw [fieldD_toNat, encodeR_toNat]; omega
  · rw [fieldA_toNat, encodeR_toNat]; omega
  · rw [fieldB_toNat, encodeR_toNat]; omega

/-- The fields of a format I or M word (30_encoding.md R112, R113, R120). -/
theorem fields_encodeH (o : BitVec 8) (d : RegIdx) (h : Half) :
    fieldOpc (encodeH o d h) = o ∧ fieldD (encodeH o d h) = d ∧ fieldHalf (encodeH o d h) = h := by
  have := o.isLt
  have := d.isLt
  have := h.isLt
  refine ⟨BitVec.eq_of_toNat_eq ?_, BitVec.eq_of_toNat_eq ?_, BitVec.eq_of_toNat_eq ?_⟩
  · rw [fieldOpc_toNat, encodeH_toNat]; omega
  · rw [fieldD_toNat, encodeH_toNat]; omega
  · rw [fieldHalf_toNat, encodeH_toNat]; omega

/-- A word is its format R fields. -/
theorem encodeR_fields (w : Word) : encodeR (fieldOpc w) (fieldD w) (fieldA w) (fieldB w) = w := by
  have := w.isLt
  refine BitVec.eq_of_toNat_eq ?_
  rw [encodeR_toNat, fieldOpc_toNat, fieldD_toNat, fieldA_toNat, fieldB_toNat]
  omega

/-- A word is its format I or M fields. -/
theorem encodeH_fields (w : Word) : encodeH (fieldOpc w) (fieldD w) (fieldHalf w) = w := by
  have := w.isLt
  refine BitVec.eq_of_toNat_eq ?_
  rw [encodeH_toNat, fieldOpc_toNat, fieldD_toNat, fieldHalf_toNat]
  omega

/-- Decoding a format R word is decoding its fields. -/
theorem decode_encodeR (o : BitVec 8) (d a b : RegIdx) : ∃ h, decode (encodeR o d a b) = decodeFields o.toNat d a b h := by
  obtain ⟨h0, h1, h2, h3⟩ := fields_encodeR o d a b
  exact ⟨fieldHalf (encodeR o d a b), by rw [decode, h0, h1, h2, h3]⟩

/-- Decoding a format I or M word is decoding its fields. -/
theorem decode_encodeH (o : BitVec 8) (d : RegIdx) (h : Half) : ∃ a b, decode (encodeH o d h) = decodeFields o.toNat d a b h := by
  obtain ⟨h0, h1, h2⟩ := fields_encodeH o d h
  exact ⟨fieldA (encodeH o d h), fieldB (encodeH o d h), by rw [decode, h0, h1, h2]⟩

end Sys2Proof
end

