-- ==== Sys2Proof/Laws/Frobenius.lean ====
section
/-! SUPPORT. The coordinate formula of 42_tower.md R204 is the p-th power; Frobenius has order 12; every nonzero Fp12 element to the p^12 - 1 is 1. -/

namespace Sys2Proof.Machine

set_option Elab.async false

section

variable {R : Type} [CommRing R] {u v w : R} (t : TowerIn R u v w)
include t

/-- The p-th power is additive in a ring in which p = 0. -/
theorem add_pow_p (x y : R) : (x + y) ^ Config.p = x ^ Config.p + y ^ Config.p := by
  have := fact_p
  rcases subsingleton_or_nontrivial R with hs | hn
  · exact Subsingleton.elim _ _
  · have : CharP R Config.p := by
      have hd := ringChar.dvd t.char
      rcases (Nat.dvd_prime prime_p).1 hd with h | h
      · exact absurd h (CharP.ringChar_ne_one)
      · exact ringChar.of_eq h
    exact add_pow_char x y Config.p

/-- Integers are fixed by the p-th power. -/
theorem natCast_pow_p (n : Nat) : (n : R) ^ Config.p = n := by
  induction n with
  | zero => simp [zero_pow p_pos.ne']
  | succ n ih => rw [Nat.cast_succ, add_pow_p t, ih, one_pow]

theorem u_pow_p : u ^ Config.p = -u := by
  rw [show Config.p = 2 * ((Config.p - 1) / 2) + 1 by decide, pow_succ, pow_mul, t.u_sq, Odd.neg_one_pow (by decide)]
  ring

theorem w_pow_six : w ^ 6 = 9 + u := by
  rw [show 6 = 2 * 3 by rfl, pow_mul, t.w_sq, t.v_cube]

/-- The p-th power in Fp2 is the conjugate (42_tower.md R181). -/
theorem Fp2.val_conj (a : Fp2) : a.conj.val u = a.val u ^ Config.p := by
  conv_rhs => rw [Fp2.val, add_pow_p t, mul_pow, natCast_pow_p t, natCast_pow_p t, u_pow_p t]
  simp only [Fp2.val, Fp2.conj, cast_fpNeg t.char]
  ring

theorem xi_pow (n : Nat) (g : Fp2) (h : powBy Fp2.mul Fp2.one Fp2.xi n = g) : (9 + u) ^ n = g.val u := by
  rw [← h, powBy_map Fp2.mul Fp2.one (fun x => x.val u) (Fp2.val_one u) (Fp2.val_mul t), Fp2.val_xi]

theorem w_pow_p : w ^ Config.p = gamma1.val u * w := by
  conv_lhs => rw [show Config.p = 6 * ((Config.p - 1) / 6) + 1 by decide]
  rw [pow_succ, pow_mul, w_pow_six t, xi_pow t ((Config.p - 1) / 6) gamma1 (by decide +kernel)]

theorem gamma_pow (i : Nat) (g : Fp2) (h : powBy Fp2.mul Fp2.one gamma1 i = g) : gamma1.val u ^ i = g.val u := by
  rw [← h, powBy_map Fp2.mul Fp2.one (fun x => x.val u) (Fp2.val_one u) (Fp2.val_mul t)]

/-- The coordinate formula is the p-th power (42_tower.md R203, R204). -/
theorem Fp12.val_frob (f : Fp12) : f.frob.val u v w = f.val u v w ^ Config.p := by
  have e2 : gamma1.val u ^ 2 = gamma2.val u := gamma_pow t 2 gamma2 (by decide +kernel)
  have e3 : gamma1.val u ^ 3 = gamma3.val u := gamma_pow t 3 gamma3 (by decide +kernel)
  have e4 : gamma1.val u ^ 4 = gamma4.val u := gamma_pow t 4 gamma4 (by decide +kernel)
  have e5 : gamma1.val u ^ 5 = gamma5.val u := gamma_pow t 5 gamma5 (by decide +kernel)
  have hw := w_pow_p t
  have hv : v ^ Config.p = gamma1.val u ^ 2 * v := by
    rw [← t.w_sq, ← pow_mul, Nat.mul_comm, pow_mul, hw, mul_pow]
  simp only [Fp12.val, Fp6.val, Fp12.frob, Fp2.val_mul t, ← e2, ← e3, ← e4, ← e5, Fp2.val_conj t]
  have hv2 : (v ^ 2) ^ Config.p = gamma1.val u ^ 4 * v ^ 2 := by
    rw [← pow_mul, Nat.mul_comm, pow_mul, hv]; ring
  simp only [add_pow_p t, mul_pow, hv, hv2, hw]
  ring

/-- The power p^k (42_tower.md R203). -/
theorem Fp12.val_frobPow (f : Fp12) (k : Nat) : (f.frobPow k).val u v w = f.val u v w ^ Config.p ^ k := by
  induction k with
  | zero => simp [Fp12.frobPow]
  | succ k ih => rw [Fp12.frobPow, Fp12.val_frob t, ih, ← pow_mul, ← pow_succ]

end

/-! ### The order of Frobenius -/

theorem fpNeg_fpNeg (x : Nat) (h : x < Config.p) : fpNeg (fpNeg x) = x := by
  refine eq_of_zmod (fpNeg_lt _) h ?_
  rw [cast_fpNeg p_zmod, cast_fpNeg p_zmod, neg_neg]

theorem Fp2.conj_conj {a : Fp2} (h : a.canonical) : a.conj.conj = a := by
  cases a
  simp only [Fp2.conj, fpNeg_fpNeg _ h.2]

/-- One turn of two Frobenius maps on one coefficient. -/
theorem conj_mul_conj (a g : Fp2) : ((a.conj.mul g).conj.mul g).toK = a.toK * (g.conj.mul g).toK := by
  rw [Fp2.toK_mul, Fp2.toK_mul]
  ext <;>
    simp only [Fp2.toK, Fp2.conj, Fp2.mul, cast_fpAdd p_zmod, cast_fpSub p_zmod, cast_fpMul p_zmod, cast_fpNeg p_zmod,
      QuadraticAlgebra.re_mul, QuadraticAlgebra.im_mul] <;>
    ring

/-- Each coefficient but the first multiplied by an element of Fp2 of its own. -/
def Fp12.scale (m1 m2 m3 m4 m5 : Fp2) (f : Fp12) : Fp12 :=
  ⟨⟨f.g.c0, f.g.c1.mul m2, f.g.c2.mul m4⟩, ⟨f.h.c0.mul m1, f.h.c1.mul m3, f.h.c2.mul m5⟩⟩

theorem mul_mul_Fp2 (a b c : Fp2) : (a.mul b).mul c = a.mul (b.mul c) :=
  Fp2.toK_inj (Fp2.canonical_mul _ _) (Fp2.canonical_mul _ _) (by simp only [Fp2.toK_mul, mul_assoc])

theorem scale_scale (m1 m2 m3 m4 m5 n1 n2 n3 n4 n5 : Fp2) (f : Fp12) :
    (f.scale m1 m2 m3 m4 m5).scale n1 n2 n3 n4 n5 = f.scale (m1.mul n1) (m2.mul n2) (m3.mul n3) (m4.mul n4) (m5.mul n5) := by
  simp only [Fp12.scale, mul_mul_Fp2]

/-- The norms of the Frobenius constants. -/
def gammaNorm (g : Fp2) : Fp2 := g.conj.mul g

/-- f^(p^2), coefficient by coefficient: each is multiplied by an element of Fp. -/
theorem frob_frob (f : Fp12) (h : f.canonical) :
    f.frob.frob = f.scale (gammaNorm gamma1) (gammaNorm gamma2) (gammaNorm gamma3) (gammaNorm gamma4) (gammaNorm gamma5) := by
  have e : ∀ a g : Fp2, (a.conj.mul g).conj.mul g = a.mul (gammaNorm g) := fun a g =>
    Fp2.toK_inj (Fp2.canonical_mul _ _) (Fp2.canonical_mul _ _) (by rw [conj_mul_conj, Fp2.toK_mul a]; rfl)
  simp only [Fp12.frob, Fp12.scale, e, Fp2.conj_conj h.1.1]

theorem gammaNorm_cube1 : (gammaNorm gamma1).mul ((gammaNorm gamma1).mul (gammaNorm gamma1)) = Fp2.one.neg := by
  decide +kernel

theorem gammaNorm_cube2 : (gammaNorm gamma2).mul ((gammaNorm gamma2).mul (gammaNorm gamma2)) = Fp2.one := by
  decide +kernel

theorem gammaNorm_cube3 : (gammaNorm gamma3).mul ((gammaNorm gamma3).mul (gammaNorm gamma3)) = Fp2.one.neg := by
  decide +kernel

theorem gammaNorm_cube4 : (gammaNorm gamma4).mul ((gammaNorm gamma4).mul (gammaNorm gamma4)) = Fp2.one := by
  decide +kernel

theorem gammaNorm_cube5 : (gammaNorm gamma5).mul ((gammaNorm gamma5).mul (gammaNorm gamma5)) = Fp2.one.neg := by
  decide +kernel

theorem scale_one (f : Fp12) (h : f.canonical) :
    f.scale Fp2.one.neg Fp2.one Fp2.one.neg Fp2.one Fp2.one.neg = f.conj := by
  have one : ∀ a : Fp2, a.canonical → a.mul Fp2.one = a := fun a ha =>
    Fp2.toK_inj (Fp2.canonical_mul _ _) ha (by rw [Fp2.toK_mul, Fp2.toK_one, mul_one])
  have neg : ∀ a : Fp2, a.mul Fp2.one.neg = a.neg := fun a =>
    Fp2.toK_inj (Fp2.canonical_mul _ _) (Fp2.canonical_neg _) (by rw [Fp2.toK_mul, Fp2.toK_neg, Fp2.toK_neg, Fp2.toK_one, mul_neg_one])
  simp only [Fp12.scale, one _ h.1.2.1, one _ h.1.2.2, neg, Fp12.conj, Fp6.neg]

theorem frobPow_two_more (f : Fp12) (k : Nat) : f.frobPow (k + 2) = (f.frobPow k).frob.frob := rfl

/-- k = 6 is the conjugate (42_tower.md R203, R173). -/
theorem frobPow_six (f : Fp12) (h : f.canonical) : f.frobPow 6 = f.conj := by
  have s2 := (frobPow_two_more f 0).trans (frob_frob f h)
  have s4 := (frobPow_two_more f 2).trans (frob_frob (f.frobPow 2) (Fp12.canonical_frobPow f h 2))
  have s6 := (frobPow_two_more f 4).trans (frob_frob (f.frobPow 4) (Fp12.canonical_frobPow f h 4))
  rw [s6, s4, s2, scale_scale, scale_scale, gammaNorm_cube1, gammaNorm_cube2, gammaNorm_cube3, gammaNorm_cube4, gammaNorm_cube5,
    scale_one f h]

theorem Fp2.neg_neg {a : Fp2} (h : a.canonical) : a.neg.neg = a := by
  cases a
  simp only [Fp2.neg, fpNeg_fpNeg _ h.1, fpNeg_fpNeg _ h.2]

theorem Fp12.conj_conj {f : Fp12} (h : f.canonical) : f.conj.conj = f := by
  obtain ⟨g, h0, h1, h2⟩ := f
  simp only [Fp12.conj, Fp6.neg, Fp2.neg_neg h.2.1, Fp2.neg_neg h.2.2.1, Fp2.neg_neg h.2.2.2]

theorem frobPow_add (f : Fp12) (j k : Nat) : f.frobPow (j + k) = (f.frobPow j).frobPow k := by
  induction k with
  | zero => rfl
  | succ k ih => rw [← Nat.add_assoc, Fp12.frobPow, Fp12.frobPow, ih]

/-- "the map has order 12" (42_tower.md R203). -/
theorem frobPow_twelve (f : Fp12) (h : f.canonical) : f.frobPow 12 = f := by
  rw [frobPow_add f 6 6, frobPow_six _ (Fp12.canonical_frobPow f h 6), frobPow_six f h, Fp12.conj_conj h]

theorem frobPow_mod (f : Fp12) (h : f.canonical) (k : Nat) : f.frobPow k = f.frobPow (k % 12) := by
  have h12 : ∀ q : Nat, f.frobPow (12 * q) = f := by
    intro q
    induction q with
    | zero => rfl
    | succ q ih => rw [Nat.mul_succ, frobPow_add, ih, frobPow_twelve f h]
  conv_lhs => rw [← Nat.div_add_mod k 12, frobPow_add, h12]

/-- Fermat in Fp12: a nonzero element to the p^12 - 1 is 1, in every ring with the tower's u, v, w. -/
theorem Fp12.val_pow_order {R : Type} [CommRing R] {u v w : R} (t : TowerIn R u v w) {f : Fp12} (hf : f.canonical) (h : f ≠ Fp12.zero) :
    f.val u v w ^ (Config.p ^ 12 - 1) = 1 := by
  have h1 := Fp12.val_frobPow t f 12
  rw [frobPow_twelve f hf] at h1
  have hi := Fp12.val_inv t hf h
  have hs : Config.p ^ 12 = Config.p ^ 12 - 1 + 1 := by decide +kernel
  rw [hs, pow_succ] at h1
  linear_combination (f.val u v w ^ (Config.p ^ 12 - 1) - 1) * (-hi) - f.inv.val u v w * h1

/-- "r divides p^12 - 1" (44_pairing.md R287). -/
theorem fexp_exponent : fexpExponent * Config.r = Config.p ^ 12 - 1 := by decide +kernel

end Sys2Proof.Machine
end

