-- ==== Sys2Proof/Laws/HostPort.lean ====
section
/-! SUPPORT. Everything a host access can do, said once, and the STATUS write as one record update. -/

namespace Sys2Proof.Machine

set_option Elab.async false

/-- A STATUS write, bit by bit (10_state.md R38, 60_exceptions.md R359). -/
theorem State.writeStatus_eq (s : State) (w : Word) : s.writeStatus w = { s with
    done := s.done && !w.getLsbD 1, errf := s.errf && !w.getLsbD 2,
    errcode := if w.getLsbD 2 then 0 else s.errcode, errcmd := if w.getLsbD 2 then 0 else s.errcmd,
    ovr := s.ovr && !w.getLsbD 4 } := by
  unfold State.writeStatus State.clearError
  generalize w.getLsbD 1 = b1
  generalize w.getLsbD 2 = b2
  generalize w.getLsbD 4 = b4
  cases b1 <;> cases b2 <;> cases b4 <;> simp

/-- Only an aligned 32-bit access reaches a register, below 0x1000; IOBUF addresses are below 4096, lanes aligned (20_memory.md R72). -/
theorem route_some {w : Width} {off : BitVec 13} {t : Target} (h : route w off.toNat = some t) :
    (w = .w32 ∧ off.toNat % 4 = 0 ∧ off.toNat < 4096 ∧ t = .register off.toNat) ∨
    (∃ a, a < 4096 ∧ t = .byte a) ∨ (∃ a, a + 4 ≤ 4096 ∧ t = .lanes a) := by
  have hlt := off.isLt
  have hb : Config.iobufBase = 4096 := rfl
  cases w
  · rw [route] at h
    split at h
    · exact .inr (.inl ⟨_, by omega, (Option.some.inj h).symm⟩)
    · exact absurd h (by simp)
  · exact absurd h (by simp [route])
  · rw [route] at h
    split at h
    · split at h
      · exact .inr (.inr ⟨_, by omega, (Option.some.inj h).symm⟩)
      · exact .inl ⟨rfl, by assumption, by omega, (Option.some.inj h).symm⟩
    · exact absurd h (by simp)
  · exact absurd h (by simp [route])

/-- What a host access that takes a step can do: return data, write CTRL, STATUS or CMD, write IOBUF while idle, reset, or nothing. -/
theorem hostTurn_cases {a : Access} {s t : State} (h : hostTurn a s = .next t) :
    (∃ x, t = { s with rdata := some x }) ∨ (∃ x, a = .write .w32 0x004 x ∧ t = s.writeCtrl x) ∨
    (∃ x, a = .write .w32 0x008 x ∧ t = s.writeStatus x) ∨ (∃ x, a = .write .w32 0x014 x ∧ t = s.accept x) ∨
    (s.busy = false ∧ ∃ m : Memory, t = { s with iobuf := m } ∧ (s.iobuf.wf → m.wf)) ∨
    (∃ draw, a = .hardReset draw ∧ t = s.hardReset draw) ∨ t = s := by
  cases a with
  | hardReset draw => exact .inr (.inr (.inr (.inr (.inr (.inl ⟨draw, rfl, (Host.Outcome.next.inj h).symm⟩)))))
  | read w off =>
    rw [hostTurn] at h
    split at h
    · exact .inl ⟨_, (Host.Outcome.next.inj h).symm⟩
    · exact absurd h (by simp)
  | write w off x =>
    rw [hostTurn] at h
    split at h
    · rename_i tg htg
      obtain rfl := (Host.Outcome.next.inj h).symm
      rcases route_some htg with ⟨rfl, -, -, rfl⟩ | ⟨b, hb, rfl⟩ | ⟨b, hb, rfl⟩
      · unfold State.writeTarget State.writeRegister
        dsimp only
        split
        · rename_i ho
          exact .inr (.inl ⟨x, by rw [show off = 0x004 from BitVec.eq_of_toNat_eq ho], rfl⟩)
        · rename_i ho
          exact .inr (.inr (.inl ⟨x, by rw [show off = 0x008 from BitVec.eq_of_toNat_eq ho], rfl⟩))
        · rename_i ho
          exact .inr (.inr (.inr (.inl ⟨x, by rw [show off = 0x014 from BitVec.eq_of_toNat_eq ho], rfl⟩)))
        · exact .inr (.inr (.inr (.inr (.inr (.inr rfl)))))
      · rw [State.writeTarget]
        cases hs : s.busy with
        | true => exact .inr (.inr (.inr (.inr (.inr (.inr (by simp))))))
        | false => exact .inr (.inr (.inr (.inr (.inl ⟨rfl, _, by simp; rfl, fun hw => Memory.wf_write _ _ _ hw hb⟩))))
      · rw [State.writeTarget]
        cases hs : s.busy with
        | true => exact .inr (.inr (.inr (.inr (.inr (.inr (by simp))))))
        | false =>
          exact .inr (.inr (.inr (.inr (.inl ⟨rfl, _, by simp; rfl, fun hw => Memory.wf_writeBytes _ _ _ hw hb⟩))))
    · exact absurd h (by simp)

end Sys2Proof.Machine
end

