-- ==== Sys2Proof/Laws/Pairing.lean ====
section
/-! SUPPORT. The lines and the loop of the Miller value on the twist: through psi each line value is the sparse element of 44_pairing.md R284 and the running point follows the group law; the value is never 0. -/

namespace Sys2Proof.Machine

set_option Elab.async false

/-! ### Fp12 elements are equal when their values in the tower's own ring are -/

open Polynomial in
/-- c0 + c1*u as a polynomial in w of degree below 12, times w^i, with u = w^6 - 9. -/
noncomputable def Fp2.poly (a : Fp2) (i : Nat) : (ZMod Config.p)[X] := C ((a.c0 : ZMod Config.p) - 9 * a.c1) * X ^ i + C (a.c1 : ZMod Config.p) * X ^ (i + 6)

open Polynomial in
/-- An element of Fp12 as a polynomial in w of degree below 12. -/
noncomputable def Fp12.poly (f : Fp12) : (ZMod Config.p)[X] :=
  f.g.c0.poly 0 + f.h.c0.poly 1 + f.g.c1.poly 2 + f.h.c1.poly 3 + f.g.c2.poly 4 + f.h.c2.poly 5

/-- The value of Fp12 in the tower's own ring. -/
noncomputable def Fp12.towerVal (f : Fp12) : TowerRing :=
  f.val (AdjoinRoot.root towerPoly ^ 6 - 9) (AdjoinRoot.root towerPoly ^ 2) (AdjoinRoot.root towerPoly)

theorem Fp12.mk_poly (f : Fp12) : AdjoinRoot.mk towerPoly f.poly = f.towerVal := by
  simp only [Fp12.towerVal, Fp12.val, Fp6.val, Fp2.val, Fp12.poly, Fp2.poly, map_add, map_mul, map_pow, AdjoinRoot.mk_X,
    map_sub, map_natCast, map_ofNat]
  ring

open Polynomial in
theorem towerPoly_monic : towerPoly.Monic ∧ towerPoly.degree = 12 := by
  have := fact_p
  have h : towerPoly = X ^ 12 + (C 82 - C 18 * X ^ 6) := by
    rw [towerPoly, map_ofNat, map_ofNat]
    ring
  have hd : (C (82 : ZMod Config.p) - C 18 * X ^ 6).degree < ((12 : ℕ) : WithBot ℕ) := by
    compute_degree!
  rw [h]
  exact ⟨monic_X_pow_add hd, (degree_add_eq_left_of_degree_lt (by rwa [degree_X_pow])).trans (degree_X_pow _)⟩

open Polynomial in
theorem Fp12.degree_poly (f : Fp12) : f.poly.degree < 12 := by
  simp only [Fp12.poly, Fp2.poly]
  compute_degree!

open Polynomial in
theorem Fp12.towerVal_inj {f e : Fp12} (hf : f.canonical) (he : e.canonical) (h : f.towerVal = e.towerVal) : f = e := by
  have := fact_p
  have hp : f.poly = e.poly := by
    rw [← sub_eq_zero]
    refine eq_zero_of_dvd_of_degree_lt (p := towerPoly) (AdjoinRoot.mk_eq_zero.1 (by rw [map_sub, Fp12.mk_poly, Fp12.mk_poly, h, sub_self])) ?_
    rw [towerPoly_monic.2]
    exact (degree_sub_le _ _).trans_lt (max_lt f.degree_poly e.degree_poly)
  have hc : ∀ n, f.poly.coeff n = e.poly.coeff n := fun n => by rw [hp]
  have key : ∀ {a c : Fp2}, a.canonical → c.canonical → (a.c1 : ZMod Config.p) = c.c1 →
      (a.c0 : ZMod Config.p) - 9 * a.c1 = c.c0 - 9 * c.c1 → a = c := fun {a c} ha hc h1 h0 => by
    refine Fp2.eq_of_zmod ha hc ?_ h1
    rw [h1] at h0
    linear_combination h0
  obtain ⟨⟨f0, f2, f4⟩, ⟨f1, f3, f5⟩⟩ := f
  obtain ⟨⟨e0, e2, e4⟩, ⟨e1, e3, e5⟩⟩ := e
  simp only [Fp12.poly, Fp2.poly, coeff_add, coeff_C_mul, coeff_X_pow] at hc
  have q0 := key hf.1.1 he.1.1 (by simpa using hc 6) (by simpa using hc 0)
  have q1 := key hf.2.1 he.2.1 (by simpa using hc 7) (by simpa using hc 1)
  have q2 := key hf.1.2.1 he.1.2.1 (by simpa using hc 8) (by simpa using hc 2)
  have q3 := key hf.2.2.1 he.2.2.1 (by simpa using hc 9) (by simpa using hc 3)
  have q4 := key hf.1.2.2 he.1.2.2 (by simpa using hc 10) (by simpa using hc 4)
  have q5 := key hf.2.2.2 he.2.2.2 (by simpa using hc 11) (by simpa using hc 5)
  simp only at q0 q1 q2 q3 q4 q5
  rw [q0, q1, q2, q3, q4, q5]

/-! ### The images of the twist under psi -/

/-- x * w^2, the x coordinate of psi. -/
def psiX (x : Fp2) : Fp12 := ⟨⟨Fp2.zero, x, Fp2.zero⟩, Fp6.zero⟩

/-- y * w^3, the y coordinate of psi. -/
def psiY (y : Fp2) : Fp12 := ⟨Fp6.zero, ⟨Fp2.zero, y, Fp2.zero⟩⟩

/-- l * w, the slope of a line through images of psi. -/
def psiSlope (l : Fp2) : Fp12 := ⟨Fp6.zero, ⟨l, Fp2.zero, Fp2.zero⟩⟩

theorem psi_aff (x y : Fp2) : psi (.aff x y) = .aff (psiX x) (psiY y) := rfl

theorem psiX_inj {x y : Fp2} : psiX x = psiX y ↔ x = y := ⟨fun h => congrArg (fun f : Fp12 => f.g.c1) h, fun h => by rw [h]⟩
theorem psiY_inj {x y : Fp2} : psiY x = psiY y ↔ x = y := ⟨fun h => congrArg (fun f : Fp12 => f.h.c1) h, fun h => by rw [h]⟩
theorem psiX_zero : psiX Fp2.zero = Fp12.zero := rfl
theorem psiY_zero : psiY Fp2.zero = Fp12.zero := rfl

theorem canonical_psiX {x : Fp2} (h : x.canonical) : (psiX x).canonical := ⟨⟨Fp2.canonical_zero, h, Fp2.canonical_zero⟩, Fp6.canonical_zero⟩
theorem canonical_psiY {y : Fp2} (h : y.canonical) : (psiY y).canonical := ⟨Fp6.canonical_zero, Fp2.canonical_zero, h, Fp2.canonical_zero⟩
theorem canonical_psiSlope {l : Fp2} (h : l.canonical) : (psiSlope l).canonical := ⟨Fp6.canonical_zero, h, Fp2.canonical_zero, Fp2.canonical_zero⟩

theorem zero_sub_zero : Fp2.zero.sub Fp2.zero = Fp2.zero := by decide +kernel
theorem zero_add_zero : Fp2.zero.add Fp2.zero = Fp2.zero := by decide +kernel
theorem neg_zero2 : Fp2.zero.neg = Fp2.zero := by decide +kernel

theorem psiX_sub (x y : Fp2) : (psiX x).sub (psiX y) = psiX (x.sub y) := by
  simp only [psiX, Fp12.sub, Fp6.sub, Fp6.zero, zero_sub_zero]
theorem psiY_sub (x y : Fp2) : (psiY x).sub (psiY y) = psiY (x.sub y) := by
  simp only [psiY, Fp12.sub, Fp6.sub, Fp6.zero, zero_sub_zero]
theorem psiY_add (x y : Fp2) : (psiY x).add (psiY y) = psiY (x.add y) := by
  simp only [psiY, Fp12.add, Fp6.add, Fp6.zero, zero_add_zero]
theorem psiY_neg (y : Fp2) : (psiY y).neg = psiY y.neg := by
  simp only [psiY, Fp12.neg, Fp6.neg, Fp6.zero, neg_zero2]

section Values

variable {R : Type} [CommRing R] (u v w : R)

theorem val_psiX (x : Fp2) : (psiX x).val u v w = x.val u * v := by simp [psiX, Fp12.val, Fp6.val, Fp6.zero, Fp2.val_zero]
theorem val_psiY (y : Fp2) : (psiY y).val u v w = y.val u * v * w := by simp [psiY, Fp12.val, Fp6.val, Fp6.zero, Fp2.val_zero]
theorem val_psiSlope (l : Fp2) : (psiSlope l).val u v w = l.val u * w := by simp [psiSlope, Fp12.val, Fp6.val, Fp6.zero, Fp2.val_zero]
theorem Fp2.val_ofFp (x : Nat) : (Fp2.mk x 0).val u = x := by simp [Fp2.val]
theorem val_ofFp (x : Nat) : (Fp12.ofFp x).val u v w = x := by simp [Fp12.ofFp, Fp12.val, Fp6.val, Fp6.zero, Fp2.val_zero, Fp2.val_ofFp]

end Values

/-- N/D is L when L*D = N. -/
theorem Fp12.div_eq {N D L : Fp12} (hD : D.canonical) (h0 : D ≠ Fp12.zero) (hL : L.canonical)
    (h : L.towerVal * D.towerVal = N.towerVal) : N.mul D.inv = L := by
  refine Fp12.towerVal_inj (Fp12.canonical_mul _ _) hL ?_
  have hi := Fp12.val_inv towerRing_tower hD h0
  rw [Fp12.towerVal, Fp12.val_mul towerRing_tower]
  simp only [Fp12.towerVal] at h ⊢
  rw [← h, mul_assoc, hi, mul_one]

/-- The third point and the line value of the line of slope lambda through psi((x1, y1)) (44_pairing.md R283, R284). -/
theorem through_psi (lambda x1 y1 x2 : Fp2) (xP yP : Nat) :
    ((Fp12.ofFp yP).sub (psiY y1)).sub ((psiSlope lambda).mul ((Fp12.ofFp xP).sub (psiX x1))) =
      (Sparse.mk ⟨yP % Config.p, 0⟩ (lambda.mul ⟨xP, 0⟩).neg ((lambda.mul x1).sub y1)).expand ∧
    (((psiSlope lambda).mul (psiSlope lambda)).sub (psiX x1)).sub (psiX x2) = psiX (((lambda.mul lambda).sub x1).sub x2) ∧
    ∀ x3 : Fp2, ((psiSlope lambda).mul ((psiX x1).sub (psiX x3))).sub (psiY y1) = psiY ((lambda.mul (x1.sub x3)).sub y1) := by
  have t := towerRing_tower
  have hw := t.w_sq
  refine ⟨Fp12.towerVal_inj (Fp12.canonical_sub _ _) ⟨⟨⟨Nat.mod_lt _ p_pos, p_pos⟩, Fp2.canonical_zero, Fp2.canonical_zero⟩,
      Fp2.canonical_neg _, Fp2.canonical_sub _ _, Fp2.canonical_zero⟩ ?_,
    Fp12.towerVal_inj (Fp12.canonical_sub _ _) (canonical_psiX (Fp2.canonical_sub _ _)) ?_,
    fun x3 => Fp12.towerVal_inj (Fp12.canonical_sub _ _) (canonical_psiY (Fp2.canonical_sub _ _)) ?_⟩
  · simp only [Fp12.towerVal, Sparse.val_expand t, Fp12.val_sub t, Fp12.val_mul t, val_psiX, val_psiY, val_psiSlope, val_ofFp, Fp2.val_neg t,
      Fp2.val_sub t, Fp2.val_mul t, Fp2.val_ofFp, cast_mod_p t.char]
    ring
  · simp only [Fp12.towerVal, Fp12.val_sub t, Fp12.val_mul t, val_psiX, val_psiSlope, Fp2.val_sub t, Fp2.val_mul t]
    ring
  · simp only [Fp12.towerVal, Fp12.val_sub t, Fp12.val_mul t, val_psiX, val_psiY, val_psiSlope, Fp2.val_sub t, Fp2.val_mul t]
    ring

/-! ### The twist -/

/-- A point of the twist with coordinates in [0, p), or O. -/
def OnTwist (Q : Point Fp2) : Prop := canonical2 Q ∧ onCurve2 Q = true

theorem pointIn_canonical2 (Q : Point Fp2) : PointIn Fp2.canonical Q ↔ canonical2 Q := by cases Q <;> rfl

theorem twistB_canonical : twistB.canonical := Fp2.canonical_mul _ _

theorem natCast_k2 (n : Nat) (hn : n < Config.p) (h0 : n ≠ 0) : (n : K2) ≠ 0 := fun h =>
  zmod_ne_zero hn h0 (by simpa using congrArg QuadraticAlgebra.re h)

theorem two_ne_zero_k2 : (2 : K2) ≠ 0 := natCast_k2 2 (by decide) (by decide)
theorem six_ne_zero_k2 : (6 : K2) ≠ 0 := natCast_k2 6 (by decide) (by decide)

/-- The twist is closed under the sum, and the sum is that of the case list of 43_curve.md R230. -/
theorem twist_add {T S : Point Fp2} (hT : OnTwist T) (hS : OnTwist S) :
    OnTwist (T.add fp2Ops S) ∧ ChordTangent fp2Ops T S (T.add fp2Ops S) := by
  have := fact_p
  have := fact_k2
  have m := models_fp2
  classical
  have pT := (pointIn_canonical2 T).2 hT.1
  have pS := (pointIn_canonical2 S).2 hS.1
  exact ⟨⟨(pointIn_canonical2 _).1 (pointIn_add m pT pS),
    onCurve_add m six_ne_zero_k2 (Fp2.toK_ne_zero twistB_canonical (by decide +kernel)) pT pS hT.2 hS.2⟩,
    chordTangent_add m pT pS hT.2 hS.2⟩

/-- No point of the twist has x = 0: b' is not a square in Fp2 (45_codec.md R319). -/
theorem twist_x_ne_zero {x y : Fp2} (h : onCurve2 (.aff x y) = true) : x ≠ Fp2.zero := by
  rintro rfl
  refine Fp2.no_root twistB (by decide +kernel) y ((of_decide_eq_true h).trans ?_)
  decide +kernel

/-- No point of the twist has y = 0 (00_scope.md R13). -/
theorem twist_y_ne_zero {x y : Fp2} (h : onCurve2 (.aff x y) = true) : y ≠ Fp2.zero := by
  have e : y.mul y = rhs2 x := of_decide_eq_true h
  exact fun h0 => rhs2_ne_zero x (e.symm.trans (by rw [h0]; decide +kernel))

/-- No point of E has y = 0 (00_scope.md R13). -/
theorem g1_y_ne_zero {x y : Nat} (h : onCurve1 (.aff x y) = true) : y ≠ 0 := by
  rintro rfl
  exact rhs1_ne_zero x (of_decide_eq_true h).symm

/-! ### One line -/

/-- LINE of two points of the twist, seen through psi: the sum is the image of their sum, and the value is the sparse element of 44_pairing.md
R284, never 0 for a point P of E. -/
theorem line_psi {T S : Point Fp2} (hT : OnTwist T) (hS : OnTwist S) {xP yP : Nat} (hy : yP < Config.p) (hy0 : yP ≠ 0) :
    (line (psi T) (psi S) (Fp12.ofFp xP) (Fp12.ofFp yP)).2 = psi (T.add fp2Ops S) ∧
    (line (psi T) (psi S) (Fp12.ofFp xP) (Fp12.ofFp yP)).1.canonical ∧
    (line (psi T) (psi S) (Fp12.ofFp xP) (Fp12.ofFp yP)).1 ≠ Fp12.zero ∧
    ∀ {R : Type} [CommRing R] {u v w : R}, TowerIn R u v w →
      LineValue u w xP yP T S ((line (psi T) (psi S) (Fp12.ofFp xP) (Fp12.ofFp yP)).1.val u v w) := by
  have := fact_p
  have := fact_k2
  have m := models_fp2
  have tr := towerRing_tower
  have one_ne : Fp12.one ≠ Fp12.zero := by decide
  cases T with
  | inf => exact ⟨by cases S <;> rfl, Fp12.canonical_one, one_ne, fun _ => Fp12.val_one _ _ _⟩
  | aff x1 y1 =>
    cases S with
    | inf => exact ⟨rfl, Fp12.canonical_one, one_ne, fun _ => Fp12.val_one _ _ _⟩
    | aff x2 y2 =>
      obtain ⟨cT, eT⟩ := hT
      obtain ⟨cS, eS⟩ := hS
      have thru : ∀ lambda : Fp2, lambda.canonical →
          (((Fp12.ofFp yP).sub (psiY y1)).sub ((psiSlope lambda).mul ((Fp12.ofFp xP).sub (psiX x1)))) ≠ Fp12.zero ∧
          ∀ {R : Type} [CommRing R] {u v w : R}, TowerIn R u v w →
            (((Fp12.ofFp yP).sub (psiY y1)).sub ((psiSlope lambda).mul ((Fp12.ofFp xP).sub (psiX x1)))).val u v w =
              (yP : R) - lambda.val u * (xP : R) * w + (lambda.val u * x1.val u - y1.val u) * w ^ 3 := fun lambda hl => by
        rw [(through_psi lambda x1 y1 x2 xP yP).1]
        refine ⟨fun h => hy0 ?_, fun t => ?_⟩
        · have := congrArg (fun f : Fp12 => f.g.c0.c0) h
          rwa [← Nat.mod_eq_of_lt hy]
        · simp only [Sparse.val_expand t, Fp2.val_neg t, Fp2.val_sub t, Fp2.val_mul t, Fp2.val_ofFp, Nat.mod_eq_of_lt hy]
          ring
      have sum_ne : ∀ y : Fp2, y.canonical → y ≠ Fp2.zero → y.add y ≠ Fp2.zero := fun y c h h0 =>
        h (double_eq_zero m two_ne_zero_k2 c h0)
      rw [psi_aff, psi_aff, line, Point.add]
      simp only [ne_eq, psiX_inj, psiY_inj, ← psiY_zero]
      by_cases hxx : x1 = x2
      · subst hxx
        by_cases hyy : y1 = y2 ∧ ¬y1 = Fp2.zero
        · obtain ⟨rfl, hn⟩ := hyy
          have hs := sum_ne y1 cT.2 hn
          have hl := Fp2.canonical_mul (((x1.mul x1).add (x1.mul x1)).add (x1.mul x1)) (y1.add y1).inv
          have hd : ((((psiX x1).mul (psiX x1)).add ((psiX x1).mul (psiX x1))).add ((psiX x1).mul (psiX x1))).mul
              ((psiY y1).add (psiY y1)).inv = psiSlope ((((x1.mul x1).add (x1.mul x1)).add (x1.mul x1)).mul (y1.add y1).inv) := by
            rw [psiY_add]
            refine Fp12.div_eq (canonical_psiY (Fp2.canonical_add _ _)) (fun h => hs (psiY_inj.1 (h.trans psiY_zero.symm)))
              (canonical_psiSlope hl) ?_
            have hi := Fp2.val_inv tr (Fp2.canonical_add y1 y1) hs
            have hw := tr.w_sq
            simp only [Fp12.towerVal, Fp12.val_add tr, Fp12.val_mul tr, val_psiX, val_psiY, val_psiSlope, Fp2.val_mul tr, Fp2.val_add tr] at hi ⊢
            linear_combination (3 * x1.val _ ^ 2 * (AdjoinRoot.root towerPoly) ^ 4) * hi
          rw [if_neg (fun h => h rfl), if_pos ⟨rfl, hn⟩, if_neg (fun h => hs h.2), if_pos rfl, hd]
          obtain ⟨h1, h2⟩ := thru _ hl
          obtain ⟨-, e2, e3⟩ := through_psi ((((x1.mul x1).add (x1.mul x1)).add (x1.mul x1)).mul (y1.add y1).inv) x1 y1 x1 xP yP
          refine ⟨?_, Fp12.canonical_sub _ _, h1, fun t => ⟨fun h => absurd rfl h, fun _ _ => ⟨_, div_mul_eq m (Fp2.canonical_add _ _) (Fp2.canonical_add _ _) hs, h2 t⟩,
            fun _ h => absurd ⟨rfl, hn⟩ h⟩⟩
          simp only [e2, e3]
          rfl
        · have hz : y1.add y2 = Fp2.zero := by
            rcases same_x m eT eS cT.2 cS.2 with h | h
            · subst h
              have h0 : y1 = Fp2.zero := by
                by_contra h0
                exact hyy ⟨rfl, h0⟩
              exact absurd h0 (twist_y_ne_zero eT)
            · exact h
          rw [if_neg (fun h => h rfl), if_neg hyy, if_pos ⟨rfl, hz⟩]
          refine ⟨rfl, Fp12.canonical_sub _ _, fun h => ?_, fun t => ⟨fun h => absurd rfl h, fun _ h => absurd h hyy, fun _ _ => ?_⟩⟩
          · have h1 : Fp2.zero.sub x1 = Fp2.zero := congrArg (fun f : Fp12 => f.g.c1) h
            exact sub_ne_zero_of_models m cT.1 Fp2.canonical_zero (twist_x_ne_zero eT) h1
          · rw [Fp12.val_sub t, val_ofFp, val_psiX, t.w_sq]
      · have hdx := sub_ne_zero_of_models m cT.1 cS.1 hxx
        have hl := Fp2.canonical_mul (y2.sub y1) (x2.sub x1).inv
        have hd : ((psiY y2).sub (psiY y1)).mul ((psiX x2).sub (psiX x1)).inv = psiSlope ((y2.sub y1).mul (x2.sub x1).inv) := by
          rw [psiX_sub, psiY_sub]
          refine Fp12.div_eq (canonical_psiX (Fp2.canonical_sub _ _)) (fun h => hdx (psiX_inj.1 (h.trans psiX_zero.symm)))
            (canonical_psiSlope hl) ?_
          have hi := Fp2.val_inv tr (Fp2.canonical_sub x2 x1) hdx
          simp only [Fp12.towerVal, val_psiX, val_psiY, val_psiSlope, Fp2.val_mul tr, Fp2.val_sub tr] at hi ⊢
          linear_combination ((y2.val _ - y1.val _) * (AdjoinRoot.root towerPoly) ^ 3) * hi
        rw [if_pos hxx, if_neg (fun h => hxx h.1), if_neg hxx, hd]
        obtain ⟨h1, h2⟩ := thru _ hl
        obtain ⟨-, e2, e3⟩ := through_psi ((y2.sub y1).mul (x2.sub x1).inv) x1 y1 x2 xP yP
        refine ⟨?_, Fp12.canonical_sub _ _, h1, fun t => ⟨fun _ => ⟨_, div_mul_eq m (Fp2.canonical_sub _ _) (Fp2.canonical_sub _ _) hdx, h2 t⟩,
          fun h => absurd h hxx, fun h => absurd h hxx⟩⟩
        simp only [e2, e3]
        rfl

/-! ### Frobenius on the images of psi -/

/-- The point of the twist whose image is pi of the image of (x, y) (44_pairing.md R281). -/
def twistFrob : Point Fp2 → Point Fp2
  | .inf => .inf
  | .aff x y => .aff (x.conj.mul gamma2) (y.conj.mul gamma3)

theorem frob_psiX (x : Fp2) : (psiX x).frob = psiX (x.conj.mul gamma2) := by
  have e0 : Fp2.zero.conj = Fp2.zero := by decide +kernel
  have e : ∀ g : Fp2, Fp2.zero.mul g = Fp2.zero := fun g =>
    Fp2.toK_inj (Fp2.canonical_mul _ _) Fp2.canonical_zero (by rw [Fp2.toK_mul, Fp2.toK_zero, zero_mul])
  simp only [psiX, Fp12.frob, Fp6.zero, e0, e]

theorem frob_psiY (y : Fp2) : (psiY y).frob = psiY (y.conj.mul gamma3) := by
  have e0 : Fp2.zero.conj = Fp2.zero := by decide +kernel
  have e : ∀ g : Fp2, Fp2.zero.mul g = Fp2.zero := fun g =>
    Fp2.toK_inj (Fp2.canonical_mul _ _) Fp2.canonical_zero (by rw [Fp2.toK_mul, Fp2.toK_zero, zero_mul])
  simp only [psiY, Fp12.frob, Fp6.zero, e0, e]

theorem frobPoint_psi (Q : Point Fp2) : frobPoint (psi Q) = psi (twistFrob Q) := by
  cases Q with
  | inf => rfl
  | aff x y => rw [psi_aff, frobPoint, frob_psiX, frob_psiY]; rfl

theorem neg_psi (Q : Point Fp2) : (psi Q).neg fp12Ops = psi (Q.neg fp2Ops) := by
  cases Q with
  | inf => rfl
  | aff x y => exact congrArg (Point.aff (psiX x)) (psiY_neg y)

theorem toK_conj_mul (a b : Fp2) : (a.mul b).conj.toK = a.conj.toK * b.conj.toK := by
  ext <;>
    simp only [Fp2.toK, Fp2.conj, Fp2.mul, cast_fpAdd p_zmod, cast_fpSub p_zmod, cast_fpMul p_zmod, cast_fpNeg p_zmod,
      QuadraticAlgebra.re_mul, QuadraticAlgebra.im_mul] <;>
    ring

theorem toK_conj_add (a b : Fp2) : (a.add b).conj.toK = a.conj.toK + b.conj.toK := by
  ext <;>
    simp only [Fp2.toK, Fp2.conj, Fp2.add, cast_fpAdd p_zmod, cast_fpNeg p_zmod, QuadraticAlgebra.re_add, QuadraticAlgebra.im_add]
  ring

/-- pi keeps the twist. -/
theorem twistFrob_onTwist {Q : Point Fp2} (h : OnTwist Q) : OnTwist (twistFrob Q) := by
  cases Q with
  | inf => exact h
  | aff x y =>
    refine ⟨⟨Fp2.canonical_mul _ _, Fp2.canonical_mul _ _⟩, decide_eq_true (Fp2.toK_inj (Fp2.canonical_mul _ _) (Fp2.canonical_add _ _) ?_)⟩
    have e : (y.mul y).conj.toK = (((x.mul x).mul x).add twistB).conj.toK :=
      congrArg (fun a : Fp2 => a.conj.toK) (of_decide_eq_true h.2)
    have hg : gamma2.toK ^ 3 = gamma3.toK ^ 2 := by
      have : (gamma2.mul gamma2).mul gamma2 = gamma3.mul gamma3 := by decide +kernel
      have := congrArg Fp2.toK this
      simp only [Fp2.toK_mul] at this
      linear_combination this
    have hb : twistB.conj.toK * gamma3.toK ^ 2 = twistB.toK := by
      have : twistB.conj.mul (gamma3.mul gamma3) = twistB := by decide +kernel
      have := congrArg Fp2.toK this
      simp only [Fp2.toK_mul] at this
      linear_combination this
    rw [toK_conj_mul, toK_conj_add, toK_conj_mul, toK_conj_mul] at e
    change ((y.conj.mul gamma3).mul (y.conj.mul gamma3)).toK =
      ((((x.conj.mul gamma2).mul (x.conj.mul gamma2)).mul (x.conj.mul gamma2)).add twistB).toK
    simp only [Fp2.toK_mul, Fp2.toK_add]
    linear_combination gamma3.toK ^ 2 * e - x.conj.toK ^ 3 * hg + hb

/-- -Q is on the twist with Q. -/
theorem twist_neg {Q : Point Fp2} (h : OnTwist Q) : OnTwist (Q.neg fp2Ops) := by
  cases Q with
  | inf => exact h
  | aff x y => exact ⟨⟨h.1.1, Fp2.canonical_neg _⟩, decide_eq_true ((Fp2.mul_neg_neg y).trans (of_decide_eq_true h.2))⟩

theorem psi_frob_values {R : Type} [CommRing R] {u v w : R} (t : TowerIn R u v w) (x y : Fp2) :
    (x.conj.mul gamma2).val u * w ^ 2 = (x.val u * w ^ 2) ^ Config.p ∧ (y.conj.mul gamma3).val u * w ^ 3 = (y.val u * w ^ 3) ^ Config.p := by
  have hx := Fp12.val_frob t (psiX x)
  have hy := Fp12.val_frob t (psiY y)
  rw [frob_psiX, val_psiX, val_psiX, ← t.w_sq] at hx
  rw [frob_psiY, val_psiY, val_psiY, ← t.w_sq] at hy
  refine ⟨hx, ?_⟩
  rw [pow_succ w 2, ← mul_assoc, ← mul_assoc]
  exact hy

/-! ### The Miller value -/

/-- Fp12 has no zero divisors. -/
theorem Fp12.mul_ne_zero {f e : Fp12} (hf : f.canonical) (he : e.canonical) (f0 : f ≠ Fp12.zero) (e0 : e ≠ Fp12.zero) : f.mul e ≠ Fp12.zero := by
  intro h
  have t := towerRing_tower
  refine e0 (Fp12.towerVal_inj he Fp12.canonical_zero ?_)
  have h1 := congrArg Fp12.towerVal h
  have hi := Fp12.val_inv t hf f0
  simp only [Fp12.towerVal, Fp12.val_mul t, Fp12.val_zero] at h1 ⊢
  linear_combination f.inv.val (AdjoinRoot.root towerPoly ^ 6 - 9) (AdjoinRoot.root towerPoly ^ 2) (AdjoinRoot.root towerPoly) * h1 -
    e.val (AdjoinRoot.root towerPoly ^ 6 - 9) (AdjoinRoot.root towerPoly ^ 2) (AdjoinRoot.root towerPoly) * hi

/-- The loop of 44_pairing.md R282 on the twist: from f and psi(T) it ends at the image of a point of the twist, with a nonzero value that the line
values and the sums of the group law give. -/
theorem millerLoop_psi {Q : Point Fp2} (hQ : OnTwist Q) {xP yP : Nat} (hy : yP < Config.p) (hy0 : yP ≠ 0) (n : Nat) (f : Fp12)
    (hf : f.canonical) (f0 : f ≠ Fp12.zero) (T : Point Fp2) (hT : OnTwist T) :
    ∃ U : Point Fp2, OnTwist U ∧ (millerLoop (psi Q) (Fp12.ofFp xP) (Fp12.ofFp yP) n (f, psi T)).2 = psi U ∧
      (millerLoop (psi Q) (Fp12.ofFp xP) (Fp12.ofFp yP) n (f, psi T)).1.canonical ∧
      (millerLoop (psi Q) (Fp12.ofFp xP) (Fp12.ofFp yP) n (f, psi T)).1 ≠ Fp12.zero ∧
      ∀ {R : Type} [CommRing R] {u v w : R}, TowerIn R u v w →
        MillerLoop u w xP yP Q n (f.val u v w) T ((millerLoop (psi Q) (Fp12.ofFp xP) (Fp12.ofFp yP) n (f, psi T)).1.val u v w) U := by
  induction n generalizing f T with
  | zero => exact ⟨T, hT, rfl, hf, f0, fun _ => ⟨rfl, rfl⟩⟩
  | succ n ih =>
    obtain ⟨e2, hl, l0, hv⟩ := line_psi hT hT (xP := xP) hy hy0
    obtain ⟨hT1, ct⟩ := twist_add hT hT
    rw [millerLoop, millerBit]
    rcases hL : line (psi T) (psi T) (Fp12.ofFp xP) (Fp12.ofFp yP) with ⟨l, T1⟩
    rw [hL] at e2 hl l0 hv
    obtain rfl : T1 = psi (T.add fp2Ops T) := e2
    have hfl := Fp12.canonical_mul (f.mul f) l
    have fl0 := Fp12.mul_ne_zero (Fp12.canonical_mul f f) hl (Fp12.mul_ne_zero hf hf f0 f0) l0
    dsimp only
    cases hb : Config.ate.testBit n with
    | false =>
      obtain ⟨U, hU, eU, cU, U0, vU⟩ := ih _ hfl fl0 _ hT1
      simp only [Bool.false_eq_true, if_false]
      refine ⟨U, hU, eU, cU, U0, fun t => ⟨_, _, hv t, ct, fun _ => ?_, fun h => ?_⟩⟩
      · rw [← Fp12.val_mul t, ← Fp12.val_mul t]
        exact vU t
      · exact absurd (hb.symm.trans h) (by decide)
    | true =>
      obtain ⟨e2', hl', l0', hv'⟩ := line_psi hT1 hQ (xP := xP) hy hy0
      obtain ⟨hT2, ct'⟩ := twist_add hT1 hQ
      rcases hL' : line (psi (T.add fp2Ops T)) (psi Q) (Fp12.ofFp xP) (Fp12.ofFp yP) with ⟨l', T2⟩
      rw [hL'] at e2' hl' l0' hv'
      obtain rfl : T2 = psi ((T.add fp2Ops T).add fp2Ops Q) := e2'
      obtain ⟨U, hU, eU, cU, U0, vU⟩ := ih _ (Fp12.canonical_mul _ l') (Fp12.mul_ne_zero hfl hl' fl0 l0') _ hT2
      simp only [if_true]
      refine ⟨U, hU, eU, cU, U0, fun t => ⟨_, _, hv t, ct, fun h => ?_, fun _ => ⟨_, _, hv' t, ct', ?_⟩⟩⟩
      · exact absurd (hb.symm.trans h) (by decide)
      · rw [← Fp12.val_mul t, ← Fp12.val_mul t, ← Fp12.val_mul t]
        exact vU t

/-- miller(P, Q) of affine points of E and the twist is never 0, and its value is the one of 44_pairing.md R282 with the sparse lines of R284. -/
theorem miller_value {xP yP : Nat} {x y : Fp2} (hy : yP < Config.p) (hP : onCurve1 (.aff xP yP) = true) (hQ : OnTwist (.aff x y)) :
    miller (.aff xP yP) (.aff x y) ≠ Fp12.zero ∧
    ∀ {R : Type} [CommRing R] {u v w : R}, TowerIn R u v w → MillerValue u w xP yP x y ((miller (.aff xP yP) (.aff x y)).val u v w) := by
  have hy0 := g1_y_ne_zero hP
  obtain ⟨T, hT, eT, cf, f0, hv⟩ := millerLoop_psi hQ (xP := xP) hy hy0 64 Fp12.one Fp12.canonical_one (by decide) _ hQ
  rw [miller]
  dsimp only
  rcases hM : millerLoop (psi (.aff x y)) (Fp12.ofFp xP) (Fp12.ofFp yP) 64 (Fp12.one, psi (.aff x y)) with ⟨f, T'⟩
  rw [hM] at eT cf f0 hv
  obtain rfl : T' = psi T := eT
  have h1 := twistFrob_onTwist hQ
  have h2 := twist_neg (twistFrob_onTwist h1)
  obtain ⟨e1, cl1, l10, v1⟩ := line_psi hT h1 (xP := xP) hy hy0
  obtain ⟨hT1, ct⟩ := twist_add hT h1
  obtain ⟨-, cl2, l20, v2⟩ := line_psi hT1 h2 (xP := xP) hy hy0
  rw [frobPoint_psi, frobPoint_psi, neg_psi]
  rcases hL : line (psi T) (psi (twistFrob (.aff x y))) (Fp12.ofFp xP) (Fp12.ofFp yP) with ⟨l1, T1⟩
  rw [hL] at e1 cl1 l10 v1
  obtain rfl : T1 = psi (T.add fp2Ops (twistFrob (.aff x y))) := e1
  dsimp only
  refine ⟨Fp12.mul_ne_zero (Fp12.canonical_mul _ _) cl2 (Fp12.mul_ne_zero cf cl1 f0 l10) l20, fun {R} _ {u v w} t => ?_⟩
  have p1 := psi_frob_values t x y
  have p2 := psi_frob_values t (x.conj.mul gamma2) (y.conj.mul gamma3)
  rw [p1.1, p1.2, ← pow_mul, ← pow_mul, ← sq] at p2
  refine ⟨f.val u v w, _, _, T, _, _, _, _, _, ?_, ⟨Fp2.canonical_mul _ _, Fp2.canonical_mul _ _, p1.1, p1.2⟩,
    ⟨Fp2.canonical_mul _ _, Fp2.canonical_mul _ _, p2.1, p2.2⟩, v1 t, ct, v2 t, ?_⟩
  · have := hv t
    rwa [Fp12.val_one] at this
  · rw [Fp12.val_mul t, Fp12.val_mul t]

end Sys2Proof.Machine
end

