-- ==== Sys2Proof/Laws/Registers.lean ====
section
/-! SUPPORT. Reading registers and valid bits after a write of one register or of a view. -/

namespace Sys2Proof.Machine

set_option Elab.async false

theorem vector_getD {α : Type} {n : Nat} (xs : Vector α n) (i : Nat) (d : α) : xs.getD i d = (xs[i]?).getD d := by
  cases xs with
  | mk a h => simp [Vector.getD, Array.getD_eq_getD_getElem?]

theorem State.reg_setReg (s : State) (i j : Nat) (x : Elem) :
    (s.setReg i x).reg j = if j = i ∧ i < 256 then x else s.reg j := by
  simp only [State.reg, State.setReg_f, vector_getD, Vector.getElem?_setIfInBounds]
  rcases eq_or_ne i j with rfl | h
  · by_cases h' : i < 256 <;> simp [h']
  · simp [h, Ne.symm h]

theorem State.valid_setReg (s : State) (i j : Nat) (x : Elem) :
    (s.setReg i x).valid j = if j = i ∧ i < 256 then true else s.valid j := by
  simp only [State.valid, State.setReg_v, vector_getD, Vector.getElem?_setIfInBounds]
  rcases eq_or_ne i j with rfl | h
  · by_cases h' : i < 256 <;> simp [h']
  · simp [h, Ne.symm h]

/-- A register outside the file reads 0. -/
theorem State.reg_of_le (s : State) (i : Nat) (h : 256 ≤ i) : s.reg i = 0 := by
  simp [State.reg, vector_getD, h]

/-- A register outside the file is never valid. -/
theorem State.valid_of_le (s : State) (i : Nat) (h : 256 ≤ i) : s.valid i = false := by
  simp [State.valid, vector_getD, h]

theorem State.setRegs_other (s : State) (b : Nat) (xs : List Elem) (j : Nat) (h : j < b ∨ b + xs.length ≤ j) :
    (s.setRegs b xs).reg j = s.reg j ∧ (s.setRegs b xs).valid j = s.valid j := by
  induction xs generalizing s b with
  | nil => exact ⟨rfl, rfl⟩
  | cons x xs ih =>
    simp only [List.length_cons] at h
    have := ih (s.setReg b x) (b + 1) (by omega)
    rw [State.reg_setReg, State.valid_setReg, if_neg (by omega), if_neg (by omega)] at this
    exact this

theorem State.setRegs_inside (s : State) (b : Nat) (xs : List Elem) (hb : b + xs.length ≤ 256) (k : Nat) (hk : k < xs.length) :
    (s.setRegs b xs).reg (b + k) = xs[k] ∧ (s.setRegs b xs).valid (b + k) = true := by
  induction xs generalizing s b k with
  | nil => simp at hk
  | cons x xs ih =>
    simp only [List.length_cons] at hb hk
    cases k with
    | zero =>
      have := State.setRegs_other (s.setReg b x) (b + 1) xs b (by omega)
      rw [State.reg_setReg, State.valid_setReg, if_pos (by omega), if_pos (by omega)] at this
      exact this
    | succ k =>
      have := ih (s.setReg b x) (b + 1) (by omega) k (by omega)
      rw [show b + (k + 1) = b + 1 + k by omega]
      simpa [State.setRegs] using this

end Sys2Proof.Machine
end

