-- ==== Sys2Proof/Laws/Perform.lean ====
section
/-! SUPPORT. Everything a command can do, said once: its checks, then one of a commit and an error record; and the frame of each kind of commit. -/

namespace Sys2Proof.Machine

set_option Elab.async false

/-! ### One shape for all commands -/

/-- Every command is `perform` of its windows, its sources and an operation. -/
theorem exec_eq_perform (i : Instr) : ∃ op, ∀ s, exec i s = perform (windowsOf i) (sourcesOf i) op s := by
  cases i <;> exact ⟨_, fun _ => rfl⟩

theorem written_iff (s : State) (b n : Nat) : s.written b n = true ↔ ∀ k, k < n → s.valid (b + k) = true := by
  simp [State.written, List.all_eq_true]

theorem checked_ready (s : State) (es : List Extent) (ws : List (Nat × Nat)) (op : State → Except ErrKind Effect)
    (h1 : ∀ w ∈ es, w.inRange = true) (h2 : ∀ w ∈ ws, ∀ k, k < w.2 → s.valid (w.1 + k) = true) : s.checked es ws op = op s := by
  have h1' : es.all Extent.inRange = true := List.all_eq_true.2 h1
  have h2' : ws.all (fun w => s.written w.1 w.2) = true :=
    List.all_eq_true.2 fun w hw => (written_iff s w.1 w.2).2 (h2 w hw)
  simp [State.checked, h1', h2']

theorem checked_range (s : State) (es : List Extent) (ws : List (Nat × Nat)) (op : State → Except ErrKind Effect)
    (h : ¬∀ w ∈ es, w.inRange = true) : s.checked es ws op = .error .operandRange := by
  have h' : ¬es.all Extent.inRange = true := fun h' => h (List.all_eq_true.1 h')
  simp only [State.checked, if_neg h']

theorem checked_unwritten (s : State) (es : List Extent) (ws : List (Nat × Nat)) (op : State → Except ErrKind Effect)
    (h1 : ∀ w ∈ es, w.inRange = true) (h2 : ¬∀ w ∈ ws, ∀ k, k < w.2 → s.valid (w.1 + k) = true) :
    s.checked es ws op = .error .unwrittenRegister := by
  have h1' : es.all Extent.inRange = true := List.all_eq_true.2 h1
  have h2' : ¬ws.all (fun w => s.written w.1 w.2) = true :=
    fun h => h2 fun w hw => (written_iff s w.1 w.2).1 (List.all_eq_true.1 h w hw)
  simp only [State.checked, if_pos h1', if_neg h2']

/-- A ready command completes with what its operation answers. -/
theorem perform_ready (s : State) (es : List Extent) (ws : List (Nat × Nat)) (op : State → Except ErrKind Effect)
    (h1 : ∀ w ∈ es, w.inRange = true) (h2 : ∀ w ∈ ws, ∀ k, k < w.2 → s.valid (w.1 + k) = true) :
    perform es ws op s = .next (s.complete (op s)) := by
  rw [perform, checked_ready s es ws op h1 h2]

/-- The error record, with a word in CUR. -/
theorem raise_eq_raised (s : State) (k : ErrKind) (w : Word) (h : s.cur = some w) : s.raise k = s.raised w k.code := by
  simp [State.raise, State.raised, h]

theorem exec_operandRange (i : Instr) (s : State) (h : ¬InRange i) : exec i s = .next (s.raise .operandRange) := by
  obtain ⟨op, hop⟩ := exec_eq_perform i
  rw [hop, perform, checked_range s _ _ _ h]
  rfl

theorem exec_unwritten (i : Instr) (s : State) (h : InRange i) (h' : ¬SourcesWritten i s) :
    exec i s = .next (s.raise .unwrittenRegister) := by
  obtain ⟨op, hop⟩ := exec_eq_perform i
  rw [hop, perform, checked_unwritten s _ _ _ h h']
  rfl

/-- Every command completes, with a commit or with an error record. -/
theorem exec_next (i : Instr) (s : State) : ∃ r : Except ErrKind Effect, exec i s = .next (s.complete r) := by
  obtain ⟨op, hop⟩ := exec_eq_perform i
  exact ⟨_, hop s⟩

/-! ### Frames of the commits -/

theorem completes_commit (s : State) (e : Effect) : Completes s (s.commit e) := by
  constructor <;> simp

theorem commit_reg (s : State) (e : Effect) (i : Nat) : (s.commit e).reg i = (s.apply e).reg i := rfl

theorem commit_valid (s : State) (e : Effect) (i : Nat) : (s.commit e).valid i = (s.apply e).valid i := rfl

theorem writesRegs_commit (s : State) (b : Nat) (xs : List Elem) (h : b + xs.length ≤ 256) :
    WritesRegs s (s.commit (.regs b xs)) b xs.length where
  toCompletes := completes_commit s _
  written k hk := (State.setRegs_inside s b xs h k hk).2
  other i hi := State.setRegs_other s b xs i hi
  flag := by simp
  iobuf a := by simp

/-- What a committed view reads back as. -/
theorem commit_regs_reg (s : State) (b : Nat) (xs : List Elem) (h : b + xs.length ≤ 256) (k : Nat) (hk : k < xs.length) :
    (s.commit (.regs b xs)).reg (b + k) = xs[k] :=
  (State.setRegs_inside s b xs h k hk).1

theorem writesFlag_commit (s : State) (c : Bool) : WritesFlag s (s.commit (.flag c)) c where
  toCompletes := completes_commit s _
  flag := by simp
  regs i := ⟨rfl, rfl⟩
  iobuf a := by simp

theorem writesBytes_commit (s : State) (off : Nat) (xs : List Byte) (hm : s.iobuf.wf)
    (h : off + xs.length ≤ Config.iobufSize) : WritesBytes s (s.commit (.bytes off xs)) off xs.length where
  toCompletes := completes_commit s _
  regs i := ⟨rfl, rfl⟩
  flag := by simp
  iobuf a ha := by
    rw [State.commit_iobuf, State.apply_bytes_iobuf, Memory.read_writeBytes _ _ _ hm h, if_neg (by omega)]

/-! ### The shapes of command (Machine/Operands.lean) -/

variable {α β γ : Type}

theorem cmdConst_next (W : View β) (y : β) (d : RegIdx) (s : State) (h : d.toNat + W.size ≤ 256) :
    cmdConst W y d s = .next (s.commit (.regs d.toNat (W.write y))) := by
  rw [cmdConst, perform_ready s]
  · rfl
  · simpa [View.extent, Extent.inRange] using h
  · simp

theorem cmdUnary_next (V : View α) (W : View β) (op : α → Except ErrKind β) (d a : RegIdx) (s : State)
    (hd : d.toNat + W.size ≤ 256) (ha : a.toNat + V.size ≤ 256) (va : ∀ k, k < V.size → s.valid (a.toNat + k) = true) :
    cmdUnary V W op d a s = .next (s.complete (W.put d (op (V.read s a.toNat)))) := by
  rw [cmdUnary, perform_ready s]
  · simpa [View.extent, Extent.inRange] using ⟨hd, ha⟩
  · simpa [View.src] using va

theorem cmdBinary_next (VA : View α) (VB : View β) (W : View γ) (op : α → β → Except ErrKind γ) (d a b : RegIdx) (s : State)
    (hd : d.toNat + W.size ≤ 256) (ha : a.toNat + VA.size ≤ 256) (hb : b.toNat + VB.size ≤ 256)
    (va : ∀ k, k < VA.size → s.valid (a.toNat + k) = true) (vb : ∀ k, k < VB.size → s.valid (b.toNat + k) = true) :
    cmdBinary VA VB W op d a b s = .next (s.complete (W.put d (op (VA.read s a.toNat) (VB.read s b.toNat)))) := by
  rw [cmdBinary, perform_ready s]
  · simpa [View.extent, Extent.inRange] using ⟨hd, ha, hb⟩
  · simpa [View.src] using ⟨va, vb⟩

theorem cmdAccumulate_next (VA : View α) (VB : View β) (W : View γ) (op : γ → α → β → Except ErrKind γ) (d a b : RegIdx) (s : State)
    (hd : d.toNat + W.size ≤ 256) (ha : a.toNat + VA.size ≤ 256) (hb : b.toNat + VB.size ≤ 256)
    (va : ∀ k, k < VA.size → s.valid (a.toNat + k) = true) (vb : ∀ k, k < VB.size → s.valid (b.toNat + k) = true)
    (vd : ∀ k, k < W.size → s.valid (d.toNat + k) = true) :
    cmdAccumulate VA VB W op d a b s =
      .next (s.complete (W.put d (op (W.read s d.toNat) (VA.read s a.toNat) (VB.read s b.toNat)))) := by
  rw [cmdAccumulate, perform_ready s]
  · simpa [View.extent, Extent.inRange] using ⟨hd, ha, hb⟩
  · simpa [View.src] using ⟨va, vb, vd⟩

theorem cmdTest_next (V : View α) (test : α → Bool) (a : RegIdx) (s : State)
    (ha : a.toNat + V.size ≤ 256) (va : ∀ k, k < V.size → s.valid (a.toNat + k) = true) :
    cmdTest V test a s = .next (s.commit (.flag (test (V.read s a.toNat)))) := by
  rw [cmdTest, perform_ready s]
  · rfl
  · simpa [View.extent, Extent.inRange] using ha
  · simpa [View.src] using va

theorem cmdTest2_next (V : View α) (test : α → α → Bool) (a b : RegIdx) (s : State)
    (ha : a.toNat + V.size ≤ 256) (hb : b.toNat + V.size ≤ 256)
    (va : ∀ k, k < V.size → s.valid (a.toNat + k) = true) (vb : ∀ k, k < V.size → s.valid (b.toNat + k) = true) :
    cmdTest2 V test a b s = .next (s.commit (.flag (test (V.read s a.toNat) (V.read s b.toNat)))) := by
  rw [cmdTest2, perform_ready s]
  · rfl
  · simpa [View.extent, Extent.inRange] using ⟨ha, hb⟩
  · simpa [View.src] using ⟨va, vb⟩

theorem cmdDecode_next (W : View β) (len : Nat) (op : Bool → List Byte → Except ErrKind β) (r : RegIdx) (off : Half) (s : State)
    (hr : r.toNat + W.size ≤ 256) (ho : off.toNat + len ≤ Config.iobufSize) :
    cmdDecode W len op r off s = .next (s.complete (W.put r (op s.fp2ordCmd (s.iobuf.readBytes off.toNat len)))) := by
  rw [cmdDecode, perform_ready s]
  · simpa [View.extent, Extent.inRange] using ⟨hr, ho⟩
  · simp

theorem cmdEncode_next (V : View α) (len : Nat) (op : Bool → α → Except ErrKind (List Byte)) (r : RegIdx) (off : Half) (s : State)
    (hr : r.toNat + V.size ≤ 256) (ho : off.toNat + len ≤ Config.iobufSize)
    (vr : ∀ k, k < V.size → s.valid (r.toNat + k) = true) :
    cmdEncode V len op r off s =
      .next (s.complete ((op s.fp2ordCmd (V.read s r.toNat)).map fun xs => .bytes off.toNat xs)) := by
  rw [cmdEncode, perform_ready s]
  · congr 2
    cases op s.fp2ordCmd (V.read s r.toNat) <;> rfl
  · simpa [View.extent, Extent.inRange] using ⟨hr, ho⟩
  · simpa [View.src] using vr

end Sys2Proof.Machine
end

