-- ==== Sys2Proof/Laws/Results.lean ====
section
/-! SUPPORT. What each shape of command answers when it is ready: the state and frame of a success, the record of an error. -/

namespace Sys2Proof.Machine

set_option Elab.async false

/-! ### Reading registers and views back -/

theorem elemOf_toNat (x : Nat) (h : x < 2 ^ 256) : (elemOf x).toNat = x := by
  simpa [elemOf] using Nat.mod_eq_of_lt h

theorem elemOf_fp (s : State) (i : Nat) : elemOf (s.fp i) = s.reg i := by simp [elemOf, State.fp]

theorem fp_of_reg {s : State} {i x : Nat} (h : s.reg i = elemOf x) (hx : x < 2 ^ 256) : s.fp i = x := by
  rw [State.fp, h, elemOf_toNat x hx]

@[simp] theorem length_regList (s : State) (b n : Nat) : (s.regList b n).length = n := by simp [State.regList]

theorem regList_eq_iff (s : State) (b : Nat) (xs : List Elem) :
    s.regList b xs.length = xs ↔ ∀ (k : Nat) (hk : k < xs.length), s.reg (b + k) = xs[k] := by
  constructor
  · intro h k hk
    have := List.getElem_of_eq h (i := k) (by simpa using hk)
    simpa [State.regList] using this
  · intro h
    refine List.ext_getElem (by simp) fun k h1 h2 => ?_
    simpa [State.regList] using h k h2

theorem regList_inj {s t : State} {a b n : Nat} : s.regList a n = t.regList b n ↔ ∀ k, k < n → s.reg (a + k) = t.reg (b + k) := by
  constructor
  · intro h k hk
    have := List.getElem_of_eq h (i := k) (by simpa using hk)
    simpa [State.regList] using this
  · intro h
    refine List.ext_getElem (by simp) fun k h1 h2 => ?_
    simpa [State.regList] using h k (by simpa using h1)

theorem regList_commit (s : State) (b : Nat) (xs : List Elem) (h : b + xs.length ≤ 256) :
    (s.commit (.regs b xs)).regList b xs.length = xs :=
  (regList_eq_iff _ _ _).2 fun k hk => commit_regs_reg s b xs h k hk

@[simp] theorem Fp2.length_regs (a : Fp2) : a.regs.length = 2 := rfl
@[simp] theorem Fp6.length_regs (a : Fp6) : a.regs.length = 6 := rfl
@[simp] theorem Fp12.length_regs (a : Fp12) : a.regs.length = 12 := rfl
@[simp] theorem length_regsOf1 (P : Point Nat) : (regsOf1 P).length = 2 := by cases P <;> rfl
@[simp] theorem length_regsOf2 (P : Point Fp2) : (regsOf2 P).length = 4 := by cases P <;> rfl

/-- The registers of a list of twelve, one by one. -/
theorem regList_two {s : State} {b : Nat} {x y : Elem} (h : s.regList b 2 = [x, y]) : s.reg b = x ∧ s.reg (b + 1) = y := by
  have := (regList_eq_iff s b [x, y]).1 h
  exact ⟨this 0 (by simp), this 1 (by simp)⟩

theorem fp2_of_regList {s : State} {b : Nat} {a : Fp2} (h : s.regList b 2 = a.regs) (h0 : a.c0 < 2 ^ 256) (h1 : a.c1 < 2 ^ 256) :
    s.fp2 b = a := by
  obtain ⟨e0, e1⟩ := regList_two h
  cases a
  simp only [State.fp2, fp_of_reg e0 h0, fp_of_reg e1 h1]

theorem regList_append (s : State) (b m n : Nat) : s.regList b (m + n) = s.regList b m ++ s.regList (b + m) n := by
  simp only [State.regList, List.range_add, List.map_append, List.map_map]
  congr 1
  refine List.map_congr_left fun k _ => ?_
  simp [Nat.add_assoc]

theorem regList_split {s : State} {b m n : Nat} {xs ys : List Elem} (h : s.regList b (m + n) = xs ++ ys) (hm : xs.length = m) :
    s.regList b m = xs ∧ s.regList (b + m) n = ys := by
  rw [regList_append] at h
  exact List.append_inj h (by simp [hm])

/-- Every coordinate below 2^256. -/
def Fp2.fits (a : Fp2) : Prop := a.c0 < 2 ^ 256 ∧ a.c1 < 2 ^ 256

theorem fp2_fits (s : State) (b : Nat) : (s.fp2 b).fits := ⟨(s.reg b).isLt, (s.reg (b + 1)).isLt⟩

theorem Fp2.fits_of_canonical {a : Fp2} (h : a.canonical) : a.fits :=
  ⟨lt_trans h.1 (by decide), lt_trans h.2 (by decide)⟩

theorem fp6_of_regList {s : State} {b : Nat} {c : Fp6} (h : s.regList b 6 = c.regs) (h0 : c.c0.fits) (h1 : c.c1.fits) (h2 : c.c2.fits) :
    s.fp6 b = c := by
  obtain ⟨h, e2⟩ := regList_split (m := 4) (n := 2) (xs := c.c0.regs ++ c.c1.regs) (ys := c.c2.regs) h rfl
  obtain ⟨e0, e1⟩ := regList_split (m := 2) (n := 2) h rfl
  cases c
  simp only [State.fp6, fp2_of_regList e0 h0.1 h0.2, fp2_of_regList e1 h1.1 h1.2, fp2_of_regList e2 h2.1 h2.2]

theorem fp12_of_regList {s : State} {b : Nat} {f : Fp12} (h : s.regList b 12 = f.regs)
    (g0 : f.g.c0.fits) (g1 : f.g.c1.fits) (g2 : f.g.c2.fits) (h0 : f.h.c0.fits) (h1 : f.h.c1.fits) (h2 : f.h.c2.fits) :
    s.fp12 b = f := by
  obtain ⟨e0, e1⟩ := regList_split (m := 6) (n := 6) h rfl
  cases f
  simp only [State.fp12, fp6_of_regList e0 g0 g1 g2, fp6_of_regList e1 h0 h1 h2]

/-! ### Commits of a view -/

variable {α β γ : Type}

/-- A success of a command with a destination view: the frame, and the registers of the window. -/
theorem commit_view (s : State) (d : RegIdx) (xs : List Elem) (n : Nat) (hn : xs.length = n) (hd : d.toNat + n ≤ 256) :
    WritesRegs s (s.commit (.regs d.toNat xs)) d.toNat n ∧ (s.commit (.regs d.toNat xs)).regList d.toNat n = xs := by
  subst hn
  exact ⟨writesRegs_commit s _ _ hd, regList_commit s _ _ hd⟩

theorem cmdUnary_ok (V : View α) (W : View β) (op : α → Except ErrKind β) (d a : RegIdx) (s : State) (y : β)
    (hd : d.toNat + W.size ≤ 256) (ha : a.toNat + V.size ≤ 256) (va : ∀ k, k < V.size → s.valid (a.toNat + k) = true)
    (h : op (V.read s a.toNat) = .ok y) (hl : (W.write y).length = W.size) :
    ∃ t, cmdUnary V W op d a s = .next t ∧ WritesRegs s t d.toNat W.size ∧ t.regList d.toNat W.size = W.write y := by
  refine ⟨_, cmdUnary_next V W op d a s hd ha va, ?_⟩
  rw [h]
  exact commit_view s d _ _ hl hd

theorem cmdUnary_error (V : View α) (W : View β) (op : α → Except ErrKind β) (d a : RegIdx) (s : State) (k : ErrKind)
    (hd : d.toNat + W.size ≤ 256) (ha : a.toNat + V.size ≤ 256) (va : ∀ k, k < V.size → s.valid (a.toNat + k) = true)
    (h : op (V.read s a.toNat) = .error k) : cmdUnary V W op d a s = .next (s.raise k) := by
  rw [cmdUnary_next V W op d a s hd ha va, h]
  rfl

theorem cmdBinary_ok (VA : View α) (VB : View β) (W : View γ) (op : α → β → Except ErrKind γ) (d a b : RegIdx) (s : State) (y : γ)
    (hd : d.toNat + W.size ≤ 256) (ha : a.toNat + VA.size ≤ 256) (hb : b.toNat + VB.size ≤ 256)
    (va : ∀ k, k < VA.size → s.valid (a.toNat + k) = true) (vb : ∀ k, k < VB.size → s.valid (b.toNat + k) = true)
    (h : op (VA.read s a.toNat) (VB.read s b.toNat) = .ok y) (hl : (W.write y).length = W.size) :
    ∃ t, cmdBinary VA VB W op d a b s = .next t ∧ WritesRegs s t d.toNat W.size ∧ t.regList d.toNat W.size = W.write y := by
  refine ⟨_, cmdBinary_next VA VB W op d a b s hd ha hb va vb, ?_⟩
  rw [h]
  exact commit_view s d _ _ hl hd

theorem cmdBinary_error (VA : View α) (VB : View β) (W : View γ) (op : α → β → Except ErrKind γ) (d a b : RegIdx) (s : State)
    (k : ErrKind) (hd : d.toNat + W.size ≤ 256) (ha : a.toNat + VA.size ≤ 256) (hb : b.toNat + VB.size ≤ 256)
    (va : ∀ k, k < VA.size → s.valid (a.toNat + k) = true) (vb : ∀ k, k < VB.size → s.valid (b.toNat + k) = true)
    (h : op (VA.read s a.toNat) (VB.read s b.toNat) = .error k) : cmdBinary VA VB W op d a b s = .next (s.raise k) := by
  rw [cmdBinary_next VA VB W op d a b s hd ha hb va vb, h]
  rfl

theorem cmdAccumulate_ok (VA : View α) (VB : View β) (W : View γ) (op : γ → α → β → Except ErrKind γ) (d a b : RegIdx) (s : State)
    (y : γ) (hd : d.toNat + W.size ≤ 256) (ha : a.toNat + VA.size ≤ 256) (hb : b.toNat + VB.size ≤ 256)
    (va : ∀ k, k < VA.size → s.valid (a.toNat + k) = true) (vb : ∀ k, k < VB.size → s.valid (b.toNat + k) = true)
    (vd : ∀ k, k < W.size → s.valid (d.toNat + k) = true)
    (h : op (W.read s d.toNat) (VA.read s a.toNat) (VB.read s b.toNat) = .ok y) (hl : (W.write y).length = W.size) :
    ∃ t, cmdAccumulate VA VB W op d a b s = .next t ∧ WritesRegs s t d.toNat W.size ∧ t.regList d.toNat W.size = W.write y := by
  refine ⟨_, cmdAccumulate_next VA VB W op d a b s hd ha hb va vb vd, ?_⟩
  rw [h]
  exact commit_view s d _ _ hl hd

theorem cmdAccumulate_error (VA : View α) (VB : View β) (W : View γ) (op : γ → α → β → Except ErrKind γ) (d a b : RegIdx) (s : State)
    (k : ErrKind) (hd : d.toNat + W.size ≤ 256) (ha : a.toNat + VA.size ≤ 256) (hb : b.toNat + VB.size ≤ 256)
    (va : ∀ k, k < VA.size → s.valid (a.toNat + k) = true) (vb : ∀ k, k < VB.size → s.valid (b.toNat + k) = true)
    (vd : ∀ k, k < W.size → s.valid (d.toNat + k) = true)
    (h : op (W.read s d.toNat) (VA.read s a.toNat) (VB.read s b.toNat) = .error k) :
    cmdAccumulate VA VB W op d a b s = .next (s.raise k) := by
  rw [cmdAccumulate_next VA VB W op d a b s hd ha hb va vb vd, h]
  rfl

theorem cmdDecode_ok (W : View β) (len : Nat) (op : Bool → List Byte → Except ErrKind β) (r : RegIdx) (off : Half) (s : State) (y : β)
    (hr : r.toNat + W.size ≤ 256) (ho : off.toNat + len ≤ Config.iobufSize)
    (h : op s.fp2ordCmd (s.iobuf.readBytes off.toNat len) = .ok y) (hl : (W.write y).length = W.size) :
    ∃ t, cmdDecode W len op r off s = .next t ∧ WritesRegs s t r.toNat W.size ∧ t.regList r.toNat W.size = W.write y := by
  refine ⟨_, cmdDecode_next W len op r off s hr ho, ?_⟩
  rw [h]
  exact commit_view s r _ _ hl hr

theorem cmdDecode_error (W : View β) (len : Nat) (op : Bool → List Byte → Except ErrKind β) (r : RegIdx) (off : Half) (s : State)
    (k : ErrKind) (hr : r.toNat + W.size ≤ 256) (ho : off.toNat + len ≤ Config.iobufSize)
    (h : op s.fp2ordCmd (s.iobuf.readBytes off.toNat len) = .error k) : cmdDecode W len op r off s = .next (s.raise k) := by
  rw [cmdDecode_next W len op r off s hr ho, h]
  rfl

theorem cmdEncode_ok (V : View α) (len : Nat) (op : Bool → α → Except ErrKind (List Byte)) (r : RegIdx) (off : Half) (s : State)
    (xs : List Byte) (hr : r.toNat + V.size ≤ 256) (ho : off.toNat + len ≤ Config.iobufSize)
    (vr : ∀ k, k < V.size → s.valid (r.toNat + k) = true) (hm : s.iobuf.wf)
    (h : op s.fp2ordCmd (V.read s r.toNat) = .ok xs) (hl : xs.length = len) :
    ∃ t, cmdEncode V len op r off s = .next t ∧ WritesBytes s t off.toNat len ∧ t.iobuf = s.iobuf.writeBytes off.toNat xs := by
  refine ⟨_, cmdEncode_next V len op r off s hr ho vr, ?_⟩
  rw [h]
  subst hl
  exact ⟨writesBytes_commit s _ _ hm ho, rfl⟩

theorem cmdEncode_error (V : View α) (len : Nat) (op : Bool → α → Except ErrKind (List Byte)) (r : RegIdx) (off : Half) (s : State)
    (k : ErrKind) (hr : r.toNat + V.size ≤ 256) (ho : off.toNat + len ≤ Config.iobufSize)
    (vr : ∀ k, k < V.size → s.valid (r.toNat + k) = true) (h : op s.fp2ordCmd (V.read s r.toNat) = .error k) :
    cmdEncode V len op r off s = .next (s.raise k) := by
  rw [cmdEncode_next V len op r off s hr ho vr, h]
  rfl

/-! ### The conditions of a ready command, one by one -/

theorem ready_iff (i : Instr) (s : State) :
    Ready i s ↔ (∀ w ∈ windowsOf i, w.inRange = true) ∧
      ∀ w ∈ sourcesOf i, ∀ k : Nat, k < w.2 → s.valid (w.1 + k) = true := Iff.rfl

/-- A valid register is canonical, in an invariant state. -/
theorem canonical_of_written {s : State} (h : s.Inv) {b n : Nat} (hv : ∀ k, k < n → s.valid (b + k) = true) : CanonicalRegs s b n :=
  fun k hk => h.canonical _ (hv k hk)

end Sys2Proof.Machine
end

