-- ==== Sys2Proof/Laws/Runs.lean ====
section
/-! SUPPORT. Launch states and the end of a run: a hard reset leaves a launch state, the program's set-up keeps it one, and everything the end of a run says. -/

namespace Sys2Proof.Machine

set_option Elab.async false

/-! ### Launch -/

/-- What a hard reset leaves is a launch state, whatever IOBUF holds (70_reset_and_hazards.md R391, R413). -/
theorem launch_hardReset (s : State) (draw : List Byte) : (s.hardReset draw).Launch where
  busy := rfl
  errf := rfl
  ovr := rfl
  done := rfl
  valid := fun i => by
    rcases Nat.lt_or_ge i 256 with h | h <;> simp [State.valid, State.hardReset, State.resetWith, Vector.getD, Array.getD, h]
  flag := rfl
  errcode := rfl
  errcmd := rfl
  cur := rfl
  iobuf_wf := Memory.wf_ofDraw draw

/-- Setting FP2ORD and IE keeps a launch state (70_reset_and_hazards.md R394, R413). -/
theorem launch_writeCtrl {s : State} (h : s.Launch) (x : Word) (hx : x.getLsbD 0 = false) : (s.writeCtrl x).Launch := by
  rw [State.writeCtrl, if_neg (by rw [hx]; decide)]
  exact { h with }

/-- Writing IOBUF, and reading anything, keeps a launch state (70_reset_and_hazards.md R394, R413). -/
theorem launch_iobuf {s : State} (h : s.Launch) (m : Memory) (hm : m.wf) (x : Option Word) : { s with iobuf := m, rdata := x }.Launch :=
  { h with iobuf_wf := hm }

/-- A launch state satisfies the invariant. -/
theorem Launch.inv {s : State} (h : s.Launch) : s.Inv where
  canonical := fun i hi => absurd ((h.valid i).symm.trans hi) (by decide)
  iobuf_wf := h.iobuf_wf
  cur_busy := by rw [h.busy, h.cur]; rfl
  done_errf := fun hd => absurd (h.done.symm.trans hd.1) (by decide)
  busy_idle := fun hb => absurd (h.busy.symm.trans hb) (by decide)
  busy_ord := fun hb => absurd (h.busy.symm.trans hb) (by decide)
  clear_record := fun _ => ⟨h.errcode, h.errcmd⟩
  legal_record := fun he => absurd (h.errf.symm.trans he) (by decide)

/-- In a launch state STATUS and ERRCODE read 0 (95_test_vectors.md P3d). -/
theorem Launch.status {s : State} (h : s.Launch) : s.readRegister 0x08 = 0 ∧ s.readRegister 0x0C = 0 ∧ s.readRegister 0x10 = 0 := by
  refine ⟨?_, ?_, h.errcmd⟩
  · simp [State.readRegister, State.statusWord, bitAt, h.busy, h.done, h.errf, h.flag, h.ovr]
  · simp [State.readRegister, h.errcode]

/-! ### The end of a run -/

/-- BUSY is bit 0 of STATUS (10_state.md R38). -/
theorem State.statusWord_busy (s : State) : s.statusWord.getLsbD 0 = s.busy := by
  unfold State.statusWord
  generalize s.busy = b0
  generalize s.done = b1
  generalize s.errf = b2
  generalize s.flag = b3
  generalize s.ovr = b4
  revert b0 b1 b2 b3 b4
  decide

/-- A read of STATUS leaves the block as it was and returns BUSY in bit 0. -/
theorem readsStatus_step {x : Turn} (hx : x.readsStatus = true) {s t : State} {rest : List Turn}
    (h : step { s with agenda := x :: rest } = .next t) : t = { s with agenda := rest, rdata := some s.statusWord } := by
  cases x with
  | engine => exact absurd hx (by decide)
  | host a =>
    cases a with
    | hardReset draw => exact absurd hx (by simp [Turn.readsStatus])
    | write w off y => exact absurd hx (by simp [Turn.readsStatus])
    | read w off =>
      cases w with
      | w8 => exact absurd hx (by simp [Turn.readsStatus])
      | w16 => exact absurd hx (by simp [Turn.readsStatus])
      | w64 => exact absurd hx (by simp [Turn.readsStatus])
      | w32 =>
        obtain rfl : off = 0x008 := by simpa [Turn.readsStatus] using hx
        exact (Host.Outcome.next.inj h).symm

/-- Everything the end of a run says: it is right after a read of STATUS by the program, no CMD write follows, no reset came before, the engine
is idle, and the data read is STATUS (70_reset_and_hazards.md R412). -/
theorem runEnd_some {ts : List Turn} {s t : State} (h : runEnd ts s = some t) :
    ∃ (before after : List Turn) (x : Turn), ts = before ++ x :: after ∧ x.readsStatus = true ∧
      (∀ y ∈ after, y.writesCmd = false) ∧ (∀ y ∈ before, y.resets = false) ∧
      t.busy = false ∧ t.rdata = some t.statusWord ∧ t.agenda = after := by
  induction ts generalizing s with
  | nil => exact absurd h (by simp [runEnd])
  | cons x rest ih =>
    rw [runEnd] at h
    split at h
    · rename_i t' hstep
      split at h
      · exact absurd h (by simp)
      · rename_i hres
        split at h
        · rename_i hend
          simp only [Bool.and_eq_true, Bool.not_eq_true', List.any_eq_false] at hend
          obtain ⟨⟨hx, hcmd⟩, hidle⟩ := hend
          obtain rfl := Option.some.inj h
          have ht := readsStatus_step hx hstep
          refine ⟨[], rest, x, rfl, hx, fun y hy => by simpa using hcmd y hy, by simp, ?_, ?_, by rw [ht]⟩
          · rw [ht] at hidle ⊢
            simp only [State.readIdle, State.statusWord_busy, Bool.not_eq_true'] at hidle
            exact hidle
          · rw [ht]
            rfl
        · obtain ⟨before, after, z, rfl, h1, h2, h3, h4⟩ := ih h
          refine ⟨x :: before, after, z, rfl, h1, h2, fun y hy => ?_, h4⟩
          rcases List.mem_cons.1 hy with rfl | hy
          · simpa using hres
          · exact h3 y hy
    · exact absurd h (by simp)
    · exact absurd h (by simp)

end Sys2Proof.Machine
end

