-- ==== Sys2Proof/Machine/Assembler.lean ====
section
/-! DEFINITION. The assembler text of a command and the pseudo-instructions (30_encoding.md R122, R124). -/

namespace Sys2Proof.Machine

/-- `f` and the decimal index (30_encoding.md R122). -/
def regText (r : RegIdx) : String := "f" ++ toString r.toNat

/-- A mnemonic and its operands, separated by commas (30_encoding.md R122). -/
def asmText (mnemonic : String) (operands : List String) : String :=
  match operands with
  | [] => mnemonic
  | _ => mnemonic ++ " " ++ String.intercalate ", " operands

/-- `[off]` (30_encoding.md R122), in decimal (log 16). -/
def offText (off : Half) : String := "[" ++ toString off.toNat ++ "]"

/-- The text of a command: operands in the field order D, A, B, fields of kind "0" omitted (30_encoding.md R122). -/
def asm : Instr → String
  | .nop => asmText "NOP" []
  | .mov d a n => asmText "MOV" [regText d, regText a, toString n.toNat]
  | .ldi d imm => asmText "LDI" [regText d, toString imm.toNat]
  | .fpAdd d a b => asmText "FP_ADD" [regText d, regText a, regText b]
  | .fpSub d a b => asmText "FP_SUB" [regText d, regText a, regText b]
  | .fpNeg d a => asmText "FP_NEG" [regText d, regText a]
  | .fpMul d a b => asmText "FP_MUL" [regText d, regText a, regText b]
  | .fpSqr d a => asmText "FP_SQR" [regText d, regText a]
  | .fpInv d a => asmText "FP_INV" [regText d, regText a]
  | .fpEq a b => asmText "FP_EQ" [regText a, regText b]
  | .f2Add d a b => asmText "F2_ADD" [regText d, regText a, regText b]
  | .f2Sub d a b => asmText "F2_SUB" [regText d, regText a, regText b]
  | .f2Neg d a => asmText "F2_NEG" [regText d, regText a]
  | .f2Mul d a b => asmText "F2_MUL" [regText d, regText a, regText b]
  | .f2Sqr d a => asmText "F2_SQR" [regText d, regText a]
  | .f2Inv d a => asmText "F2_INV" [regText d, regText a]
  | .f2Conj d a => asmText "F2_CONJ" [regText d, regText a]
  | .f2Eq a b => asmText "F2_EQ" [regText a, regText b]
  | .f6Add d a b => asmText "F6_ADD" [regText d, regText a, regText b]
  | .f6Sub d a b => asmText "F6_SUB" [regText d, regText a, regText b]
  | .f6Neg d a => asmText "F6_NEG" [regText d, regText a]
  | .f6Mul d a b => asmText "F6_MUL" [regText d, regText a, regText b]
  | .f6Sqr d a => asmText "F6_SQR" [regText d, regText a]
  | .f6Inv d a => asmText "F6_INV" [regText d, regText a]
  | .f6Eq a b => asmText "F6_EQ" [regText a, regText b]
  | .f12Add d a b => asmText "F12_ADD" [regText d, regText a, regText b]
  | .f12Sub d a b => asmText "F12_SUB" [regText d, regText a, regText b]
  | .f12Neg d a => asmText "F12_NEG" [regText d, regText a]
  | .f12Mul d a b => asmText "F12_MUL" [regText d, regText a, regText b]
  | .f12Sqr d a => asmText "F12_SQR" [regText d, regText a]
  | .f12Inv d a => asmText "F12_INV" [regText d, regText a]
  | .f12Conj d a => asmText "F12_CONJ" [regText d, regText a]
  | .f12Eq a b => asmText "F12_EQ" [regText a, regText b]
  | .f12Frob d a k => asmText "F12_FROB" [regText d, regText a, toString k.toNat]
  | .f12Spmul d a b => asmText "F12_SPMUL" [regText d, regText a, regText b]
  | .f12One d => asmText "F12_ONE" [regText d]
  | .f12Isone a => asmText "F12_ISONE" [regText a]
  | .g1Add d a b => asmText "G1_ADD" [regText d, regText a, regText b]
  | .g1Dbl d a => asmText "G1_DBL" [regText d, regText a]
  | .g1Neg d a => asmText "G1_NEG" [regText d, regText a]
  | .g1Mul d a b => asmText "G1_MUL" [regText d, regText a, regText b]
  | .g1Eq a b => asmText "G1_EQ" [regText a, regText b]
  | .g1Isinf a => asmText "G1_ISINF" [regText a]
  | .g1Oncrv a => asmText "G1_ONCRV" [regText a]
  | .g1Insub a => asmText "G1_INSUB" [regText a]
  | .g1Tojac d a => asmText "G1_TOJAC" [regText d, regText a]
  | .g1Toaff d a => asmText "G1_TOAFF" [regText d, regText a]
  | .g2Add d a b => asmText "G2_ADD" [regText d, regText a, regText b]
  | .g2Dbl d a => asmText "G2_DBL" [regText d, regText a]
  | .g2Neg d a => asmText "G2_NEG" [regText d, regText a]
  | .g2Mul d a b => asmText "G2_MUL" [regText d, regText a, regText b]
  | .g2Eq a b => asmText "G2_EQ" [regText a, regText b]
  | .g2Isinf a => asmText "G2_ISINF" [regText a]
  | .g2Oncrv a => asmText "G2_ONCRV" [regText a]
  | .g2Insub a => asmText "G2_INSUB" [regText a]
  | .g2Tojac d a => asmText "G2_TOJAC" [regText d, regText a]
  | .g2Toaff d a => asmText "G2_TOAFF" [regText d, regText a]
  | .miller d a b => asmText "MILLER" [regText d, regText a, regText b]
  | .mlacc d a b => asmText "MLACC" [regText d, regText a, regText b]
  | .fexp d a => asmText "FEXP" [regText d, regText a]
  | .fpDec r off => asmText "FP_DEC" [regText r, offText off]
  | .fpEnc r off => asmText "FP_ENC" [regText r, offText off]
  | .scDec r off => asmText "SC_DEC" [regText r, offText off]
  | .f2Dec r off => asmText "F2_DEC" [regText r, offText off]
  | .f2Enc r off => asmText "F2_ENC" [regText r, offText off]
  | .g1Decu r off => asmText "G1_DECU" [regText r, offText off]
  | .g1Encu r off => asmText "G1_ENCU" [regText r, offText off]
  | .g1Decc r off => asmText "G1_DECC" [regText r, offText off]
  | .g1Encc r off => asmText "G1_ENCC" [regText r, offText off]
  | .g2Decu r off => asmText "G2_DECU" [regText r, offText off]
  | .g2Encu r off => asmText "G2_ENCU" [regText r, offText off]
  | .g2Decc r off => asmText "G2_DECC" [regText r, offText off]
  | .g2Encc r off => asmText "G2_ENCC" [regText r, offText off]

/-- The pseudo-instructions of 30_encoding.md R124. -/
inductive Pseudo where
  | fpMov (d a : RegIdx)
  | f2Mov (d a : RegIdx)
  | f6Mov (d a : RegIdx)
  | f12Mov (d a : RegIdx)
  | g1Mov (d a : RegIdx)
  | g2Mov (d a : RegIdx)
  | fpZero (d : RegIdx)
  | fpOne (d : RegIdx)
  | fpDbl (d a : RegIdx)
  | g1Inf (d : RegIdx)
  | g2Inf (d : RegIdx)
  | f12Powp (d a : RegIdx)
  | pair (d a b : RegIdx)
deriving DecidableEq, Repr

/-- "each expanding to the commands shown and to nothing else" (30_encoding.md R124). -/
def Pseudo.expand : Pseudo → List Instr
  | .fpMov d a => [.mov d a 1]
  | .f2Mov d a => [.mov d a 2]
  | .f6Mov d a => [.mov d a 6]
  | .f12Mov d a => [.mov d a 12]
  | .g1Mov d a => [.mov d a 2]
  | .g2Mov d a => [.mov d a 4]
  | .fpZero d => [.ldi d 0]
  | .fpOne d => [.ldi d 1]
  | .fpDbl d a => [.fpAdd d a a]
  | .g1Inf d => [.ldi d 0, .ldi (d + 1) 0]
  | .g2Inf d => [.ldi d 0, .ldi (d + 1) 0, .ldi (d + 2) 0, .ldi (d + 3) 0]
  | .f12Powp d a => [.f12Frob d a 1]
  | .pair d a b => [.miller d a b, .fexp d d]

end Sys2Proof.Machine
end

