-- ==== Sys2Proof/Machine/HostSoftware.lean ====
section
/-! DEFINITION. The host software the spec makes normative: the wire structures, their length checks, issuing a command, the verification sequence (20_memory.md R90 to R95, 44_pairing.md R290, 60_exceptions.md R353). -/

namespace Sys2Proof.Machine

/-- POINT_FORMAT of a deployment (20_memory.md R90). -/
inductive PointFormat where
  | uncompressed
  | compressed
deriving DecidableEq, Repr

/-- Bytes of a G1 point (20_memory.md R90). -/
def PointFormat.g1len : PointFormat → Nat
  | .uncompressed => 64
  | .compressed => 32

/-- Bytes of a G2 point (20_memory.md R90). -/
def PointFormat.g2len : PointFormat → Nat
  | .uncompressed => 128
  | .compressed => 64

/-- Verification key: alpha at 0 (20_memory.md R91). -/
def vkAlpha (_ : PointFormat) : Nat := 0
def vkBeta (fmt : PointFormat) : Nat := fmt.g1len
def vkGamma (fmt : PointFormat) : Nat := fmt.g1len + fmt.g2len
def vkDelta (fmt : PointFormat) : Nat := fmt.g1len + 2 * fmt.g2len
def vkCount (fmt : PointFormat) : Nat := fmt.g1len + 3 * fmt.g2len
def vkIc (fmt : PointFormat) (i : Nat) : Nat := fmt.g1len + 3 * fmt.g2len + 4 + i * fmt.g1len

/-- Length of a key with `n` ic entries (20_memory.md R91). -/
def vkLength (fmt : PointFormat) (n : Nat) : Nat := fmt.g1len + 3 * fmt.g2len + 4 + n * fmt.g1len

/-- Proof: A at 0, B at g1len, C at g1len + g2len (20_memory.md R92). -/
def proofA (_ : PointFormat) : Nat := 0
def proofB (fmt : PointFormat) : Nat := fmt.g1len
def proofC (fmt : PointFormat) : Nat := fmt.g1len + fmt.g2len
def proofLength (fmt : PointFormat) : Nat := 2 * fmt.g1len + fmt.g2len

/-- Public input i is at 32*i (20_memory.md R93). -/
def inputAt (i : Nat) : Nat := 32 * i

/-- ic_count, a 4-byte big-endian integer of the key (20_memory.md R94). -/
def icCount (fmt : PointFormat) (vk : List Byte) : Nat := beNat ((vk.drop (vkCount fmt)).take 4)

/-- The errors host software raises itself (20_memory.md R95, 60_exceptions.md R353). -/
inductive HostError where
  | malformedEncoding
  | inputLengthMismatch
deriving DecidableEq, Repr

/-- Their codes in the numbering of 60_exceptions.md R351; the block never writes 0x04 (R353). -/
def HostError.code : HostError → BitVec 8
  | .malformedEncoding => 0x01
  | .inputLengthMismatch => 0x04

/-- The host's length checks before decoding; the number of public inputs when they pass (20_memory.md R95). A key too short to hold
ic_count has no admissible length, and one with ic_count = 0 matches no input string (log 15). -/
def checkLengths (fmt : PointFormat) (vk proof inputs : List Byte) : Except HostError Nat :=
  if vk.length < vkLength fmt 0 then .error .malformedEncoding
  else if vk.length ≠ vkLength fmt (icCount fmt vk) then .error .malformedEncoding
  else if proof.length ≠ proofLength fmt then .error .malformedEncoding
  else if inputs.length % 32 ≠ 0 then .error .malformedEncoding
  else if inputs.length / 32 + 1 ≠ icCount fmt vk then .error .inputLengthMismatch
  else .ok (inputs.length / 32)

/-- The decoder of a G1 or G2 point of a structure, by its format (20_memory.md R90). -/
def decodeG1Cmd (fmt : PointFormat) (r : RegIdx) (off : Half) : Instr :=
  match fmt with
  | .uncompressed => .g1Decu r off
  | .compressed => .g1Decc r off

def decodeG2Cmd (fmt : PointFormat) (r : RegIdx) (off : Half) : Instr :=
  match fmt with
  | .uncompressed => .g2Decu r off
  | .compressed => .g2Decc r off

/-- The command sequence of the verification equation (44_pairing.md R290): four Miller loops, one final exponentiation, the comparison with
1. `acc` and `t` are the accumulator and the temporary. -/
def verifySequence (acc t A B alpha beta vkx gamma C delta : RegIdx) : List Instr :=
  [.miller acc A B,
   .g1Neg t alpha, .mlacc acc t beta,
   .g1Neg t vkx, .mlacc acc t gamma,
   .g1Neg t C, .mlacc acc t delta,
   .fexp acc acc, .f12Isone acc]

/-- The turns of issuing one command word and polling once: the CMD write, the completion, a read of STATUS (70_reset_and_hazards.md R406,
95_test_vectors.md procedure ISSUE). -/
def issue (w : Word) : List Turn :=
  [.host (.write .w32 0x014 w), .engine, .host (.read .w32 0x008)]

/-- The turns of writing one byte of IOBUF. -/
def storeByte (a : BitVec 13) (x : Byte) : Turn := .host (.write .w8 (0x1000 + a) (x.setWidth 32))

end Sys2Proof.Machine
end

