-- ==== Sys2Proof/Tests/Slice0.lean ====
section
/-! SUPPORT. The model's own tests: ill-formed terms are refused, words written out from 30_encoding.md decode to what they stand for, single steps of
the vectors of 95_test_vectors.md, and a witness for the hypotheses of every statement. -/

namespace Sys2Proof.Tests

set_option Elab.async false

open Sys2Proof Sys2Proof.Machine

/-! ### Ill-formed terms (30_encoding.md R118) -/

theorem test_mov_count_zero_is_ill_formed : (Instr.mov 1 0 0).wellFormed = false := by decide

theorem test_mov_count_one_is_well_formed : (Instr.mov 1 0 1).wellFormed = true ∧ (Instr.mov 1 0 255).wellFormed = true := by decide

theorem test_mov_count_zero_is_refused : decode 0x00000101 = .error .movCountZero := by decide

theorem test_unused_field_is_refused :
    decode 0x00000100 = .error .fieldNotZero ∧ decode 0x01000112 = .error .fieldNotZero ∧
    decode 0x01000116 = .error .fieldNotZero ∧ decode 0x00010C4A = .error .fieldNotZero := by decide

theorem test_undefined_opcode_is_refused :
    decode 0x00000003 = .error .undefinedOpcode ∧ decode 0x00000037 = .error .undefinedOpcode ∧
    decode 0x000000FF = .error .undefinedOpcode := by decide

/-! ### Decoding: each word is written out from the field positions of 30_encoding.md R111 to R113 and the opcode of R116: D = 0x12 in bits 15:8,
A = 0x34 in bits 23:16, B = 0x56 in bits 31:24, a half word 0x5634 in bits 31:16; a field of kind "0" is 0 -/

theorem test_decode_control :
    decode 0x00000000 = .ok .nop ∧
    decode 0x56341201 = .ok (.mov 0x12 0x34 0x56) ∧
    decode 0x56341202 = .ok (.ldi 0x12 0x5634) := by decide

theorem test_decode_fp :
    decode 0x56341210 = .ok (.fpAdd 0x12 0x34 0x56) ∧
    decode 0x56341211 = .ok (.fpSub 0x12 0x34 0x56) ∧
    decode 0x00341212 = .ok (.fpNeg 0x12 0x34) ∧
    decode 0x56341213 = .ok (.fpMul 0x12 0x34 0x56) ∧
    decode 0x00341214 = .ok (.fpSqr 0x12 0x34) ∧
    decode 0x00341215 = .ok (.fpInv 0x12 0x34) ∧
    decode 0x56340016 = .ok (.fpEq 0x34 0x56) := by decide

theorem test_decode_f2 :
    decode 0x56341220 = .ok (.f2Add 0x12 0x34 0x56) ∧
    decode 0x56341221 = .ok (.f2Sub 0x12 0x34 0x56) ∧
    decode 0x00341222 = .ok (.f2Neg 0x12 0x34) ∧
    decode 0x56341223 = .ok (.f2Mul 0x12 0x34 0x56) ∧
    decode 0x00341224 = .ok (.f2Sqr 0x12 0x34) ∧
    decode 0x00341225 = .ok (.f2Inv 0x12 0x34) ∧
    decode 0x00341226 = .ok (.f2Conj 0x12 0x34) ∧
    decode 0x56340027 = .ok (.f2Eq 0x34 0x56) := by decide

theorem test_decode_f6 :
    decode 0x56341230 = .ok (.f6Add 0x12 0x34 0x56) ∧
    decode 0x56341231 = .ok (.f6Sub 0x12 0x34 0x56) ∧
    decode 0x00341232 = .ok (.f6Neg 0x12 0x34) ∧
    decode 0x56341233 = .ok (.f6Mul 0x12 0x34 0x56) ∧
    decode 0x00341234 = .ok (.f6Sqr 0x12 0x34) ∧
    decode 0x00341235 = .ok (.f6Inv 0x12 0x34) ∧
    decode 0x56340036 = .ok (.f6Eq 0x34 0x56) := by decide

theorem test_decode_f12 :
    decode 0x56341240 = .ok (.f12Add 0x12 0x34 0x56) ∧
    decode 0x56341241 = .ok (.f12Sub 0x12 0x34 0x56) ∧
    decode 0x00341242 = .ok (.f12Neg 0x12 0x34) ∧
    decode 0x56341243 = .ok (.f12Mul 0x12 0x34 0x56) ∧
    decode 0x00341244 = .ok (.f12Sqr 0x12 0x34) ∧
    decode 0x00341245 = .ok (.f12Inv 0x12 0x34) ∧
    decode 0x00341246 = .ok (.f12Conj 0x12 0x34) ∧
    decode 0x56340047 = .ok (.f12Eq 0x34 0x56) ∧
    decode 0x56341248 = .ok (.f12Frob 0x12 0x34 0x56) ∧
    decode 0x56341249 = .ok (.f12Spmul 0x12 0x34 0x56) ∧
    decode 0x0000124A = .ok (.f12One 0x12) ∧
    decode 0x0034004B = .ok (.f12Isone 0x34) := by decide

theorem test_decode_g1 :
    decode 0x56341250 = .ok (.g1Add 0x12 0x34 0x56) ∧
    decode 0x00341251 = .ok (.g1Dbl 0x12 0x34) ∧
    decode 0x00341252 = .ok (.g1Neg 0x12 0x34) ∧
    decode 0x56341253 = .ok (.g1Mul 0x12 0x34 0x56) ∧
    decode 0x56340054 = .ok (.g1Eq 0x34 0x56) ∧
    decode 0x00340055 = .ok (.g1Isinf 0x34) ∧
    decode 0x00340056 = .ok (.g1Oncrv 0x34) ∧
    decode 0x00340057 = .ok (.g1Insub 0x34) ∧
    decode 0x00341258 = .ok (.g1Tojac 0x12 0x34) ∧
    decode 0x00341259 = .ok (.g1Toaff 0x12 0x34) := by decide

theorem test_decode_g2 :
    decode 0x56341260 = .ok (.g2Add 0x12 0x34 0x56) ∧
    decode 0x00341261 = .ok (.g2Dbl 0x12 0x34) ∧
    decode 0x00341262 = .ok (.g2Neg 0x12 0x34) ∧
    decode 0x56341263 = .ok (.g2Mul 0x12 0x34 0x56) ∧
    decode 0x56340064 = .ok (.g2Eq 0x34 0x56) ∧
    decode 0x00340065 = .ok (.g2Isinf 0x34) ∧
    decode 0x00340066 = .ok (.g2Oncrv 0x34) ∧
    decode 0x00340067 = .ok (.g2Insub 0x34) ∧
    decode 0x00341268 = .ok (.g2Tojac 0x12 0x34) ∧
    decode 0x00341269 = .ok (.g2Toaff 0x12 0x34) := by decide

theorem test_decode_pairing :
    decode 0x56341270 = .ok (.miller 0x12 0x34 0x56) ∧
    decode 0x56341271 = .ok (.mlacc 0x12 0x34 0x56) ∧
    decode 0x00341272 = .ok (.fexp 0x12 0x34) := by decide

theorem test_decode_codec :
    decode 0x56341280 = .ok (.fpDec 0x12 0x5634) ∧
    decode 0x56341281 = .ok (.fpEnc 0x12 0x5634) ∧
    decode 0x56341282 = .ok (.scDec 0x12 0x5634) ∧
    decode 0x56341283 = .ok (.f2Dec 0x12 0x5634) ∧
    decode 0x56341284 = .ok (.f2Enc 0x12 0x5634) ∧
    decode 0x56341285 = .ok (.g1Decu 0x12 0x5634) ∧
    decode 0x56341286 = .ok (.g1Encu 0x12 0x5634) ∧
    decode 0x56341287 = .ok (.g1Decc 0x12 0x5634) ∧
    decode 0x56341288 = .ok (.g1Encc 0x12 0x5634) ∧
    decode 0x56341289 = .ok (.g2Decu 0x12 0x5634) ∧
    decode 0x5634128A = .ok (.g2Encu 0x12 0x5634) ∧
    decode 0x5634128B = .ok (.g2Decc 0x12 0x5634) ∧
    decode 0x5634128C = .ok (.g2Encc 0x12 0x5634) := by decide

/-! ### The host's two entry points -/

theorem test_decodeTableWord :
    decodeTableWord 32 0x02010313 = some (.fpMul 3 1 2) ∧ decodeTableWord 32 0x00000001 = none ∧
    decodeTableWord 32 0 = some .nop := by decide

/-- The first step after reset runs the placed word: an LDI writes its immediate (95_test_vectors.md T8). -/
theorem test_withFetchWord :
    (match step (State.reset.withFetchWord 32 0x12340502) with
      | .next t => decide (t.fp 5 = 0x1234) && t.valid 5 && t.done
      | _ => false) = true := by decide +kernel

/-! ### Single steps: the vectors of 95_test_vectors.md, by their numbers. The start registers, the word and the result are the file's -/

/-- The state after the command word `w` has completed on `s`. -/
def run (w : Nat) (s : State) : State :=
  match step (s.withFetchWord 32 w) with
  | .next t => t
  | _ => s

/-- A reset block with registers written from `b` on. -/
def load (b : Nat) (xs : List Nat) : State := State.reset.setRegs b (xs.map elemOf)

/-- A reset block with bytes in IOBUF: the 32-byte integers `xs` from byte `off` on. -/
def wire (off : Nat) (xs : List Nat) : State :=
  { State.reset with iobuf := State.reset.iobuf.writeBytes off (xs.flatMap be32) }

/-- p, short. -/
abbrev p : Nat := Config.p

def g1x2 : List Nat := [1368015179489954701390400359078579693043519447331113978918064868415326638035, 9918110051302171585080402603319702774565515993150576347155970296011118125764]
def g1x3 : List Nat := [3353031288059533942658390886683067124040920775575537747144343083137631628272, 19321533766552368860946552437480515441416830039777911637913418824951667761761]
def g2gen : List Nat := [10857046999023057135944570762232829481370756359578518086990519993285655852781, 11559732032986387107991004021392285783925812861821192530917403151452391805634, 8495653923123431417604973247489272438418190587263600148770280649306958101930, 4082367875863433681332203403145435568316851327593401208105741076214120093531]
def g2x2 : List Nat := [18029695676650738226693292988307914797657423701064905010927197838374790804409, 14583779054894525174450323658765874724019480979794335525732096752006891875705, 2140229616977736810657479771656733941598412651537078903776637920509952744750, 11474861747383700316476719153975578001603231366361248090558603872215261634898]
def ns : List Nat := [1, 0, 18278151005453108793778860132295291098363647455926340152056652516292830556603, 5912654199736721486680175016176231956195085055698687135131307249486702594212]

/-- T1, T2. -/
theorem test_nop :
    (run 0x00000000 State.reset).done = true ∧
    (run 0x00000100 State.reset).errcode = 8 := by decide +kernel

/-- T4, T6. -/
theorem test_mov :
    (run 0x03000101 (load 0 [1, 2, 3])).regList 1 3 = [1, 2, 3].map elemOf ∧
    (run 0x0A00FA01 (load 0 [1, 2, 3, 4, 5, 6, 7, 8, 9, 10])).errcode = 9 := by decide +kernel

/-- T9. -/
theorem test_ldi :
    (run 0xFFFFFF02 State.reset).fp 255 = 65535 := by decide +kernel

/-- T13. -/
theorem test_fpAdd :
    (run 0x01000210 (load 0 [p - 1, 5])).fp 2 = 4 := by decide +kernel

/-- T14. -/
theorem test_fpSub :
    (run 0x01000211 (load 0 [3, 5])).fp 2 = p - 2 := by decide +kernel

/-- T15, T16. -/
theorem test_fpNeg :
    (run 0x00000112 (load 0 [0])).fp 1 = 0 ∧
    (run 0x00000112 (load 0 [1])).fp 1 = p - 1 := by decide +kernel

/-- T18. -/
theorem test_fpMul :
    (run 0x01000213 (load 0 [2 ^ 128, 2 ^ 128])).fp 2 = 0xe0a77c19a07df2f666ea36f7879462c0a78eb28f5c70b3dd35d438dc58f0d9d := by decide +kernel

/-- T19. -/
theorem test_fpSqr :
    (run 0x00000114 (load 0 [p - 2])).fp 1 = 4 := by decide +kernel

/-- T20, T22. -/
theorem test_fpInv :
    (run 0x00000115 (load 0 [2])).fp 1 = 0x183227397098d014dc2822db40c0ac2ecbc0b548b438e5469e10460b6c3e7ea4 ∧
    (run 0x00000115 (load 0 [0])).errcode = 5 := by decide +kernel

/-- T24, T25. -/
theorem test_fpEq :
    (run 0x01000016 (load 0 [7, 7])).flag = true ∧
    (run 0x01000016 (load 0 [7, 8])).flag = false := by decide +kernel

/-- T29. -/
theorem test_f2Add :
    (run 0x02000420 (load 0 [p - 1, 2, 1, p - 1])).regList 4 2 = [0, 1].map elemOf := by decide +kernel

/-- T30. -/
theorem test_f2Sub :
    (run 0x02000421 (load 0 [1, 2, 3, 4])).regList 4 2 = [p - 2, p - 2].map elemOf := by decide +kernel

/-- T31. -/
theorem test_f2Neg :
    (run 0x00000222 (load 0 [0, 5])).regList 2 2 = [0, p - 5].map elemOf := by decide +kernel

/-- T32. -/
theorem test_f2Mul :
    (run 0x02000423 (load 0 [1, 2, 3, 4])).regList 4 2 = [p - 5, 10].map elemOf := by decide +kernel

/-- T34. -/
theorem test_f2Sqr :
    (run 0x00000224 (load 0 [1, 1])).regList 2 2 = [0, 2].map elemOf := by decide +kernel

/-- T36, T37. -/
theorem test_f2Inv :
    (run 0x00000225 (load 0 [1, 1])).regList 2 2 = [0x183227397098d014dc2822db40c0ac2ecbc0b548b438e5469e10460b6c3e7ea4, 0x183227397098d014dc2822db40c0ac2ecbc0b548b438e5469e10460b6c3e7ea3].map elemOf ∧
    (run 0x00000225 (load 0 [0, 0])).errcode = 5 := by decide +kernel

/-- T38. -/
theorem test_f2Conj :
    (run 0x00000226 (load 0 [3, 4])).regList 2 2 = [3, p - 4].map elemOf := by decide +kernel

/-- T40, T41. -/
theorem test_f2Eq :
    (run 0x02000027 (load 0 [3, 4, 3, 5])).flag = false ∧
    (run 0x02000027 (load 0 [3, 4, 3, 4])).flag = true := by decide +kernel

/-- T44. -/
theorem test_f6Add :
    (run 0x06000C30 (load 0 [1, 2, 3, 4, 5, 6, p - 1, p - 1, p - 1, p - 1, p - 1, p - 1])).regList 12 6 = [0, 1, 2, 3, 4, 5].map elemOf := by decide +kernel

/-- T45. -/
theorem test_f6Sub :
    (run 0x06000C31 (load 0 [0, 0, 1, 0, 0, 0, 0, 0, 0, 0, 1, 0])).regList 12 6 = [0, 0, 1, 0, p - 1, 0].map elemOf := by decide +kernel

/-- T46. -/
theorem test_f6Neg :
    (run 0x00000632 (load 0 [1, 2, 3, 4, 5, 6])).regList 6 6 = [p - 1, p - 2, p - 3, p - 4, p - 5, p - 6].map elemOf := by decide +kernel

/-- T49. -/
theorem test_f6Mul :
    (run 0x06000C33 (load 0 [1, 2, 3, 4, 5, 6, 7, 8, 9, 10, 11, 12])).regList 12 6 = [p - 463, 1648, p - 301, 1197, p - 39, 182].map elemOf := by decide +kernel

/-- T50. -/
theorem test_f6Sqr :
    (run 0x00000634 (load 0 [0, 0, 0, 0, 1, 0])).regList 6 6 = [0, 0, 9, 1, 0, 0].map elemOf := by decide +kernel

/-- T51, T53. -/
theorem test_f6Inv :
    (run 0x00000635 (load 0 [0, 0, 1, 0, 0, 0])).regList 6 6 = [0, 0, 0, 0, 0x2e9f1362305ea3ab50ca36acb4f65e7fa1928902b8ea81948e3855034733bbd1, 0x20753adca9c6bfb81499be5e509e8f8ff21b7c8d3cb039cf1ef69c66bce9b020].map elemOf ∧
    (run 0x00000635 (load 0 [0, 0, 0, 0, 0, 0])).errcode = 5 := by decide +kernel

/-- T54, T55. -/
theorem test_f6Eq :
    (run 0x06000036 (load 0 [0, 0, 1, 0, 0, 0, 0, 0, 1, 0, 0, 0])).flag = true ∧
    (run 0x06000036 (load 0 [0, 0, 1, 0, 0, 0, 0, 0, 0, 0, 1, 0])).flag = false := by decide +kernel

/-- T57. -/
theorem test_f12Add :
    (run 0x0C001840 (load 0 [1, 2, 3, 4, 5, 6, 7, 8, 9, 10, 11, 12, 1, 2, 3, 4, 5, 6, 7, 8, 9, 10, 11, 12])).regList 24 12 = [2, 4, 6, 8, 10, 12, 14, 16, 18, 20, 22, 24].map elemOf := by decide +kernel

/-- T58. -/
theorem test_f12Sub :
    (run 0x0C001841 (load 0 [1, 2, 3, 4, 5, 6, 7, 8, 9, 10, 11, 12, 1, 2, 3, 4, 5, 6, 7, 8, 9, 10, 11, 12])).regList 24 12 = [0, 0, 0, 0, 0, 0, 0, 0, 0, 0, 0, 0].map elemOf := by decide +kernel

/-- T59. -/
theorem test_f12Neg :
    (run 0x00000C42 (load 0 [0, 0, 0, 0, 0, 0, 1, 0, 0, 0, 0, 0])).regList 12 12 = [0, 0, 0, 0, 0, 0, p - 1, 0, 0, 0, 0, 0].map elemOf := by decide +kernel

/-- T60. -/
theorem test_f12Mul :
    (run 0x0C001843 (load 0 [0, 0, 0, 0, 0, 0, 1, 0, 0, 0, 0, 0, 0, 0, 0, 0, 0, 0, 1, 0, 0, 0, 0, 0])).regList 24 12 = [0, 0, 1, 0, 0, 0, 0, 0, 0, 0, 0, 0].map elemOf := by decide +kernel

/-- T61. -/
theorem test_f12Sqr :
    (run 0x00000C44 (load 0 [0, 0, 0, 0, 0, 0, 0, 0, 1, 0, 0, 0])).regList 12 12 = [9, 1, 0, 0, 0, 0, 0, 0, 0, 0, 0, 0].map elemOf := by decide +kernel

/-- T62, T63. -/
theorem test_f12Inv :
    (run 0x00000C45 (load 0 [0, 0, 0, 0, 0, 0, 1, 0, 0, 0, 0, 0])).regList 12 12 = [0, 0, 0, 0, 0, 0, 0, 0, 0, 0, 0x2e9f1362305ea3ab50ca36acb4f65e7fa1928902b8ea81948e3855034733bbd1, 0x20753adca9c6bfb81499be5e509e8f8ff21b7c8d3cb039cf1ef69c66bce9b020].map elemOf ∧
    (run 0x00000C45 (load 0 [0, 0, 0, 0, 0, 0, 0, 0, 0, 0, 0, 0])).errcode = 5 := by decide +kernel

/-- T64. -/
theorem test_f12Conj :
    (run 0x00000C46 (load 0 [1, 2, 3, 4, 5, 6, 7, 8, 9, 10, 11, 12])).regList 12 12 = [1, 2, 3, 4, 5, 6, p - 7, p - 8, p - 9, p - 10, p - 11, p - 12].map elemOf := by decide +kernel

/-- T65. -/
theorem test_f12Eq :
    (run 0x0C000047 (load 0 [0, 0, 0, 0, 0, 0, 1, 0, 0, 0, 0, 0, 0, 0, 0, 0, 0, 0, p - 1, 0, 0, 0, 0, 0])).flag = false := by decide +kernel

/-- T66, T67. -/
theorem test_f12Frob :
    (run 0x01000C48 (load 0 [0, 0, 0, 0, 0, 0, 1, 0, 0, 0, 0, 0])).regList 12 12 = [0, 0, 0, 0, 0, 0, 0x1284b71c2865a7dfe8b99fdd76e68b605c521e08292f2176d60b35dadcc9e470, 0x246996f3b4fae7e6a6327cfe12150b8e747992778eeec7e5ca5cf05f80f362ac, 0, 0, 0, 0].map elemOf ∧
    (run 0x02000C48 (load 0 [0, 0, 0, 0, 0, 0, 1, 0, 0, 0, 0, 0])).regList 12 12 = [0, 0, 0, 0, 0, 0, 0x30644e72e131a0295e6dd9e7e0acccb0c28f069fbb966e3de4bd44e5607cfd49, 0, 0, 0, 0, 0].map elemOf := by decide +kernel

/-- T72. -/
theorem test_f12Spmul :
    (run 0x18000C49 ((load 0 [1, 2, 3, 4, 5, 6, 7, 8, 9, 10, 11, 12]).setRegs 24 ([1, 1, 2, 0, 0, 3].map elemOf))).regList 12 12 = [p - 124, 454, p - 344, 284, p - 7, 52, p - 176, 136, p - 1, 30, p - 3, 44].map elemOf := by decide +kernel

/-- T73. -/
theorem test_f12One :
    (run 0x00000C4A State.reset).regList 12 12 = [1, 0, 0, 0, 0, 0, 0, 0, 0, 0, 0, 0].map elemOf := by decide +kernel

/-- T75, T76. -/
theorem test_f12Isone :
    (run 0x0000004B (load 0 [1, 0, 0, 0, 0, 0, 0, 0, 0, 0, 0, 0])).flag = true ∧
    (run 0x0000004B (load 0 [0, 0, 0, 0, 0, 0, 1, 0, 0, 0, 0, 0])).flag = false := by decide +kernel

/-- T78, T82. -/
theorem test_g1Add :
    (run 0x02000450 (load 0 ([1, 2] ++ g1x2))).regList 4 2 = g1x3.map elemOf ∧
    (run 0x02000450 (load 0 [1, 3, 1, 2])).errcode = 2 := by decide +kernel

/-- T84. -/
theorem test_g1Dbl :
    (run 0x00000251 (load 0 [1, 2])).regList 2 2 = g1x2.map elemOf := by decide +kernel

/-- T86. -/
theorem test_g1Neg :
    (run 0x00000252 (load 0 [1, 2])).regList 2 2 = [1, p - 2].map elemOf := by decide +kernel

/-- T88, T94. -/
theorem test_g1Mul :
    (run 0x02000353 (load 0 [1, 2, 3])).regList 3 2 = g1x3.map elemOf ∧
    (run 0x02000353 (load 0 [1, 3, 5])).errcode = 2 := by decide +kernel

/-- T97, T98. -/
theorem test_g1Eq :
    (run 0x02000054 (load 0 [1, 2, 1, 2])).flag = true ∧
    (run 0x02000054 (load 0 [1, 2, 1, p - 2])).flag = false := by decide +kernel

/-- T100, T101. -/
theorem test_g1Isinf :
    (run 0x00000055 (load 0 [0, 0])).flag = true ∧
    (run 0x00000055 (load 0 [0, 1])).flag = false := by decide +kernel

/-- T102, T103. -/
theorem test_g1Oncrv :
    (run 0x00000056 (load 0 [1, 2])).flag = true ∧
    (run 0x00000056 (load 0 [1, 3])).flag = false := by decide +kernel

/-- T106. -/
theorem test_g1Insub :
    (run 0x00000057 (load 0 [1, 3])).flag = false := by decide +kernel

/-- T107, T108. -/
theorem test_g1Tojac :
    (run 0x00000258 (load 0 [1, 2])).regList 2 3 = [1, 2, 1].map elemOf ∧
    (run 0x00000258 (load 0 [0, 0])).regList 2 3 = [1, 1, 0].map elemOf := by decide +kernel

/-- T109, T110. -/
theorem test_g1Toaff :
    (run 0x00000359 (load 0 [4, 16, 2])).regList 3 2 = [1, 2].map elemOf ∧
    (run 0x00000359 (load 0 [5, 7, 0])).regList 3 2 = [0, 0].map elemOf := by decide +kernel

/-- T115, T116. -/
theorem test_g2Add :
    (run 0x04000860 (load 0 (g2gen ++ g2gen))).regList 8 4 = g2x2.map elemOf ∧
    (run 0x04000860 (load 0 (g2gen ++ [0x1800deef121f1e76426a00665e5c4479674322d4f75edadd46debd5cd992f6ed, 0x198e9393920d483a7260bfb731fb5d25f1aa493335a9e71297e485b7aef312c2, 0x1d9befcd05a5323e6da4d435f3b617cdb3af83285c2df711ef39c01571827f9d, 0x275dc4a288d1afb3cbb1ac09187524c7db36395df7be3b99e673b13a075a65ec]))).regList 8 4 = [0, 0, 0, 0].map elemOf := by decide +kernel

/-- T119. -/
theorem test_g2Dbl :
    (run 0x00000461 (load 0 g2gen)).regList 4 4 = g2x2.map elemOf := by decide +kernel

/-- T120. -/
theorem test_g2Neg :
    (run 0x00000462 (load 0 g2gen)).regList 4 4 = [0x1800deef121f1e76426a00665e5c4479674322d4f75edadd46debd5cd992f6ed, 0x198e9393920d483a7260bfb731fb5d25f1aa493335a9e71297e485b7aef312c2, 0x1d9befcd05a5323e6da4d435f3b617cdb3af83285c2df711ef39c01571827f9d, 0x275dc4a288d1afb3cbb1ac09187524c7db36395df7be3b99e673b13a075a65ec].map elemOf := by decide +kernel

/-- T122, T125. -/
theorem test_g2Mul :
    (run 0x04000563 (load 0 (g2gen ++ [2]))).regList 5 4 = g2x2.map elemOf ∧
    (run 0x0400FD63 (load 0 (g2gen ++ [2]))).errcode = 9 := by decide +kernel

/-- T126. -/
theorem test_g2Eq :
    (run 0x04000064 (load 0 (g2gen ++ g2gen))).flag = true := by decide +kernel

/-- T127. -/
theorem test_g2Isinf :
    (run 0x00000065 (load 0 [0, 0, 0, 0])).flag = true := by decide +kernel

/-- T128, T129. -/
theorem test_g2Oncrv :
    (run 0x00000066 (load 0 ns)).flag = true ∧
    (run 0x00000066 (load 0 [1, 1, 1, 1])).flag = false := by decide +kernel

/-- T132. -/
theorem test_g2Insub :
    (run 0x00000067 (load 0 [0, 0, 0, 0])).flag = true := by decide +kernel

/-- T133. -/
theorem test_g2Tojac :
    (run 0x00000468 (load 0 [0, 0, 0, 0])).regList 4 6 = [1, 0, 1, 0, 0, 0].map elemOf := by decide +kernel

/-- T136, T137. -/
theorem test_g2Toaff :
    (run 0x00000669 (load 0 [0, 1, 0, 1, 0, 1])).regList 6 4 = [0, p - 1, p - 1, 0].map elemOf ∧
    (run 0x00000669 (load 0 [5, 6, 7, 8, 0, 0])).regList 6 4 = [0, 0, 0, 0].map elemOf := by decide +kernel

/-- T138, T140. -/
theorem test_miller :
    (run 0x02000670 (load 0 ([0, 0] ++ g2gen))).regList 6 12 = [1, 0, 0, 0, 0, 0, 0, 0, 0, 0, 0, 0].map elemOf ∧
    (run 0x02000670 (load 0 ([1, 3] ++ g2gen))).errcode = 2 := by decide +kernel

/-- T143, T144. -/
theorem test_mlacc :
    (run 0x02000671 (load 0 ([1, 2] ++ g2gen))).errcode = 10 ∧
    (run 0x02000671 (load 0 ([0, 0] ++ g2gen ++ [1, 2, 3, 4, 5, 6, 7, 8, 9, 10, 11, 12]))).regList 6 12 = [1, 2, 3, 4, 5, 6, 7, 8, 9, 10, 11, 12].map elemOf := by decide +kernel

/-- T145. -/
theorem test_fexp :
    (run 0x00000C72 (load 0 [0, 0, 0, 0, 0, 0, 0, 0, 0, 0, 0, 0])).errcode = 5 := by decide +kernel

/-- T149, T150. -/
theorem test_fpDec :
    (run 0x00000080 (wire 0 [p - 1])).fp 0 = p - 1 ∧
    (run 0x00000080 (wire 0 [0x30644e72e131a029b85045b68181585d97816a916871ca8d3c208c16d87cfd47])).errcode = 1 := by decide +kernel

/-- T154. -/
theorem test_fpEnc :
    (run 0x00100081 (load 0 [4660])).iobuf.readBytes 16 32 = be32 (4660) := by decide +kernel

/-- T156, T157. -/
theorem test_scDec :
    (run 0x00000082 (wire 0 [Config.r - 1])).fp 0 = Config.r - 1 ∧
    (run 0x00000082 (wire 0 [Config.r])).errcode = 1 := by decide +kernel

/-- T158, T159. -/
theorem test_f2Dec :
    (run 0x00000083 (wire 0 [1, 2])).regList 0 2 = [1, 2].map elemOf ∧
    (run 0x00000083 ({ wire 0 [1, 2] with fp2ord := true })).regList 0 2 = [2, 1].map elemOf := by decide +kernel

/-- T161. -/
theorem test_f2Enc :
    (run 0x00000084 ({ load 0 [3, 4] with fp2ord := true })).iobuf.readBytes 0 64 = [4, 3].flatMap be32 := by decide +kernel

/-- T162, T164. -/
theorem test_g1Decu :
    (run 0x00000085 (wire 0 [1, 2])).regList 0 2 = [1, 2].map elemOf ∧
    (run 0x00000085 (wire 0 [1, 3])).errcode = 2 := by decide +kernel

/-- T167, T168. -/
theorem test_g1Encu :
    (run 0x00400086 (load 0 [0, 0])).iobuf.readBytes 64 64 = [0, 0].flatMap be32 ∧
    (run 0x00400086 (load 0 [1, 3])).errcode = 2 := by decide +kernel

/-- T170, T175. -/
theorem test_g1Decc :
    (run 0x00000087 (wire 0 [2 ^ 254 + 1])).regList 0 2 = [1, p - 2].map elemOf ∧
    (run 0x00000087 (wire 0 [4])).errcode = 2 := by decide +kernel

/-- T179. -/
theorem test_g1Encc :
    (run 0x00000088 (load 0 g1x2)).iobuf.readBytes 0 32 = be32 (0x30644e72e131a029b85045b68181585d97816a916871ca8d3c208c16d87cfd3) := by decide +kernel

/-- T182, T184. -/
theorem test_g2Decu :
    (run 0x00000089 ({ wire 0 g2gen with fp2ord := true })).errcode = 2 ∧
    (run 0x00000089 (wire 0 [0, 0, 0, 0])).regList 0 4 = [0, 0, 0, 0].map elemOf := by decide +kernel

/-- T185, and the identity (45_codec.md R318). -/
theorem test_g2Encu :
    (run 0x0000008A (load 0 [0x1800deef121f1e76426a00665e5c4479674322d4f75edadd46debd5cd992f6ed, 0x198e9393920d483a7260bfb731fb5d25f1aa493335a9e71297e485b7aef312c2, 0x12c85ea5db8c6deb4aab71808dcb408fe3d1e7690c43d37b4ce6cc0166fa7daa])).errcode = 10 ∧
    (run 0x0000008A (load 0 [0, 0, 0, 0])).iobuf.readBytes 0 128 = List.replicate 128 0 := by decide +kernel

/-- T188. -/
theorem test_g2Decc :
    (run 0x0000008B (wire 0 [0, 0])).errcode = 2 := by decide +kernel

/-- T189, T190. -/
theorem test_g2Encc :
    (run 0x0000008C (load 0 [0x1800deef121f1e76426a00665e5c4479674322d4f75edadd46debd5cd992f6ed, 0x198e9393920d483a7260bfb731fb5d25f1aa493335a9e71297e485b7aef312c2, 0x1d9befcd05a5323e6da4d435f3b617cdb3af83285c2df711ef39c01571827f9d, 0x275dc4a288d1afb3cbb1ac09187524c7db36395df7be3b99e673b13a075a65ec])).iobuf.readBytes 0 64 = [0x5800deef121f1e76426a00665e5c4479674322d4f75edadd46debd5cd992f6ed, 0x198e9393920d483a7260bfb731fb5d25f1aa493335a9e71297e485b7aef312c2].flatMap be32 ∧
    (run 0x0000008C (load 0 [0, 0, 0, 0])).iobuf.readBytes 0 64 = [2 ^ 255, 0].flatMap be32 := by decide +kernel

/-! ### Machine-level tests -/

/-- T81's vectors leave a command word's error record; a later CMD write is dropped with OVR (70_reset_and_hazards.md R400). -/
theorem test_dropped_command :
    (match hostTurn (.write .w32 0x014 0) (run 0x00000003 State.reset) with
      | .next t => t.ovr && t.errf && t.cur.isNone
      | _ => false) = true := by decide +kernel

/-- IOBUF lanes are little-endian: 0x04030201 puts 1 in the first byte (20_memory.md R75). -/
theorem test_lanes :
    (match hostTurn (.write .w32 0x1FFC 0x04030201) State.reset with
      | .next t => decide (t.iobuf = [(4092, 1), (4093, 2), (4094, 3), (4095, 4)])
      | _ => false) = true := by decide +kernel

/-- The text of the commands of 30_encoding.md R123. -/
theorem test_asm :
    asm (.fpMul 3 1 2) = "FP_MUL f3, f1, f2" ∧ asm (.f12Frob 40 52 2) = "F12_FROB f40, f52, 2" ∧ asm .nop = "NOP" := by decide +kernel

/-! ### Runs (70_reset_and_hazards.md R412, R413) -/

/-- A reset block with a program on the agenda. -/
def program (ts : List Turn) : State := { State.reset with agenda := ts }

/-- A hard reset leaves a launch state, and State.reset is one. -/
theorem test_launch : State.reset.Launch := launch_hardReset State.reset []

/-- The first two commands of program P1: each poll reads STATUS = 0x02, and the run ends at the second. -/
theorem test_run_ends :
    (program (issue 0x00030002 ++ issue 0x00050102)).endOfRun.map (fun t => (t.fp 0, t.fp 1, t.rdata)) = some (3, 5, some 0x02) ∧
    (program (issue 0x00030002 ++ issue 0x00050102)).runOutcome.map Prod.snd = some (true, false) := by decide +kernel

/-- A read of STATUS with BUSY = 1, one before the last CMD write, and an IOBUF read of 0 while BUSY are no end. -/
theorem test_run_not_ended :
    (program [.host (.write .w32 0x014 0x00030002), .host (.read .w32 0x008)]).endOfRun = none ∧
    (program [.host (.read .w32 0x008), .host (.write .w32 0x014 0x00030002), .host (.read .w32 0x1000)]).endOfRun = none ∧
    (program [.host (.read .w32 0x008), .host (.write .w32 0x014 0x00030002), .engine, .host (.read .w32 0x008)]).endOfRun.map
      State.rdata = some (some 0x02) ∧
    (program (issue 0x00030002 ++ [.host (.hardReset []), .host (.read .w32 0x008)])).endOfRun.isSome = true ∧
    (program [.host (.write .w32 0x004 1), .host (.read .w32 0x008)]).endOfRun = none := by decide +kernel

/-- P3d: no command is issued; the end state is the launch state with the IOBUF bytes as written, STATUS = 0x00 and ERRCODE = 0. -/
theorem test_run_no_command :
    (program [storeByte 0 0x55, .host (.read .w32 0x008)]).endOfRun.map (fun t => (t.rdata, t.errcode, t.iobuf)) =
      some (some 0x00, 0, [(0, 0x55)]) := by decide +kernel

/-! ### Witnesses: for every statement, states and operands that meet its hypotheses together, clause by clause and at the ends of the ranges -/

/-- All registers written and equal to `x`. -/
def full (x : Nat) : State :=
  { State.reset with f := Vector.replicate 256 (elemOf x), v := Vector.replicate 256 true }

/-- Every view is the identity, or zero. -/
abbrev zeros : State := full 0

abbrev ones : State := full 1

/-- Points at the top of F: g1 in F[254..255], g2 in F[250..253], (1, 3), off the curve, in F[248..249], ns in F[244..247], off the twist
(1, 1, 1, 1) in F[240..243]; below, zeros. -/
def pts : State :=
  ((((zeros.setRegs 254 (map [1, 2])).setRegs 250 (map g2gen)).setRegs 248 (map [1, 3])).setRegs 244 (map ns)).setRegs 240
    (map [1, 1, 1, 1])
where
  map (xs : List Nat) : List Elem := xs.map elemOf

/-- Every valid bit is 1. -/
def Written (s : State) : Prop := ∀ i : Nat, i < 256 → s.valid i = true

theorem full_written (x : Nat) : Written (full x) := fun i hi => by simp [State.valid, full, Vector.getD, hi]

theorem setRegs_written {s : State} (h : Written s) (b : Nat) (xs : List Elem) : Written (s.setRegs b xs) := by
  induction xs generalizing s b with
  | nil => exact h
  | cons x xs ih =>
    refine ih (fun i hi => ?_) _
    rw [State.valid_setReg]
    split
    · rfl
    · exact h i hi

theorem latch_written {s : State} (h : Written s) (w : Word) : Written (s.latch w) := h

theorem pts_written : Written pts :=
  setRegs_written (setRegs_written (setRegs_written (setRegs_written (setRegs_written (full_written 0) _ _) _ _) _ _) _ _) _ _

/-- The windows are in range, as a test. -/
def readyB (i : Instr) : Bool := (windowsOf i).all Extent.inRange && (sourcesOf i).all (fun w => decide (w.1 + w.2 ≤ 256))

theorem ready_of {i : Instr} {s : State} (hs : Written s) (h : readyB i = true) : Ready i s := by
  simp only [readyB, Bool.and_eq_true, List.all_eq_true, decide_eq_true_eq] at h
  exact ⟨h.1, fun w hw k hk => hs _ (by have := h.2 w hw; omega)⟩

theorem inRange_of {i : Instr} (h : (windowsOf i).all Extent.inRange = true) : InRange i := List.all_eq_true.1 h

theorem full_inv (x : Nat) (hx : x < Config.p) : (full x).Inv := by
  refine ⟨fun i _ => ?_, Memory.wf_nil, rfl, nofun, nofun, nofun, fun _ => ⟨rfl, rfl⟩, nofun⟩
  have h : (full x).fp i = if i < 256 then x else 0 := by
    by_cases hi : i < 256
    · simp [State.fp, State.reg, full, Vector.getD, hi, elemOf]
      have := p_lt
      omega
    · simp [State.fp, State.reg, Vector.getD, hi]
  rw [h]
  split
  · exact hx
  · exact p_pos

theorem zeros_inv : zeros.Inv := full_inv 0 p_pos

theorem ones_inv : ones.Inv := full_inv 1 (by decide)

theorem latch_inv {s : State} (h : s.Inv) (he : s.errf = false) (w : Word) : (s.latch w).Inv :=
  ⟨h.canonical, h.iobuf_wf, rfl, by simp [State.latch], fun _ => ⟨rfl, he⟩, fun _ => rfl, h.clear_record, h.legal_record⟩

theorem raise_inv {s : State} (h : s.Inv) (hb : s.busy = true) (k : ErrKind) : (s.raise k).Inv := by
  refine ⟨h.canonical, h.iobuf_wf, rfl, ?_, nofun, nofun, nofun, fun _ => by cases k <;> simp [legalErrcode, State.raise, ErrKind.code]⟩
  simp [State.raise, (h.busy_idle hb).1]

theorem setRegs_inv {s : State} (h : s.Inv) (b : Nat) (xs : List Elem) (hx : ∀ x ∈ xs, x.toNat < Config.p) : (s.setRegs b xs).Inv := by
  refine ⟨?_, by simpa using h.iobuf_wf, by simpa using h.cur_busy, by simpa using h.done_errf, by simpa using h.busy_idle,
    by simpa using h.busy_ord, by simpa using h.clear_record, by simpa using h.legal_record⟩
  have hc := h.canonical
  clear h
  induction xs generalizing s b with
  | nil => exact hc
  | cons x xs ih =>
    refine ih _ (fun y hy => hx y (by simp [hy])) fun i hi => ?_
    rw [State.fp, State.reg_setReg]
    rw [State.valid_setReg] at hi
    split
    · exact hx x (by simp)
    · rename_i h
      rw [if_neg h] at hi
      exact hc i hi

theorem map_canonical (xs : List Nat) (h : xs.all (fun x => decide (x < Config.p)) = true) : ∀ x ∈ pts.map xs, x.toNat < Config.p := by
  intro x hx
  obtain ⟨y, hy, rfl⟩ := List.mem_map.1 hx
  have hlt := of_decide_eq_true (List.all_eq_true.1 h y hy)
  rw [elemOf_toNat y (by have := p_lt; omega)]
  exact hlt

theorem pts_inv : pts.Inv := by
  unfold pts
  exact setRegs_inv (setRegs_inv (setRegs_inv (setRegs_inv (setRegs_inv zeros_inv _ _ (map_canonical _ (by decide +kernel))) _ _
    (map_canonical _ (by decide +kernel))) _ _ (map_canonical _ (by decide +kernel))) _ _ (map_canonical _ (by decide +kernel))) _ _
    (map_canonical _ (by decide +kernel))

/-- ns is on the twist and outside G2 (43_curve.md R257). -/
theorem test_ns_outside : onCurve2 (pts.g2 244) = true ∧ (pts.g2 244).smul fp2Ops Config.r ≠ .inf := by decide +kernel

theorem test_witness_DecodeEncode : (Instr.mov 255 255 255).wellFormed = true ∧ (Instr.mov 0 0 1).wellFormed = true := by decide

theorem test_witness_EncodeDecode : decode 0xFFFFFFFF ≠ .ok .nop ∧ decode 0xFFFFFF8C = .ok (.g2Encc 0xFF 0xFFFF) := by decide

/-- The ends of the nine ranges are undefined and their neighbours are not. -/
theorem test_witness_IllegalOpcodes :
    (∀ o ∈ [0x03, 0x0F, 0x17, 0x1F, 0x28, 0x2F, 0x37, 0x3F, 0x4C, 0x4F, 0x5A, 0x5F, 0x6A, 0x6F, 0x73, 0x7F, 0x8D, 0xFF],
      decode (BitVec.ofNat 32 o) = .error .undefinedOpcode) ∧
    (∀ o ∈ [0x02, 0x10, 0x16, 0x20, 0x27, 0x30, 0x36, 0x40, 0x4B, 0x50, 0x59, 0x60, 0x69, 0x70, 0x72, 0x80, 0x8C],
      decode (BitVec.ofNat 32 o) ≠ .error .undefinedOpcode) ∧
    (zeros.latch 0x03).busy = true ∧ (zeros.latch 0x03).cur = some 0x03 := by decide +kernel

theorem test_witness_UnusedFields :
    (∀ o ∈ [0x00, 0x16, 0x27, 0x36, 0x47, 0x4B, 0x54, 0x55, 0x56, 0x57, 0x64, 0x65, 0x66, 0x67],
      decode (BitVec.ofNat 32 (o + 0x100)) = .error .fieldNotZero) ∧
    (∀ o ∈ [0x00, 0x4A], decode (BitVec.ofNat 32 (o + 0x10000)) = .error .fieldNotZero) ∧
    (∀ o ∈ [0x00, 0x12, 0x14, 0x15, 0x22, 0x24, 0x25, 0x26, 0x32, 0x34, 0x35, 0x42, 0x44, 0x45, 0x46, 0x4A, 0x4B,
        0x51, 0x52, 0x55, 0x56, 0x57, 0x58, 0x59, 0x61, 0x62, 0x65, 0x66, 0x67, 0x68, 0x69, 0x72],
      decode (BitVec.ofNat 32 (o + 0x1000000)) = .error .fieldNotZero) ∧
    decode 0x00FFFF01 = .error .movCountZero ∧
    decode 0xFFFFFF02 = .ok (.ldi 0xFF 0xFFFF) ∧ decode 0xFFFFFF80 = .ok (.fpDec 0xFF 0xFFFF) ∧
    (zeros.latch 0x0100).busy = true ∧ (zeros.latch 0x0100).cur = some 0x0100 := by decide +kernel

theorem test_witness_HardReset :
    4095 < 4096 ∧ 4095 < (List.replicate 4096 (7 : Byte)).length ∧ (ones.hardReset [1, 2]).iobuf.read 1 = 2 := by decide +kernel

theorem test_witness_SoftReset : (1 : Word).getLsbD 0 = true ∧ (0xFFFFFFFF : Word).getLsbD 0 = true := by decide

theorem test_witness_ResetInvariant : Memory.wf [(0, 255), (4095, 1)] := by decide

theorem test_witness_StepKeepsInvariant :
    (zeros.latch 0x10).Inv ∧ (∃ t, step (zeros.latch 0x10) = .next t) ∧
    (∃ t, step { zeros with agenda := [.host (.write .w32 0x014 0x10)] } = .next t) :=
  ⟨latch_inv zeros_inv rfl _, ⟨_, rfl⟩, ⟨_, rfl⟩⟩

theorem test_witness_StepRunsCommand :
    (zeros.latch 0x10).agenda = [] ∧ (zeros.latch 0x10).busy = true ∧ (zeros.latch 0x10).cur = some 0x10 ∧
    decode 0x10 = .ok (.fpAdd 0 0 0) ∧ decode 0x03 = .error .undefinedOpcode ∧
    ({ zeros with agenda := [.engine] } : State).agenda = .engine :: [] ∧ zeros.busy = false ∧
    ({ zeros with agenda := [.host (.read .w32 0)] } : State).agenda = .host (.read .w32 0) :: [] := by decide +kernel

theorem test_witness_Acceptance :
    (zeros.latch 0).busy = true ∧ (run 0x03 zeros).errf = true ∧ (run 0x03 zeros).busy = false ∧
    zeros.busy = false ∧ zeros.errf = false ∧ decode 0x03 = .error .undefinedOpcode := by decide +kernel

theorem test_witness_ErrorEntry :
    (zeros.latch 0x03).Inv ∧ (zeros.latch 0x03).errf = false ∧ ∃ t, step (zeros.latch 0x03) = .next t ∧ t.errf = true :=
  ⟨latch_inv zeros_inv rfl _, rfl, _, rfl, rfl⟩

theorem test_witness_RecordedErrorPersists :
    ((zeros.latch 0x03).raise .illegalCommand).Inv ∧ ((zeros.latch 0x03).raise .illegalCommand).errf = true ∧
    (∃ t, step ((zeros.latch 0x03).raise .illegalCommand) = .next t ∧ t.errf = true) ∧
    (∃ t, step { (zeros.latch 0x03).raise .illegalCommand with agenda := [.host (.write .w32 0x008 4)] } = .next t ∧ t.errf = false) :=
  ⟨raise_inv (latch_inv zeros_inv rfl _) rfl _, rfl, ⟨_, rfl, rfl⟩, ⟨_, rfl, rfl⟩⟩

theorem test_witness_NoPanics :
    (State.reset.latch 0xFFFFFFFF).busy = true ∧ (State.reset.latch 0xFFFFFFFF).cur = some 0xFFFFFFFF ∧
    (State.reset.latch 0xFFFFFFFF).done = false ∧ (State.reset.latch 0xFFFFFFFF).errf = false := by decide +kernel

theorem test_witness_ExecInputs :
    ones.flag ≠ ({ ones with flag := true } : State).flag ∧ ones.f = ({ ones with flag := true } : State).f ∧ ones.v = ({ ones with flag := true } : State).v ∧
    ones.iobuf = ({ ones with flag := true } : State).iobuf ∧ ones.fp2ordCmd = ({ ones with flag := true } : State).fp2ordCmd :=
  ⟨by decide, rfl, rfl, rfl, rfl⟩

theorem test_witness_InputsClosed :
    (ones.latch 0x10).busy = true ∧ (∃ t, hostTurn (.write .w32 0x1000 7) (ones.latch 0x10) = .next t) ∧
    (∃ t, hostTurn (.write .w32 0x004 2) (ones.latch 0x10) = .next t) ∧
    ∀ draw, Access.write .w32 0x004 2 ≠ .hardReset draw :=
  ⟨rfl, ⟨_, rfl⟩, ⟨_, rfl⟩, fun _ h => by cases h⟩

/-- One register command, one test and one encoder that complete, and one command that raises. -/
theorem test_witness_CommandFrame :
    (∃ t, exec (.fpAdd 255 0 0) ones = .next t ∧ t.errf = false) ∧ (∃ t, exec (.fpEq 0 0) ones = .next t ∧ t.flag = true) ∧
    (∃ t, exec (.fpEnc 0 0xFE0) ones = .next t ∧ t.iobuf.read 4095 = 1) ∧
    (∃ t, exec (.fpInv 0 0) zeros = .next t ∧ zeros.errf = false ∧ t.errf = true) :=
  ⟨⟨_, rfl, by decide +kernel⟩, ⟨_, rfl, by decide +kernel⟩, ⟨_, rfl, by decide +kernel⟩, ⟨_, rfl, rfl, by decide +kernel⟩⟩

/-- The last window and range that are in range, and the first that are not. -/
theorem test_witness_OperandRange :
    (Extent.regs 254 2).inRange = true ∧ Extent.regs 255 2 ∈ windowsOf (.f2Add 255 0 0) ∧ 256 < 255 + 2 ∧
    (Extent.iobuf 4064 32).inRange = true ∧ Extent.iobuf 4065 32 ∈ windowsOf (.fpEnc 0 4065) ∧ 4096 < 4065 + 32 ∧
    (ones.latch 0x10).cur = some 0x10 := by decide +kernel

theorem test_witness_OperandRange_within :
    (∀ x ∈ windowsOf (.g2Encu 252 3968), (∀ b n : Nat, x = .regs b n → b + n ≤ 256) ∧ (∀ off len : Nat, x = .iobuf off len → off + len ≤ 4096)) := by
  intro x hx
  fin_cases hx <;> exact ⟨by rintro b n ⟨⟩ <;> decide, by rintro b n ⟨⟩ <;> decide⟩

theorem test_witness_UnwrittenRegister :
    (State.reset.latch 0x10).cur = some 0x10 ∧ InRange (.f12Inv 244 244) ∧
    (244, 12) ∈ sourcesOf (.f12Inv 244 244) ∧ (State.reset.latch 0x10).valid (244 + 11) = false :=
  ⟨rfl, inRange_of (by decide), by decide, by decide +kernel⟩

theorem test_witness_RaisesOnlyListed :
    (zeros.latch 0x15).cur = some 0x15 ∧ (zeros.latch 0x15).errf = false ∧
    ∃ t, exec (.fpInv 0 0) (zeros.latch 0x15) = .next t ∧ t.errf = true :=
  ⟨rfl, rfl, _, rfl, by decide +kernel⟩

theorem test_witness_RegisterReads :
    (0x000 : BitVec 13).toNat < 0x1000 ∧ (0x000 : BitVec 13).toNat % 4 = 0 ∧ (0x004 : BitVec 13).toNat = 0x004 ∧
    (0x008 : BitVec 13).toNat = 0x008 ∧ (0x00C : BitVec 13).toNat = 0x00C ∧ (0x010 : BitVec 13).toNat = 0x010 ∧
    0x014 ≤ (0x014 : BitVec 13).toNat ∧ (0xFFC : BitVec 13).toNat < 0x1000 ∧ (0xFFC : BitVec 13).toNat % 4 = 0 := by simp

theorem test_witness_StatusWrites :
    (4 : Word).getLsbD 2 = true ∧ zeros.busy = false ∧ (∃ t, hostTurn (.write .w32 0x008 4) zeros = .next t) ∧
    (0xFFC : BitVec 13).toNat < 0x1000 ∧ (0xFFC : BitVec 13).toNat % 4 = 0 ∧ (0xFFC : BitVec 13).toNat ≠ 0x004 ∧
    (0xFFC : BitVec 13).toNat ≠ 0x008 ∧ (0xFFC : BitVec 13).toNat ≠ 0x014 ∧ (0x000 : BitVec 13).toNat = 0 :=
  ⟨by decide, rfl, ⟨_, rfl⟩, by simp⟩

theorem test_witness_IobufPort :
    4095 < 4096 ∧ 4092 < 4096 ∧ 4092 % 4 = 0 ∧ ones.iobuf.wf ∧ ones.busy = false ∧ (ones.latch 0).busy = true := by decide +kernel

theorem test_witness_RefusedAccess :
    (0x1FFE : BitVec 13).toNat % 4 ≠ 0 ∧ (0x0FFF : BitVec 13).toNat < 0x1000 ∧
    (∃ t, hostTurn (.read .w8 0x1000) ones = .next t) ∧ (∃ t, hostTurn (.read .w32 0x0FFC) ones = .next t) :=
  ⟨by decide, by decide, ⟨_, rfl⟩, ⟨_, rfl⟩⟩

theorem test_witness_InterruptLevel :
    (∃ t, engineTurn ({ ones with ie := true }.latch 0) = .next t ∧ t.irq = true) ∧
    (∃ t, hostTurn (.write .w32 0x014 0) ones = .next t) ∧ ones.busy = false ∧ ones.errf = false ∧
    (∃ t, hostTurn (.write .w32 0x008 6) { ones with ie := true, done := true } = .next t) ∧
    (6 : Word).getLsbD 1 = true ∧ (6 : Word).getLsbD 2 = true ∧
    (∃ t, hostTurn (.write .w32 0x004 4) { ones with done := true } = .next t ∧ t.irq = true) ∧
    (4 : Word).getLsbD 0 = false ∧ (2 : Word).getLsbD 2 = false :=
  ⟨⟨_, rfl, rfl⟩, ⟨_, rfl⟩, rfl, rfl, ⟨_, rfl⟩, by decide, by decide, ⟨_, rfl, rfl⟩, by decide, by decide⟩

/-- Every command is ready with its windows at the top of F and its bytes at the top of IOBUF. -/
def topCommands : List Instr :=
  [.nop, .mov 253 253 3, .ldi 255 65535, .fpAdd 255 255 255, .fpSub 255 255 255, .fpNeg 255 255, .fpMul 255 255 255, .fpSqr 255 255,
   .fpInv 255 255, .fpEq 255 255, .f2Add 254 254 254, .f2Sub 254 254 254, .f2Neg 254 254, .f2Mul 254 254 254, .f2Sqr 254 254, .f2Inv 254 254,
   .f2Conj 254 254, .f2Eq 254 254, .f6Add 250 250 250, .f6Sub 250 250 250, .f6Neg 250 250, .f6Mul 250 250 250, .f6Sqr 250 250, .f6Inv 250 250,
   .f6Eq 250 250, .f12Add 244 244 244, .f12Sub 244 244 244, .f12Neg 244 244, .f12Mul 244 244 244, .f12Sqr 244 244, .f12Inv 244 244,
   .f12Conj 244 244, .f12Eq 244 244, .f12Frob 244 244 255, .f12Spmul 244 244 250, .f12One 244, .f12Isone 244, .g1Add 254 254 254,
   .g1Dbl 254 254, .g1Neg 254 254, .g1Mul 254 254 255, .g1Eq 254 254, .g1Isinf 254, .g1Oncrv 254, .g1Insub 254, .g1Tojac 253 254,
   .g1Toaff 254 253, .g2Add 252 252 252, .g2Dbl 252 252, .g2Neg 252 252, .g2Mul 252 252 255, .g2Eq 252 252, .g2Isinf 252, .g2Oncrv 252,
   .g2Insub 252, .g2Tojac 250 252, .g2Toaff 252 250, .miller 244 254 252, .mlacc 244 254 252, .fexp 244 244, .fpDec 255 4064, .fpEnc 255 4064,
   .scDec 255 4064, .f2Dec 254 4032, .f2Enc 254 4032, .g1Decu 254 4032, .g1Encu 254 4032, .g1Decc 254 4064, .g1Encc 254 4064, .g2Decu 252 3968,
   .g2Encu 252 3968, .g2Decc 252 4032, .g2Encc 252 4032]

theorem test_ready_at_the_top : ∀ i ∈ topCommands, Ready i ones := by
  have h : topCommands.all readyB = true := by decide +kernel
  exact fun i hi => ready_of (full_written 1) (List.all_eq_true.1 h i hi)

/-! The statements whose one hypothesis is `Ready`: NopAndConstants, BlockCopy, FpArithmetic, RegisterTests, CurveTests, TowerLinear,
TowerProducts, Conjugates, Frobenius: `test_ready_at_the_top`. The ring of TowerProducts, TowerInverses, Frobenius, FinalExponentiation and
FexpOrder: -/

theorem test_witness_TowerIn :
    TowerIn TowerRing (AdjoinRoot.root towerPoly ^ 6 - 9) (AdjoinRoot.root towerPoly ^ 2) (AdjoinRoot.root towerPoly) := towerRing_tower

theorem test_witness_FpInverse : ones.Inv ∧ Ready (.fpInv 255 255) ones ∧ ones.fp (255 : RegIdx).toNat ≠ 0 :=
  ⟨ones_inv, ready_of (full_written 1) (by decide +kernel), by decide +kernel⟩

theorem test_witness_ZeroInversion :
    (zeros.latch 0x72).cur = some 0x72 ∧ Ready (.fpInv 255 255) (zeros.latch 0x72) ∧ Ready (.f2Inv 254 254) (zeros.latch 0x72) ∧
    Ready (.f6Inv 250 250) (zeros.latch 0x72) ∧ Ready (.f12Inv 244 244) (zeros.latch 0x72) ∧ Ready (.fexp 244 244) (zeros.latch 0x72) ∧
    (∀ k : Nat, k < 12 → (zeros.latch 0x72).reg (244 + k) = 0) :=
  ⟨rfl, ready_of (latch_written (full_written 0) 0x72) (by decide +kernel), ready_of (latch_written (full_written 0) 0x72) (by decide +kernel), ready_of (latch_written (full_written 0) 0x72) (by decide +kernel), ready_of (latch_written (full_written 0) 0x72) (by decide +kernel),
    ready_of (latch_written (full_written 0) 0x72) (by decide +kernel), by decide +kernel⟩

theorem test_witness_TowerInverses :
    ones.Inv ∧ Ready (.f2Inv 254 254) ones ∧ Ready (.f6Inv 250 250) ones ∧ Ready (.f12Inv 244 244) ones ∧
    (∃ k : Nat, k < 2 ∧ ones.reg (254 + k) ≠ 0) ∧ (∃ k : Nat, k < 6 ∧ ones.reg (250 + k) ≠ 0) ∧
    (∃ k : Nat, k < 12 ∧ ones.reg (244 + k) ≠ 0) :=
  ⟨ones_inv, ready_of (full_written 1) (by decide +kernel), ready_of (full_written 1) (by decide +kernel), ready_of (full_written 1) (by decide +kernel),
    ⟨1, by decide, by decide +kernel⟩, ⟨5, by decide, by decide +kernel⟩, ⟨11, by decide, by decide +kernel⟩⟩

theorem test_witness_FrobeniusCorners :
    ones.Inv ∧ (255 : RegIdx).toNat % 12 = (3 : RegIdx).toNat % 12 ∧ (246 : RegIdx).toNat % 12 = 6 := ⟨ones_inv, by decide, by decide⟩

/-- Two different points, a point and itself, and the identity. -/
theorem test_witness_G1Sum :
    pts.Inv ∧ Ready (.g1Add 254 254 254) pts ∧ Ready (.g1Add 254 254 0) pts ∧ Ready (.g1Dbl 254 254) pts ∧
    onCurve1 (pts.g1 254) = true ∧ pts.g1 254 = .aff 1 2 ∧ onCurve1 (pts.g1 0) = true ∧ pts.g1 0 = .inf :=
  ⟨pts_inv, ready_of pts_written (by decide +kernel), ready_of pts_written (by decide +kernel), ready_of pts_written (by decide +kernel), by decide +kernel,
    by decide +kernel, by decide +kernel, by decide +kernel⟩

theorem test_witness_G1NegMul :
    Ready (.g1Neg 254 254) pts ∧ Ready (.g1Mul 254 254 255) pts ∧ onCurve1 (pts.g1 (254 : RegIdx).toNat) = true :=
  ⟨ready_of pts_written (by decide +kernel), ready_of pts_written (by decide +kernel), by decide +kernel⟩

theorem test_witness_G2Sum :
    pts.Inv ∧ Ready (.g2Add 252 250 244) pts ∧ Ready (.g2Add 252 250 250) pts ∧ Ready (.g2Dbl 252 250) pts ∧
    onCurve2 (pts.g2 250) = true ∧ onCurve2 (pts.g2 244) = true ∧ pts.g2 250 ≠ .inf ∧ pts.g2 0 = .inf :=
  ⟨pts_inv, ready_of pts_written (by decide +kernel), ready_of pts_written (by decide +kernel), ready_of pts_written (by decide +kernel), by decide +kernel,
    by decide +kernel, by decide +kernel, by decide +kernel⟩

theorem test_witness_G2NegMul :
    Ready (.g2Neg 252 250) pts ∧ Ready (.g2Mul 252 250 255) pts ∧ onCurve2 (pts.g2 (250 : RegIdx).toNat) = true :=
  ⟨ready_of pts_written (by decide +kernel), ready_of pts_written (by decide +kernel), by decide +kernel⟩

theorem test_witness_ToJacobian :
    Ready (.g1Tojac 253 254) pts ∧ onCurve1 (pts.g1 254) = true ∧ pts.g1 254 ≠ .inf ∧
    Ready (.g1Tojac 253 0) pts ∧ onCurve1 (pts.g1 0) = true ∧ pts.g1 0 = .inf ∧
    Ready (.g2Tojac 250 250) pts ∧ onCurve2 (pts.g2 250) = true ∧ pts.g2 250 ≠ .inf ∧
    Ready (.g2Tojac 250 0) pts ∧ onCurve2 (pts.g2 0) = true ∧ pts.g2 0 = .inf :=
  ⟨ready_of pts_written (by decide +kernel), by decide +kernel, by decide +kernel, ready_of pts_written (by decide +kernel), by decide +kernel, by decide +kernel,
    ready_of pts_written (by decide +kernel), by decide +kernel, by decide +kernel, ready_of pts_written (by decide +kernel), by decide +kernel, by decide +kernel⟩

theorem test_witness_ToAffine :
    ones.Inv ∧ Ready (.g1Toaff 254 253) ones ∧ ones.fp (253 + 2) ≠ 0 ∧ Ready (.g2Toaff 252 250) ones ∧ ones.fp2 (250 + 4) ≠ Fp2.zero ∧
    zeros.Inv ∧ Ready (.g1Toaff 254 253) zeros ∧ zeros.fp (253 + 2) = 0 ∧ Ready (.g2Toaff 252 250) zeros ∧ zeros.fp2 (250 + 4) = Fp2.zero :=
  ⟨ones_inv, ready_of (full_written 1) (by decide +kernel), by decide +kernel, ready_of (full_written 1) (by decide +kernel), by decide +kernel,
    zeros_inv, ready_of (full_written 0) (by decide +kernel), by decide +kernel, ready_of (full_written 0) (by decide +kernel), by decide +kernel⟩

/-- G1 operands at F[248], G2 operands at F[240]. -/
theorem test_witness_OffCurveOperands :
    (pts.latch 0).cur = some 0 ∧ onCurve1 ((pts.latch 0).g1 248) = false ∧ onCurve2 ((pts.latch 0).g2 240) = false ∧
    ∀ i ∈ ([.g1Add 254 254 248, .g1Add 254 248 254, .g1Mul 254 248 255, .g1Dbl 254 248, .g1Neg 254 248, .g1Tojac 253 248, .g1Encu 248 4032,
      .g1Encc 248 4064, .g2Add 252 250 240, .g2Add 252 240 250, .g2Mul 252 240 255, .g2Dbl 252 240, .g2Neg 252 240, .g2Tojac 250 240,
      .g2Encu 240 3968, .g2Encc 240 4032, .miller 244 248 250, .miller 244 254 240, .mlacc 228 248 250, .mlacc 228 254 240] : List Instr),
      Ready i (pts.latch 0) := by
  refine ⟨rfl, by decide +kernel, by decide +kernel, ?_⟩
  have h : ([.g1Add 254 254 248, .g1Add 254 248 254, .g1Mul 254 248 255, .g1Dbl 254 248, .g1Neg 254 248, .g1Tojac 253 248, .g1Encu 248 4032,
      .g1Encc 248 4064, .g2Add 252 250 240, .g2Add 252 240 250, .g2Mul 252 240 255, .g2Dbl 252 240, .g2Neg 252 240, .g2Tojac 250 240,
      .g2Encu 240 3968, .g2Encc 240 4032, .miller 244 248 250, .miller 244 254 240, .mlacc 228 248 250, .mlacc 228 254 240] : List Instr).all
      readyB = true := by decide +kernel
  exact fun i hi => ready_of (latch_written pts_written 0) (List.all_eq_true.1 h i hi)

theorem test_witness_G1ScalarSum : canonical1 (pts.g1 254) ∧ onCurve1 (pts.g1 254) = true := by
  rw [show pts.g1 254 = .aff 1 2 by decide +kernel]
  exact ⟨⟨by decide, by decide⟩, by decide +kernel⟩

theorem test_witness_G2ScalarSum : canonical2 (pts.g2 250) ∧ onCurve2 (pts.g2 250) = true := by
  refine ⟨?_, by decide +kernel⟩
  unfold canonical2
  split
  · trivial
  · rename_i x y h
    obtain ⟨rfl, rfl⟩ := Point.aff.inj
      (h.symm.trans (show pts.g2 250 = .aff (pts.fp2 250) (pts.fp2 252) by decide +kernel))
    exact ⟨⟨by decide +kernel, by decide +kernel⟩, ⟨by decide +kernel, by decide +kernel⟩⟩

theorem test_witness_G1CurveInSubgroup : canonical1 (.aff 1 3) ∧ inSub1 (.aff 1 3) = onCurve1 (.aff 1 3) :=
  ⟨⟨by decide, by decide⟩, by decide +kernel⟩

theorem test_witness_MillerValues :
    (∀ i ∈ ([.miller 244 254 250, .miller 244 0 250, .miller 244 254 0, .mlacc 244 254 250, .mlacc 228 254 250, .mlacc 228 0 250] :
      List Instr), Ready i pts) ∧
    onCurve1 (pts.g1 254) = true ∧ onCurve2 (pts.g2 250) = true ∧ onCurve1 (pts.g1 0) = true ∧ onCurve2 (pts.g2 0) = true ∧
    (pts.g1 254 ≠ .inf ∧ pts.g2 250 ≠ .inf ∧ pts.g1 0 = .inf ∧ pts.g2 0 = .inf ∧ pts.reg (244 + 10) ≠ 0) ∧
    CanonicalRegs pts 228 12 ∧ pts.Inv ∧
    TowerIn TowerRing (AdjoinRoot.root towerPoly ^ 6 - 9) (AdjoinRoot.root towerPoly ^ 2) (AdjoinRoot.root towerPoly) := by
  refine ⟨?_, by decide +kernel, by decide +kernel, by decide +kernel, by decide +kernel, by decide +kernel,
    fun k hk => pts_inv.canonical _ ?_, pts_inv, towerRing_tower⟩
  · have h : ([.miller 244 254 250, .miller 244 0 250, .miller 244 254 0, .mlacc 244 254 250, .mlacc 228 254 250, .mlacc 228 0 250] :
        List Instr).all readyB = true := by decide +kernel
    exact fun i hi => ready_of pts_written (List.all_eq_true.1 h i hi)
  · exact pts_written _ (by omega)

theorem test_witness_FinalExponentiation : Ready (.fexp 244 244) ones ∧ ∃ k : Nat, k < 12 ∧ ones.reg (244 + k) ≠ 0 :=
  ⟨ready_of (full_written 1) (by decide +kernel), 11, by decide, by decide +kernel⟩

theorem test_witness_FexpOrder :
    ones.Inv ∧ Ready (.fexp 244 244) ones ∧ ∃ k : Nat, k < 12 ∧ ones.reg (244 + k) ≠ 0 :=
  ⟨ones_inv, test_witness_FinalExponentiation⟩

/-- A block that runs a decoder, with the integers `xs` in IOBUF so that the last ends at byte 4095. -/
def wireTop (xs : List Nat) : State := (wire (4096 - 32 * xs.length) xs).latch 0x80

theorem test_witness_FieldDecoders :
    (wireTop [p - 1]).cur = some 0x80 ∧ InRange (.fpDec 255 4064) ∧ InRange (.scDec 255 4064) ∧ InRange (.f2Dec 254 4032) ∧
    (wireTop [p - 1]).iobuf.beAt 4064 32 = p - 1 ∧ (wireTop [p]).iobuf.beAt 4064 32 = p ∧
    (wireTop [Config.r - 1]).iobuf.beAt 4064 32 = Config.r - 1 ∧ (wireTop [Config.r]).iobuf.beAt 4064 32 = Config.r ∧
    (wireTop [p, p - 1]).iobuf.beAt 4032 32 = p ∧ (wireTop [p, p - 1]).iobuf.beAt (4032 + 32) 32 = p - 1 :=
  ⟨rfl, inRange_of (by decide), inRange_of (by decide), inRange_of (by decide), by decide +kernel, by decide +kernel, by decide +kernel,
    by decide +kernel, by decide +kernel, by decide +kernel⟩

theorem test_witness_FieldEncoders : ones.Inv ∧ Ready (.fpEnc 255 4064) ones ∧ Ready (.f2Enc 254 4032) ones :=
  ⟨ones_inv, ready_of (full_written 1) (by decide +kernel), ready_of (full_written 1) (by decide +kernel)⟩

/-- x = 4 has no root (95_test_vectors.md T175), x = 1 has the roots 2 and p - 2. -/
theorem test_witness_G1Decoders :
    InRange (.g1Decu 254 4032) ∧ InRange (.g1Decc 254 4064) ∧
    ((wireTop [p, 0]).iobuf.beAt 4032 32 = p ∧ (wireTop [1, 3]).iobuf.beAt (4032 + 32) 32 = 3 ∧
      (wireTop [1, 2]).iobuf.beAt (4032 + 32) 32 = 2 ∧ (wireTop [2 ^ 255 + 1]).iobuf.beAt 4064 32 = 2 ^ 255 + 1 ∧
      (wireTop [2 ^ 255]).iobuf.beAt 4064 32 = 2 ^ 255 ∧ (wireTop [2 ^ 254 + 1]).iobuf.beAt 4064 32 = 2 ^ 254 + 1) ∧
    (¬((1 = 0 ∧ 3 = 0) ∨ 3 * 3 % Config.p = (1 * 1 * 1 + 3) % Config.p) ∧ 2 * 2 % Config.p = (1 * 1 * 1 + 3) % Config.p ∧
      (2 ^ 255 + 1).testBit 255 = true ∧ (2 ^ 255 + 1) % 2 ^ 254 ≠ 0 ∧ (2 ^ 255).testBit 255 = true ∧ (2 ^ 255).testBit 254 = false ∧
      (2 ^ 254 + 1).testBit 255 = false ∧ (2 ^ 254 + 1) % 2 ^ 254 = 1 ∧ Config.p.testBit 255 = false ∧ Config.p % 2 ^ 254 = Config.p) ∧
    ∀ y : Nat, ¬(y < Config.p ∧ y * y % Config.p = (4 * 4 * 4 + 3) % Config.p) :=
  ⟨inRange_of (by decide), inRange_of (by decide), by decide +kernel, by decide +kernel,
    fun y hy => fpSqrt_none 67 (by decide +kernel) y hy.2⟩

theorem test_witness_G1Encoders :
    pts.Inv ∧ onCurve1 (pts.g1 254) = true ∧ Ready (.g1Encu 254 4032) pts ∧ Ready (.g1Encc 254 4064) pts ∧
    onCurve1 (pts.g1 0) = true ∧ Ready (.g1Encu 0 0) pts ∧ Ready (.g1Encc 0 0) pts :=
  ⟨pts_inv, by decide +kernel, ready_of pts_written (by decide +kernel), ready_of pts_written (by decide +kernel), by decide +kernel,
    ready_of pts_written (by decide +kernel), ready_of pts_written (by decide +kernel)⟩

/-- The compressed x = 0 has no root (95_test_vectors.md T188). -/
theorem no_root_at_zero (y : Fp2) : y.mul y ≠ ((Fp2.zero.mul Fp2.zero).mul Fp2.zero).add twistB :=
  Fp2.no_root _ (by decide +kernel) y

/-- The identity in both forms, half words at and above p, (1, 1, 1, 1) off the twist, ns on it and outside G2. -/
theorem test_witness_G2Decoders :
    InRange (.g2Decu 252 3968) ∧ InRange (.g2Decc 252 4032) ∧
    (wireTop [0, 0, 0, p]).iobuf.beAt (3968 + 32 * 3) 32 = p ∧
    (Fp2.mk 1 1).mul ⟨1, 1⟩ ≠ (((Fp2.mk 1 1).mul ⟨1, 1⟩).mul ⟨1, 1⟩).add twistB ∧
    (pts.fp2 246).mul (pts.fp2 246) = (((pts.fp2 244).mul (pts.fp2 244)).mul (pts.fp2 244)).add twistB ∧
    (Point.aff (pts.fp2 244) (pts.fp2 246)).smul fp2Ops Config.r ≠ .inf ∧
    (wireTop [2 ^ 255, 1]).iobuf.beAt 4032 32 = 2 ^ 255 ∧ (wireTop [2 ^ 255, 1]).iobuf.beAt (4032 + 32) 32 = 1 ∧
    (wireTop [2 ^ 255, 0]).iobuf.beAt (4032 + 32) 32 = 0 ∧ Config.p % 2 ^ 254 = Config.p ∧
    ∀ y : Fp2, ¬(y.canonical ∧ y.mul y = ((Fp2.zero.mul Fp2.zero).mul Fp2.zero).add twistB) := by
  refine ⟨inRange_of (by decide), inRange_of (by decide), by decide +kernel, by decide +kernel, by decide +kernel, ?_,
    by decide +kernel, by decide +kernel, by decide +kernel, by decide +kernel, fun y hy => no_root_at_zero y hy.2⟩
  rw [show Point.aff (pts.fp2 244) (pts.fp2 246) = pts.g2 244 by decide +kernel]
  exact test_ns_outside.2

theorem test_witness_G2Encoders :
    pts.Inv ∧ onCurve2 (pts.g2 250) = true ∧ Ready (.g2Encu 250 3968) pts ∧ Ready (.g2Encc 250 4032) pts ∧
    onCurve2 (pts.g2 0) = true ∧ pts.g2 0 = .inf ∧ Ready (.g2Encu 0 0) pts ∧ Ready (.g2Encc 0 0) pts :=
  ⟨pts_inv, by decide +kernel, ready_of pts_written (by decide +kernel), ready_of pts_written (by decide +kernel), by decide +kernel, by decide +kernel,
    ready_of pts_written (by decide +kernel), ready_of pts_written (by decide +kernel)⟩

theorem test_witness_DecodedPointsValid :
    (∃ t, exec (.g1Decu 254 4032) (wireTop [1, 2]) = .next t ∧ t.done = true) ∧
    (∃ t, exec (.g1Decc 254 4064) (wireTop [1]) = .next t ∧ t.done = true) ∧
    (∃ t, exec (.g2Decu 252 3968) (wireTop [0, 0, 0, 0]) = .next t ∧ t.done = true) ∧
    (∃ t, exec (.g2Decc 252 4032) (wireTop [2 ^ 255, 0]) = .next t ∧ t.done = true) ∧ (wireTop [1]).done = false :=
  ⟨⟨_, rfl, by decide +kernel⟩, ⟨_, rfl, by decide +kernel⟩, ⟨_, rfl, by decide +kernel⟩, ⟨_, rfl, by decide +kernel⟩, rfl⟩

theorem test_witness_RoundTrip :
    pts.Inv ∧ Ready (.fpEnc 255 4064) pts ∧ InRange (.fpDec 0 4064) ∧ Ready (.f2Enc 254 4032) pts ∧ InRange (.f2Dec 0 4032) ∧
    Ready (.g1Encu 254 4032) pts ∧ onCurve1 (pts.g1 254) = true ∧ InRange (.g1Decu 0 4032) ∧
    Ready (.g1Encc 254 4064) pts ∧ InRange (.g1Decc 0 4064) ∧
    Ready (.g2Encu 0 3968) pts ∧ inSub2 (pts.g2 0) = true ∧ InRange (.g2Decu 252 3968) ∧
    Ready (.g2Encc 0 4032) pts ∧ InRange (.g2Decc 252 4032) ∧
    Ready (.g2Encu 244 3968) pts ∧ onCurve2 (pts.g2 244) = true ∧ inSub2 (pts.g2 244) = false :=
  ⟨pts_inv, ready_of pts_written (by decide +kernel), inRange_of (by decide), ready_of pts_written (by decide +kernel), inRange_of (by decide),
    ready_of pts_written (by decide +kernel), by decide +kernel, inRange_of (by decide), ready_of pts_written (by decide +kernel), inRange_of (by decide),
    ready_of pts_written (by decide +kernel), by decide +kernel, inRange_of (by decide), ready_of pts_written (by decide +kernel), inRange_of (by decide),
    ready_of pts_written (by decide +kernel), test_ns_outside.1, by rw [inSub2, test_ns_outside.1, decide_eq_false test_ns_outside.2]; rfl⟩

end Sys2Proof.Tests
end

section
/-! PROOFS. What any command can write, said once for all 73: the error record or the commit of an effect that stays within the command's
windows and writes integers in [0, p); the frame of every command follows. -/

namespace Sys2Proof.Machine

variable {α β : Type}

/-! ### Answers: an error, or a value with a property -/

/-- The answer is an error, or a value with the property `P`. -/
def Answers (P : β → Prop) (r : Except ErrKind β) : Prop := ∀ y, r = .ok y → P y

variable {P : β → Prop}

theorem answers_ok {y : β} (h : P y) : Answers P (.ok y) := fun _ e => Except.ok.inj e ▸ h

theorem answers_error (k : ErrKind) : Answers P (.error k) := nofun

/-- A check that lets the answer through when it holds. -/
theorem answers_guard {c : Prop} [Decidable c] {r : Except ErrKind β} {k : ErrKind} (h : c → Answers P r) :
    Answers P (if c then r else .error k) := by
  split
  · exact h ‹_›
  · exact answers_error k

/-- A check that lets the answer through when it fails. -/
theorem answers_guard_not {c : Prop} [Decidable c] {r : Except ErrKind β} {k : ErrKind} (h : ¬c → Answers P r) :
    Answers P (if c then .error k else r) := by
  split
  · exact answers_error k
  · exact h ‹_›

theorem answers_onG1 {op : Point Nat → β} {Q : Point Nat} (h : P (op Q)) : Answers P (onG1 op Q) :=
  answers_guard fun _ => answers_ok h

theorem answers_onG2 {op : Point Fp2 → β} {Q : Point Fp2} (h : P (op Q)) : Answers P (onG2 op Q) :=
  answers_guard fun _ => answers_ok h

theorem answers_nonzero [DecidableEq β] {zero : β} {op : β → β} {x : β} (h : P (op x)) : Answers P (nonzero zero op x) :=
  answers_guard_not fun _ => answers_ok h

/-! ### Views of canonical registers are canonical -/

variable {s : State} {b : Nat}

/-- Registers at an offset in canonical registers. -/
theorem CanonicalRegs.sub {n : Nat} (h : CanonicalRegs s b n) (k m : Nat) (hk : k + m ≤ n) : CanonicalRegs s (b + k) m := fun j hj => by
  rw [Nat.add_assoc]
  exact h (k + j) (by omega)

theorem canonical_fp2 (h : CanonicalRegs s b 2) : (s.fp2 b).canonical := ⟨h 0 (by decide), h 1 (by decide)⟩

theorem canonical_fp6 (h : CanonicalRegs s b 6) : (s.fp6 b).canonical :=
  ⟨canonical_fp2 (h.sub 0 2 (by decide)), canonical_fp2 (h.sub 2 2 (by decide)), canonical_fp2 (h.sub 4 2 (by decide))⟩

theorem canonical_fp12 (h : CanonicalRegs s b 12) : (s.fp12 b).canonical :=
  ⟨canonical_fp6 (h.sub 0 6 (by decide)), canonical_fp6 (h.sub 6 6 (by decide))⟩

theorem canonical_g1 (h : CanonicalRegs s b 2) : canonical1 (s.g1 b) := by
  unfold State.g1 pointOf1
  split
  · trivial
  · exact ⟨h 0 (by decide), h 1 (by decide)⟩

theorem canonical_g2 (h : CanonicalRegs s b 4) : canonical2 (s.g2 b) := by
  unfold State.g2 pointOf2
  split
  · trivial
  · exact ⟨canonical_fp2 (h.sub 0 2 (by decide)), canonical_fp2 (h.sub 2 2 (by decide))⟩

/-! ### The registers a view writes -/

/-- Register contents in [0, p). -/
def CanonicalElems (xs : List Elem) : Prop := ∀ x ∈ xs, x.toNat < Config.p

theorem canonicalElems_append {xs ys : List Elem} (hx : CanonicalElems xs) (hy : CanonicalElems ys) : CanonicalElems (xs ++ ys) := fun x h =>
  (List.mem_append.1 h).elim (hx x) (hy x)

theorem canonicalElems_elemOf {x : Nat} (h : x < Config.p) : CanonicalElems [elemOf x] := by
  have := p_lt
  simpa [CanonicalElems, elemOf_toNat x (by omega)] using h

theorem Fp2.canonicalElems_regs {a : Fp2} (h : a.canonical) : CanonicalElems a.regs :=
  canonicalElems_append (canonicalElems_elemOf h.1) (canonicalElems_elemOf h.2)

theorem Fp6.canonicalElems_regs {c : Fp6} (h : c.canonical) : CanonicalElems c.regs :=
  canonicalElems_append (canonicalElems_append (Fp2.canonicalElems_regs h.1) (Fp2.canonicalElems_regs h.2.1)) (Fp2.canonicalElems_regs h.2.2)

/-- A view writes as many registers as it has, and elements of `C` as integers in [0, p). -/
structure View.Writes (W : View β) (C : β → Prop) : Prop where
  length : ∀ y, (W.write y).length = W.size
  canonical : ∀ y, C y → CanonicalElems (W.write y)

theorem fpView_writes : fpView.Writes (· < Config.p) := ⟨fun _ => rfl, fun _ => canonicalElems_elemOf⟩

theorem f2View_writes : f2View.Writes Fp2.canonical := ⟨fun _ => rfl, fun _ => Fp2.canonicalElems_regs⟩

theorem f6View_writes : f6View.Writes Fp6.canonical := ⟨fun _ => rfl, fun _ => Fp6.canonicalElems_regs⟩

theorem f12View_writes : f12View.Writes Fp12.canonical :=
  ⟨fun _ => rfl, fun _ h => canonicalElems_append (Fp6.canonicalElems_regs h.1) (Fp6.canonicalElems_regs h.2)⟩

/-- The registers of O are 0. -/
theorem canonicalElems_zeros (n : Nat) : CanonicalElems (List.replicate n 0) := fun _ h => List.eq_of_mem_replicate h ▸ p_pos

theorem g1View_writes : g1View.Writes canonical1 where
  length := length_regsOf1
  canonical
    | .inf, _ => canonicalElems_zeros 2
    | .aff _ _, h => canonicalElems_append (canonicalElems_elemOf h.1) (canonicalElems_elemOf h.2)

theorem g2View_writes : g2View.Writes canonical2 where
  length := length_regsOf2
  canonical
    | .inf, _ => canonicalElems_zeros 4
    | .aff _ _, h => canonicalElems_append (Fp2.canonicalElems_regs h.1) (Fp2.canonicalElems_regs h.2)

/-- A Jacobian triple with its coordinates in `C`. -/
def Jacobian.In {K : Type} (C : K → Prop) (J : Jacobian K) : Prop := C J.x ∧ C J.y ∧ C J.z

theorem j1View_writes : j1View.Writes (Jacobian.In (· < Config.p)) :=
  ⟨fun _ => rfl, fun _ ⟨hx, hy, hz⟩ =>
    canonicalElems_append (canonicalElems_elemOf hx) (canonicalElems_append (canonicalElems_elemOf hy) (canonicalElems_elemOf hz))⟩

theorem j2View_writes : j2View.Writes (Jacobian.In Fp2.canonical) :=
  ⟨fun _ => rfl, fun _ ⟨hx, hy, hz⟩ =>
    canonicalElems_append (canonicalElems_append (Fp2.canonicalElems_regs hx) (Fp2.canonicalElems_regs hy)) (Fp2.canonicalElems_regs hz)⟩

theorem canonicalElems_regList {n : Nat} (h : CanonicalRegs s b n) : CanonicalElems (s.regList b n) := fun x hx => by
  obtain ⟨k, hk, rfl⟩ := List.mem_map.1 hx
  exact h k (List.mem_range.1 hk)

/-! ### Curve and pairing results are canonical -/

theorem pointIn_canonical1 (Q : Point Nat) : PointIn (· < Config.p) Q ↔ canonical1 Q := by cases Q <;> rfl

theorem canonical1_add {Q S : Point Nat} (hQ : canonical1 Q) (hS : canonical1 S) : canonical1 (Q.add fpOps S) := by
  have := fact_p
  exact (pointIn_canonical1 _).1 (pointIn_add models_fp ((pointIn_canonical1 Q).2 hQ) ((pointIn_canonical1 S).2 hS))

theorem canonical2_add {Q S : Point Fp2} (hQ : canonical2 Q) (hS : canonical2 S) : canonical2 (Q.add fp2Ops S) := by
  have := fact_p
  have := fact_k2
  exact (pointIn_canonical2 _).1 (pointIn_add models_fp2 ((pointIn_canonical2 Q).2 hQ) ((pointIn_canonical2 S).2 hS))

theorem canonical1_smul {Q : Point Nat} (hQ : canonical1 Q) (k : Nat) : canonical1 (Q.smul fpOps k) := by
  have := fact_p
  exact (pointIn_canonical1 _).1 (pointIn_smul models_fp ((pointIn_canonical1 Q).2 hQ) k)

theorem canonical2_smul {Q : Point Fp2} (hQ : canonical2 Q) (k : Nat) : canonical2 (Q.smul fp2Ops k) := by
  have := fact_p
  have := fact_k2
  exact (pointIn_canonical2 _).1 (pointIn_smul models_fp2 ((pointIn_canonical2 Q).2 hQ) k)

theorem canonical1_neg {Q : Point Nat} (h : canonical1 Q) : canonical1 (Q.neg fpOps) := by
  cases Q with
  | inf => exact h
  | aff x y => exact ⟨h.1, fpNeg_lt y⟩

theorem canonical2_neg {Q : Point Fp2} (h : canonical2 Q) : canonical2 (Q.neg fp2Ops) := by
  cases Q with
  | inf => exact h
  | aff x y => exact ⟨h.1, Fp2.canonical_neg y⟩

theorem toJac_in1 {Q : Point Nat} (h : canonical1 Q) : (Q.toJac fpOps).In (· < Config.p) := by
  have one_lt : 1 < Config.p := by decide
  cases Q with
  | inf => exact ⟨one_lt, one_lt, p_pos⟩
  | aff x y => exact ⟨h.1, h.2, one_lt⟩

theorem toJac_in2 {Q : Point Fp2} (h : canonical2 Q) : (Q.toJac fp2Ops).In Fp2.canonical := by
  cases Q with
  | inf => exact ⟨Fp2.canonical_one, Fp2.canonical_one, Fp2.canonical_zero⟩
  | aff x y => exact ⟨h.1, h.2, Fp2.canonical_one⟩

theorem canonical1_toAff (J : Jacobian Nat) : canonical1 (J.toAff fpOps) := by
  unfold Jacobian.toAff
  split
  · trivial
  · exact ⟨fpMul_lt _ _, fpMul_lt _ _⟩

theorem canonical2_toAff (J : Jacobian Fp2) : canonical2 (J.toAff fp2Ops) := by
  unfold Jacobian.toAff
  split
  · trivial
  · exact ⟨Fp2.canonical_mul _ _, Fp2.canonical_mul _ _⟩

/-- miller(P, Q) is 1 or a product (44_pairing.md R282). -/
theorem Fp12.canonical_miller (Q : Point Nat) (S : Point Fp2) : (miller Q S).canonical := by
  cases Q with
  | inf => exact Fp12.canonical_one
  | aff x y =>
    cases S with
    | inf => exact Fp12.canonical_one
    | aff x' y' => exact Fp12.canonical_mul _ _

/-! ### Decoders answer canonical values, encoders byte strings of their length -/

theorem decFp_lt (xs : List Byte) : Answers (· < Config.p) (decFp xs) := answers_guard fun h => answers_ok h

theorem decScalar_lt (xs : List Byte) : Answers (· < Config.p) (decScalar xs) :=
  answers_guard fun h => answers_ok (lt_trans h (by decide))

theorem fp2OfHalves_canonical (ord : Bool) (h0 h1 : Nat) : Answers Fp2.canonical (fp2OfHalves ord h0 h1) :=
  answers_guard fun hlt0 => answers_guard fun hlt1 => answers_ok (by
    cases ord
    · exact ⟨hlt0, hlt1⟩
    · exact ⟨hlt1, hlt0⟩)

theorem decFp2_canonical (ord : Bool) (xs : List Byte) : Answers Fp2.canonical (decFp2 ord xs) := fp2OfHalves_canonical _ _ _

theorem requireSub2_canonical {Q : Point Fp2} (h : canonical2 Q) : Answers canonical2 (requireSub2 Q) :=
  answers_guard fun _ => answers_ok h

theorem selectRoot1_lt (x : Nat) (sign : Bool) : Answers (· < Config.p) (selectRoot fpNeg fpSgn (fpSqrt (rhs1 x)) sign) := by
  obtain ⟨-, hr⟩ | ⟨y, hy, -, -, hr⟩ := selectRoot1 x sign <;> rw [hr]
  · exact answers_error _
  · exact answers_ok hy

theorem selectRoot2_canonical (x : Fp2) (sign : Bool) : Answers Fp2.canonical (selectRoot Fp2.neg Fp2.sgn (rhs2 x).sqrt sign) := by
  obtain ⟨-, hr⟩ | ⟨y, hy, -, -, hr⟩ := selectRoot2 x sign <;> rw [hr]
  · exact answers_error _
  · exact answers_ok hy

theorem decG1U_canonical (xs : List Byte) : Answers canonical1 (decG1U xs) := by
  unfold decG1U
  split
  · exact answers_error _
  · rename_i x hx
    split
    · exact answers_error _
    · rename_i y hy
      split
      · exact answers_ok trivial
      · exact answers_guard fun _ => answers_ok ⟨decFp_lt _ x hx, decFp_lt _ y hy⟩

theorem decG1C_canonical (xs : List Byte) : Answers canonical1 (decG1C xs) := by
  unfold decG1C
  extract_lets h x
  split
  · exact answers_guard_not fun _ => answers_ok trivial
  · refine answers_guard fun hx => ?_
    split
    · exact answers_error _
    · rename_i y hy
      exact answers_ok ⟨hx, selectRoot1_lt _ _ y hy⟩

theorem decG2U_canonical (ord : Bool) (xs : List Byte) : Answers canonical2 (decG2U ord xs) := by
  unfold decG2U
  split
  · exact answers_error _
  · rename_i x hx
    split
    · exact answers_error _
    · rename_i y hy
      split
      · exact answers_ok trivial
      · exact answers_guard fun _ => requireSub2_canonical ⟨decFp2_canonical _ _ x hx, decFp2_canonical _ _ y hy⟩

/-- Of the square root only what the root selection answers matters; as a variable `root` it is not evaluated. -/
theorem decG2C_canonical (ord : Bool) (xs : List Byte) : Answers canonical2 (decG2C ord xs) := by
  have hroot := selectRoot2_canonical
  unfold decG2C
  obtain ⟨root, hr⟩ : ∃ root, root = Fp2.sqrt := ⟨_, rfl⟩
  rw [← hr] at hroot ⊢
  extract_lets h0 h1
  split
  · exact answers_guard_not fun _ => answers_ok trivial
  · split
    · exact answers_error _
    · rename_i x hx
      split
      · exact answers_error _
      · rename_i y hy
        exact requireSub2_canonical ⟨fp2OfHalves_canonical _ _ _ x hx, hroot _ _ y hy⟩

/-- The byte string has length `n`. -/
def HasLength (n : Nat) (xs : List Byte) : Prop := xs.length = n

theorem encG1U_length (Q : Point Nat) : Answers (HasLength 64) (encG1U Q) := by
  unfold encG1U
  refine answers_guard fun _ => ?_
  cases Q
  · exact answers_ok (by simp [HasLength])
  · exact answers_ok (by simp [HasLength])

theorem encG1C_length (Q : Point Nat) : Answers (HasLength 32) (encG1C Q) := by
  unfold encG1C
  refine answers_guard fun _ => ?_
  cases Q
  · exact answers_ok (by simp [HasLength, compressedInf])
  · exact answers_ok (by simp [HasLength])

theorem encG2U_length (ord : Bool) (Q : Point Fp2) : Answers (HasLength 128) (encG2U ord Q) := by
  unfold encG2U
  refine answers_guard fun _ => ?_
  cases Q
  · exact answers_ok (by simp [HasLength])
  · exact answers_ok (by simp [HasLength])

theorem encG2C_length (ord : Bool) (Q : Point Fp2) : Answers (HasLength 64) (encG2C ord Q) := by
  unfold encG2C
  refine answers_guard fun _ => ?_
  cases Q
  · exact answers_ok (by simp [HasLength, compressedInf])
  · exact answers_ok (by simp [HasLength])

/-! ### One inversion lemma for all commands -/

/-- The effect writes the command's destination window, FLAG for a test, the command's byte range for an encoder (30_encoding.md R116). -/
def Effect.Within (i : Instr) : Effect → Prop
  | .nothing => True
  | .regs d xs => destinationOf i = some (d, xs.length)
  | .flag _ => isTest i = true
  | .bytes off xs => encodedRangeOf i = some (off, xs.length)

/-- The registers the effect writes hold integers in [0, p) (10_state.md R33). -/
def Effect.Canonical : Effect → Prop
  | .regs _ xs => CanonicalElems xs
  | .nothing | .flag _ | .bytes _ _ => True

/-- The registers the command reads hold integers in [0, p). -/
def SourcesCanonical (i : Instr) (s : State) : Prop := ∀ x ∈ sourcesOf i, CanonicalRegs s x.1 x.2

/-- An operation's answer that the command may commit: within its windows, and canonical when its sources are. -/
def Lawful (i : Instr) (s : State) : Except ErrKind Effect → Prop :=
  Answers fun e => e.Within i ∧ (SourcesCanonical i s → e.Canonical)

/-- What a command may come to: an error record, or the commit of such an effect by a command that is ready. -/
def CommandOutcome (i : Instr) (s : State) (o : Host.Outcome State Fault Refusal) : Prop :=
  (∃ k, o = .next (s.raise k)) ∨
  ∃ e : Effect, o = .next (s.commit e) ∧ Ready i s ∧ e.Within i ∧ (SourcesCanonical i s → e.Canonical)

variable {i : Instr}

theorem SourcesCanonical.first (h : SourcesCanonical i s) {n : Nat} {ws : List (Nat × Nat)} (hi : sourcesOf i = (b, n) :: ws) :
    CanonicalRegs s b n :=
  h (b, n) (by simp [hi])

theorem SourcesCanonical.second (h : SourcesCanonical i s) {n : Nat} {w : Nat × Nat} {ws : List (Nat × Nat)}
    (hi : sourcesOf i = w :: (b, n) :: ws) : CanonicalRegs s b n :=
  h (b, n) (by simp [hi])

theorem perform_outcome {op : State → Except ErrKind Effect} (h : Lawful i s (op s)) :
    CommandOutcome i s (perform (windowsOf i) (sourcesOf i) op s) := by
  by_cases hr : InRange i
  · by_cases hw : SourcesWritten i s
    · rw [perform_ready s _ _ op hr hw]
      cases he : op s with
      | error k => exact .inl ⟨k, rfl⟩
      | ok e => exact .inr ⟨e, rfl, ⟨hr, hw⟩, h e he⟩
    · exact .inl ⟨_, by rw [perform, checked_unwritten s _ _ op hr hw]; rfl⟩
  · exact .inl ⟨_, by rw [perform, checked_range s _ _ op hr]; rfl⟩

/-- A command that writes a view at its destination. -/
theorem put_outcome {W : View β} {C : β → Prop} (hW : W.Writes C) {d : RegIdx} (hd : destinationOf i = some (d.toNat, W.size))
    {r : State → Except ErrKind β} (hr : SourcesCanonical i s → Answers C (r s)) :
    CommandOutcome i s (perform (windowsOf i) (sourcesOf i) (fun s => W.put d (r s)) s) := by
  refine perform_outcome ?_
  cases he : r s with
  | error k => exact answers_error k
  | ok y => exact answers_ok ⟨by rw [Effect.Within, hW.length, hd], fun hs => hW.canonical y (hr hs y he)⟩

/-- The copy of MOV: as many registers as its count says, canonical when the source is. -/
theorem lawful_copy {d a n : RegIdx} (hd : destinationOf i = some (d.toNat, n.toNat)) (hs : sourcesOf i = [(a.toNat, n.toNat)]) :
    Lawful i s (.ok (.regs d.toNat (s.regList a.toNat n.toNat))) :=
  answers_ok ⟨by rw [Effect.Within, length_regList, hd], fun h => canonicalElems_regList (h.first hs)⟩

theorem lawful_flag (h : isTest i = true) (c : Bool) : Lawful i s (.ok (.flag c)) := answers_ok ⟨h, fun _ => trivial⟩

theorem encode_outcome {V : View α} {len : Nat} {op : Bool → α → Except ErrKind (List Byte)} {r : RegIdx} {off : Half}
    (hw : windowsOf i = [V.extent r, .iobuf off.toNat len]) (hs : sourcesOf i = [V.src r])
    (he : encodedRangeOf i = some (off.toNat, len)) (hop : ∀ ord x, Answers (HasLength len) (op ord x)) :
    CommandOutcome i s (cmdEncode V len op r off s) := by
  rw [cmdEncode, ← hw, ← hs]
  refine perform_outcome ?_
  split
  · rename_i xs hxs
    exact answers_ok ⟨by rw [Effect.Within, hop _ _ xs hxs, he], fun _ => trivial⟩
  · exact answers_error _

/-- Every command records an error, or commits an effect within its windows that is canonical when its sources are. -/
theorem exec_outcome (i : Instr) (s : State) : CommandOutcome i s (exec i s) := by
  cases i with
  | nop => exact perform_outcome (answers_ok ⟨trivial, fun _ => trivial⟩)
  | mov d a n => exact perform_outcome (lawful_copy rfl rfl)
  | ldi d imm => exact put_outcome fpView_writes rfl fun _ => answers_ok (lt_trans imm.isLt (by decide))
  | fpAdd d a b => exact put_outcome fpView_writes rfl fun _ => answers_ok (fpAdd_lt _ _)
  | fpSub d a b => exact put_outcome fpView_writes rfl fun _ => answers_ok (fpSub_lt _ _)
  | fpNeg d a => exact put_outcome fpView_writes rfl fun _ => answers_ok (fpNeg_lt _)
  | fpMul d a b | fpSqr d a => exact put_outcome fpView_writes rfl fun _ => answers_ok (fpMul_lt _ _)
  | fpInv d a => exact put_outcome fpView_writes rfl fun _ => answers_nonzero (fpInv_lt _)
  | f2Add d a b => exact put_outcome f2View_writes rfl fun _ => answers_ok (Fp2.canonical_add _ _)
  | f2Sub d a b => exact put_outcome f2View_writes rfl fun _ => answers_ok (Fp2.canonical_sub _ _)
  | f2Neg d a => exact put_outcome f2View_writes rfl fun _ => answers_ok (Fp2.canonical_neg _)
  | f2Mul d a b | f2Sqr d a => exact put_outcome f2View_writes rfl fun _ => answers_ok (Fp2.canonical_mul _ _)
  | f2Inv d a => exact put_outcome f2View_writes rfl fun _ => answers_nonzero (Fp2.canonical_inv _)
  | f2Conj d a => exact put_outcome f2View_writes rfl fun h => answers_ok (Fp2.canonical_conj _ (canonical_fp2 (h.first rfl)))
  | f6Add d a b => exact put_outcome f6View_writes rfl fun _ => answers_ok (Fp6.canonical_add _ _)
  | f6Sub d a b => exact put_outcome f6View_writes rfl fun _ => answers_ok (Fp6.canonical_sub _ _)
  | f6Neg d a => exact put_outcome f6View_writes rfl fun _ => answers_ok (Fp6.canonical_neg _)
  | f6Mul d a b | f6Sqr d a => exact put_outcome f6View_writes rfl fun _ => answers_ok (Fp6.canonical_mul _ _)
  | f6Inv d a => exact put_outcome f6View_writes rfl fun _ => answers_nonzero (Fp6.canonical_inv _)
  | f12Add d a b => exact put_outcome f12View_writes rfl fun _ => answers_ok (Fp12.canonical_add _ _)
  | f12Sub d a b => exact put_outcome f12View_writes rfl fun _ => answers_ok (Fp12.canonical_sub _ _)
  | f12Neg d a => exact put_outcome f12View_writes rfl fun _ => answers_ok (Fp12.canonical_neg _)
  | f12Mul d a b | f12Sqr d a | f12Spmul d a b => exact put_outcome f12View_writes rfl fun _ => answers_ok (Fp12.canonical_mul _ _)
  | f12Inv d a => exact put_outcome f12View_writes rfl fun _ => answers_nonzero (Fp12.canonical_inv _)
  | f12Conj d a => exact put_outcome f12View_writes rfl fun h => answers_ok (Fp12.canonical_conj _ (canonical_fp12 (h.first rfl)))
  | f12Frob d a k => exact put_outcome f12View_writes rfl fun h => answers_ok (Fp12.canonical_frobPow _ (canonical_fp12 (h.first rfl)) _)
  | f12One d => exact put_outcome f12View_writes rfl fun _ => answers_ok Fp12.canonical_one
  | g1Add d a b =>
    exact put_outcome g1View_writes rfl fun h => answers_guard fun _ =>
      answers_onG1 (canonical1_add (canonical_g1 (h.first rfl)) (canonical_g1 (h.second rfl)))
  | g1Dbl d a =>
    exact put_outcome g1View_writes rfl fun h =>
      answers_onG1 (canonical1_add (canonical_g1 (h.first rfl)) (canonical_g1 (h.first rfl)))
  | g1Neg d a => exact put_outcome g1View_writes rfl fun h => answers_onG1 (canonical1_neg (canonical_g1 (h.first rfl)))
  | g1Mul d a b => exact put_outcome g1View_writes rfl fun h => answers_onG1 (canonical1_smul (canonical_g1 (h.first rfl)) _)
  | g1Tojac d a => exact put_outcome j1View_writes rfl fun h => answers_onG1 (toJac_in1 (canonical_g1 (h.first rfl)))
  | g1Toaff d a => exact put_outcome g1View_writes rfl fun _ => answers_ok (canonical1_toAff _)
  | g2Add d a b =>
    exact put_outcome g2View_writes rfl fun h => answers_guard fun _ =>
      answers_onG2 (canonical2_add (canonical_g2 (h.first rfl)) (canonical_g2 (h.second rfl)))
  | g2Dbl d a =>
    exact put_outcome g2View_writes rfl fun h =>
      answers_onG2 (canonical2_add (canonical_g2 (h.first rfl)) (canonical_g2 (h.first rfl)))
  | g2Neg d a => exact put_outcome g2View_writes rfl fun h => answers_onG2 (canonical2_neg (canonical_g2 (h.first rfl)))
  | g2Mul d a b => exact put_outcome g2View_writes rfl fun h => answers_onG2 (canonical2_smul (canonical_g2 (h.first rfl)) _)
  | g2Tojac d a => exact put_outcome j2View_writes rfl fun h => answers_onG2 (toJac_in2 (canonical_g2 (h.first rfl)))
  | g2Toaff d a => exact put_outcome g2View_writes rfl fun _ => answers_ok (canonical2_toAff _)
  | miller d a b => exact put_outcome f12View_writes rfl fun _ => answers_guard fun _ => answers_onG2 (Fp12.canonical_miller _ _)
  | mlacc d a b => exact put_outcome f12View_writes rfl fun _ => answers_guard fun _ => answers_onG2 (Fp12.canonical_mul _ _)
  | fexp d a => exact put_outcome f12View_writes rfl fun _ => answers_nonzero (Fp12.canonical_pow _ _)
  | fpDec r off => exact put_outcome fpView_writes rfl fun _ => decFp_lt _
  | scDec r off => exact put_outcome fpView_writes rfl fun _ => decScalar_lt _
  | f2Dec r off => exact put_outcome f2View_writes rfl fun _ => decFp2_canonical _ _
  | g1Decu r off => exact put_outcome g1View_writes rfl fun _ => decG1U_canonical _
  | g1Decc r off => exact put_outcome g1View_writes rfl fun _ => decG1C_canonical _
  | g2Decu r off => exact put_outcome g2View_writes rfl fun _ => decG2U_canonical _ _
  | g2Decc r off => exact put_outcome g2View_writes rfl fun _ => decG2C_canonical _ _
  | fpEq a b | f2Eq a b | f6Eq a b | f12Eq a b | g1Eq a b | g2Eq a b => exact perform_outcome (lawful_flag rfl _)
  | f12Isone a | g1Isinf a | g1Oncrv a | g1Insub a | g2Isinf a | g2Oncrv a | g2Insub a => exact perform_outcome (lawful_flag rfl _)
  | fpEnc r off => exact encode_outcome rfl rfl rfl fun _ x => answers_ok (length_be32 x)
  | f2Enc r off => exact encode_outcome rfl rfl rfl fun ord x => answers_ok (length_wire2 ord x)
  | g1Encu r off => exact encode_outcome (op := fun _ => encG1U) rfl rfl rfl fun _ => encG1U_length
  | g1Encc r off => exact encode_outcome (op := fun _ => encG1C) rfl rfl rfl fun _ => encG1C_length
  | g2Encu r off => exact encode_outcome rfl rfl rfl encG2U_length
  | g2Encc r off => exact encode_outcome rfl rfl rfl encG2C_length

/-! ### The frame of a command -/

/-- A byte outside a write of one byte, in a memory of any form. -/
theorem Memory.read_write_ne (m : Memory) {a j : Nat} (x : Byte) (h : j ≠ a) : (m.write a x).read j = m.read j := by
  induction m with
  | nil => by_cases hx : x = unlistedByte <;> simp [Memory.write, Memory.read, hx, h]
  | cons c m ih =>
    obtain ⟨k, y⟩ := c
    rw [Memory.write]
    split_ifs with _ _ hk
    · rfl
    · rw [Memory.read, if_neg h]
    · rw [Memory.read, if_neg (hk ▸ h)]
    · rw [Memory.read, Memory.read, if_neg h, if_neg (hk ▸ h)]
    · rw [Memory.read, Memory.read, ih]

/-- A byte outside a written byte string, in a memory of any form. -/
theorem Memory.read_writeBytes_outside (m : Memory) (off : Nat) (xs : List Byte) {a : Nat} (h : a < off ∨ off + xs.length ≤ a) :
    (m.writeBytes off xs).read a = m.read a := by
  induction xs generalizing m off with
  | nil => rfl
  | cons x xs ih =>
    rw [List.length_cons] at h
    rw [Memory.writeBytes, ih _ _ (by omega), Memory.read_write_ne _ _ (by omega)]

/-- What an effect within a command's windows leaves as it was. -/
theorem Effect.Within.frame {e : Effect} (h : e.Within i) (s : State) :
    (∀ j : Nat, (∀ d n : Nat, destinationOf i = some (d, n) → j < d ∨ d + n ≤ j) →
      (s.apply e).reg j = s.reg j ∧ (s.apply e).valid j = s.valid j) ∧
    (isTest i = false → (s.apply e).flag = s.flag) ∧
    (∀ a : Nat, (∀ off n : Nat, encodedRangeOf i = some (off, n) → a < off ∨ off + n ≤ a) → (s.apply e).iobuf.read a = s.iobuf.read a) := by
  cases e with
  | nothing => exact ⟨fun _ _ => ⟨rfl, rfl⟩, fun _ => rfl, fun _ _ => rfl⟩
  | regs d xs => exact ⟨fun j hj => State.setRegs_other s d xs j (hj _ _ h), fun _ => by simp, fun _ _ => by simp⟩
  | flag c => exact ⟨fun _ _ => ⟨rfl, rfl⟩, fun ht => absurd (h.symm.trans ht) (by decide), fun _ _ => rfl⟩
  | bytes off xs =>
    exact ⟨fun _ _ => ⟨rfl, rfl⟩, fun _ => rfl, fun a ha => Memory.read_writeBytes_outside _ _ _ (ha _ _ h)⟩

/-- Settles O17: a command ends in an error record, which writes only the status, or in the commit of an effect within its windows. -/
theorem commandFrame : Obligations.CommandFrame := by
  intro i s t ht
  obtain ⟨k, hk⟩ | ⟨e, he, -, hw, -⟩ := exec_outcome i s
  · obtain rfl := Host.Outcome.next.inj (ht.symm.trans hk)
    exact ⟨fun _ _ => ⟨rfl, rfl⟩, fun _ => rfl, fun _ _ => rfl, rfl, rfl, rfl, rfl, rfl, rfl, rfl, rfl, fun _ _ => ⟨rfl, rfl, rfl, rfl, rfl⟩⟩
  · obtain rfl := Host.Outcome.next.inj (ht.symm.trans he)
    obtain ⟨hregs, hflag, hbytes⟩ := hw.frame s
    have c := completes_commit s e
    exact ⟨hregs, hflag, hbytes, c.fp2ord, c.ie, c.ovr, c.fp2ordCmd, c.agenda, c.rdata, c.busy, c.cur,
      fun h0 h1 => absurd (h0.symm.trans (c.errf.symm.trans h1)) (by decide)⟩

/-- Settles O19: stage 3 of 60_exceptions.md R354 finds the register whose valid bit is 0. -/
theorem unwrittenRegister : Obligations.UnwrittenRegister := by
  intro i s w hw hr ⟨x, hx, k, hk, hv⟩
  have hs : ¬SourcesWritten i s := fun h => absurd (hv.symm.trans (h x hx k hk)) (by decide)
  rw [exec_unwritten i s hr hs, raise_eq_raised s _ w hw]
  rfl

end Sys2Proof.Machine
end

section
/-! PROOFS. The invariant: at reset, and through every step. -/

namespace Sys2Proof.Machine

variable {s t : State} {i : Instr}

/-- The record of an error keeps the invariant while a command is in flight. -/
theorem State.Inv.raise (h : s.Inv) (hb : s.busy = true) (k : ErrKind) : (s.raise k).Inv where
  canonical := h.canonical
  iobuf_wf := h.iobuf_wf
  cur_busy := rfl
  done_errf := fun hd => absurd ((h.busy_idle hb).1.symm.trans hd.1) (by decide)
  busy_idle := nofun
  busy_ord := nofun
  clear_record := nofun
  legal_record := fun _ => by cases k <;> simp [legalErrcode, ErrKind.code]

/-- A valid register after a write of integers in [0, p) is one of them or was valid before. -/
theorem setRegs_canonical (h : ∀ j, s.valid j = true → s.fp j < Config.p) (b : Nat) {xs : List Elem} (hx : CanonicalElems xs) (j : Nat)
    (hj : (s.setRegs b xs).valid j = true) : (s.setRegs b xs).fp j < Config.p := by
  induction xs generalizing s b with
  | nil => exact h j hj
  | cons x xs ih =>
    refine ih (s := s.setReg b x) (fun j hj => ?_) (b + 1) (fun y hy => hx y (List.mem_cons_of_mem x hy)) hj
    rw [State.fp, State.reg_setReg]
    rw [State.valid_setReg] at hj
    split
    · exact hx x List.mem_cons_self
    · rename_i hn
      exact h j (by rwa [if_neg hn] at hj)

/-- The byte range of an encoder is one of its windows (30_encoding.md R116). -/
theorem encodedRange_mem_windows {off n : Nat} (h : encodedRangeOf i = some (off, n)) : Extent.iobuf off n ∈ windowsOf i := by
  cases i <;> simp_all [encodedRangeOf, windowsOf]

/-- A canonical effect of a ready command keeps registers canonical and IOBUF in its form. -/
theorem apply_canonical (h : s.Inv) {e : Effect} (hr : InRange i) (hw : e.Within i) (hc : e.Canonical) :
    (∀ j, (s.apply e).valid j = true → (s.apply e).fp j < Config.p) ∧ (s.apply e).iobuf.wf := by
  cases e with
  | nothing | flag => exact ⟨h.canonical, h.iobuf_wf⟩
  | regs b xs => exact ⟨setRegs_canonical h.canonical b hc, by simpa using h.iobuf_wf⟩
  | bytes off xs =>
    have hle := of_decide_eq_true (hr _ (encodedRange_mem_windows hw))
    exact ⟨h.canonical, Memory.wf_writeBytes _ _ _ h.iobuf_wf hle⟩

/-- A command in flight, whatever it is, keeps the invariant. -/
theorem exec_inv (h : s.Inv) (hb : s.busy = true) (ht : exec i s = .next t) : t.Inv := by
  obtain ⟨k, hk⟩ | ⟨e, he, ⟨hr, hs⟩, hw, hc⟩ := exec_outcome i s
  · obtain rfl := Host.Outcome.next.inj (ht.symm.trans hk)
    exact h.raise hb k
  · obtain rfl := Host.Outcome.next.inj (ht.symm.trans he)
    obtain ⟨hregs, hbytes⟩ := apply_canonical h hr hw (hc fun x hx => canonical_of_written h (hs x hx))
    have herr := (h.busy_idle hb).2
    exact {
      canonical := hregs
      iobuf_wf := hbytes
      cur_busy := rfl
      done_errf := fun hd => absurd (herr.symm.trans ((completes_commit s e).errf.symm.trans hd.2)) (by decide)
      busy_idle := nofun
      busy_ord := nofun
      clear_record := by simpa using h.clear_record
      legal_record := by simpa using h.legal_record }

theorem engineTurn_inv (h : s.Inv) (ht : engineTurn s = .next t) : t.Inv := by
  unfold engineTurn at ht
  split at ht
  · rename_i w hb hcur
    unfold execWord at ht
    split at ht
    · exact exec_inv h hb ht
    · obtain rfl := Host.Outcome.next.inj ht
      exact h.raise hb _
  · obtain rfl := Host.Outcome.next.inj ht
    exact h

theorem State.Inv.accept (h : s.Inv) (w : Word) : (s.accept w).Inv := by
  unfold State.accept
  split
  · exact { h with }
  · rename_i hn
    obtain ⟨-, herr⟩ : s.busy = false ∧ s.errf = false := by simpa using hn
    exact {
      canonical := h.canonical
      iobuf_wf := h.iobuf_wf
      cur_busy := rfl
      done_errf := nofun
      busy_idle := fun _ => ⟨rfl, herr⟩
      busy_ord := fun _ => rfl
      clear_record := h.clear_record
      legal_record := h.legal_record }

/-- No register is valid in a file of cleared valid bits. -/
theorem valid_of_cleared (h : s.v = Vector.replicate 256 false) (j : Nat) : s.valid j = false := by
  rw [State.valid, h, vector_getD, Vector.getElem?_replicate]
  split <;> rfl

/-- A CTRL write keeps the invariant: FP2ORD moves only while no command runs (70_reset_and_hazards.md R404). -/
theorem State.Inv.writeCtrl (h : s.Inv) (w : Word) : (s.writeCtrl w).Inv := by
  unfold State.writeCtrl
  split
  · exact {
      canonical := fun j hj => absurd ((valid_of_cleared rfl j).symm.trans hj) (by decide)
      iobuf_wf := h.iobuf_wf
      cur_busy := rfl
      done_errf := nofun
      busy_idle := nofun
      busy_ord := nofun
      clear_record := fun _ => ⟨rfl, rfl⟩
      legal_record := nofun }
  · exact { h with busy_ord := fun hb => (h.busy_ord hb).trans (if_pos hb).symm }

/-- A STATUS write keeps the invariant: ERRF, ERRCODE and ERRCMD are cleared together (60_exceptions.md R359). -/
theorem State.Inv.writeStatus (h : s.Inv) (w : Word) : (s.writeStatus w).Inv := by
  rw [State.writeStatus_eq]
  obtain ⟨canonical, iobuf_wf, cur_busy, done_errf, busy_idle, busy_ord, clear_record, legal_record⟩ := h
  constructor
  · exact canonical
  · exact iobuf_wf
  · exact cur_busy
  · simp only [Bool.and_eq_true]
    exact fun hd => done_errf ⟨hd.1.1, hd.2.1⟩
  · exact fun hb => by simp [busy_idle hb]
  · exact busy_ord
  · cases w.getLsbD 2
    · simpa using clear_record
    · simp
  · cases w.getLsbD 2
    · simpa using legal_record
    · simp

/-- Every host access and reset keeps the invariant. -/
theorem hostTurn_inv {a : Access} (h : s.Inv) (ht : hostTurn a s = .next t) : t.Inv := by
  obtain ⟨x, rfl⟩ | ⟨x, -, rfl⟩ | ⟨x, -, rfl⟩ | ⟨x, -, rfl⟩ | ⟨-, m, rfl, hm⟩ | ⟨draw, -, rfl⟩ | rfl := hostTurn_cases ht
  · exact { h with }
  · exact h.writeCtrl x
  · exact h.writeStatus x
  · exact h.accept x
  · exact { h with iobuf_wf := hm h.iobuf_wf }
  · exact Launch.inv (launch_hardReset s draw)
  · exact h

theorem State.Inv.setAgenda (h : s.Inv) (ts : List Turn) : State.Inv { s with agenda := ts } := { h with }

/-- Settles O9: the turn taken off the agenda is the engine's or the host's, and each keeps the invariant. -/
theorem stepKeepsInvariant : Obligations.StepKeepsInvariant := by
  intro s t h ht
  unfold step at ht
  split at ht
  · exact engineTurn_inv h ht
  · exact engineTurn_inv (h.setAgenda _) ht
  · exact hostTurn_inv (h.setAgenda _) ht

/-- Settles O8: a reset with any IOBUF in canonical form leaves a launch state; the empty draw leaves State.reset. -/
theorem resetInvariant : Obligations.ResetInvariant := by
  have inv (m : Memory) (hm : m.wf) : (State.resetWith m).Inv := Launch.inv { launch_hardReset .reset [] with iobuf_wf := hm }
  exact ⟨⟨inv [] Memory.wf_nil, inv⟩, [], rfl⟩

end Sys2Proof.Machine
end

section
/-! PROOFS. Resets, the control and status registers as the host reads and writes them, and the interrupt level. -/

namespace Sys2Proof.Machine

/-! ### Resets -/

/-- The bytes drawn at a hard reset are the ones IOBUF holds (70_reset_and_hazards.md R391). -/
theorem Memory.read_ofDraw (draw : List Byte) {a : Nat} (ha : a < Config.iobufSize) (hd : a < draw.length) :
    (Memory.ofDraw draw).read a = draw.getD a 0 := by
  rw [Memory.ofDraw, Memory.read_writeBytes _ _ _ Memory.wf_nil (by simp), if_pos (by simp; omega)]
  simp [List.getD, ha]

/-- Settles O6: what is left is a launch state with CTRL clear, and IOBUF holds the draw. -/
theorem hardReset : Obligations.HardReset := by
  intro s draw
  have h := launch_hardReset s draw
  exact ⟨_, rfl, h.valid, rfl, rfl, h.busy, h.done, h.errf, h.flag, h.ovr, h.errcode, h.errcmd, h.cur, rfl, rfl,
    fun a ha hd => Memory.read_ofDraw draw ha hd⟩

/-! ### Reads -/

/-- An aligned 32-bit access below 0x1000 goes to its register (20_memory.md R72). -/
theorem route_register {off : BitVec 13} (hlt : off.toNat < 0x1000) (hal : off.toNat % 4 = 0) :
    route .w32 off.toNat = some (.register off.toNat) := by
  rw [route, if_pos hal, if_neg (by simpa using hlt)]

theorem read_register (s : State) {off : BitVec 13} (hlt : off.toNat < 0x1000) (hal : off.toNat % 4 = 0) :
    hostTurn (.read .w32 off) s = .next { s with rdata := some (s.readRegister off.toNat) } := by
  rw [hostTurn, route_register hlt hal]
  rfl

theorem write_register (s : State) {off : BitVec 13} (x : Word) (hlt : off.toNat < 0x1000) (hal : off.toNat % 4 = 0) :
    hostTurn (.write .w32 off x) s = .next (s.writeRegister off.toNat x) := by
  rw [hostTurn, route_register hlt hal]
  rfl

/-- CTRL has FP2ORD at bit 1 and IE at bit 2 (10_state.md R37). -/
theorem State.ctrlWord_toNat (s : State) : s.ctrlWord.toNat = 2 * s.fp2ord.toNat + 4 * s.ie.toNat := by
  unfold State.ctrlWord
  cases s.fp2ord <;> cases s.ie <;> rfl

/-- STATUS has BUSY, DONE, ERRF, FLAG and OVR at bits 0 to 4 (10_state.md R38). -/
theorem State.statusWord_toNat (s : State) :
    s.statusWord.toNat = s.busy.toNat + 2 * s.done.toNat + 4 * s.errf.toNat + 8 * s.flag.toNat + 16 * s.ovr.toNat := by
  unfold State.statusWord
  generalize s.busy = b0
  generalize s.done = b1
  generalize s.errf = b2
  generalize s.flag = b3
  generalize s.ovr = b4
  revert b0 b1 b2 b3 b4
  decide

/-- Settles O21: the read returns what the register offset holds, by the offset. -/
theorem registerReads : Obligations.RegisterReads := by
  intro s off hlt hal
  refine ⟨_, read_register s hlt hal, ?_, ?_, ?_, ?_, ?_, ?_⟩
  · intro h; rw [h]; rfl
  · intro h; rw [h]; exact s.ctrlWord_toNat
  · intro h; rw [h]; exact s.statusWord_toNat
  · intro h
    have hc := s.errcode.isLt
    rw [h]
    exact (BitVec.toNat_setWidth ..).trans (Nat.mod_eq_of_lt (by omega))
  · intro h; rw [h]; rfl
  · intro h
    rw [State.readRegister] <;> omega

/-! ### Writes -/

/-- A bit of a word with one bit. -/
theorem getLsbD_bitAt (i k : Nat) (c : Bool) (hi : i < 32) : (bitAt i c).getLsbD k = (decide (k = i) && c) := by
  cases c
  · simp [bitAt]
  · have : k = i → k < 32 := fun h => h ▸ hi
    simp only [bitAt, if_true, BitVec.getLsbD_ofNat, Nat.testBit_two_pow, Bool.and_true, ← Bool.decide_and, eq_comm (a := i)]
    exact decide_eq_decide.2 (and_iff_right_of_imp this)

/-- A CTRL write with SRST = 0 (10_state.md R37). -/
theorem State.writeCtrl_update (s : State) {x : Word} (h : x.getLsbD 0 = false) :
    s.writeCtrl x = { s with ie := x.getLsbD 2, fp2ord := if s.busy then s.fp2ord else x.getLsbD 1 } :=
  if_neg (by rw [h]; decide)

/-- An idle engine with no error recorded accepts a CMD write (70_reset_and_hazards.md R400). -/
theorem State.accept_idle (s : State) (w : Word) (hb : s.busy = false) (he : s.errf = false) : s.accept w = s.latch w := by
  simp [State.accept, hb, he]

/-- Settles O22: a CTRL write is the soft reset or the update of IE and FP2ORD, and a read gives the two bits. -/
theorem controlWrites : Obligations.ControlWrites := by
  refine ⟨fun s x => rfl, fun s => ⟨_, rfl, fun k => ?_⟩, rfl, rfl⟩
  change s.ctrlWord.getLsbD k = _
  rw [State.ctrlWord, BitVec.getLsbD_or, getLsbD_bitAt _ _ _ (by decide), getLsbD_bitAt _ _ _ (by decide)]
  simp

/-- Settles O23: the STATUS write bit by bit; with the error cleared and the engine idle a CMD write is accepted; the other offsets have no
case in the register write. -/
theorem statusWrites : Obligations.StatusWrites := by
  refine ⟨fun s x => congrArg _ (s.writeStatus_eq x), fun s t x w hx hb ht => ?_, fun s off x hlt hal h4 h8 h14 => ?_⟩
  · obtain rfl := Host.Outcome.next.inj ht
    have ha := (s.writeStatus x).accept_idle w (by rw [State.writeStatus_eq, hb]) (by rw [State.writeStatus_eq, hx, Bool.not_true, Bool.and_false])
    refine ⟨(s.writeStatus x).accept w, rfl, ?_⟩
    rw [ha]
    exact ⟨rfl, rfl⟩
  · rw [write_register s x hlt hal, State.writeRegister] <;> assumption

/-! ### The interrupt level -/

theorem State.irq_iff (s : State) : s.irq = true ↔ s.ie = true ∧ (s.done = true ∨ s.errf = true) := by simp [State.irq]

/-- Every completion leaves IE alone and sets DONE or ERRF (70_reset_and_hazards.md R401). -/
theorem complete_irq (s : State) (r : Except ErrKind Effect) : (s.complete r).irq = s.ie := by
  cases r <;> simp [State.complete, State.irq]

/-- Settles O26: the level is its three bits, which a completion, an acceptance and the two writes set as the rules say. -/
theorem interruptLevel : Obligations.InterruptLevel := by
  refine ⟨State.irq_iff, fun s t w hb hc hie ht => ?_, fun s t w hb he ht => ?_, fun s t x h1 h2 ht => ?_, fun s t x h0 ht => ?_⟩
  · rw [engineTurn, hb, hc] at ht
    dsimp only at ht
    unfold execWord at ht
    split at ht
    · rename_i i _
      obtain ⟨r, hr⟩ := exec_next i s
      obtain rfl := Host.Outcome.next.inj (ht.symm.trans hr)
      rw [complete_irq, hie]
    · obtain rfl := Host.Outcome.next.inj ht
      exact (complete_irq s (.error _)).trans hie
  · obtain rfl := Host.Outcome.next.inj ht
    change (s.accept w).irq = false
    rw [s.accept_idle w hb he]
    simp [State.irq, he]
  · obtain rfl := Host.Outcome.next.inj ht
    change (s.writeStatus x).irq = false
    simp [State.writeStatus_eq, State.irq, h1, h2]
  · obtain rfl := Host.Outcome.next.inj ht
    change (x.getLsbD 2 = false → (s.writeCtrl x).irq = false) ∧ (x.getLsbD 2 = true → (s.writeCtrl x).irq = (s.done || s.errf))
    rw [s.writeCtrl_update h0]
    exact ⟨fun h2 => by simp only [State.irq, h2, Bool.false_and], fun h2 => by simp only [State.irq, h2, Bool.true_and]⟩

end Sys2Proof.Machine
end

section
/-! PROOFS. The host port: which accesses are admitted, and what an access to IOBUF reads and writes. -/

namespace Sys2Proof.Machine

/-! ### Admitted and refused accesses -/

/-- The accesses that 20_memory.md R73 refuses. -/
theorem route_eq_none_iff (wd : Width) (off : Nat) :
    route wd off = none ↔ wd = .w16 ∨ wd = .w64 ∨ (wd = .w32 ∧ off % 4 ≠ 0) ∨ (wd = .w8 ∧ off < 0x1000) := by
  cases wd with
  | w8 => simp [route]
  | w16 | w64 => simp [route]
  | w32 =>
    rw [route]
    by_cases h : off % 4 = 0
    · rw [if_pos h]
      split <;> simp [h]
    · simp [h]

section
variable {wd : Width} {off : BitVec 13} {g : Target}

theorem read_of_route (s : State) (h : route wd off.toNat = some g) :
    hostTurn (.read wd off) s = .next { s with rdata := some (s.readTarget g) } := by
  rw [hostTurn, h]

theorem write_of_route (s : State) (x : Word) (h : route wd off.toNat = some g) :
    hostTurn (.write wd off x) s = .next (s.writeTarget x g) := by
  rw [hostTurn, h]

theorem read_refused (s : State) (h : route wd off.toNat = none) : hostTurn (.read wd off) s = .fault .busError := by
  rw [hostTurn, h]

theorem write_refused (s : State) (x : Word) (h : route wd off.toNat = none) :
    hostTurn (.write wd off x) s = .fault .busError := by
  rw [hostTurn, h]

end

/-- Settles O25: an access is refused when it has no target, and one with a target takes its step. -/
theorem refusedAccess : Obligations.RefusedAccess := by
  intro s wd off x
  dsimp only
  rw [← route_eq_none_iff]
  refine ⟨fun h => ⟨read_refused s h, write_refused s x h⟩, fun h => ?_⟩
  obtain ⟨g, hg⟩ := Option.ne_none_iff_exists'.1 h
  exact ⟨⟨_, read_of_route s hg⟩, _, write_of_route s x hg⟩

/-! ### The lanes of a bus word -/

/-- The byte in bits [8i+7:8i] of a bus word (20_memory.md R75). -/
theorem lanesOf_toNat (x : Word) {i : Nat} (hi : i < 4) : ((lanesOf x).getD i 0).toNat = x.toNat / 2 ^ (8 * i) % 256 := by
  interval_cases i <;> simp [lanesOf, Nat.shiftRight_eq_div_pow]

/-- Appending a byte below a word. -/
theorem append_byte_toNat {n : Nat} (x : BitVec n) (y : Byte) : (x ++ y).toNat = 2 ^ 8 * x.toNat + y.toNat := by
  rw [BitVec.toNat_append, Nat.shiftLeft_eq, Nat.mul_comm, Nat.two_pow_add_eq_or_of_lt y.isLt]

theorem Memory.readLanes_toNat (m : Memory) (a : Nat) : (m.readLanes a).toNat =
    (m.read a).toNat + 2 ^ 8 * (m.read (a + 1)).toNat + 2 ^ 16 * (m.read (a + 2)).toNat + 2 ^ 24 * (m.read (a + 3)).toNat := by
  rw [Memory.readLanes]
  simp only [append_byte_toNat]
  omega

/-! ### Accesses to IOBUF -/

section
variable {s : State} {a : Nat}

/-- The window offset of IOBUF[a] (20_memory.md R71). -/
theorem iobufOffset_toNat (ha : a < 4096) : (BitVec.ofNat 13 (0x1000 + a)).toNat = 0x1000 + a := by
  rw [BitVec.toNat_ofNat, Nat.mod_eq_of_lt (by omega)]

theorem route_byte (ha : a < 4096) : route .w8 (BitVec.ofNat 13 (0x1000 + a)).toNat = some (.byte a) := by
  rw [iobufOffset_toNat ha, route, if_pos (by simp), Nat.add_sub_cancel_left]

theorem route_lanes (ha : a < 4096) (hal : a % 4 = 0) :
    route .w32 (BitVec.ofNat 13 (0x1000 + a)).toNat = some (.lanes a) := by
  rw [iobufOffset_toNat ha, route, if_pos (by omega), if_pos (by simp), Nat.add_sub_cancel_left]

/-- While BUSY = 1 an access to IOBUF reads 0 and drops the write (20_memory.md R76). -/
theorem iobufAccess_busy (hb : s.busy = true) (x : Word) {wd : Width} {off : BitVec 13} {g : Target}
    (h : route wd off.toNat = some g) (hg : g = .byte a ∨ g = .lanes a) :
    hostTurn (.read wd off) s = .next { s with rdata := some 0 } ∧ hostTurn (.write wd off x) s = .next s := by
  obtain ⟨hr, hw⟩ : s.readTarget g = 0 ∧ s.writeTarget x g = s := by
    obtain rfl | rfl := hg <;> exact ⟨if_pos hb, if_pos hb⟩
  rw [read_of_route s h, write_of_route s x h, hr, hw]
  exact ⟨rfl, rfl⟩

theorem readByte_toNat (hb : s.busy = false) : (s.readTarget (.byte a)).toNat = (s.iobuf.read a).toNat := by
  rw [State.readTarget, if_neg (by simp [hb]), BitVec.toNat_setWidth_of_le (by decide)]

theorem readWord_toNat (hb : s.busy = false) : (s.readTarget (.lanes a)).toNat =
    (s.iobuf.read a).toNat + 2 ^ 8 * (s.iobuf.read (a + 1)).toNat + 2 ^ 16 * (s.iobuf.read (a + 2)).toNat +
      2 ^ 24 * (s.iobuf.read (a + 3)).toNat := by
  rw [← Memory.readLanes_toNat]
  simp [State.readTarget, hb]

theorem writeByte_idle (hb : s.busy = false) (x : Word) :
    s.writeTarget x (.byte a) = { s with iobuf := s.iobuf.write a (x.setWidth 8) } :=
  if_neg (by simp [hb])

theorem writeWord_idle (hb : s.busy = false) (x : Word) :
    s.writeTarget x (.lanes a) = { s with iobuf := s.iobuf.writeBytes a (lanesOf x) } :=
  if_neg (by simp [hb])

end

/-- Settles O24: the target of the offset is the byte or the lanes at `a`; a write is read back by the laws of IOBUF. -/
theorem iobufPort : Obligations.IobufPort := by
  intro s a ha hwf
  dsimp only
  have byte := route_byte ha
  have lanes := route_lanes ha
  refine ⟨fun hb x => ?_, fun hb => ⟨⟨_, read_of_route s byte, readByte_toNat hb⟩, fun x => ?_, fun hal =>
    ⟨⟨_, read_of_route s (lanes hal), readWord_toNat hb⟩, fun x => ?_⟩⟩⟩
  · obtain ⟨hr, hw⟩ := iobufAccess_busy hb x byte (.inl rfl)
    exact ⟨hr, hw, fun hal => iobufAccess_busy hb x (lanes hal) (.inr rfl)⟩
  · refine ⟨_, (write_of_route s x byte).trans (congrArg _ (writeByte_idle hb x)), ?_, fun b hne => ?_⟩
    · rw [Memory.read_write _ _ _ _ hwf.1, if_pos rfl, BitVec.toNat_setWidth]
    · rw [Memory.read_write _ _ _ _ hwf.1, if_neg hne]
  · have hle : a + (lanesOf x).length ≤ Config.iobufSize := by
      change a + 4 ≤ 4096
      omega
    refine ⟨_, (write_of_route s x (lanes hal)).trans (congrArg _ (writeWord_idle hb x)), fun i hi => ?_, fun b hout => ?_⟩
    · rw [Memory.read_writeBytes _ _ _ hwf hle, if_pos ⟨by omega, Nat.add_lt_add_left hi a⟩, Nat.add_sub_cancel_left, lanesOf_toNat x hi]
    · rw [Memory.read_writeBytes _ _ _ hwf hle, if_neg]
      change ¬(a ≤ b ∧ b < a + 4)
      omega

end Sys2Proof.Machine
end

section
/-! PROOFS. The encoding: decoder and encoder are inverse to each other, and each word is one command or illegal for one reason. -/

namespace Sys2Proof.Machine

/-! ### Decoding an encoded command -/

section
variable {o : BitVec 8} {d a b : RegIdx} {half : Half} {i : Instr}

theorem decode_encodeR_ok (h : ∀ half, decodeFields o.toNat d a b half = .ok i) : decode (encodeR o d a b) = .ok i := by
  obtain ⟨half, hd⟩ := decode_encodeR o d a b
  rw [hd, h]

theorem decode_encodeH_ok (h : ∀ a b, decodeFields o.toNat d a b half = .ok i) : decode (encodeH o d half) = .ok i := by
  obtain ⟨a, b, hd⟩ := decode_encodeH o d half
  rw [hd, h]

end

/-- Settles O2: the decoder's fields are the encoder's, and the row of the opcode gives the command back; only MOV needs its count. -/
theorem decodeEncode : Obligations.DecodeEncode := by
  intro i hi
  cases i with
  | mov d a n =>
    have hn : n ≠ 0 := bne_iff_ne.1 hi
    exact decode_encodeR_ok fun _ => if_neg hn
  | ldi | fpDec | fpEnc | scDec | f2Dec | f2Enc | g1Decu | g1Encu | g1Decc | g1Encc | g2Decu | g2Encu | g2Decc | g2Encc =>
    exact decode_encodeH_ok fun _ _ => rfl
  | _ => exact decode_encodeR_ok fun _ => rfl

theorem decodes_of_encode_eq {i : Instr} {w : Word} (h : encode i = w) (hi : i.wellFormed = true) : decode w = .ok i ∧ encode i = w :=
  ⟨h ▸ decodeEncode i hi, h⟩

/-- Settles O1: each word is the encoding of its command, and decoding an encoding gives the command back. -/
theorem decodeExamples : Obligations.DecodeExamples :=
  ⟨decodes_of_encode_eq rfl rfl, decodes_of_encode_eq rfl rfl, decodes_of_encode_eq rfl rfl, decodes_of_encode_eq rfl rfl,
    decodes_of_encode_eq rfl rfl, decodes_of_encode_eq rfl rfl, decodes_of_encode_eq rfl rfl, decodes_of_encode_eq rfl rfl,
    decodes_of_encode_eq rfl rfl⟩

/-! ### The rows of 30_encoding.md R116 -/

/-- The opcodes of no row (30_encoding.md R117). -/
abbrev IllegalOpcode (o : Nat) : Prop :=
  (0x03 ≤ o ∧ o ≤ 0x0F) ∨ (0x17 ≤ o ∧ o ≤ 0x1F) ∨ (0x28 ≤ o ∧ o ≤ 0x2F) ∨ (0x37 ≤ o ∧ o ≤ 0x3F) ∨
    (0x4C ≤ o ∧ o ≤ 0x4F) ∨ (0x5A ≤ o ∧ o ≤ 0x5F) ∨ (0x6A ≤ o ∧ o ≤ 0x6F) ∨ (0x73 ≤ o ∧ o ≤ 0x7F) ∨ (0x8D ≤ o ∧ o ≤ 0xFF)

/-- The opcodes of every row but MOV, whose arm of the decoder tests its count. -/
def rowOpcodes : List Nat :=
  [0x00, 0x02, 0x10, 0x11, 0x12, 0x13, 0x14, 0x15, 0x16, 0x20, 0x21, 0x22, 0x23, 0x24, 0x25, 0x26, 0x27,
    0x30, 0x31, 0x32, 0x33, 0x34, 0x35, 0x36, 0x40, 0x41, 0x42, 0x43, 0x44, 0x45, 0x46, 0x47, 0x48, 0x49, 0x4A, 0x4B,
    0x50, 0x51, 0x52, 0x53, 0x54, 0x55, 0x56, 0x57, 0x58, 0x59, 0x60, 0x61, 0x62, 0x63, 0x64, 0x65, 0x66, 0x67, 0x68, 0x69,
    0x70, 0x71, 0x72, 0x80, 0x81, 0x82, 0x83, 0x84, 0x85, 0x86, 0x87, 0x88, 0x89, 0x8A, 0x8B, 0x8C]

theorem opcode_cases : ∀ o < 256, IllegalOpcode o ∨ o = 0x01 ∨ o ∈ rowOpcodes := by decide +kernel

/-- The opcodes whose field D is of kind "0". -/
def opcodesZeroD : List Nat := [0x00, 0x16, 0x27, 0x36, 0x47, 0x4B, 0x54, 0x55, 0x56, 0x57, 0x64, 0x65, 0x66, 0x67]

/-- The opcodes whose field A is of kind "0". -/
def opcodesZeroA : List Nat := [0x00, 0x4A]

/-- The opcodes whose field B is of kind "0". -/
def opcodesZeroB : List Nat :=
  [0x00, 0x12, 0x14, 0x15, 0x22, 0x24, 0x25, 0x26, 0x32, 0x34, 0x35, 0x42, 0x44, 0x45, 0x46, 0x4A, 0x4B,
    0x51, 0x52, 0x55, 0x56, 0x57, 0x58, 0x59, 0x61, 0x62, 0x65, 0x66, 0x67, 0x68, 0x69, 0x72]

section
variable (o : Nat) (d a b : RegIdx)

/-- The fields of kind "0" of a word with these fields. -/
def mustBeZero : List RegIdx :=
  (if o ∈ opcodesZeroD then [d] else []) ++ (if o ∈ opcodesZeroA then [a] else []) ++ (if o ∈ opcodesZeroB then [b] else [])

theorem exists_mustBeZero_iff : (∃ x ∈ mustBeZero o d a b, x ≠ 0) ↔
    (o ∈ opcodesZeroD ∧ d ≠ 0) ∨ (o ∈ opcodesZeroA ∧ a ≠ 0) ∨ (o ∈ opcodesZeroB ∧ b ≠ 0) := by
  unfold mustBeZero
  split_ifs <;> simp_all

/-- A row with a field of kind "0" is neither MOV nor LDI nor a codec row. -/
theorem opcode_of_mustBeZero (h : ∃ x ∈ mustBeZero o d a b, x ≠ 0) : o ∈ rowOpcodes ∧ o ≠ 0x02 ∧ o < 0x80 := by
  have hall : ∀ o ∈ opcodesZeroD ++ opcodesZeroA ++ opcodesZeroB, o ∈ rowOpcodes ∧ o ≠ 0x02 ∧ o < 0x80 := by decide
  refine hall o ?_
  obtain h | h | h := (exists_mustBeZero_iff o d a b).1 h <;> simp [h]

variable (half : Half)

/-- The word of a row's command: the half word for LDI and the codec rows, and else the three fields with those of kind "0" at 0. -/
def rowWord : Word :=
  if o = 0x02 ∨ 0x80 ≤ o then encodeH (BitVec.ofNat 8 o) d half
  else encodeR (BitVec.ofNat 8 o) (if o ∈ opcodesZeroD then 0 else d) (if o ∈ opcodesZeroA then 0 else a) (if o ∈ opcodesZeroB then 0 else b)

variable {o}

theorem decodeFields_illegal (h : IllegalOpcode o) : decodeFields o d a b half = .error .undefinedOpcode := by
  rw [decodeFields] <;> omega

/-- A row but MOV refuses a word for its fields of kind "0" alone, and otherwise reads the command whose word is the row's. -/
theorem decodeFields_row (h : o ∈ rowOpcodes) : ∃ i : Instr,
    decodeFields o d a b half = needZero (mustBeZero o d a b) i ∧ i.wellFormed = true ∧ encode i = rowWord o d a b half := by
  unfold rowOpcodes at h
  fin_cases h <;> exact ⟨_, rfl, rfl, rfl⟩

end

theorem needZero_ok {fs : List RegIdx} (h : ¬∃ x ∈ fs, x ≠ 0) (i : Instr) : needZero fs i = .ok i :=
  if_pos (by simpa using h)

theorem needZero_error {fs : List RegIdx} (h : ∃ x ∈ fs, x ≠ 0) (i : Instr) : needZero fs i = .error .fieldNotZero :=
  if_neg (by simpa using h)

/-! ### Each word is one command, or illegal for one reason -/

/-- The word is illegal for this reason (30_encoding.md R117, R118). -/
def Refuses (w : Word) : Reject → Prop
  | .undefinedOpcode => IllegalOpcode (fieldOpc w).toNat
  | .fieldNotZero => ∃ x ∈ mustBeZero (fieldOpc w).toNat (fieldD w) (fieldA w) (fieldB w), x ≠ 0
  | .movCountZero => (fieldOpc w).toNat = 0x01 ∧ fieldB w = 0

section
variable {w : Word} {e : Reject}

/-- With its fields of kind "0" at 0 a word is the row's. -/
theorem rowWord_fields (h : ¬Refuses w .fieldNotZero) :
    rowWord (fieldOpc w).toNat (fieldD w) (fieldA w) (fieldB w) (fieldHalf w) = w := by
  rw [Refuses, exists_mustBeZero_iff] at h
  push Not at h
  obtain ⟨hd, ha, hb⟩ := h
  rw [rowWord, BitVec.ofNat_toNat, BitVec.setWidth_eq, ite_eq_right_iff.2 fun h => (hd h).symm, ite_eq_right_iff.2 fun h => (ha h).symm,
    ite_eq_right_iff.2 fun h => (hb h).symm, encodeH_fields, encodeR_fields, ite_self]

theorem decode_error_of_refuses (h : Refuses w e) : decode w = .error e := by
  cases e with
  | undefinedOpcode => exact decodeFields_illegal _ _ _ _ h
  | fieldNotZero =>
    obtain ⟨i, hi, -⟩ := decodeFields_row (fieldD w) (fieldA w) (fieldB w) (fieldHalf w) (opcode_of_mustBeZero _ _ _ _ h).1
    exact hi.trans (needZero_error h i)
  | movCountZero =>
    obtain ⟨ho, hb⟩ := h
    rw [decode, ho]
    exact if_pos hb

theorem decode_ok_of_not_refuses (h : ∀ e, ¬Refuses w e) : ∃ i, decode w = .ok i ∧ i.wellFormed = true ∧ encode i = w := by
  obtain ho | ho | ho := opcode_cases _ (fieldOpc w).isLt
  · exact absurd ho (h .undefinedOpcode)
  · have hb : fieldB w ≠ 0 := fun hb => h .movCountZero ⟨ho, hb⟩
    have hopc : fieldOpc w = 0x01 := BitVec.eq_of_toNat_eq ho
    refine ⟨.mov (fieldD w) (fieldA w) (fieldB w), ?_, bne_iff_ne.2 hb, ?_⟩
    · rw [decode, ho]
      exact if_neg hb
    · rw [encode, ← hopc, encodeR_fields]
  · obtain ⟨i, hi, hwf, henc⟩ := decodeFields_row (fieldD w) (fieldA w) (fieldB w) (fieldHalf w) ho
    exact ⟨i, hi.trans (needZero_ok (h .fieldNotZero) i), hwf, henc.trans (rowWord_fields (h .fieldNotZero))⟩

/-- The decoder refuses a word exactly for the reason that holds of it. -/
theorem decode_error_iff : decode w = .error e ↔ Refuses w e := by
  refine ⟨fun h => ?_, decode_error_of_refuses⟩
  by_contra hn
  obtain ⟨i, hi, -⟩ := decode_ok_of_not_refuses fun e' he' =>
    hn (Except.error.inj (h.symm.trans (decode_error_of_refuses he')) ▸ he')
  exact nomatch h.symm.trans hi

/-- The completion of an illegal word records IllegalCommand and nothing else (60_exceptions.md R351, R356). -/
theorem engineTurn_illegal {s : State} (hb : s.busy = true) (hc : s.cur = some w) (h : Refuses w e) :
    engineTurn s = .next (s.raised w 0x08) := by
  rw [engineTurn, hb, hc]
  dsimp only
  rw [execWord, decode_error_of_refuses h]
  exact congrArg _ (raise_eq_raised s .illegalCommand w hc)

/-- LDI and the codec commands are never refused (30_encoding.md R118). -/
theorem not_refuses_of_half (h : (fieldOpc w).toNat = 0x02 ∨ (0x80 ≤ (fieldOpc w).toNat ∧ (fieldOpc w).toNat ≤ 0x8C)) : ¬Refuses w e := by
  cases e with
  | undefinedOpcode =>
    unfold Refuses IllegalOpcode
    omega
  | fieldNotZero =>
    intro hz
    obtain ⟨-, hldi, hcodec⟩ := opcode_of_mustBeZero _ _ _ _ hz
    omega
  | movCountZero =>
    unfold Refuses
    omega

end

/-- Settles O3: no reason to refuse the word holds, and so it is the encoding of the command it decodes to. -/
theorem encodeDecode : Obligations.EncodeDecode := by
  intro w i h
  obtain ⟨j, hj, hw⟩ := decode_ok_of_not_refuses fun e he => nomatch h.symm.trans (decode_error_of_refuses he)
  obtain rfl := Except.ok.inj (h.symm.trans hj)
  exact hw

/-! ### The reasons in the bits of the word -/

theorem refuses_undefinedOpcode_iff (w : Word) : Refuses w .undefinedOpcode ↔ IllegalOpcode (w.toNat % 256) := by
  rw [Refuses, fieldOpc_toNat]
  rfl

theorem refuses_fieldNotZero_iff (w : Word) : Refuses w .fieldNotZero ↔
    (w.toNat % 256 ∈ opcodesZeroD ∧ w.toNat / 2 ^ 8 % 256 ≠ 0) ∨ (w.toNat % 256 ∈ opcodesZeroA ∧ w.toNat / 2 ^ 16 % 256 ≠ 0) ∨
      (w.toNat % 256 ∈ opcodesZeroB ∧ w.toNat / 2 ^ 24 ≠ 0) := by
  rw [Refuses, exists_mustBeZero_iff, ← BitVec.toNat_ne_iff_ne, ← BitVec.toNat_ne_iff_ne, ← BitVec.toNat_ne_iff_ne, fieldOpc_toNat,
    fieldD_toNat, fieldA_toNat, fieldB_toNat]
  rfl

theorem refuses_movCountZero_iff (w : Word) : Refuses w .movCountZero ↔ w.toNat % 256 = 0x01 ∧ w.toNat / 2 ^ 24 = 0 := by
  rw [Refuses, ← BitVec.toNat_inj, fieldOpc_toNat, fieldB_toNat]
  rfl

/-- Settles O4: the ranges are the first reason to refuse a word. -/
theorem illegalOpcodes : Obligations.IllegalOpcodes := by
  intro w o illegal
  have hw : Refuses w .undefinedOpcode ↔ illegal := refuses_undefinedOpcode_iff w
  exact ⟨hw.symm.trans decode_error_iff.symm, fun s hb hc h => engineTurn_illegal hb hc (hw.2 h)⟩

theorem decode_eq_nop_iff (w : Word) : decode w = .ok .nop ↔ w = 0 :=
  ⟨fun h => (encodeDecode w .nop h).2.symm, fun h => h ▸ decodeEncode .nop rfl⟩

/-- Settles O5: the unused fields and the count of MOV are the two other reasons; LDI and codec words have none, and NOP is its encoding. -/
theorem unusedFields : Obligations.UnusedFields := by
  intro w o D A B zeroD zeroA zeroB unused noCount
  have hu : Refuses w .fieldNotZero ↔ unused := refuses_fieldNotZero_iff w
  have hn : Refuses w .movCountZero ↔ noCount := refuses_movCountZero_iff w
  refine ⟨hu.symm.trans decode_error_iff.symm, hn.symm.trans decode_error_iff.symm, fun s hb hc h => ?_, fun h => ?_, decode_eq_nop_iff w⟩
  · obtain h | h := h
    · exact engineTurn_illegal hb hc (hu.2 h)
    · exact engineTurn_illegal hb hc (hn.2 h)
  · obtain ⟨i, hi, -⟩ := decode_ok_of_not_refuses fun e => not_refuses_of_half (by rwa [fieldOpc_toNat])
    exact ⟨i, hi⟩

end Sys2Proof.Machine
end

section
/-! PROOFS. What stops a command: a window out of range, then an unwritten source, then an error its own operation may raise. -/

namespace Sys2Proof.Machine

section
variable {α β : Type}

/-! ### The errors of an operation -/

/-- If the answer is an error, it is one of `E`. -/
def FailsOnly (E : List ErrKind) (r : Except ErrKind β) : Prop := ∀ k, r = .error k → k ∈ E

variable {E : List ErrKind}

theorem failsOnly_ok (y : β) : FailsOnly E (.ok y) := nofun

theorem failsOnly_error {k : ErrKind} (h : k ∈ E) : FailsOnly E (.error k : Except ErrKind β) := fun _ e => Except.error.inj e ▸ h

/-- A check that lets the answer through when it holds. -/
theorem failsOnly_guard {c : Prop} [Decidable c] {r : Except ErrKind β} {k : ErrKind} (h : k ∈ E) (hr : FailsOnly E r) :
    FailsOnly E (if c then r else .error k) := by
  split
  · exact hr
  · exact failsOnly_error h

/-- A check that lets the answer through when it fails. -/
theorem failsOnly_guard_not {c : Prop} [Decidable c] {r : Except ErrKind β} {k : ErrKind} (h : k ∈ E) (hr : FailsOnly E r) :
    FailsOnly E (if c then .error k else r) := by
  split
  · exact failsOnly_error h
  · exact hr

theorem failsOnly_put {W : View β} {d : RegIdx} {r : Except ErrKind β} (h : FailsOnly E r) : FailsOnly E (W.put d r) := by
  cases r with
  | ok y => exact failsOnly_ok _
  | error k => exact failsOnly_error (h k rfl)

theorem failsOnly_onG1 (op : Point Nat → β) (Q : Point Nat) : FailsOnly [.invalidPoint] (onG1 op Q) :=
  failsOnly_guard (by decide) (failsOnly_ok _)

theorem failsOnly_onG2 (op : Point Fp2 → β) (Q : Point Fp2) : FailsOnly [.invalidPoint] (onG2 op Q) :=
  failsOnly_guard (by decide) (failsOnly_ok _)

theorem failsOnly_nonzero [DecidableEq β] (zero : β) (op : β → β) (x : β) : FailsOnly [.invalidFieldElement] (nonzero zero op x) :=
  failsOnly_guard_not (by decide) (failsOnly_ok _)

/-! ### The errors of the decoders and encoders -/

theorem decFp_failsOnly (h : .malformedEncoding ∈ E) (xs : List Byte) : FailsOnly E (decFp xs) :=
  failsOnly_guard h (failsOnly_ok _)

theorem decScalar_failsOnly (h : .malformedEncoding ∈ E) (xs : List Byte) : FailsOnly E (decScalar xs) :=
  failsOnly_guard h (failsOnly_ok _)

theorem fp2OfHalves_failsOnly (h : .malformedEncoding ∈ E) (ord : Bool) (h0 h1 : Nat) : FailsOnly E (fp2OfHalves ord h0 h1) :=
  failsOnly_guard h (failsOnly_guard h (failsOnly_ok _))

theorem decFp2_failsOnly (h : .malformedEncoding ∈ E) (ord : Bool) (xs : List Byte) : FailsOnly E (decFp2 ord xs) :=
  fp2OfHalves_failsOnly h _ _ _

theorem selectRoot_failsOnly (h : .invalidPoint ∈ E) (neg : β → β) (sgn : β → Bool) (root : Option β) (sign : Bool) :
    FailsOnly E (selectRoot neg sgn root sign) := by
  cases root with
  | none => exact failsOnly_error h
  | some y => exact failsOnly_ok _

theorem requireSub2_failsOnly (h : .invalidSubgroup ∈ E) (Q : Point Fp2) : FailsOnly E (requireSub2 Q) :=
  failsOnly_guard h (failsOnly_ok _)

theorem decG1U_failsOnly (xs : List Byte) : FailsOnly [.malformedEncoding, .invalidPoint] (decG1U xs) := by
  unfold decG1U
  split
  · rename_i k hk
    exact failsOnly_error (decFp_failsOnly (by decide) _ k hk)
  · split
    · rename_i k hk
      exact failsOnly_error (decFp_failsOnly (by decide) _ k hk)
    · split
      · exact failsOnly_ok _
      · exact failsOnly_guard (by decide) (failsOnly_ok _)

theorem decG1C_failsOnly (xs : List Byte) : FailsOnly [.malformedEncoding, .invalidPoint] (decG1C xs) := by
  unfold decG1C
  extract_lets h x
  split
  · exact failsOnly_guard_not (by decide) (failsOnly_ok _)
  · refine failsOnly_guard (by decide) ?_
    split
    · rename_i k hk
      exact failsOnly_error (selectRoot_failsOnly (by decide) _ _ _ _ k hk)
    · exact failsOnly_ok _

theorem decG2U_failsOnly (ord : Bool) (xs : List Byte) :
    FailsOnly [.malformedEncoding, .invalidPoint, .invalidSubgroup] (decG2U ord xs) := by
  unfold decG2U
  split
  · rename_i k hk
    exact failsOnly_error (decFp2_failsOnly (by decide) _ _ k hk)
  · split
    · rename_i k hk
      exact failsOnly_error (decFp2_failsOnly (by decide) _ _ k hk)
    · split
      · exact failsOnly_ok _
      · exact failsOnly_guard (by decide) (requireSub2_failsOnly (by decide) _)

/-- As a variable `root` the square root is not evaluated. -/
theorem decG2C_failsOnly (ord : Bool) (xs : List Byte) :
    FailsOnly [.malformedEncoding, .invalidPoint, .invalidSubgroup] (decG2C ord xs) := by
  unfold decG2C
  obtain ⟨root, hr⟩ : ∃ root, root = Fp2.sqrt := ⟨_, rfl⟩
  rw [← hr]
  extract_lets h0 h1
  split
  · exact failsOnly_guard_not (by decide) (failsOnly_ok _)
  · split
    · rename_i k hk
      exact failsOnly_error (fp2OfHalves_failsOnly (by decide) _ _ _ k hk)
    · split
      · rename_i k hk
        exact failsOnly_error (selectRoot_failsOnly (by decide) _ _ _ _ k hk)
      · exact requireSub2_failsOnly (by decide) _

theorem encG1U_failsOnly (Q : Point Nat) : FailsOnly [.invalidPoint] (encG1U Q) := by
  refine failsOnly_guard (by decide) ?_
  cases Q <;> exact failsOnly_ok _

theorem encG1C_failsOnly (Q : Point Nat) : FailsOnly [.invalidPoint] (encG1C Q) := by
  refine failsOnly_guard (by decide) ?_
  cases Q <;> exact failsOnly_ok _

theorem encG2U_failsOnly (ord : Bool) (Q : Point Fp2) : FailsOnly [.invalidPoint] (encG2U ord Q) := by
  refine failsOnly_guard (by decide) ?_
  cases Q <;> exact failsOnly_ok _

theorem encG2C_failsOnly (ord : Bool) (Q : Point Fp2) : FailsOnly [.invalidPoint] (encG2C ord Q) := by
  refine failsOnly_guard (by decide) ?_
  cases Q <;> exact failsOnly_ok _

/-! ### The stages of a command -/

/-- The kinds of stage 4 of 60_exceptions.md R354 among a command's exceptions. -/
def operationErrors (i : Instr) : List ErrKind := (exceptionsOf i).filter fun k => k ≠ .operandRange ∧ k ≠ .unwrittenRegister

/-- The outcome is the checks of the command's windows and sources, then an operation that fails only as the command's rule lists. -/
def RunsInStages (i : Instr) (s : State) (o : Host.Outcome State Fault Refusal) : Prop :=
  ∃ op, o = perform (windowsOf i) (sourcesOf i) op s ∧ FailsOnly (operationErrors i) (op s)

variable {i : Instr} {s : State}

theorem perform_stages {op : State → Except ErrKind Effect} (h : FailsOnly (operationErrors i) (op s)) :
    RunsInStages i s (perform (windowsOf i) (sourcesOf i) op s) :=
  ⟨op, rfl, h⟩

/-- A command that writes a view at its destination. -/
theorem put_stages {W : View β} {d : RegIdx} {r : State → Except ErrKind β} (h : FailsOnly (operationErrors i) (r s)) :
    RunsInStages i s (perform (windowsOf i) (sourcesOf i) (fun s => W.put d (r s)) s) :=
  perform_stages (failsOnly_put h)

theorem encode_stages {V : View α} {len : Nat} {op : Bool → α → Except ErrKind (List Byte)} {r : RegIdx} {off : Half}
    (hw : windowsOf i = [V.extent r, .iobuf off.toNat len]) (hs : sourcesOf i = [V.src r])
    (h : ∀ ord x, FailsOnly (operationErrors i) (op ord x)) : RunsInStages i s (cmdEncode V len op r off s) := by
  rw [cmdEncode, ← hw, ← hs]
  refine perform_stages ?_
  split
  · exact failsOnly_ok _
  · rename_i k hk
    exact failsOnly_error (h _ _ k hk)

/-- The operation of every command fails only as its rule lists. -/
theorem exec_stages (i : Instr) (s : State) : RunsInStages i s (exec i s) := by
  cases i with
  | fpInv | f2Inv | f6Inv | f12Inv | fexp => exact put_stages (failsOnly_nonzero _ _ _)
  | g1Add => exact put_stages (failsOnly_guard List.mem_cons_self (failsOnly_onG1 _ _))
  | g2Add | miller | mlacc => exact put_stages (failsOnly_guard List.mem_cons_self (failsOnly_onG2 _ _))
  | g1Dbl | g1Neg | g1Mul | g1Tojac => exact put_stages (failsOnly_onG1 _ _)
  | g2Dbl | g2Neg | g2Mul | g2Tojac => exact put_stages (failsOnly_onG2 _ _)
  | fpDec => exact put_stages (decFp_failsOnly List.mem_cons_self _)
  | scDec => exact put_stages (decScalar_failsOnly List.mem_cons_self _)
  | f2Dec => exact put_stages (decFp2_failsOnly List.mem_cons_self _ _)
  | g1Decu => exact put_stages (decG1U_failsOnly _)
  | g1Decc => exact put_stages (decG1C_failsOnly _)
  | g2Decu => exact put_stages (decG2U_failsOnly _ _)
  | g2Decc => exact put_stages (decG2C_failsOnly _ _)
  | fpEnc | f2Enc => exact encode_stages rfl rfl fun _ _ => failsOnly_ok _
  | g1Encu => exact encode_stages (op := fun _ => encG1U) rfl rfl fun _ => encG1U_failsOnly
  | g1Encc => exact encode_stages (op := fun _ => encG1C) rfl rfl fun _ => encG1C_failsOnly
  | g2Encu => exact encode_stages rfl rfl encG2U_failsOnly
  | g2Encc => exact encode_stages rfl rfl encG2C_failsOnly
  | _ => exact perform_stages (failsOnly_ok _)

/-- The one error a command records is that of its first failing stage (60_exceptions.md R354). -/
theorem exec_raises (i : Instr) (s : State) : (∃ e, exec i s = .next (s.commit e)) ∨ ∃ k, exec i s = .next (s.raise k) ∧
    ((k = .operandRange ∧ ¬InRange i) ∨ (k = .unwrittenRegister ∧ InRange i ∧ ¬SourcesWritten i s) ∨
      (k ∈ operationErrors i ∧ Ready i s)) := by
  by_cases hr : InRange i
  · by_cases hw : SourcesWritten i s
    · obtain ⟨op, hop, hf⟩ := exec_stages i s
      rw [hop, perform_ready s _ _ op hr hw]
      cases he : op s with
      | ok e => exact .inl ⟨e, rfl⟩
      | error k => exact .inr ⟨k, rfl, .inr (.inr ⟨hf k he, hr, hw⟩)⟩
    · exact .inr ⟨_, exec_unwritten i s hr hw, .inr (.inl ⟨rfl, hr, hw⟩)⟩
  · exact .inr ⟨_, exec_operandRange i s hr, .inl ⟨rfl, hr⟩⟩

theorem ne_operandRange_of_mem_operationErrors {k : ErrKind} (h : k ∈ operationErrors i) : k ≠ .operandRange :=
  (of_decide_eq_true (List.mem_filter.1 h).2).1

theorem eq_operandRange_of_code {k : ErrKind} (h : k.code = 0x09) : k = .operandRange := by
  cases k with
  | operandRange => rfl
  | _ => exact absurd h (by decide)

/-- A command with every window in range, run with no error recorded, does not raise OperandRange. -/
theorem exec_ne_operandRange {w : Word} (hr : InRange i) (he : s.errf = false) : exec i s ≠ .next (s.raised w 0x09) := by
  intro h
  obtain ⟨e, hx⟩ | ⟨k, hx, hk⟩ := exec_raises i s
  · have herr := congrArg State.errf (Host.Outcome.next.inj (hx.symm.trans h))
    exact absurd ((completes_commit s e).errf.symm.trans herr) (by simp [he, State.raised])
  · obtain rfl := eq_operandRange_of_code (congrArg State.errcode (Host.Outcome.next.inj (hx.symm.trans h)))
    obtain ⟨-, hn⟩ | ⟨hu, -⟩ | ⟨hmem, -⟩ := hk
    · exact hn hr
    · exact nomatch hu
    · exact ne_operandRange_of_mem_operationErrors hmem rfl

end

theorem Extent.inRange_iff (x : Extent) : x.inRange = true ↔
    (∀ b n : Nat, x = .regs b n → b + n ≤ 256) ∧ (∀ off len : Nat, x = .iobuf off len → off + len ≤ 4096) := by
  cases x <;> simp [Extent.inRange]

/-- Settles O18: the windows are checked first, and no later stage raises OperandRange. -/
theorem operandRange : Obligations.OperandRange := by
  intro i s w hw
  refine ⟨fun ⟨x, hx, hout⟩ => ?_, fun hin he => exec_ne_operandRange (fun x hx => (Extent.inRange_iff x).2 (hin x hx)) he⟩
  have hr : ¬InRange i := fun h => by
    obtain ⟨hregs, hbytes⟩ := (Extent.inRange_iff x).1 (h x hx)
    obtain ⟨b, n, rfl, hlt⟩ | ⟨off, len, rfl, hlt⟩ := hout
    · exact absurd (hregs b n rfl) (by omega)
    · exact absurd (hbytes off len rfl) (by omega)
  rw [exec_operandRange i s hr, raise_eq_raised s _ w hw]
  rfl

end Sys2Proof.Machine
end

section
/-! PROOFS. The base-field commands, the inversions of zero and the register tests: what a ready command of each kind writes. -/

namespace Sys2Proof.Machine

section
variable {i : Instr} {s : State}

/-! ### A ready command -/

/-- A ready command completes with what its operation answers. -/
theorem exec_of_ready {op : State → Except ErrKind Effect} {r : Except ErrKind Effect} (h : Ready i s)
    (hrun : exec i s = perform (windowsOf i) (sourcesOf i) op s) (hop : op s = r) : exec i s = .next (s.complete r) := by
  rw [hrun, perform_ready s _ _ op h.1 h.2, hop]

/-- A ready command whose operation fails records the error. -/
theorem exec_raised {β : Type} {W : View β} {d : RegIdx} {r : State → Except ErrKind β} {k : ErrKind} {w : Word} (h : Ready i s)
    (hw : s.cur = some w) (hrun : exec i s = perform (windowsOf i) (sourcesOf i) (fun s => W.put d (r s)) s) (hr : r s = .error k) :
    exec i s = .next (s.raised w k.code) := by
  rw [exec_of_ready h hrun (congrArg (W.put d) hr), ← raise_eq_raised s k w hw]
  rfl

/-- A ready command that answers an integer in [0, p) writes it to the one register at D. -/
theorem exec_writes_fp {d : RegIdx} {r : State → Except ErrKind Nat} {x : Nat} (h : Ready i s)
    (hrun : exec i s = perform (windowsOf i) (sourcesOf i) (fun s => fpView.put d (r s)) s) (hr : r s = .ok x) (hx : x < Config.p) :
    ∃ t, exec i s = .next t ∧ WritesRegs s t d.toNat 1 ∧ t.fp d.toNat = x := by
  obtain ⟨hwrites, hregs⟩ := commit_view s d [elemOf x] 1 rfl d.isLt
  have hreg : (s.commit (.regs d.toNat [elemOf x])).reg d.toNat = elemOf x := (regList_eq_iff _ _ [elemOf x]).1 hregs 0 Nat.one_pos
  exact ⟨_, exec_of_ready h hrun (congrArg (fpView.put d) hr), hwrites, fp_of_reg hreg (hx.trans (by decide))⟩

/-- A ready command that answers a residue mod p in the integers (41_fp.md R141). -/
theorem exec_writes_residue {d : RegIdx} {r : State → Except ErrKind Nat} {x : Nat} {z : ℤ} (h : Ready i s)
    (hrun : exec i s = perform (windowsOf i) (sourcesOf i) (fun s => fpView.put d (r s)) s) (hr : r s = .ok x)
    (hz : (x : ℤ) = z % Config.p) :
    ∃ t, exec i s = .next t ∧ WritesRegs s t d.toNat 1 ∧ (t.fp d.toNat : ℤ) = z % Config.p := by
  have hlt : (x : ℤ) < Config.p := hz ▸ Int.emod_lt_of_pos z (Int.natCast_pos.2 p_pos)
  obtain ⟨t, ht, hwrites, hfp⟩ := exec_writes_fp h hrun hr (Int.ofNat_lt.1 hlt)
  exact ⟨t, ht, hwrites, hfp ▸ hz⟩

/-- A ready test command writes FLAG with its condition. -/
theorem exec_writes_flag {c : State → Bool} {P : Prop} (h : Ready i s)
    (hrun : exec i s = perform (windowsOf i) (sourcesOf i) (fun s => .ok (.flag (c s))) s) (hc : c s = true ↔ P) :
    ∃ (t : State) (b : Bool), exec i s = .next t ∧ WritesFlag s t b ∧ (b = true ↔ P) :=
  ⟨_, _, exec_of_ready h hrun rfl, writesFlag_commit s _, hc⟩

end

/-! ### Base-field arithmetic in the integers -/

theorem fpAdd_int (a b : Nat) : (fpAdd a b : ℤ) = ((a : ℤ) + b) % Config.p := by
  rw [fpAdd, Int.natCast_mod, Nat.cast_add]

theorem fpMul_int (a b : Nat) : (fpMul a b : ℤ) = ((a : ℤ) * b) % Config.p := by
  rw [fpMul, Int.natCast_mod, Nat.cast_mul]

/-- "(p - F[A]) mod p" (41_fp.md R144). -/
theorem fpNeg_int_sub (a : Nat) : (fpNeg a : ℤ) = (Config.p - (a : ℤ)) % Config.p := by
  rw [fpNeg_int, sub_eq_add_neg, Int.add_emod_left]

/-- Settles O29: each command answers the residue of the integer result. -/
theorem fpArithmetic : Obligations.FpArithmetic :=
  ⟨fun _ _ _ _ h => exec_writes_residue h rfl rfl (fpAdd_int _ _), fun _ _ _ _ h => exec_writes_residue h rfl rfl (fpSub_int _ _),
    fun _ _ _ _ h => exec_writes_residue h rfl rfl (fpMul_int _ _), fun _ _ _ h => exec_writes_residue h rfl rfl (fpNeg_int_sub _),
    fun _ _ _ h => exec_writes_residue h rfl rfl (fpMul_int _ _)⟩

/-! ### Inversion -/

section
variable {β : Type} [DecidableEq β] {zero x : β}

theorem nonzero_ok (op : β → β) (h : x ≠ zero) : nonzero zero op x = .ok (op x) := if_neg h

theorem nonzero_error (op : β → β) (h : x = zero) : nonzero zero op x = .error .invalidFieldElement := if_pos h

end

/-- Settles O30: the source is in (0, p), where inv_p gives the inverse. -/
theorem fpInverse : Obligations.FpInverse := by
  intro d a s hinv h h0
  have hlt : s.fp a.toNat < Config.p := hinv.canonical _ (h.2 (a.toNat, 1) List.mem_cons_self 0 Nat.one_pos)
  obtain ⟨t, ht, hwrites, hfp⟩ := exec_writes_fp (d := d) h rfl (nonzero_ok fpInv h0) (fpInv_lt _)
  refine ⟨t, ht, hwrites, ?_⟩
  rw [hfp]
  exact ⟨fpInv_lt _, mul_fpInv _ hlt h0⟩

/-! ### Views of the registers -/

section
variable {s : State} {b : Nat}

theorem regList_eq_zeros_iff {n : Nat} : s.regList b n = List.replicate n 0 ↔ ∀ k : Nat, k < n → s.reg (b + k) = 0 := by
  simpa using regList_eq_iff s b (List.replicate n 0)

theorem fp_eq_zero (h : ∀ k : Nat, k < 1 → s.reg (b + k) = 0) : s.fp b = 0 :=
  fp_of_reg (h 0 Nat.one_pos) (by decide)

theorem fp2_eq_zero (h : ∀ k : Nat, k < 2 → s.reg (b + k) = 0) : s.fp2 b = Fp2.zero :=
  fp2_of_regList (regList_eq_zeros_iff.2 h) (by decide) (by decide)

theorem fp6_eq_zero (h : ∀ k : Nat, k < 6 → s.reg (b + k) = 0) : s.fp6 b = Fp6.zero :=
  have fits := Fp2.fits_of_canonical Fp2.canonical_zero
  fp6_of_regList (regList_eq_zeros_iff.2 h) fits fits fits

theorem fp12_eq_zero (h : ∀ k : Nat, k < 12 → s.reg (b + k) = 0) : s.fp12 b = Fp12.zero :=
  have fits := Fp2.fits_of_canonical Fp2.canonical_zero
  fp12_of_regList (regList_eq_zeros_iff.2 h) fits fits fits fits fits fits

variable (s b)

theorem regList_succ (n : Nat) : s.regList b (n + 1) = s.reg b :: s.regList (b + 1) n := by
  rw [Nat.add_comm n, regList_append]
  rfl

theorem fp2_regs : (s.fp2 b).regs = s.regList b 2 := by
  rw [Fp2.regs, State.fp2, elemOf_fp, elemOf_fp]
  rfl

theorem fp6_regs : (s.fp6 b).regs = s.regList b 6 := by
  rw [regList_append s b 4 2, regList_append s b 2 2, ← fp2_regs, ← fp2_regs, ← fp2_regs]
  rfl

theorem fp12_regs : (s.fp12 b).regs = s.regList b 12 := by
  rw [regList_append s b 6 6, ← fp6_regs, ← fp6_regs]
  rfl

end

/-- Settles O31: the source view of zero registers is the zero that the inversion refuses. -/
theorem zeroInversion : Obligations.ZeroInversion := fun _ _ _ _ hw =>
  ⟨fun h h0 => exec_raised h hw rfl (nonzero_error fpInv (fp_eq_zero h0)),
    fun h h0 => exec_raised h hw rfl (nonzero_error Fp2.inv (fp2_eq_zero h0)),
    fun h h0 => exec_raised h hw rfl (nonzero_error Fp6.inv (fp6_eq_zero h0)),
    fun h h0 => exec_raised h hw rfl (nonzero_error Fp12.inv (fp12_eq_zero h0)),
    fun h h0 => exec_raised h hw rfl (nonzero_error finalExp (fp12_eq_zero h0))⟩

/-! ### Register tests -/

section
variable {s : State}

theorem testEq_iff {a b n : Nat} : testEq (s.regList a n) (s.regList b n) = true ↔ ∀ k : Nat, k < n → s.reg (a + k) = s.reg (b + k) :=
  decide_eq_true_iff.trans regList_inj

theorem testIsZero_iff {a n : Nat} : testIsZero (s.regList a n) = true ↔ ∀ k : Nat, k < n → s.reg (a + k) = 0 := by
  simp [testIsZero, State.regList]

/-- The twelve registers of 1 (42_tower.md R205). -/
theorem fp12_eq_one_iff {a : Nat} : s.fp12 a = Fp12.one ↔ s.regList a 12 = 1 :: List.replicate 11 0 := by
  constructor
  · intro h
    rw [← fp12_regs, h]
    rfl
  · intro h
    have zero := Fp2.fits_of_canonical Fp2.canonical_zero
    exact fp12_of_regList h (Fp2.fits_of_canonical Fp2.canonical_one) zero zero zero zero zero

theorem testIsOne_iff {a : Nat} : testIsOne (s.fp12 a) = true ↔ s.reg a = 1 ∧ ∀ k : Nat, 1 ≤ k → k < 12 → s.reg (a + k) = 0 := by
  rw [testIsOne, decide_eq_true_iff, fp12_eq_one_iff, regList_succ, List.cons.injEq, regList_eq_zeros_iff]
  refine and_congr_right fun _ => ⟨fun h k h1 hk => ?_, fun h k hk => ?_⟩
  · rw [← Nat.add_sub_cancel' h1, ← Nat.add_assoc]
    exact h (k - 1) (by omega)
  · rw [Nat.add_assoc]
    exact h (1 + k) (Nat.le_add_right 1 k) (by omega)

end

/-- Settles O32: each test is its comparison of the registers, and FLAG is all it writes. -/
theorem registerTests : Obligations.RegisterTests :=
  ⟨fun _ _ _ h => exec_writes_flag h rfl testEq_iff, fun _ _ _ h => exec_writes_flag h rfl testEq_iff,
    fun _ _ _ h => exec_writes_flag h rfl testEq_iff, fun _ _ _ h => exec_writes_flag h rfl testEq_iff,
    fun _ _ _ h => exec_writes_flag h rfl testEq_iff, fun _ _ _ h => exec_writes_flag h rfl testEq_iff,
    fun _ _ h => exec_writes_flag h rfl testIsOne_iff, fun _ _ h => exec_writes_flag h rfl testIsZero_iff,
    fun _ _ h => exec_writes_flag h rfl testIsZero_iff⟩

end Sys2Proof.Machine
end

section
/-! PROOFS. The tower commands: what a ready command writes through its view, the linear commands coordinate by coordinate, products, inverses
and Frobenius powers as values in every ring with the tower's u, v and w. -/

namespace Sys2Proof.Machine

section
variable {i : Instr} {s t : State} {β : Type} {W : View β} {C : β → Prop} {d : RegIdx} {ws : List Extent} {r : State → Except ErrKind β}
  {y : β} {b n : Nat}

/-! ### A ready command that answers a value -/

/-- A ready command that answers a value writes its registers to the view at D, the first of its windows. -/
theorem exec_writes_view (h : Ready i s) (hwin : windowsOf i = W.extent d :: ws)
    (hrun : exec i s = perform (windowsOf i) (sourcesOf i) (fun s => W.put d (r s)) s) (hr : r s = .ok y)
    (hlen : (W.write y).length = W.size) :
    ∃ t, exec i s = .next t ∧ WritesRegs s t d.toNat W.size ∧ t.regList d.toNat W.size = W.write y := by
  have hd : d.toNat + W.size ≤ 256 := ((Extent.inRange_iff _).1 (h.1 (W.extent d) (hwin ▸ List.mem_cons_self))).1 _ _ rfl
  exact ⟨_, exec_of_ready h hrun (congrArg (W.put d) hr), commit_view s d _ _ hlen hd⟩

/-- A view in whose registers elements of `C` can be read back. -/
structure View.Faithful (W : View β) (C : β → Prop) : Prop extends W.Writes C where
  read_of_regList : ∀ {s : State} {b : Nat} {y : β}, C y → s.regList b W.size = W.write y → W.read s b = y

theorem canonicalRegs_of_regList (h : CanonicalElems (t.regList b n)) : CanonicalRegs t b n := fun k hk =>
  h _ (List.mem_map.2 ⟨k, List.mem_range.2 hk, rfl⟩)

/-- A ready command that answers an element of `C` writes it to the view at D, in canonical registers. -/
theorem exec_writes_element (hW : W.Faithful C) (h : Ready i s) (hwin : windowsOf i = W.extent d :: ws)
    (hrun : exec i s = perform (windowsOf i) (sourcesOf i) (fun s => W.put d (r s)) s) (hr : r s = .ok y) (hy : C y) :
    ∃ t, exec i s = .next t ∧ WritesRegs s t d.toNat W.size ∧ CanonicalRegs t d.toNat W.size ∧ W.read t d.toNat = y := by
  obtain ⟨t, ht, hwrites, hregs⟩ := exec_writes_view h hwin hrun hr (hW.length y)
  exact ⟨t, ht, hwrites, canonicalRegs_of_regList (hregs ▸ hW.canonical y hy), hW.read_of_regList hy hregs⟩

/-! ### Coordinate by coordinate -/

variable {x : Nat → Nat} {z : Nat → ℤ}

/-- Registers that hold residues mod p, as integers. -/
theorem fp_of_residues (hz : ∀ k, (x k : ℤ) = z k % Config.p) (h : t.regList b n = (List.range n).map fun k => elemOf (x k))
    {k : Nat} (hk : k < n) : (t.fp (b + k) : ℤ) = z k % Config.p := by
  have hreg : t.reg (b + k) = elemOf (x k) := List.map_inj_left.1 h k (List.mem_range.2 hk)
  have hlt : x k < Config.p := Int.ofNat_lt.1 (hz k ▸ Int.emod_lt_of_pos (z k) (Int.natCast_pos.2 p_pos))
  rw [fp_of_reg hreg (hlt.trans (by decide)), hz k]

/-- A ready command whose answer has the residues `z` mod p as its coordinates. -/
theorem exec_writes_residues (h : Ready i s) (hwin : windowsOf i = W.extent d :: ws)
    (hrun : exec i s = perform (windowsOf i) (sourcesOf i) (fun s => W.put d (r s)) s) (hr : r s = .ok y)
    (hz : ∀ k, (x k : ℤ) = z k % Config.p) (hx : W.write y = (List.range W.size).map fun k => elemOf (x k)) :
    ∃ t, exec i s = .next t ∧ WritesRegs s t d.toNat W.size ∧ ∀ k, k < W.size → (t.fp (d.toNat + k) : ℤ) = z k % Config.p := by
  obtain ⟨t, ht, hwrites, hregs⟩ := exec_writes_view h hwin hrun hr (by simp [hx])
  exact ⟨t, ht, hwrites, fun k hk => fp_of_residues hz (hregs.trans hx) hk⟩

end

/-- Settles O34: each coordinate of the answer is the residue of its integer result. -/
theorem towerLinear : Obligations.TowerLinear :=
  ⟨fun _ _ _ _ h => exec_writes_residues h rfl rfl rfl (fun _ => fpAdd_int _ _) rfl,
    fun _ _ _ _ h => exec_writes_residues h rfl rfl rfl (fun _ => fpSub_int _ _) rfl,
    fun _ _ _ h => exec_writes_residues h rfl rfl rfl (fun _ => fpNeg_int _) rfl,
    fun _ _ _ _ h => exec_writes_residues h rfl rfl rfl (fun _ => fpAdd_int _ _) rfl,
    fun _ _ _ _ h => exec_writes_residues h rfl rfl rfl (fun _ => fpSub_int _ _) rfl,
    fun _ _ _ h => exec_writes_residues h rfl rfl rfl (fun _ => fpNeg_int _) rfl,
    fun _ _ _ _ h => exec_writes_residues h rfl rfl rfl (fun _ => fpAdd_int _ _) rfl,
    fun _ _ _ _ h => exec_writes_residues h rfl rfl rfl (fun _ => fpSub_int _ _) rfl,
    fun _ _ _ h => exec_writes_residues h rfl rfl rfl (fun _ => fpNeg_int _) rfl⟩

/-- Settles O37: the first half of the answer's registers are the source's own, the second half residues of negations. -/
theorem conjugates : Obligations.Conjugates := by
  constructor
  · intro d a s h
    obtain ⟨t, ht, hwrites, hregs⟩ := exec_writes_view (d := d) h rfl rfl rfl rfl
    obtain ⟨hcopy, hneg⟩ := regList_two hregs
    refine ⟨t, ht, hwrites, hcopy.trans (elemOf_fp s _), ?_⟩
    exact (congrArg Nat.cast (fp_of_reg hneg ((fpNeg_lt _).trans (by decide)))).trans (fpNeg_int _)
  · intro d a s h
    obtain ⟨t, ht, hwrites, hregs⟩ := exec_writes_view (d := d) h rfl rfl rfl rfl
    obtain ⟨hcopy, hneg⟩ := regList_split (m := 6) (n := 6) (xs := (s.fp6 a.toNat).regs) hregs rfl
    refine ⟨t, ht, hwrites, regList_inj.1 (hcopy.trans (fp6_regs s _)), fun k h6 hk => ?_⟩
    have hres := fp_of_residues (fun j => fpNeg_int (s.fp (a.toNat + 6 + j))) hneg (k := k - 6) (by omega)
    rwa [Nat.add_assoc, Nat.add_assoc, Nat.add_sub_cancel' h6] at hres

/-! ### The tower's views hold their elements -/

/-- Every coordinate below 2^256. -/
def Fp6.fits (c : Fp6) : Prop := c.c0.fits ∧ c.c1.fits ∧ c.c2.fits

/-- Every coordinate below 2^256. -/
def Fp12.fits (f : Fp12) : Prop := f.g.fits ∧ f.h.fits

theorem Fp6.fits_of_canonical {c : Fp6} (h : c.canonical) : c.fits :=
  ⟨Fp2.fits_of_canonical h.1, Fp2.fits_of_canonical h.2.1, Fp2.fits_of_canonical h.2.2⟩

theorem Fp12.fits_of_canonical {f : Fp12} (h : f.canonical) : f.fits :=
  ⟨Fp6.fits_of_canonical h.1, Fp6.fits_of_canonical h.2⟩

theorem fp12_of_fits {s : State} {b : Nat} {f : Fp12} (hf : f.fits) (h : s.regList b 12 = f.regs) : s.fp12 b = f := by
  obtain ⟨⟨g0, g1, g2⟩, h0, h1, h2⟩ := hf
  exact fp12_of_regList h g0 g1 g2 h0 h1 h2

theorem f2View_faithful : f2View.Faithful Fp2.canonical where
  toWrites := f2View_writes
  read_of_regList hy h := fp2_of_regList h (Fp2.fits_of_canonical hy).1 (Fp2.fits_of_canonical hy).2

theorem f6View_faithful : f6View.Faithful Fp6.canonical where
  toWrites := f6View_writes
  read_of_regList hy h := by
    obtain ⟨h0, h1, h2⟩ := Fp6.fits_of_canonical hy
    exact fp6_of_regList h h0 h1 h2

theorem f12View_faithful : f12View.Faithful Fp12.canonical where
  toWrites := f12View_writes
  read_of_regList hy h := fp12_of_fits (Fp12.fits_of_canonical hy) h

/-! ### Values in the tower -/

/-- The value of an element of a field of the tower in any ring with elements u, v, w (42_tower.md R170). -/
abbrev TowerValuation (β : Type) : Type 1 := (R : Type) → [CommRing R] → (u v w : R) → β → R

/-- The value of c0 + c1*u. -/
def Fp2.valuation : TowerValuation Fp2 := fun _ _ u _ _ a => a.val u

/-- The value of c0 + c1*v + c2*v^2. -/
def Fp6.valuation : TowerValuation Fp6 := fun _ _ u v _ c => c.val u v

/-- The value of g + h*w. -/
def Fp12.valuation : TowerValuation Fp12 := fun _ _ u v w f => f.val u v w

section
variable {i : Instr} {s : State} {β : Type} {W : View β} {C : β → Prop} {d : RegIdx} {ws : List Extent} (val : TowerValuation β)

/-- A ready command that answers an element of the value `x` in every ring with the tower's u, v, w. -/
theorem exec_writes_value {r : State → Except ErrKind β} {y : β} {x : (R : Type) → [CommRing R] → (u v w : R) → R}
    (hW : W.Faithful C) (h : Ready i s) (hwin : windowsOf i = W.extent d :: ws)
    (hrun : exec i s = perform (windowsOf i) (sourcesOf i) (fun s => W.put d (r s)) s) (hr : r s = .ok y) (hy : C y)
    (hx : ∀ (R : Type) [CommRing R] (u v w : R), TowerIn R u v w → val R u v w y = x R u v w) :
    ∃ t, exec i s = .next t ∧ WritesRegs s t d.toNat W.size ∧ CanonicalRegs t d.toNat W.size ∧
      ∀ (R : Type) [CommRing R] (u v w : R), TowerIn R u v w → val R u v w (W.read t d.toNat) = x R u v w := by
  obtain ⟨t, ht, hwrites, hcan, rfl⟩ := exec_writes_element hW h hwin hrun hr hy
  exact ⟨t, ht, hwrites, hcan, hx⟩

/-- A ready inversion of an element with an inverse. -/
theorem exec_writes_inverse [DecidableEq β] {zero : β} {inv : β → β} {a : RegIdx} (hW : W.Faithful C) (h : Ready i s)
    (hwin : windowsOf i = W.extent d :: ws)
    (hrun : exec i s = perform (windowsOf i) (sourcesOf i) (fun s => W.put d (nonzero zero inv (W.read s a.toNat))) s)
    (hne : W.read s a.toNat ≠ zero) (hy : C (inv (W.read s a.toNat)))
    (hx : ∀ (R : Type) [CommRing R] (u v w : R), TowerIn R u v w →
      val R u v w (W.read s a.toNat) * val R u v w (inv (W.read s a.toNat)) = 1) :
    ∃ t, exec i s = .next t ∧ WritesRegs s t d.toNat W.size ∧ CanonicalRegs t d.toNat W.size ∧
      ∀ (R : Type) [CommRing R] (u v w : R), TowerIn R u v w →
        val R u v w (W.read s a.toNat) * val R u v w (W.read t d.toNat) = 1 := by
  obtain ⟨t, ht, hwrites, hcan, hread⟩ := exec_writes_element hW h hwin hrun (nonzero_ok inv hne) hy
  exact ⟨t, ht, hwrites, hcan, hread ▸ hx⟩

end

/-- Settles O35: the value of each answer is the product of the values. -/
theorem towerProducts : Obligations.TowerProducts :=
  ⟨fun _ _ _ _ h => exec_writes_value Fp2.valuation f2View_faithful h rfl rfl rfl (Fp2.canonical_mul _ _) fun _ _ _ _ _ T =>
      Fp2.val_mul T _ _,
    fun _ _ _ h => exec_writes_value Fp2.valuation f2View_faithful h rfl rfl rfl (Fp2.canonical_mul _ _) fun _ _ _ _ _ T =>
      Fp2.val_mul T _ _,
    fun _ _ _ _ h => exec_writes_value Fp6.valuation f6View_faithful h rfl rfl rfl (Fp6.canonical_mul _ _) fun _ _ _ _ _ T =>
      Fp6.val_mul T _ _,
    fun _ _ _ h => exec_writes_value Fp6.valuation f6View_faithful h rfl rfl rfl (Fp6.canonical_mul _ _) fun _ _ _ _ _ T =>
      Fp6.val_mul T _ _,
    fun _ _ _ _ h => exec_writes_value Fp12.valuation f12View_faithful h rfl rfl rfl (Fp12.canonical_mul _ _) fun _ _ _ _ _ T =>
      Fp12.val_mul T _ _,
    fun _ _ _ h => exec_writes_value Fp12.valuation f12View_faithful h rfl rfl rfl (Fp12.canonical_mul _ _) fun _ _ _ _ _ T =>
      Fp12.val_mul T _ _,
    fun _ _ _ _ h => exec_writes_value Fp12.valuation f12View_faithful h rfl rfl rfl (Fp12.canonical_mul _ _) fun _ _ _ _ _ T =>
      (Fp12.val_mul T _ _).trans (congrArg (_ * ·) (Sparse.val_expand T _))⟩

/-! ### Inverses -/

section
variable {s : State} {b : Nat}

/-- Registers of which one is not 0 are not a list of zeros. -/
theorem regList_ne_zeros {n : Nat} (h : ∃ k : Nat, k < n ∧ s.reg (b + k) ≠ 0) : s.regList b n ≠ List.replicate n 0 := fun h0 =>
  let ⟨k, hk, hne⟩ := h
  hne (regList_eq_zeros_iff.1 h0 k hk)

theorem fp2_ne_zero (h : ∃ k : Nat, k < 2 ∧ s.reg (b + k) ≠ 0) : s.fp2 b ≠ Fp2.zero := fun h0 =>
  regList_ne_zeros h (by rw [← fp2_regs, h0]; rfl)

theorem fp6_ne_zero (h : ∃ k : Nat, k < 6 ∧ s.reg (b + k) ≠ 0) : s.fp6 b ≠ Fp6.zero := fun h0 =>
  regList_ne_zeros h (by rw [← fp6_regs, h0]; rfl)

theorem fp12_ne_zero (h : ∃ k : Nat, k < 12 ∧ s.reg (b + k) ≠ 0) : s.fp12 b ≠ Fp12.zero := fun h0 =>
  regList_ne_zeros h (by rw [← fp12_regs, h0]; rfl)

/-- The first source of a ready command is canonical, in an invariant state. -/
theorem canonical_of_ready {i : Instr} {n : Nat} {ws : List (Nat × Nat)} (hinv : s.Inv) (h : Ready i s)
    (hsrc : sourcesOf i = (b, n) :: ws) : CanonicalRegs s b n :=
  canonical_of_written hinv (h.2 (b, n) (hsrc ▸ List.mem_cons_self))

end

/-- Settles O36: the source is nonzero and canonical, where the inverse of its field is one in every ring with the tower's u, v, w. -/
theorem towerInverses : Obligations.TowerInverses :=
  ⟨fun _ _ _ hinv h hne =>
      have hcan := canonical_fp2 (canonical_of_ready hinv h rfl)
      have hne := fp2_ne_zero hne
      exec_writes_inverse Fp2.valuation f2View_faithful h rfl rfl hne (Fp2.canonical_inv _) fun _ _ _ _ _ T => Fp2.val_inv T hcan hne,
    fun _ _ _ hinv h hne =>
      have hcan := canonical_fp6 (canonical_of_ready hinv h rfl)
      have hne := fp6_ne_zero hne
      exec_writes_inverse Fp6.valuation f6View_faithful h rfl rfl hne (Fp6.canonical_inv _) fun _ _ _ _ _ T => Fp6.val_inv T hcan hne,
    fun _ _ _ hinv h hne =>
      have hcan := canonical_fp12 (canonical_of_ready hinv h rfl)
      have hne := fp12_ne_zero hne
      exec_writes_inverse Fp12.valuation f12View_faithful h rfl rfl hne (Fp12.canonical_inv _) fun _ _ _ _ _ T => Fp12.val_inv T hcan hne⟩

/-! ### Frobenius -/

theorem fp12_fits (s : State) (b : Nat) : (s.fp12 b).fits :=
  ⟨⟨fp2_fits s _, fp2_fits s _, fp2_fits s _⟩, fp2_fits s _, fp2_fits s _, fp2_fits s _⟩

theorem Fp2.fits_conj {a : Fp2} (h : a.fits) : a.conj.fits := ⟨h.1, (fpNeg_lt _).trans (by decide)⟩

/-- Products fit, and the one coordinate that is no product is a conjugate. -/
theorem Fp12.fits_frob {f : Fp12} (h : f.fits) : f.frob.fits :=
  have mul (a c : Fp2) : (a.mul c).fits := Fp2.fits_of_canonical (Fp2.canonical_mul a c)
  ⟨⟨Fp2.fits_conj h.1.1, mul _ _, mul _ _⟩, mul _ _, mul _ _, mul _ _⟩

theorem Fp12.fits_frobPow {f : Fp12} (h : f.fits) (k : Nat) : (f.frobPow k).fits := by
  induction k with
  | zero => exact h
  | succ k ih => exact Fp12.fits_frob ih

/-- Settles O38: the answer, of canonical coordinates or not, reads back as the iterated p-th power. -/
theorem frobenius : Obligations.Frobenius := by
  intro d a k s h
  obtain ⟨t, ht, hwrites, hregs⟩ := exec_writes_view (d := d) h rfl rfl rfl (f12View_writes.length _)
  have hread : t.fp12 d.toNat = (s.fp12 a.toNat).frobPow k.toNat := fp12_of_fits (Fp12.fits_frobPow (fp12_fits s _) _) hregs
  refine ⟨t, ht, hwrites, fun hs => canonicalRegs_of_regList ?_, fun R _ u v w T => ?_⟩
  · rw [← fp12_regs, hread]
    exact f12View_writes.canonical _ (Fp12.canonical_frobPow _ (canonical_fp12 hs) _)
  · rw [value12_eq, hread, Fp12.val_frobPow T]
    rfl

/-- Operations that agree on the state when the command is ready make the same command, errors included. -/
theorem perform_congr {i : Instr} {s : State} {op op' : State → Except ErrKind Effect} (h : Ready i s → op s = op' s) :
    perform (windowsOf i) (sourcesOf i) op s = perform (windowsOf i) (sourcesOf i) op' s := by
  by_cases hr : InRange i
  · by_cases hw : SourcesWritten i s
    · rw [perform_ready s _ _ op hr hw, perform_ready s _ _ op' hr hw, h ⟨hr, hw⟩]
    · rw [perform, perform, checked_unwritten s _ _ op hr hw, checked_unwritten s _ _ op' hr hw]
  · rw [perform, perform, checked_range s _ _ op hr, checked_range s _ _ op' hr]

/-- Settles O39: on the canonical source of a ready command the map has order 12, and its sixth power is the conjugate. -/
theorem frobeniusCorners : Obligations.FrobeniusCorners := by
  intro d a k l s hinv
  have hcan (h : Ready (.f12Frob d a k) s) : (s.fp12 a.toNat).canonical := canonical_fp12 (canonical_of_ready hinv h rfl)
  refine ⟨fun hkl => perform_congr (i := .f12Frob d a k) fun h => ?_, fun h6 => perform_congr (i := .f12Frob d a k) fun h => ?_⟩
  · have hpow : (s.fp12 a.toNat).frobPow k.toNat = (s.fp12 a.toNat).frobPow l.toNat := by
      rw [frobPow_mod _ (hcan h) k.toNat, hkl, ← frobPow_mod _ (hcan h)]
    exact congrArg (fun f => f12View.put d (.ok f)) hpow
  · have hpow : (s.fp12 a.toNat).frobPow k.toNat = (s.fp12 a.toNat).conj := by
      rw [frobPow_mod _ (hcan h), h6, frobPow_six _ (hcan h)]
    exact congrArg (fun f => f12View.put d (.ok f)) hpow

end Sys2Proof.Machine
end

section
/-! PROOFS. Multiples of points: the scalar multiple is the k-fold sum, and E(Fp) has r points. -/

namespace Sys2Proof.Machine

/-! ### The k-fold sum -/

section
variable {A K : Type} [Field K] [DecidableEq A] {F : FieldOps A} {φ : A → K} {C : A → Prop} {Q : Point A}

theorem pointIn_repeatedSum (m : Models F φ C) (hQ : PointIn C Q) (k : Nat) : PointIn C (repeatedSum F Q k) := by
  induction k with
  | zero => trivial
  | succ k ih => exact pointIn_add m ih hQ

/-- The k-fold sum denotes the k-th multiple in the group. -/
theorem denotes_repeatedSum [DecidableEq K] (m : Models F φ C) {c : K} {W : (curve c).Point} (hQ : PointIn C Q) (h : Denotes φ Q W)
    (k : Nat) : Denotes φ (repeatedSum F Q k) (k • W) := by
  induction k with
  | zero => exact zero_nsmul W
  | succ k ih =>
    rw [succ_nsmul]
    exact denotes_add m (pointIn_repeatedSum m hQ k) hQ ih h

/-- [k]Q is O exactly when the k-th multiple in the group is 0. -/
theorem smul_eq_inf_iff [DecidableEq K] (m : Models F φ C) {c : K} {W : (curve c).Point} (hQ : PointIn C Q) (h : Denotes φ Q W)
    (k : Nat) : Q.smul F k = .inf ↔ k • W = 0 := by
  have hk := denotes_smul m hQ h k
  refine ⟨fun hinf => ?_, fun h0 => denotes_inj m (pointIn_smul m hQ k) trivial hk h0⟩
  rwa [hinf] at hk

/-- Both denote the multiple of one point in the group, where associativity is Mathlib's. -/
theorem smul_eq_repeatedSum (m : Models F φ C) {B : A} (h6 : (6 : K) ≠ 0) (hB : φ B ≠ 0) (hQ : PointIn C Q)
    (hc : Q.onCurve F B = true) (k : Nat) : Q.smul F k = repeatedSum F Q k := by
  classical
  obtain ⟨W, hW⟩ := exists_denotes m h6 hB hc
  exact denotes_inj m (pointIn_smul m hQ k) (pointIn_repeatedSum m hQ k) (denotes_smul m hQ hW k) (denotes_repeatedSum m hQ hW k)

end

theorem six_ne_zero_p : (6 : ZMod Config.p) ≠ 0 := zmod_ne_zero (a := 6) (by decide) (by decide)

theorem curveB_ne_zero_p : (Config.curveB : ZMod Config.p) ≠ 0 := zmod_ne_zero (by decide) (by decide)

theorem twistB_toK_ne_zero : twistB.toK ≠ 0 := Fp2.toK_ne_zero twistB_canonical (by decide +kernel)

/-- Settles O47: on E the doublings and additions and the k-fold sum denote one multiple. -/
theorem g1ScalarSum : Obligations.G1ScalarSum := by
  intro P k hP hc
  have := fact_p
  exact smul_eq_repeatedSum models_fp six_ne_zero_p curveB_ne_zero_p ((pointIn_canonical1 P).2 hP) hc k

/-- Settles O48: the same on the twist. -/
theorem g2ScalarSum : Obligations.G2ScalarSum := by
  intro Q k hQ hc
  have := fact_p
  have := fact_k2
  exact smul_eq_repeatedSum models_fp2 six_ne_zero_k2 twistB_toK_ne_zero ((pointIn_canonical2 Q).2 hQ) hc k

/-! ### Counting the points of a curve -/

section
variable {K : Type} [Field K]

/-- The x-coordinates a point can have: that of O, and an element of the field. -/
def xReps (K : Type) [Field K] [Fintype K] [DecidableEq K] : Finset (Fin 2 → K) :=
  insert ![1, 0] (Finset.univ.image fun x => ![x, 1])

theorem card_xReps_le [Fintype K] [DecidableEq K] : (xReps K).card ≤ Fintype.card K + 1 :=
  (Finset.card_insert_le _ _).trans (Nat.succ_le_succ Finset.card_image_le)

variable {W : WeierstrassCurve.Affine K}

theorem xRep_mem_xReps [Fintype K] [DecidableEq K] (P : W.Point) : P.xRep ∈ xReps K := by
  cases P <;> simp [xReps, WeierstrassCurve.Affine.Point.xRep]

/-- Two points with one x are equal or opposite. -/
theorem card_filter_xRep_le [Fintype W.Point] [DecidableEq K] (v : Fin 2 → K) :
    (Finset.univ.filter fun P : W.Point => P.xRep = v).card ≤ 2 := by
  obtain h | ⟨P, hP⟩ := (Finset.univ.filter fun P : W.Point => P.xRep = v).eq_empty_or_nonempty
  · simp [h]
  · refine (Finset.card_le_card (t := {P, -P}) fun Q hQ => ?_).trans Finset.card_le_two
    have hx : Q.xRep = P.xRep := (Finset.mem_filter.1 hQ).2.trans (Finset.mem_filter.1 hP).2.symm
    simpa using WeierstrassCurve.Affine.Point.eq_or_eq_neg_of_xRep_eq_xRep hx

variable [Finite K] (W)

theorem finite_points : Finite W.Point := by
  have : Finite (WithZero {xy : K × K // W.Nonsingular xy.1 xy.2}) := inferInstanceAs (Finite (Option _))
  exact Finite.of_equiv _ (WeierstrassCurve.Affine.nonsingularPointEquiv W).symm

theorem card_points_le : Nat.card W.Point ≤ 2 * (Nat.card K + 1) := by
  classical
  have := finite_points W
  have := Fintype.ofFinite W.Point
  have := Fintype.ofFinite K
  rw [Nat.card_eq_fintype_card, Nat.card_eq_fintype_card]
  calc Fintype.card W.Point ≤ 2 * (xReps K).card :=
        Finset.card_le_mul_card_image_of_maps_to (fun P _ => xRep_mem_xReps P) 2 fun v _ => card_filter_xRep_le v
    _ ≤ 2 * (Fintype.card K + 1) := Nat.mul_le_mul_left 2 card_xReps_le

end

/-- A group with an element of prime order q, fewer than 3q elements and none of order 2 has q elements. -/
theorem card_eq_prime {G : Type} [AddGroup G] [Finite G] {q : Nat} (hq : q.Prime) {g : G} (hg : q • g = 0) (hg0 : g ≠ 0)
    (hlt : Nat.card G < 3 * q) (h2 : ∀ x : G, 2 • x = 0 → x = 0) : Nat.card G = q := by
  have := Fact.mk hq
  obtain ⟨m, hm⟩ : q ∣ Nat.card G := addOrderOf_eq_prime hg hg0 ▸ addOrderOf_dvd_natCard g
  have hm3 : m < 3 := lt_of_mul_lt_mul_left' (a := q) (by rw [← hm, Nat.mul_comm]; exact hlt)
  have hm0 : m ≠ 0 := fun h => Nat.card_pos.ne' (hm.trans (by rw [h, Nat.mul_zero]))
  have hm2 : m ≠ 2 := fun h => by
    have := Fact.mk Nat.prime_two
    obtain ⟨x, hx⟩ := exists_prime_addOrderOf_dvd_card' (G := G) 2 (hm ▸ h ▸ Nat.dvd_mul_left 2 q)
    have hx0 := h2 x (hx ▸ addOrderOf_nsmul_eq_zero x)
    rw [hx0, addOrderOf_zero] at hx
    exact absurd hx (by decide)
  obtain rfl : m = 1 := by omega
  rw [hm, Nat.mul_one]

/-! ### E(Fp) has r points -/

/-- The generator (1, 2) of G1 (00_scope.md R14). -/
theorem smul_r_generator : (Point.aff 1 2).smul fpOps Config.r = .inf := by decide +kernel

section
variable [Fact (Nat.Prime Config.p)]

/-- The curve E as Mathlib's (00_scope.md R13). -/
abbrev curveE : WeierstrassCurve.Affine (ZMod Config.p) := curve (Config.curveB : ZMod Config.p)

/-- Every point of Mathlib's curve is one of the model's, with coordinates in [0, p). -/
theorem exists_point_of_curveE (W : curveE.Point) :
    ∃ P, canonical1 P ∧ Denotes (fun x : Nat => (x : ZMod Config.p)) P W := by
  cases W with
  | zero => exact ⟨.inf, trivial, rfl⟩
  | some x y h => exact ⟨.aff x.val y.val, ⟨x.val_lt, y.val_lt⟩, by simp [Denotes, h]⟩

/-- A point of order 2 would have y = 0, which no point of E has. -/
theorem curveE_two_torsion {W : curveE.Point} (h : 2 • W = 0) : W = 0 := by
  obtain ⟨P, hP, hW⟩ := exists_point_of_curveE W
  have hin := (pointIn_canonical1 P).2 hP
  have hdouble : P.add fpOps P = .inf := denotes_inj models_fp (pointIn_add models_fp hin hin) trivial
    (denotes_add models_fp hin hin hW hW) (by rw [← two_nsmul]; exact h)
  cases P with
  | inf => exact hW
  | aff x y =>
    have hy : fpAdd y y = 0 := by
      by_contra hne
      rw [Point.add, if_neg fun hc => hne hc.2] at hdouble
      exact nomatch hdouble
    exact absurd (double_eq_zero models_fp two_ne_zero_p hP.2 hy) (g1_y_ne_zero (onCurve_of_denotes models_fp hW))

/-- E(Fp) has r points: (1, 2) has order r, there are fewer than 3r points, and none has order 2. -/
theorem card_curveE : Nat.card curveE.Point = Config.r := by
  have := finite_points curveE
  obtain ⟨G, hG⟩ := exists_denotes models_fp six_ne_zero_p curveB_ne_zero_p (P := .aff 1 2) (by decide +kernel)
  have hin : PointIn (· < Config.p) (Point.aff 1 2) := ⟨by decide, by decide⟩
  have hr : Config.r • G = 0 := (smul_eq_inf_iff models_fp hin hG Config.r).1 smul_r_generator
  have hG0 : G ≠ 0 := by
    obtain ⟨n, rfl⟩ := hG
    exact WeierstrassCurve.Affine.Point.some_ne_zero n
  refine card_eq_prime prime_r hr hG0 ((card_points_le curveE).trans_lt ?_) fun W => curveE_two_torsion
  rw [Nat.card_zmod]
  decide

end

/-- Settles O49: r kills every point of a group of r elements. -/
theorem g1CurveInSubgroup : Obligations.G1CurveInSubgroup := by
  intro P hP
  have := fact_p
  unfold inSub1
  cases hc : onCurve1 P with
  | false => rfl
  | true =>
    obtain ⟨W, hW⟩ := exists_denotes models_fp six_ne_zero_p curveB_ne_zero_p hc
    have hr : Config.r • W = 0 := by rw [← card_curveE, card_nsmul_eq_zero']
    rw [Bool.true_and, (smul_eq_inf_iff models_fp ((pointIn_canonical1 P).2 hP) hW Config.r).2 hr]
    rfl

end Sys2Proof.Machine
end

section
/-! PROOFS. The curve commands: tests, sums, negatives and multiples, the Jacobian conversions, and the operands off their curve. -/

namespace Sys2Proof.Machine

variable {s t : State} {b : Nat}

/-! ### The curve tests -/

/-- oncurve1 of a view, in the integers (00_scope.md R20). -/
theorem onCurve1_g1_iff : onCurve1 (s.g1 b) = true ↔ (s.fp b = 0 ∧ s.fp (b + 1) = 0) ∨
    s.fp (b + 1) * s.fp (b + 1) % Config.p = (s.fp b * s.fp b * s.fp b + 3) % Config.p := by
  rw [State.g1, pointOf1]
  split <;> rename_i h
  · exact iff_of_true rfl (.inl h)
  · rw [or_iff_right h]
    refine decide_eq_true_iff.trans ?_
    simp [fpOps, fpMul, fpAdd, Config.curveB, Nat.add_mod, Nat.mul_mod]

/-- oncurve2 of a view (00_scope.md R20). -/
theorem onCurve2_g2_iff : onCurve2 (s.g2 b) = true ↔ (s.fp2 b = Fp2.zero ∧ s.fp2 (b + 2) = Fp2.zero) ∨
    (s.fp2 (b + 2)).mul (s.fp2 (b + 2)) = (((s.fp2 b).mul (s.fp2 b)).mul (s.fp2 b)).add twistB := by
  rw [State.g2, pointOf2]
  split <;> rename_i h
  · exact iff_of_true rfl (.inl h)
  · rw [or_iff_right h]
    exact decide_eq_true_iff

theorem inSub1_iff (P : Point Nat) : inSub1 P = true ↔ onCurve1 P = true ∧ P.smul fpOps Config.r = .inf := by
  rw [inSub1, Bool.and_eq_true, decide_eq_true_iff]

theorem inSub2_iff (Q : Point Fp2) : inSub2 Q = true ↔ onCurve2 Q = true ∧ Q.smul fp2Ops Config.r = .inf := by
  rw [inSub2, Bool.and_eq_true, decide_eq_true_iff]

/-- Settles O33: each test is its predicate of the view, and FLAG is all it writes. -/
theorem curveTests : Obligations.CurveTests :=
  ⟨by decide +kernel, fun _ _ h => exec_writes_flag h rfl onCurve1_g1_iff, fun _ _ h => exec_writes_flag h rfl onCurve2_g2_iff,
    fun _ _ h => exec_writes_flag h rfl ((inSub1_iff _).trans (and_congr_left' onCurve1_g1_iff)),
    fun _ _ h => exec_writes_flag h rfl ((inSub2_iff _).trans (and_congr_left' onCurve2_g2_iff))⟩

/-! ### The operand check -/

section
variable {β : Type} {P : Point Nat} {Q : Point Fp2}

theorem onG1_ok (op : Point Nat → β) (h : onCurve1 P = true) : onG1 op P = .ok (op P) := if_pos h

theorem onG2_ok (op : Point Fp2 → β) (h : onCurve2 Q = true) : onG2 op Q = .ok (op Q) := if_pos h

theorem onG1_error (op : Point Nat → β) (h : onCurve1 P = false) : onG1 op P = .error .invalidPoint := if_neg (by simp [h])

theorem onG2_error (op : Point Fp2 → β) (h : onCurve2 Q = false) : onG2 op Q = .error .invalidPoint := if_neg (by simp [h])

/-- The checks of two operands, the first one first. -/
theorem guard_pair_error {c1 c2 : Prop} [Decidable c1] [Decidable c2] {r : Except ErrKind β} {k : ErrKind} (h : ¬(c1 ∧ c2)) :
    (if c1 then if c2 then r else .error k else .error k) = .error k := by
  by_cases h1 : c1
  · rw [if_pos h1, if_neg fun h2 => h ⟨h1, h2⟩]
  · rw [if_neg h1]

end

/-- A ready encoder whose operation fails records the error. -/
theorem exec_encode_raised {α : Type} {i : Instr} {V : View α} {len : Nat} {op : Bool → α → Except ErrKind (List Byte)} {r : RegIdx}
    {off : Half} {k : ErrKind} {w : Word} (h : Ready i s) (hw : s.cur = some w)
    (hwin : windowsOf i = [V.extent r, .iobuf off.toNat len]) (hsrc : sourcesOf i = [V.src r])
    (hrun : exec i s = cmdEncode V len op r off s) (hop : op s.fp2ordCmd (V.read s r.toNat) = .error k) :
    exec i s = .next (s.raised w k.code) := by
  rw [hrun, cmdEncode, ← hwin, ← hsrc, perform_ready s _ _ _ h.1 h.2, hop, ← raise_eq_raised s k w hw]
  rfl

theorem encG1U_error {P : Point Nat} (h : onCurve1 P = false) : encG1U P = .error .invalidPoint := if_neg (by simp [h])

theorem encG1C_error {P : Point Nat} (h : onCurve1 P = false) : encG1C P = .error .invalidPoint := if_neg (by simp [h])

theorem encG2U_error (ord : Bool) {Q : Point Fp2} (h : onCurve2 Q = false) : encG2U ord Q = .error .invalidPoint := if_neg (by simp [h])

theorem encG2C_error (ord : Bool) {Q : Point Fp2} (h : onCurve2 Q = false) : encG2C ord Q = .error .invalidPoint := if_neg (by simp [h])

/-- Settles O46: the operand check fails, and its error is all a ready command records. -/
theorem offCurveOperands : Obligations.OffCurveOperands := by
  intro d a b off s w hw
  exact ⟨fun h hc => exec_raised h hw rfl (guard_pair_error hc),
    fun h hc => exec_raised h hw rfl (onG1_error _ hc),
    fun h hc => exec_raised h hw rfl (onG1_error _ hc),
    fun h hc => exec_raised h hw rfl (onG1_error _ hc),
    fun h hc => exec_raised h hw rfl (onG1_error _ hc),
    fun h hc => exec_encode_raised (op := fun _ => encG1U) h hw rfl rfl rfl (encG1U_error hc),
    fun h hc => exec_encode_raised (op := fun _ => encG1C) h hw rfl rfl rfl (encG1C_error hc),
    fun h hc => exec_raised h hw rfl (guard_pair_error hc),
    fun h hc => exec_raised h hw rfl (onG2_error _ hc),
    fun h hc => exec_raised h hw rfl (onG2_error _ hc),
    fun h hc => exec_raised h hw rfl (onG2_error _ hc),
    fun h hc => exec_raised h hw rfl (onG2_error _ hc),
    fun h hc => exec_encode_raised h hw rfl rfl rfl (encG2U_error _ hc),
    fun h hc => exec_encode_raised h hw rfl rfl rfl (encG2C_error _ hc),
    fun h hc => exec_raised h hw rfl (guard_pair_error hc),
    fun h hc => exec_raised h hw rfl (guard_pair_error hc)⟩

/-! ### Sums -/

/-- The second source of a ready command is canonical, in an invariant state. -/
theorem canonical_of_ready_second {i : Instr} {n : Nat} {w : Nat × Nat} {ws : List (Nat × Nat)} (hinv : s.Inv) (h : Ready i s)
    (hsrc : sourcesOf i = w :: (b, n) :: ws) : CanonicalRegs s b n :=
  canonical_of_written hinv (h.2 (b, n) (by simp [hsrc]))

theorem g1_chordTangent {P Q : Point Nat} (hP : canonical1 P) (hQ : canonical1 Q) (cP : onCurve1 P = true) (cQ : onCurve1 Q = true) :
    ChordTangent fpOps P Q (P.add fpOps Q) := by
  have := fact_p
  exact chordTangent_add models_fp ((pointIn_canonical1 P).2 hP) ((pointIn_canonical1 Q).2 hQ) cP cQ

/-- Settles O40: the answer is the model's sum, which is the sum of the case list on canonical points of E. -/
theorem g1Sum : Obligations.G1Sum := by
  constructor
  · intro d a b s hinv h ca cb
    obtain ⟨t, ht, hwrites, hregs⟩ := exec_writes_view (d := d) h rfl rfl ((if_pos ca).trans (onG1_ok _ cb)) (length_regsOf1 _)
    exact ⟨t, _, ht, hwrites, hregs,
      g1_chordTangent (canonical_g1 (canonical_of_ready hinv h rfl)) (canonical_g1 (canonical_of_ready_second hinv h rfl)) ca cb⟩
  · intro d a s hinv h ca
    have hcan := canonical_g1 (canonical_of_ready hinv h rfl)
    obtain ⟨t, ht, hwrites, hregs⟩ := exec_writes_view (d := d) h rfl rfl (onG1_ok _ ca) (length_regsOf1 _)
    exact ⟨t, _, ht, hwrites, hregs, g1_chordTangent hcan hcan ca ca⟩

/-- Settles O42: the same on the twist. -/
theorem g2Sum : Obligations.G2Sum := by
  constructor
  · intro d a b s hinv h ca cb
    obtain ⟨t, ht, hwrites, hregs⟩ := exec_writes_view (d := d) h rfl rfl ((if_pos ca).trans (onG2_ok _ cb)) (length_regsOf2 _)
    exact ⟨t, _, ht, hwrites, hregs,
      (twist_add ⟨canonical_g2 (canonical_of_ready hinv h rfl), ca⟩ ⟨canonical_g2 (canonical_of_ready_second hinv h rfl), cb⟩).2⟩
  · intro d a s hinv h ca
    have hQ : OnTwist (s.g2 a.toNat) := ⟨canonical_g2 (canonical_of_ready hinv h rfl), ca⟩
    obtain ⟨t, ht, hwrites, hregs⟩ := exec_writes_view (d := d) h rfl rfl (onG2_ok _ ca) (length_regsOf2 _)
    exact ⟨t, _, ht, hwrites, hregs, (twist_add hQ hQ).2⟩

/-! ### Negatives and multiples -/

/-- The negative of a view, O included: x is kept and y negated. -/
theorem regsOf1_neg_g1 (s : State) (b : Nat) :
    regsOf1 ((s.g1 b).neg fpOps) = [s.reg b, elemOf (fpNeg (s.fp (b + 1)))] := by
  rw [State.g1, pointOf1, ← elemOf_fp]
  split <;> rename_i h
  · rw [h.1, h.2]
    rfl
  · rfl

theorem regsOf2_neg_g2 (s : State) (b : Nat) :
    regsOf2 ((s.g2 b).neg fp2Ops) = (s.fp2 b).regs ++ (s.fp2 (b + 2)).neg.regs := by
  rw [State.g2, pointOf2]
  split <;> rename_i h
  · rw [h.1, h.2, neg_zero2]
    rfl
  · rfl

/-- Settles O41: the negative's registers are the copy of x and a residue; the multiple's are those of the model's function. -/
theorem g1NegMul : Obligations.G1NegMul := by
  constructor
  · intro d a s h ca
    obtain ⟨t, ht, hwrites, hregs⟩ := exec_writes_view (d := d) h rfl rfl (onG1_ok _ ca) (length_regsOf1 _)
    obtain ⟨hx, hy⟩ := regList_two (hregs.trans (regsOf1_neg_g1 s _))
    exact ⟨t, ht, hwrites, hx, (congrArg Nat.cast (fp_of_reg hy ((fpNeg_lt _).trans (by decide)))).trans (fpNeg_int _)⟩
  · intro d a b s h ca
    exact exec_writes_view h rfl rfl (onG1_ok _ ca) (length_regsOf1 _)

/-- Settles O43: the same over Fp2. -/
theorem g2NegMul : Obligations.G2NegMul := by
  constructor
  · intro d a s h ca
    obtain ⟨t, ht, hwrites, hregs⟩ := exec_writes_view (d := d) h rfl rfl (onG2_ok _ ca) (length_regsOf2 _)
    obtain ⟨hx, hy⟩ := regList_split (m := 2) (n := 2) (hregs.trans (regsOf2_neg_g2 s _)) rfl
    refine ⟨t, ht, hwrites, regList_inj.1 (hx.trans (fp2_regs s _)), fun k h2 hk => ?_⟩
    have hres := fp_of_residues (fun j => fpNeg_int (s.fp (a.toNat + 2 + j))) hy (k := k - 2) (by omega)
    rwa [Nat.add_assoc, Nat.add_assoc, Nat.add_sub_cancel' h2] at hres
  · intro d a b s h ca
    exact exec_writes_view h rfl rfl (onG2_ok _ ca) (length_regsOf2 _)

/-! ### Jacobian triples -/

theorem g1_eq_aff (h : s.g1 b ≠ .inf) : s.g1 b = .aff (s.fp b) (s.fp (b + 1)) := if_neg fun h0 => h (if_pos h0)

theorem g2_eq_aff (h : s.g2 b ≠ .inf) : s.g2 b = .aff (s.fp2 b) (s.fp2 (b + 2)) := if_neg fun h0 => h (if_pos h0)

theorem regList_three {x y z : Elem} (h : t.regList b 3 = [x, y, z]) : t.reg b = x ∧ t.reg (b + 1) = y ∧ t.reg (b + 2) = z := by
  have hk := (regList_eq_iff t b [x, y, z]).1 h
  exact ⟨hk 0 (by simp), hk 1 (by simp), hk 2 (by simp)⟩

/-- Settles O44: the triple of O is (1, 1, 0); that of another point has its registers and Z = 1. -/
theorem toJacobian : Obligations.ToJacobian := by
  constructor
  · intro d a s h ca
    obtain ⟨t, ht, hwrites, hregs⟩ := exec_writes_view (d := d) (y := (s.g1 a.toNat).toJac fpOps) h rfl rfl (onG1_ok _ ca) rfl
    refine ⟨t, ht, hwrites, fun hinf => ?_, fun hne => ?_⟩
    · rw [hinf] at hregs
      exact regList_three hregs
    · rw [g1_eq_aff hne] at hregs
      obtain ⟨hx, hy, hz⟩ := regList_three hregs
      exact ⟨hx.trans (elemOf_fp s _), hy.trans (elemOf_fp s _), hz⟩
  · intro d a s h ca
    obtain ⟨t, ht, hwrites, hregs⟩ := exec_writes_view (d := d) (y := (s.g2 a.toNat).toJac fp2Ops) h rfl rfl (onG2_ok _ ca) rfl
    refine ⟨t, ht, hwrites, fun hinf => ?_, fun hne => ?_⟩
    · rw [hinf] at hregs
      exact hregs
    · rw [g2_eq_aff hne] at hregs
      obtain ⟨hxy, hz⟩ := regList_split (m := 4) (n := 2) (xs := (s.fp2 a.toNat).regs ++ (s.fp2 (a.toNat + 2)).regs) hregs rfl
      refine ⟨regList_inj.1 (hxy.trans ?_), regList_two hz⟩
      rw [fp2_regs, fp2_regs, ← regList_append]

section
variable {A : Type} [DecidableEq A] {F : FieldOps A} {J : Jacobian A}

theorem toAff_eq_inf (hz : J.z = F.zero) : J.toAff F = .inf := if_pos hz

/-- The point (x, y) of a triple (X, Y, Z) with Z nonzero: x*Z^2 = X and y*Z^3 = Y (43_curve.md R234). -/
theorem toAff_eq_aff {K : Type} [Field K] {φ : A → K} {C : A → Prop} (m : Models F φ C) (hJ : J.In C) (hz : J.z ≠ F.zero) :
    ∃ x y, J.toAff F = .aff x y ∧ C x ∧ C y ∧ F.mul x (F.mul J.z J.z) = J.x ∧ F.mul y (F.mul (F.mul J.z J.z) J.z) = J.y := by
  obtain ⟨cx, cy, cz⟩ := hJ
  have hφ : φ J.z ≠ 0 := fun h0 => hz (m.inj _ _ cz m.zero_mem (h0.trans m.zero.symm))
  have hinv := m.inv _ cz hφ
  refine ⟨_, _, if_neg hz, m.mul_mem _ _, m.mul_mem _ _, m.inj _ _ (m.mul_mem _ _) cx ?_, m.inj _ _ (m.mul_mem _ _) cy ?_⟩
  · simp only [m.mul, hinv]
    field_simp
  · simp only [m.mul, hinv]
    field_simp

end

theorem jacobian1_in (h : CanonicalRegs s b 3) : (j1View.read s b).In (· < Config.p) :=
  ⟨h 0 (by decide), h 1 (by decide), h 2 (by decide)⟩

theorem jacobian2_in (h : CanonicalRegs s b 6) : (j2View.read s b).In Fp2.canonical :=
  ⟨canonical_fp2 (h.sub 0 2 (by decide)), canonical_fp2 (h.sub 2 2 (by decide)), canonical_fp2 (h.sub 4 2 (by decide))⟩

theorem mul_sq_mod_p (x z : Nat) : x * z ^ 2 % Config.p = fpMul x (fpMul z z) := by simp [fpMul, sq]

theorem mul_cube_mod_p (x z : Nat) : x * z ^ 3 % Config.p = fpMul x (fpMul (fpMul z z) z) := by simp [fpMul, pow_succ]

/-- Settles O45: the point of a triple with Z = 0 is O, and the coordinates of any other satisfy the two equations. -/
theorem toAffine : Obligations.ToAffine := by
  have := fact_p
  have := fact_k2
  constructor
  · intro d a s hinv h
    have hJ := jacobian1_in (canonical_of_ready hinv h rfl)
    obtain ⟨t, ht, hwrites, hregs⟩ := exec_writes_view (d := d) h rfl rfl rfl (length_regsOf1 _)
    refine ⟨t, ht, hwrites, canonicalRegs_of_regList (hregs ▸ g1View_writes.canonical _ (canonical1_toAff _)), fun hz => ?_, fun hz => ?_⟩
    · rw [toAff_eq_inf (F := fpOps) (J := j1View.read s a.toNat) hz] at hregs
      obtain ⟨hx, hy⟩ := regList_two hregs
      exact ⟨fp_of_reg hx (by decide), fp_of_reg hy (by decide)⟩
    · obtain ⟨x, y, hxy, cx, cy, ex, ey⟩ := toAff_eq_aff models_fp hJ hz
      rw [hxy] at hregs
      obtain ⟨hx, hy⟩ := regList_two hregs
      rw [fp_of_reg hx (cx.trans (by decide)), fp_of_reg hy (cy.trans (by decide)), mul_sq_mod_p, mul_cube_mod_p]
      exact ⟨ex, ey⟩
  · intro d a s hinv h
    have hJ := jacobian2_in (canonical_of_ready hinv h rfl)
    obtain ⟨t, ht, hwrites, hregs⟩ := exec_writes_view (d := d) h rfl rfl rfl (length_regsOf2 _)
    refine ⟨t, ht, hwrites, canonicalRegs_of_regList (hregs ▸ g2View_writes.canonical _ (canonical2_toAff _)), fun hz => ?_, fun hz => ?_⟩
    · rw [toAff_eq_inf (F := fp2Ops) (J := j2View.read s a.toNat) hz] at hregs
      exact regList_eq_zeros_iff.1 hregs
    · obtain ⟨x, y, hxy, cx, cy, ex, ey⟩ := toAff_eq_aff models_fp2 hJ hz
      rw [hxy] at hregs
      obtain ⟨hx, hy⟩ := regList_split (m := 2) (n := 2) hregs rfl
      have rx : t.fp2 d.toNat = x := f2View_faithful.read_of_regList cx hx
      have ry : t.fp2 (d.toNat + 2) = y := f2View_faithful.read_of_regList cy hy
      rw [rx, ry]
      exact ⟨ex, ey⟩

end Sys2Proof.Machine
end

section
/-! PROOFS. The pairing commands: MILLER and MLACC with the Miller value of their points, FEXP with the power of its source. -/

namespace Sys2Proof.Machine

/-! ### Fp12 views and their registers -/

section
variable {s t : State} {b : Nat}

/-- The registers of the Fp12 one are 1 and eleven zeros. -/
theorem regs_of_fp12_one (h : s.fp12 b = Fp12.one) : s.reg b = 1 ∧ ∀ k : Nat, 1 ≤ k → k < 12 → s.reg (b + k) = 0 := by
  have hregs : s.regList b (1 + 11) = [1] ++ List.replicate 11 0 := by
    rw [← fp12_regs, h]
    rfl
  obtain ⟨hone, hzeros⟩ := regList_split hregs rfl
  refine ⟨(regList_eq_iff s b [1]).1 hone 0 (by decide), fun k h1 hk => ?_⟩
  have hzero := regList_eq_zeros_iff.1 hzeros (k - 1) (by omega)
  rwa [Nat.add_assoc, Nat.add_sub_cancel' h1] at hzero

/-- One of the registers of a nonzero element is not 0. -/
theorem exists_reg_ne_zero_of_fp12 (h : s.fp12 b ≠ Fp12.zero) : ∃ k : Nat, k < 12 ∧ s.reg (b + k) ≠ 0 := by
  by_contra hnone
  exact h (fp12_eq_zero fun k hk => of_not_not fun h0 => hnone ⟨k, hk, h0⟩)

theorem reg_eq_of_fp12_eq (h : t.fp12 b = s.fp12 b) {k : Nat} (hk : k < 12) : t.reg (b + k) = s.reg (b + k) :=
  regList_inj.1 (by rw [← fp12_regs, ← fp12_regs, h]) k hk

end

/-! ### The Miller value of two points -/

theorem Fp12.one_ne_zero : Fp12.one ≠ Fp12.zero := by decide

/-- 1 is neutral where the coordinates are already reduced. -/
theorem Fp12.mul_one_of_canonical {f : Fp12} (h : f.canonical) : f.mul Fp12.one = f :=
  Fp12.towerVal_inj (Fp12.canonical_mul _ _) h (by simp only [Fp12.towerVal, Fp12.val_mul towerRing_tower, Fp12.val_one, mul_one])

section
variable {P : Point Nat} {Q : Point Fp2}

/-- "identity pairs contribute nothing" (44_pairing.md R285). -/
theorem miller_eq_one (h : P = .inf ∨ Q = .inf) : miller P Q = Fp12.one := by
  rcases h with rfl | rfl
  · rfl
  · cases P <;> rfl

/-- "the result is never 0" (44_pairing.md R285). -/
theorem miller_ne_zero (hP : canonical1 P) (cP : onCurve1 P = true) (hQ : OnTwist Q) : miller P Q ≠ Fp12.zero := by
  cases P with
  | inf => exact miller_eq_one (.inl rfl) ▸ Fp12.one_ne_zero
  | aff xP yP =>
    cases Q with
    | inf => exact miller_eq_one (.inr rfl) ▸ Fp12.one_ne_zero
    | aff x y => exact (miller_value hP.2 cP hQ).1

end

/-! ### MILLER and MLACC -/

section
variable {s : State} {d a b : RegIdx}

/-- The Miller value of the affine points of two views, in a ring with the tower's u, v and w (44_pairing.md R282). -/
theorem millerValue_of_views (hP : canonical1 (s.g1 a.toNat)) (cP : onCurve1 (s.g1 a.toNat) = true) (hQ : OnTwist (s.g2 b.toNat))
    (nP : s.g1 a.toNat ≠ .inf) (nQ : s.g2 b.toNat ≠ .inf) {R : Type} [CommRing R] {u v w : R} (T : TowerIn R u v w) :
    MillerValue u w (s.fp a.toNat) (s.fp (a.toNat + 1)) (s.fp2 b.toNat) (s.fp2 (b.toNat + 2))
      ((miller (s.g1 a.toNat) (s.g2 b.toNat)).val u v w) := by
  rw [g1_eq_aff nP] at hP cP ⊢
  rw [g2_eq_aff nQ] at hQ ⊢
  exact (miller_value hP.2 cP hQ).2 T

/-- The points of a ready command whose sources are a G1 view and a G2 view, in an invariant state. -/
theorem points_of_ready {i : Instr} {ws : List (Nat × Nat)} (hinv : s.Inv) (h : Ready i s)
    (hsrc : sourcesOf i = (a.toNat, 2) :: (b.toNat, 4) :: ws) (cQ : onCurve2 (s.g2 b.toNat) = true) :
    canonical1 (s.g1 a.toNat) ∧ OnTwist (s.g2 b.toNat) :=
  ⟨canonical_g1 (canonical_of_ready hinv h hsrc), canonical_g2 (canonical_of_ready_second hinv h hsrc), cQ⟩

theorem exec_miller (h : Ready (.miller d a b) s) (cP : onCurve1 (s.g1 a.toNat) = true) (cQ : onCurve2 (s.g2 b.toNat) = true) :
    ∃ t : State, exec (.miller d a b) s = .next t ∧ WritesRegs s t d.toNat 12 ∧ CanonicalRegs t d.toNat 12 ∧
      t.fp12 d.toNat = miller (s.g1 a.toNat) (s.g2 b.toNat) :=
  exec_writes_element f12View_faithful h rfl rfl ((if_pos cP).trans (onG2_ok _ cQ)) (Fp12.canonical_miller _ _)

theorem exec_mlacc (h : Ready (.mlacc d a b) s) (cP : onCurve1 (s.g1 a.toNat) = true) (cQ : onCurve2 (s.g2 b.toNat) = true) :
    ∃ t : State, exec (.mlacc d a b) s = .next t ∧ WritesRegs s t d.toNat 12 ∧ CanonicalRegs t d.toNat 12 ∧
      t.fp12 d.toNat = (s.fp12 d.toNat).mul (miller (s.g1 a.toNat) (s.g2 b.toNat)) :=
  exec_writes_element f12View_faithful h rfl rfl ((if_pos cP).trans (onG2_ok _ cQ)) (Fp12.canonical_mul _ _)

end

/-- Settles O50: MILLER answers the model's Miller value and MLACC the product with it; on canonical points of the curves that value is
nonzero and the one of R282. -/
theorem millerValues : Obligations.MillerValues := by
  constructor
  · intro d a b s h cP cQ
    obtain ⟨t, ht, hwrites, hcan, hread⟩ := exec_miller h cP cQ
    refine ⟨t, ht, hwrites, hcan, hread, fun hinf => regs_of_fp12_one (hread.trans (miller_eq_one hinf)), fun hinv => ?_⟩
    obtain ⟨hP, hQ⟩ := points_of_ready hinv h rfl cQ
    refine ⟨exists_reg_ne_zero_of_fp12 (hread ▸ miller_ne_zero hP cP hQ), fun nP nQ R _ u v w T => ?_⟩
    rw [value12_eq, hread]
    exact millerValue_of_views hP cP hQ nP nQ T
  · intro d a b s h cP cQ
    obtain ⟨t, ht, hwrites, hcan, hread⟩ := exec_mlacc h cP cQ
    refine ⟨t, ht, hwrites, hcan, hread, fun hinf hs k hk => reg_eq_of_fp12_eq ?_ hk, fun hinv => ?_⟩
    · rw [hread, miller_eq_one hinf, Fp12.mul_one_of_canonical (canonical_fp12 hs)]
    · obtain ⟨hP, hQ⟩ := points_of_ready hinv h rfl cQ
      have hacc := canonical_fp12 (canonical_of_written hinv (h.2 (d.toNat, 12) (by simp [sourcesOf])))
      refine ⟨fun hne => exists_reg_ne_zero_of_fp12 ?_, fun nP nQ R _ u v w T => ⟨_, millerValue_of_views hP cP hQ nP nQ T, ?_⟩⟩
      · rw [hread]
        exact Fp12.mul_ne_zero hacc (Fp12.canonical_miller _ _) (fp12_ne_zero hne) (miller_ne_zero hP cP hQ)
      · rw [value12_eq, hread, Fp12.val_mul T, value12_eq]

/-! ### FEXP -/

/-- Settles O51: FEXP answers the model's power, whose value is the power of the source's value; r divides p^12 - 1. -/
theorem finalExponentiation : Obligations.FinalExponentiation :=
  ⟨Dvd.intro_left _ fexp_exponent, fun _ _ _ h hne =>
    exec_writes_value Fp12.valuation f12View_faithful h rfl rfl (nonzero_ok finalExp (fp12_ne_zero hne)) (Fp12.canonical_pow _ _)
      fun _ _ _ _ _ T => Fp12.val_pow T _ _⟩

/-- Settles O52: the power that FEXP writes, to the r, is the source to the p^12 - 1, which is 1 for a canonical nonzero element. -/
theorem fexpOrder : Obligations.FexpOrder := by
  intro d a s hinv h hne
  obtain ⟨t, ht, -, -, hval⟩ := finalExponentiation.2 d a s h hne
  refine ⟨t, ht, fun R _ u v w T => ?_⟩
  have hcan := canonical_fp12 (canonical_of_ready hinv h rfl)
  calc t.value12 d.toNat u v w ^ Config.r
      = (s.fp12 a.toNat).val u v w ^ (Config.p ^ 12 - 1) := by
        rw [hval R u v w T, ← pow_mul, Nat.div_mul_cancel finalExponentiation.1, value12_eq]
    _ = 1 := Fp12.val_pow_order T hcan (fp12_ne_zero hne)

end Sys2Proof.Machine
end

section
/-! PROOFS. The codec commands of Fp, scalars and Fp2: the integers of the bytes a decoder reads, the bytes an encoder leaves. -/

namespace Sys2Proof.Machine

/-! ### The integers of a byte string in IOBUF -/

section
variable {m : Memory} {off x : Nat} {xs ys : List Byte}

theorem readBytes_split {a b : Nat} (h : m.readBytes off (a + b) = xs ++ ys) (ha : xs.length = a) :
    m.readBytes off a = xs ∧ m.readBytes (off + a) b = ys :=
  List.append_inj ((Memory.readBytes_append m off a b).symm.trans h) (by simp [ha])

theorem beNat_take_readBytes (m : Memory) (off a b : Nat) : beNat ((m.readBytes off (a + b)).take a) = m.beAt off a := by
  rw [Memory.take_readBytes, Memory.beAt_eq]

theorem beNat_drop_readBytes (m : Memory) (off a b : Nat) : beNat ((m.readBytes off (a + b)).drop a) = m.beAt (off + a) b := by
  rw [Memory.drop_readBytes, Memory.beAt_eq]

theorem beAt_of_be32 (h : m.readBytes off 32 = be32 x) (hx : x < 2 ^ 256) : m.beAt off 32 = x := by
  rw [Memory.beAt_eq, h, beNat_be32 x hx]

/-- Two integers side by side. -/
theorem beAt_pair_of_be32 {y : Nat} (h : m.readBytes off 64 = be32 x ++ be32 y) (hx : x < 2 ^ 256) (hy : y < 2 ^ 256) :
    m.beAt off 32 = x ∧ m.beAt (off + 32) 32 = y := by
  obtain ⟨h0, h1⟩ := readBytes_split (a := 32) (b := 32) h (length_be32 x)
  exact ⟨beAt_of_be32 h0 hx, beAt_of_be32 h1 hy⟩

end

/-! ### Decoders of integers and of Fp2 elements -/

section
variable {ord : Bool} {xs : List Byte} {h0 h1 : Nat}

theorem decFp_ok (h : beNat xs < Config.p) : decFp xs = .ok (beNat xs) := if_pos h

theorem decFp_error (h : Config.p ≤ beNat xs) : decFp xs = .error .malformedEncoding := if_neg h.not_gt

theorem decScalar_ok (h : beNat xs < Config.r) : decScalar xs = .ok (beNat xs) := if_pos h

theorem decScalar_error (h : Config.r ≤ beNat xs) : decScalar xs = .error .malformedEncoding := if_neg h.not_gt

theorem fp2OfHalves_ok (hlt0 : h0 < Config.p) (hlt1 : h1 < Config.p) :
    fp2OfHalves ord h0 h1 = .ok (if ord then ⟨h1, h0⟩ else ⟨h0, h1⟩) :=
  (if_pos hlt0).trans (if_pos hlt1)

theorem fp2OfHalves_error (h : Config.p ≤ h0 ∨ Config.p ≤ h1) : fp2OfHalves ord h0 h1 = .error .malformedEncoding :=
  guard_pair_error fun ⟨hlt0, hlt1⟩ => h.elim hlt0.not_ge hlt1.not_ge

/-- dec2 on the bytes of IOBUF. -/
theorem decFp2_readBytes (m : Memory) (off : Nat) :
    decFp2 ord (m.readBytes off 64) = fp2OfHalves ord (m.beAt off 32) (m.beAt (off + 32) 32) := by
  rw [decFp2, beNat_take_readBytes m off 32 32, beNat_drop_readBytes m off 32 32]

theorem halves_canonical (hlt0 : h0 < Config.p) (hlt1 : h1 < Config.p) : (if ord then (⟨h1, h0⟩ : Fp2) else ⟨h0, h1⟩).canonical :=
  fp2OfHalves_canonical ord h0 h1 _ (fp2OfHalves_ok hlt0 hlt1)

end

/-! ### A codec command in range -/

section
variable {i : Instr} {s : State} {off : Half}

/-- A command that reads no register is ready when its windows are in range. -/
theorem ready_of_inRange (h : InRange i) (hsrc : sourcesOf i = []) : Ready i s := ⟨h, by simp [SourcesWritten, hsrc]⟩

/-- The command is the encoder `op` of the view at `r` into the `len` bytes at `off`. -/
structure Encodes {α : Type} (i : Instr) (V : View α) (len : Nat) (op : Bool → α → Except ErrKind (List Byte)) (r : RegIdx) (off : Half) :
    Prop where
  run : ∀ s, exec i s = cmdEncode V len op r off s
  windows : windowsOf i = [V.extent r, .iobuf off.toNat len]
  sources : sourcesOf i = [V.src r]

/-- A ready encoder leaves its byte string in its window. -/
theorem Encodes.writes {α : Type} {V : View α} {len : Nat} {op : Bool → α → Except ErrKind (List Byte)} {r : RegIdx} {xs : List Byte}
    (he : Encodes i V len op r off) (hinv : s.Inv) (h : Ready i s) (hop : op s.fp2ordCmd (V.read s r.toNat) = .ok xs)
    (hlen : xs.length = len) :
    ∃ t, exec i s = .next t ∧ WritesBytes s t off.toNat len ∧ t.iobuf.readBytes off.toNat len = xs := by
  subst hlen
  have ho : off.toNat + xs.length ≤ Config.iobufSize :=
    ((Extent.inRange_iff _).1 (h.1 (.iobuf off.toNat xs.length) (by simp [he.windows]))).2 _ _ rfl
  have hnext : exec i s = .next (s.commit (.bytes off.toNat xs)) := by
    rw [he.run, cmdEncode, ← he.windows, ← he.sources, perform_ready s _ _ _ h.1 h.2, hop]
    rfl
  exact ⟨_, hnext, writesBytes_commit s _ _ hinv.iobuf_wf ho, Memory.readBytes_writeBytes _ _ _ hinv.iobuf_wf ho⟩

end

/-- Settles O53: each decoder is its integers below the bound, and MalformedEncoding is all it records otherwise. -/
theorem fieldDecoders : Obligations.FieldDecoders := by
  intro r off s w hw
  refine ⟨fun hin => ?_, fun hin => ?_, fun hin => ?_⟩
  · have h : Ready (.fpDec r off) s := ready_of_inRange hin rfl
    rw [Memory.beAt_eq]
    exact ⟨fun hlt => exec_writes_fp h rfl (decFp_ok hlt) hlt, fun hge => exec_raised h hw rfl (decFp_error hge)⟩
  · have h : Ready (.scDec r off) s := ready_of_inRange hin rfl
    rw [Memory.beAt_eq]
    exact ⟨fun hlt => exec_writes_fp h rfl (decScalar_ok hlt) (hlt.trans (by decide)),
      fun hge => exec_raised h hw rfl (decScalar_error hge)⟩
  · have h : Ready (.f2Dec r off) s := ready_of_inRange hin rfl
    have hdec := decFp2_readBytes (ord := s.fp2ordCmd) s.iobuf off.toNat
    refine ⟨fun hlt0 hlt1 => ?_, fun hge => exec_raised h hw rfl (hdec.trans (fp2OfHalves_error hge))⟩
    obtain ⟨t, ht, hwrites, -, hread⟩ := exec_writes_element f2View_faithful h rfl rfl (hdec.trans (fp2OfHalves_ok hlt0 hlt1))
      (halves_canonical hlt0 hlt1)
    refine ⟨t, ht, hwrites, (congrArg Fp2.c0 hread).trans ?_, (congrArg Fp2.c1 hread).trans ?_⟩
    · exact apply_ite Fp2.c0 _ _ _
    · exact apply_ite Fp2.c1 _ _ _

/-! ### The bytes of an Fp2 element -/

/-- The half of a value that stands first on the wire (45_codec.md R301). -/
def Fp2.first (ord : Bool) (a : Fp2) : Nat := if ord then a.c1 else a.c0

/-- The half of a value that stands second on the wire (45_codec.md R301). -/
def Fp2.second (ord : Bool) (a : Fp2) : Nat := if ord then a.c0 else a.c1

theorem wire2_eq (ord : Bool) (a : Fp2) : wire2 ord a = be32 (a.first ord) ++ be32 (a.second ord) := by cases ord <;> rfl

theorem Fp2.halves_fit {a : Fp2} (ord : Bool) (h : a.fits) : a.first ord < 2 ^ 256 ∧ a.second ord < 2 ^ 256 := by
  cases ord
  · exact h
  · exact ⟨h.2, h.1⟩

theorem beAt_of_wire2 {m : Memory} {off : Nat} {ord : Bool} {a : Fp2} (h : m.readBytes off 64 = wire2 ord a) (ha : a.fits) :
    m.beAt off 32 = a.first ord ∧ m.beAt (off + 32) 32 = a.second ord := by
  obtain ⟨h0, h1⟩ := a.halves_fit ord ha
  exact beAt_pair_of_be32 (h.trans (wire2_eq ord a)) h0 h1

theorem fpEnc_encodes (r : RegIdx) (off : Half) : Encodes (.fpEnc r off) fpView 32 (fun _ x => .ok (be32 x)) r off :=
  ⟨fun _ => rfl, rfl, rfl⟩

theorem f2Enc_encodes (r : RegIdx) (off : Half) : Encodes (.f2Enc r off) f2View 64 (fun ord x => .ok (wire2 ord x)) r off :=
  ⟨fun _ => rfl, rfl, rfl⟩

/-- Settles O54: the bytes an encoder leaves are those of its registers' integers, which they read back as. -/
theorem fieldEncoders : Obligations.FieldEncoders := by
  intro r off s hinv
  constructor
  · intro h
    obtain ⟨t, ht, hwrites, hbytes⟩ := (fpEnc_encodes r off).writes hinv h rfl (length_be32 _)
    exact ⟨t, ht, hwrites, beAt_of_be32 hbytes (s.reg r.toNat).isLt⟩
  · intro h
    obtain ⟨t, ht, hwrites, hbytes⟩ := (f2Enc_encodes r off).writes hinv h rfl (length_wire2 _ _)
    exact ⟨t, ht, hwrites, beAt_of_wire2 hbytes (fp2_fits s r.toNat)⟩

end Sys2Proof.Machine
end

section
/-! PROOFS. The G1 codec commands: coordinates, identity forms, the curve equation and the selected root. -/

namespace Sys2Proof.Machine

/-! ### E in the integers, and its points as registers -/

section
variable {x y : Nat}

theorem fpMul_self_eq_rhs1_iff : fpMul y y = rhs1 x ↔ y * y % Config.p = (x * x * x + 3) % Config.p := by
  simp [rhs1, fpMul, fpAdd, Config.curveB, Nat.add_mod, Nat.mul_mod]

/-- oncurve1 of a pair of coordinates, (0, 0) standing for O. -/
theorem onCurve1_pointOf1_iff :
    onCurve1 (pointOf1 x y) = true ↔ (x = 0 ∧ y = 0) ∨ y * y % Config.p = (x * x * x + 3) % Config.p := by
  rw [pointOf1]
  split <;> rename_i h
  · exact iff_of_true rfl (.inl h)
  · rw [or_iff_right h, ← fpMul_self_eq_rhs1_iff]
    exact decide_eq_true_iff

theorem regsOf1_pointOf1 (x y : Nat) : regsOf1 (pointOf1 x y) = [elemOf x, elemOf y] := by
  rw [pointOf1]
  split <;> rename_i h
  · rw [h.1, h.2]
    rfl
  · rfl

end

theorem regsOf1_inf : regsOf1 .inf = [elemOf 0, elemOf 0] := rfl

/-- A ready command that answers the point of two coordinates in [0, p) writes these to the view at D. -/
theorem exec_writes_g1 {i : Instr} {s : State} {d : RegIdx} {ws : List Extent} {r : State → Except ErrKind (Point Nat)} {P : Point Nat}
    {x y : Nat} (h : Ready i s) (hwin : windowsOf i = g1View.extent d :: ws)
    (hrun : exec i s = perform (windowsOf i) (sourcesOf i) (fun s => g1View.put d (r s)) s) (hr : r s = .ok P)
    (hP : regsOf1 P = [elemOf x, elemOf y]) (hx : x < Config.p) (hy : y < Config.p) :
    ∃ t, exec i s = .next t ∧ WritesRegs s t d.toNat 2 ∧ t.fp d.toNat = x ∧ t.fp (d.toNat + 1) = y := by
  obtain ⟨t, ht, hwrites, hregs⟩ := exec_writes_view h hwin hrun hr (length_regsOf1 P)
  obtain ⟨ex, ey⟩ := regList_two (hregs.trans hP)
  exact ⟨t, ht, hwrites, fp_of_reg ex (hx.trans (by decide)), fp_of_reg ey (hy.trans (by decide))⟩

/-! ### G1_DECU -/

section
variable {xs : List Byte} {x y : Nat}

theorem decG1U_of_coords (hx : decFp (xs.take 32) = .ok x) (hy : decFp (xs.drop 32) = .ok y) :
    decG1U xs = if onCurve1 (pointOf1 x y) then .ok (pointOf1 x y) else .error .invalidPoint := by
  simp only [decG1U, hx, hy]
  rw [pointOf1]
  split
  · rfl
  · rfl

theorem decG1U_ok (hx : decFp (xs.take 32) = .ok x) (hy : decFp (xs.drop 32) = .ok y) (hc : onCurve1 (pointOf1 x y) = true) :
    decG1U xs = .ok (pointOf1 x y) :=
  (decG1U_of_coords hx hy).trans (if_pos hc)

theorem decG1U_off_curve (hx : decFp (xs.take 32) = .ok x) (hy : decFp (xs.drop 32) = .ok y) (hc : onCurve1 (pointOf1 x y) = false) :
    decG1U xs = .error .invalidPoint :=
  (decG1U_of_coords hx hy).trans (if_neg (by simp [hc]))

theorem decG1U_malformed (h : Config.p ≤ beNat (xs.take 32) ∨ Config.p ≤ beNat (xs.drop 32)) :
    decG1U xs = .error .malformedEncoding := by
  by_cases hx : Config.p ≤ beNat (xs.take 32)
  · simp only [decG1U, decFp_error hx]
  · simp only [decG1U, decFp_ok (not_le.1 hx), decFp_error (h.resolve_left hx)]

end

/-! ### G1_DECC -/

section
variable {xs : List Byte}

theorem decG1C_flagged (hinf : infBit (beNat xs) = true) (h : signBit (beNat xs) = true ∨ clearFlags (beNat xs) ≠ 0) :
    decG1C xs = .error .malformedEncoding :=
  (if_pos hinf).trans (if_pos h)

theorem decG1C_inf (hinf : infBit (beNat xs) = true) (hsign : signBit (beNat xs) = false) (hx : clearFlags (beNat xs) = 0) :
    decG1C xs = .ok .inf :=
  (if_pos hinf).trans (if_neg (by simp [hsign, hx]))

theorem decG1C_large (hinf : infBit (beNat xs) = false) (hx : Config.p ≤ clearFlags (beNat xs)) :
    decG1C xs = .error .malformedEncoding :=
  (if_neg (by simp [hinf])).trans (if_neg hx.not_gt)

/-- With x in [0, p) the root selection decides. -/
theorem decG1C_root (hinf : infBit (beNat xs) = false) (hx : clearFlags (beNat xs) < Config.p) :
    ((∀ y, fpMul y y ≠ rhs1 (clearFlags (beNat xs))) ∧ decG1C xs = .error .invalidPoint) ∨
    ∃ y, y < Config.p ∧ fpMul y y = rhs1 (clearFlags (beNat xs)) ∧ fpSgn y = signBit (beNat xs) ∧
      decG1C xs = .ok (.aff (clearFlags (beNat xs)) y) := by
  obtain ⟨hnone, hroot⟩ | ⟨y, hy, heq, hsgn, hroot⟩ := selectRoot1 (clearFlags (beNat xs)) (signBit (beNat xs))
  · exact .inl ⟨hnone, by simp only [decG1C, hinf, Bool.false_eq_true, if_false, if_pos hx, hroot]⟩
  · exact .inr ⟨y, hy, heq, hsgn, by simp only [decG1C, hinf, Bool.false_eq_true, if_false, if_pos hx, hroot]⟩

end

/-- Settles O55: G1_DECU is the operand check on two coordinates in [0, p); G1_DECC is decided by the flags, then by the root selection. -/
theorem g1Decoders : Obligations.G1Decoders := by
  intro r off s w hw
  constructor
  · intro hin
    have h : Ready (.g1Decu r off) s := ready_of_inRange hin rfl
    have ex := beNat_take_readBytes s.iobuf off.toNat 32 32
    have ey := beNat_drop_readBytes s.iobuf off.toNat 32 32
    rw [← ex, ← ey]
    intro x y point
    refine ⟨fun hge => exec_raised h hw rfl (decG1U_malformed hge), fun hx hy hoff => ?_, fun hx hy hon => ?_⟩
    · have hc : onCurve1 (pointOf1 x y) = false := Bool.eq_false_iff.2 fun hc => hoff (onCurve1_pointOf1_iff.1 hc)
      exact exec_raised h hw rfl (decG1U_off_curve (decFp_ok hx) (decFp_ok hy) hc)
    · have hc : onCurve1 (pointOf1 x y) = true := onCurve1_pointOf1_iff.2 hon
      exact exec_writes_g1 h rfl rfl (decG1U_ok (decFp_ok hx) (decFp_ok hy) hc) (regsOf1_pointOf1 x y) hx hy
  · intro hin
    have h : Ready (.g1Decc r off) s := ready_of_inRange hin rfl
    rw [Memory.beAt_eq]
    intro n x root
    refine ⟨fun hinf hbad => exec_raised h hw rfl (decG1C_flagged hinf hbad),
      fun hinf hsign hx => exec_writes_g1 h rfl rfl (decG1C_inf hinf hsign hx) regsOf1_inf p_pos p_pos,
      fun hinf hx => exec_raised h hw rfl (decG1C_large hinf hx), fun hinf hx hnone => ?_, fun hinf hx hsome => ?_⟩
    · obtain ⟨-, hdec⟩ | ⟨y, hy, heq, -⟩ := decG1C_root hinf hx
      · exact exec_raised h hw rfl hdec
      · exact absurd ⟨hy, fpMul_self_eq_rhs1_iff.1 heq⟩ (hnone y)
    · obtain ⟨hnone, -⟩ | ⟨y, hy, heq, hsgn, hdec⟩ := decG1C_root hinf hx
      · obtain ⟨y, -, heq⟩ := hsome
        exact absurd (fpMul_self_eq_rhs1_iff.2 heq) (hnone y)
      · obtain ⟨t, ht, hwrites, tx, ty⟩ := exec_writes_g1 h rfl rfl hdec rfl hx hy
        refine ⟨t, ht, hwrites, tx, ?_⟩
        rw [ty]
        exact ⟨⟨hy, fpMul_self_eq_rhs1_iff.1 heq⟩, (Bool.eq_iff_iff.1 hsgn).symm.trans decide_eq_true_iff⟩

/-! ### G1_ENCU and G1_ENCC -/

/-- The integer of the 32 bytes of a compressed point: INF alone for O, otherwise x with the sign of y as SIGN (45_codec.md R310, R316). -/
def compressed1 : Point Nat → Nat
  | .inf => 2 ^ 255
  | .aff x y => x + if fpSgn y then 2 ^ 254 else 0

/-- A flag in bit 254 leaves room below 2^255. -/
theorem add_signBit_lt {x : Nat} (h : x < 2 ^ 254) (c : Bool) : (x + if c then 2 ^ 254 else 0) < 2 ^ 256 := by
  split <;> omega

section
variable {P : Point Nat} {x y : Nat}

theorem compressed1_lt (h : canonical1 P) : compressed1 P < 2 ^ 256 := by
  cases P with
  | inf => decide
  | aff x y => exact add_signBit_lt (h.1.trans p_lt) _

theorem encG1U_pointOf1 (h : onCurve1 (pointOf1 x y) = true) : encG1U (pointOf1 x y) = .ok (be32 x ++ be32 y) := by
  refine (if_pos h).trans ?_
  by_cases h0 : x = 0 ∧ y = 0
  · obtain ⟨rfl, rfl⟩ := h0
    decide
  · rw [pointOf1, if_neg h0]

theorem encG1C_eq (hP : canonical1 P) (h : onCurve1 P = true) : encG1C P = .ok (be32 (compressed1 P)) := by
  refine (if_pos h).trans ?_
  cases P with
  | inf => decide
  | aff x y =>
    have hbytes := beNat_setSign (fpSgn y) x (hP.1.trans p_lt) []
    rw [List.append_nil, List.append_nil] at hbytes
    exact congrArg Except.ok hbytes

theorem compressed1_pointOf1 (x y : Nat) : compressed1 (pointOf1 x y) =
    if x = 0 ∧ y = 0 then 2 ^ 255 else x + if (Config.p - 1) / 2 < y then 2 ^ 254 else 0 := by
  rw [pointOf1, apply_ite compressed1]
  simp only [compressed1, fpSgn, decide_eq_true_iff]

end

theorem g1Encu_encodes (r : RegIdx) (off : Half) : Encodes (.g1Encu r off) g1View 64 (fun _ => encG1U) r off := ⟨fun _ => rfl, rfl, rfl⟩

theorem g1Encc_encodes (r : RegIdx) (off : Half) : Encodes (.g1Encc r off) g1View 32 (fun _ => encG1C) r off := ⟨fun _ => rfl, rfl, rfl⟩

/-- Settles O56: the bytes of a point on E are those of its coordinates, or of its one compressed integer. -/
theorem g1Encoders : Obligations.G1Encoders := by
  intro r off s hinv hc
  constructor
  · intro h
    obtain ⟨t, ht, hwrites, hbytes⟩ := (g1Encu_encodes r off).writes hinv h (encG1U_pointOf1 hc) (by simp)
    exact ⟨t, ht, hwrites, beAt_pair_of_be32 hbytes (s.reg r.toNat).isLt (s.reg (r.toNat + 1)).isLt⟩
  · intro h
    have hP := canonical_g1 (canonical_of_ready hinv h rfl)
    obtain ⟨t, ht, hwrites, hbytes⟩ := (g1Encc_encodes r off).writes hinv h (encG1C_eq hP hc) (length_be32 _)
    exact ⟨t, ht, hwrites, (beAt_of_be32 hbytes (compressed1_lt hP)).trans (compressed1_pointOf1 _ _)⟩

end Sys2Proof.Machine
end

section
/-! PROOFS. The G2 codec commands: halves, identity forms, the twist equation, the selected root and the subgroup. -/

namespace Sys2Proof.Machine

/-! ### Points of the twist as registers -/

section
variable {x y : Fp2}

theorem onCurve2_aff_iff : onCurve2 (.aff x y) = true ↔ y.mul y = ((x.mul x).mul x).add twistB := decide_eq_true_iff

theorem onCurve2_aff_false (h : y.mul y ≠ ((x.mul x).mul x).add twistB) : onCurve2 (.aff x y) = false := decide_eq_false h

theorem regsOf2_inf : regsOf2 .inf = Fp2.zero.regs ++ Fp2.zero.regs := rfl

theorem pointOf2_zero : pointOf2 Fp2.zero Fp2.zero = .inf := rfl

theorem pointOf2_ne_zero (h : ¬(x = Fp2.zero ∧ y = Fp2.zero)) : pointOf2 x y = .aff x y := if_neg h

theorem regsOf2_pointOf2 (x y : Fp2) : regsOf2 (pointOf2 x y) = x.regs ++ y.regs := by
  by_cases h : x = Fp2.zero ∧ y = Fp2.zero
  · obtain ⟨rfl, rfl⟩ := h
    rfl
  · rw [pointOf2_ne_zero h]
    rfl

end

/-- A ready command that answers the point of two canonical Fp2 elements writes these to the view at D. -/
theorem exec_writes_g2 {i : Instr} {s : State} {d : RegIdx} {ws : List Extent} {r : State → Except ErrKind (Point Fp2)} {Q : Point Fp2}
    {x y : Fp2} (h : Ready i s) (hwin : windowsOf i = g2View.extent d :: ws)
    (hrun : exec i s = perform (windowsOf i) (sourcesOf i) (fun s => g2View.put d (r s)) s) (hr : r s = .ok Q)
    (hQ : regsOf2 Q = x.regs ++ y.regs) (hx : x.canonical) (hy : y.canonical) :
    ∃ t, exec i s = .next t ∧ WritesRegs s t d.toNat 4 ∧ t.fp2 d.toNat = x ∧ t.fp2 (d.toNat + 2) = y := by
  obtain ⟨t, ht, hwrites, hregs⟩ := exec_writes_view h hwin hrun hr (length_regsOf2 Q)
  obtain ⟨ex, ey⟩ := regList_split (m := 2) (n := 2) (hregs.trans hQ) rfl
  exact ⟨t, ht, hwrites, f2View_faithful.read_of_regList hx ex, f2View_faithful.read_of_regList hy ey⟩

theorem requireSub2_ok {Q : Point Fp2} (h : Q.smul fp2Ops Config.r = .inf) : requireSub2 Q = .ok Q := if_pos h

theorem requireSub2_error {Q : Point Fp2} (h : Q.smul fp2Ops Config.r ≠ .inf) : requireSub2 Q = .error .invalidSubgroup := if_neg h

/-! ### G2_DECU -/

section
variable {ord : Bool} {xs : List Byte} {x y : Fp2}

/-- A failing half in either element. -/
theorem decG2U_malformed (h : decFp2 ord (xs.take 64) = .error .malformedEncoding ∨ decFp2 ord (xs.drop 64) = .error .malformedEncoding) :
    decG2U ord xs = .error .malformedEncoding := by
  have only (ys : List Byte) {k : ErrKind} (hk : decFp2 ord ys = .error k) : k = .malformedEncoding :=
    List.mem_singleton.1 (decFp2_failsOnly (E := [.malformedEncoding]) (by decide) ord ys k hk)
  cases hx : decFp2 ord (xs.take 64) with
  | error k => simp only [decG2U, hx, only _ hx]
  | ok x =>
    have hy : decFp2 ord (xs.drop 64) = .error .malformedEncoding := h.resolve_left (by simp [hx])
    simp only [decG2U, hx, hy]

theorem decFp2_take_readBytes (m : Memory) (off : Nat) :
    decFp2 ord ((m.readBytes off 128).take 64) = fp2OfHalves ord (m.beAt off 32) (m.beAt (off + 32) 32) := by
  rw [Memory.take_readBytes m off 64 64, decFp2_readBytes]

theorem decFp2_drop_readBytes (m : Memory) (off : Nat) :
    decFp2 ord ((m.readBytes off 128).drop 64) = fp2OfHalves ord (m.beAt (off + 64) 32) (m.beAt (off + 96) 32) := by
  rw [Memory.drop_readBytes m off 64 64, decFp2_readBytes]

/-- One of the four integers at p or above. -/
theorem decG2U_large_half {m : Memory} {off i : Nat} (hi : i < 4) (hge : Config.p ≤ m.beAt (off + 32 * i) 32) :
    decG2U ord (m.readBytes off 128) = .error .malformedEncoding := by
  refine decG2U_malformed ?_
  rw [decFp2_take_readBytes, decFp2_drop_readBytes]
  interval_cases i
  · exact .inl (fp2OfHalves_error (.inl hge))
  · exact .inl (fp2OfHalves_error (.inr hge))
  · exact .inr (fp2OfHalves_error (.inl hge))
  · exact .inr (fp2OfHalves_error (.inr hge))

theorem decG2U_zero (hx : decFp2 ord (xs.take 64) = .ok Fp2.zero) (hy : decFp2 ord (xs.drop 64) = .ok Fp2.zero) :
    decG2U ord xs = .ok .inf := by
  simp only [decG2U, hx, hy]
  rfl

theorem decG2U_off_twist (hx : decFp2 ord (xs.take 64) = .ok x) (hy : decFp2 ord (xs.drop 64) = .ok y)
    (h0 : ¬(x = Fp2.zero ∧ y = Fp2.zero)) (hc : onCurve2 (.aff x y) = false) : decG2U ord xs = .error .invalidPoint := by
  simp only [decG2U, hx, hy, if_neg h0, hc, Bool.false_eq_true, if_false]

theorem decG2U_on_twist (hx : decFp2 ord (xs.take 64) = .ok x) (hy : decFp2 ord (xs.drop 64) = .ok y)
    (h0 : ¬(x = Fp2.zero ∧ y = Fp2.zero)) (hc : onCurve2 (.aff x y) = true) : decG2U ord xs = requireSub2 (.aff x y) := by
  simp only [decG2U, hx, hy, if_neg h0, hc, if_true]

end

/-! ### G2_DECC -/

section
variable {ord : Bool} {xs : List Byte} {x : Fp2}

theorem decG2C_flagged (hinf : infBit (beNat (xs.take 32)) = true)
    (h : signBit (beNat (xs.take 32)) = true ∨ clearFlags (beNat (xs.take 32)) ≠ 0 ∨ beNat (xs.drop 32) ≠ 0) :
    decG2C ord xs = .error .malformedEncoding :=
  (if_pos hinf).trans (if_pos h)

theorem decG2C_inf (hinf : infBit (beNat (xs.take 32)) = true) (hsign : signBit (beNat (xs.take 32)) = false)
    (h0 : clearFlags (beNat (xs.take 32)) = 0) (h1 : beNat (xs.drop 32) = 0) : decG2C ord xs = .ok .inf :=
  (if_pos hinf).trans (if_neg (by simp [hsign, h0, h1]))

theorem decG2C_large (hinf : infBit (beNat (xs.take 32)) = false)
    (hx : fp2OfHalves ord (clearFlags (beNat (xs.take 32))) (beNat (xs.drop 32)) = .error .malformedEncoding) :
    decG2C ord xs = .error .malformedEncoding := by
  simp only [decG2C, hinf, Bool.false_eq_true, if_false, hx]

/-- With x canonical the root selection decides, then the subgroup check. As a variable `root` the square root is not evaluated. -/
theorem decG2C_of_select {answer : Except ErrKind Fp2} (hinf : infBit (beNat (xs.take 32)) = false)
    (hx : fp2OfHalves ord (clearFlags (beNat (xs.take 32))) (beNat (xs.drop 32)) = .ok x)
    (hroot : selectRoot Fp2.neg Fp2.sgn (rhs2 x).sqrt (signBit (beNat (xs.take 32))) = answer) :
    decG2C ord xs = answer.bind fun y => requireSub2 (.aff x y) := by
  unfold decG2C
  obtain ⟨root, hr⟩ : ∃ root, root = Fp2.sqrt := ⟨_, rfl⟩
  rw [← hr] at hroot ⊢
  simp only [hinf, Bool.false_eq_true, if_false, hx, hroot]
  cases answer with
  | error k => simp only [Except.bind]
  | ok y => simp only [Except.bind]

theorem decG2C_root (hinf : infBit (beNat (xs.take 32)) = false)
    (hx : fp2OfHalves ord (clearFlags (beNat (xs.take 32))) (beNat (xs.drop 32)) = .ok x) :
    ((∀ y : Fp2, y.mul y ≠ rhs2 x) ∧ decG2C ord xs = .error .invalidPoint) ∨
    ∃ y : Fp2, y.canonical ∧ y.mul y = rhs2 x ∧ y.sgn = signBit (beNat (xs.take 32)) ∧ decG2C ord xs = requireSub2 (.aff x y) := by
  obtain ⟨hnone, hroot⟩ | ⟨y, hy, heq, hsgn, hroot⟩ := selectRoot2 x (signBit (beNat (xs.take 32)))
  · exact .inl ⟨hnone, by rw [decG2C_of_select hinf hx hroot, Except.bind]⟩
  · exact .inr ⟨y, hy, heq, hsgn, by rw [decG2C_of_select hinf hx hroot, Except.bind]⟩

end

/-- Settles O57: the halves, the identity form, the twist equation and the subgroup decide G2_DECU; the flags, the halves, the root
selection and the subgroup decide G2_DECC. -/
theorem g2Decoders : Obligations.G2Decoders := by
  intro r off s w hw
  constructor
  · intro hin h x y isZero onTwist inSubgroup
    have hready : Ready (.g2Decu r off) s := ready_of_inRange hin rfl
    have ex := decFp2_take_readBytes (ord := s.fp2ordCmd) s.iobuf off.toNat
    have ey := decFp2_drop_readBytes (ord := s.fp2ordCmd) s.iobuf off.toNat
    have hx (hlt : ∀ i : Nat, i < 4 → h i < Config.p) : decFp2 s.fp2ordCmd ((s.iobuf.readBytes off.toNat 128).take 64) = .ok x :=
      ex.trans (fp2OfHalves_ok (hlt 0 (by decide)) (hlt 1 (by decide)))
    have hy (hlt : ∀ i : Nat, i < 4 → h i < Config.p) : decFp2 s.fp2ordCmd ((s.iobuf.readBytes off.toNat 128).drop 64) = .ok y :=
      ey.trans (fp2OfHalves_ok (hlt 2 (by decide)) (hlt 3 (by decide)))
    have cx (hlt : ∀ i : Nat, i < 4 → h i < Config.p) : x.canonical := halves_canonical (hlt 0 (by decide)) (hlt 1 (by decide))
    have cy (hlt : ∀ i : Nat, i < 4 → h i < Config.p) : y.canonical := halves_canonical (hlt 2 (by decide)) (hlt 3 (by decide))
    clear_value x y
    refine ⟨fun ⟨_, hi, hge⟩ => exec_raised hready hw rfl (decG2U_large_half hi hge), fun hlt h0 hoff => ?_,
      fun hlt h0 hon hout => ?_, fun hlt hvalid => ?_⟩
    · exact exec_raised hready hw rfl (decG2U_off_twist (hx hlt) (hy hlt) h0 (onCurve2_aff_false hoff))
    · exact exec_raised hready hw rfl ((decG2U_on_twist (hx hlt) (hy hlt) h0 (onCurve2_aff_iff.2 hon)).trans (requireSub2_error hout))
    · by_cases h0 : x = Fp2.zero ∧ y = Fp2.zero
      · obtain ⟨rfl, rfl⟩ := h0
        exact exec_writes_g2 hready rfl rfl (decG2U_zero (hx hlt) (hy hlt)) regsOf2_inf (cx hlt) (cy hlt)
      · obtain ⟨hon, hsub⟩ := hvalid.resolve_left h0
        have hdec := (decG2U_on_twist (hx hlt) (hy hlt) h0 (onCurve2_aff_iff.2 hon)).trans (requireSub2_ok hsub)
        exact exec_writes_g2 hready rfl rfl hdec rfl (cx hlt) (cy hlt)
  · intro hin
    have hready : Ready (.g2Decc r off) s := ready_of_inRange hin rfl
    rw [← beNat_take_readBytes s.iobuf off.toNat 32 32, ← beNat_drop_readBytes s.iobuf off.toNat 32 32]
    intro h0 h1 c x root
    have hx (hlt0 : c < Config.p) (hlt1 : h1 < Config.p) : fp2OfHalves s.fp2ordCmd c h1 = .ok x := fp2OfHalves_ok hlt0 hlt1
    have cx (hlt0 : c < Config.p) (hlt1 : h1 < Config.p) : x.canonical := halves_canonical hlt0 hlt1
    clear_value x
    refine ⟨fun hinf hbad => exec_raised hready hw rfl (decG2C_flagged hinf hbad),
      fun hinf hsign hc hh => exec_writes_g2 hready rfl rfl (decG2C_inf hinf hsign hc hh) regsOf2_inf Fp2.canonical_zero Fp2.canonical_zero,
      fun hinf hge => exec_raised hready hw rfl (decG2C_large hinf (fp2OfHalves_error hge)), fun hinf hlt0 hlt1 hnone => ?_,
      fun hinf hlt0 hlt1 hsome => ?_⟩
    · obtain ⟨-, hdec⟩ | ⟨y, hy, heq, -⟩ := decG2C_root hinf (hx hlt0 hlt1)
      · exact exec_raised hready hw rfl hdec
      · exact absurd ⟨hy, heq⟩ (hnone y)
    · obtain ⟨hnone, -⟩ | ⟨y, hy, heq, hsgn, hdec⟩ := decG2C_root hinf (hx hlt0 hlt1)
      · obtain ⟨y, -, heq⟩ := hsome
        exact absurd heq (hnone y)
      · refine ⟨y, ⟨hy, heq⟩, hsgn, fun hout => exec_raised hready hw rfl (hdec.trans (requireSub2_error hout)), fun hsub => ?_⟩
        exact exec_writes_g2 hready rfl rfl (hdec.trans (requireSub2_ok hsub)) rfl (cx hlt0 hlt1) hy

/-! ### G2_ENCU and G2_ENCC -/

/-- The first half as a register of the view. -/
theorem first_fp2 (s : State) (b : Nat) (ord : Bool) : (s.fp2 b).first ord = s.fp (b + if ord then 1 else 0) := by cases ord <;> rfl

/-- The second half as a register of the view. -/
theorem second_fp2 (s : State) (b : Nat) (ord : Bool) : (s.fp2 b).second ord = s.fp (b + 1 - if ord then 1 else 0) := by cases ord <;> rfl

/-- The integer of the first 32 bytes of a compressed point: INF alone for O, otherwise the first half of x with the sign of y as SIGN
(45_codec.md R312, R320). -/
def compressedFirst (ord : Bool) : Point Fp2 → Nat
  | .inf => 2 ^ 255
  | .aff x y => x.first ord + if y.sgn then 2 ^ 254 else 0

/-- The integer of the last 32 bytes of a compressed point: the second half of x, 0 for O. -/
def compressedSecond (ord : Bool) : Point Fp2 → Nat
  | .inf => 0
  | .aff x _ => x.second ord

section
variable {ord : Bool} {Q : Point Fp2} {x y : Fp2}

theorem Fp2.halves_lt {a : Fp2} (ord : Bool) (h : a.canonical) : a.first ord < Config.p ∧ a.second ord < Config.p := by
  cases ord
  · exact h
  · exact ⟨h.2, h.1⟩

theorem compressedFirst_lt (h : canonical2 Q) : compressedFirst ord Q < 2 ^ 256 := by
  cases Q with
  | inf => exact Nat.pow_lt_pow_right (by decide) (by decide)
  | aff x y => exact add_signBit_lt ((Fp2.halves_lt ord h.1).1.trans p_lt) _

theorem compressedSecond_lt (h : canonical2 Q) : compressedSecond ord Q < 2 ^ 256 := by
  cases Q with
  | inf => exact Nat.two_pow_pos 256
  | aff x y => exact (Fp2.halves_lt ord h.1).2.trans (by decide)

theorem encG2U_pointOf2 (h : onCurve2 (pointOf2 x y) = true) : encG2U ord (pointOf2 x y) = .ok (wire2 ord x ++ wire2 ord y) := by
  refine (if_pos h).trans ?_
  by_cases h0 : x = Fp2.zero ∧ y = Fp2.zero
  · obtain ⟨rfl, rfl⟩ := h0
    cases ord <;> decide
  · rw [pointOf2_ne_zero h0]

theorem compressedInf_halves : compressedInf 64 = be32 (2 ^ 255) ++ be32 0 := by decide

theorem encG2C_eq (hQ : canonical2 Q) (h : onCurve2 Q = true) :
    encG2C ord Q = .ok (be32 (compressedFirst ord Q) ++ be32 (compressedSecond ord Q)) := by
  refine (if_pos h).trans ?_
  cases Q with
  | inf => exact congrArg Except.ok compressedInf_halves
  | aff x y =>
    refine congrArg Except.ok ?_
    rw [wire2_eq]
    exact beNat_setSign y.sgn _ ((Fp2.halves_lt ord hQ.1).1.trans p_lt) _

end

theorem compressedFirst_g2 (s : State) (b : Nat) (ord : Bool) : compressedFirst ord (s.g2 b) =
    if s.g2 b = .inf then 2 ^ 255 else (s.fp2 b).first ord + if (s.fp2 (b + 2)).sgn then 2 ^ 254 else 0 := by
  split <;> rename_i h
  · rw [h]
    rfl
  · rw [g2_eq_aff h]
    rfl

theorem compressedSecond_g2 (s : State) (b : Nat) (ord : Bool) : compressedSecond ord (s.g2 b) = (s.fp2 b).second ord := by
  by_cases h : s.fp2 b = Fp2.zero ∧ s.fp2 (b + 2) = Fp2.zero
  · rw [State.g2, h.1, h.2]
    cases ord <;> rfl
  · rw [State.g2, pointOf2_ne_zero h]
    rfl

theorem g2Encu_encodes (r : RegIdx) (off : Half) : Encodes (.g2Encu r off) g2View 128 encG2U r off := ⟨fun _ => rfl, rfl, rfl⟩

theorem g2Encc_encodes (r : RegIdx) (off : Half) : Encodes (.g2Encc r off) g2View 64 encG2C r off := ⟨fun _ => rfl, rfl, rfl⟩

/-- Settles O58: the bytes of a point on the twist are those of its halves, or of its two compressed integers. -/
theorem g2Encoders : Obligations.G2Encoders := by
  intro r off s hinv hc o
  constructor
  · intro h
    obtain ⟨t, ht, hwrites, hbytes⟩ := (g2Encu_encodes r off).writes hinv h (encG2U_pointOf2 hc) (by simp)
    obtain ⟨hx, hy⟩ := readBytes_split (a := 64) (b := 64) hbytes (length_wire2 _ _)
    obtain ⟨x0, x1⟩ := beAt_of_wire2 hx (fp2_fits s r.toNat)
    obtain ⟨y0, y1⟩ := beAt_of_wire2 hy (fp2_fits s (r.toNat + 2))
    exact ⟨t, ht, hwrites, x0.trans (first_fp2 s _ _), x1.trans (second_fp2 s _ _), y0.trans (first_fp2 s _ _), y1.trans (second_fp2 s _ _)⟩
  · intro h
    have hQ := canonical_g2 (canonical_of_ready hinv h rfl)
    obtain ⟨t, ht, hwrites, hbytes⟩ := (g2Encc_encodes r off).writes hinv h (encG2C_eq hQ hc) (by simp)
    obtain ⟨h0, h1⟩ := beAt_pair_of_be32 hbytes (compressedFirst_lt hQ) (compressedSecond_lt hQ)
    rw [← first_fp2, ← second_fp2]
    exact ⟨t, ht, hwrites, h0.trans (compressedFirst_g2 s _ _), h1.trans (compressedSecond_g2 s _ _)⟩

end Sys2Proof.Machine
end

section
/-! PROOFS. Decoded points are valid, and decoding inverts encoding. -/

namespace Sys2Proof.Machine

/-! ### Valid points -/

/-- A point of E with coordinates in [0, p), or O. -/
def OnE (P : Point Nat) : Prop := canonical1 P ∧ onCurve1 P = true

/-- A point of G2 with coordinates in [0, p), O included. -/
def InG2 (Q : Point Fp2) : Prop := canonical2 Q ∧ inSub2 Q = true

theorem OnE.y_ne_zero {x y : Nat} (h : OnE (.aff x y)) : y ≠ 0 := g1_y_ne_zero h.2

theorem InG2.y_ne_zero {x y : Fp2} (h : InG2 (.aff x y)) : y ≠ Fp2.zero := twist_y_ne_zero ((inSub2_iff _).1 h.2).1

/-- No point of E is written as the registers of O, so the registers of a point of E are read back as it. -/
theorem g1View_faithful : g1View.Faithful OnE where
  length := length_regsOf1
  canonical P h := g1View_writes.canonical P h.1
  read_of_regList {s b P} hP h := by
    cases P with
    | inf =>
      obtain ⟨hx, hy⟩ := regList_two (h.trans regsOf1_inf)
      exact if_pos ⟨fp_of_reg hx (by decide), fp_of_reg hy (by decide)⟩
    | aff x y =>
      obtain ⟨hx, hy⟩ := regList_two h
      have ex : s.fp b = x := fp_of_reg hx (hP.1.1.trans (by decide))
      have ey : s.fp (b + 1) = y := fp_of_reg hy (hP.1.2.trans (by decide))
      exact (congrArg₂ pointOf1 ex ey).trans (if_neg fun h0 => hP.y_ne_zero h0.2)

theorem g2View_faithful : g2View.Faithful InG2 where
  length := length_regsOf2
  canonical Q h := g2View_writes.canonical Q h.1
  read_of_regList {s b Q} hQ h := by
    cases Q with
    | inf =>
      obtain ⟨hx, hy⟩ := regList_split (m := 2) (n := 2) (h.trans regsOf2_inf) rfl
      exact if_pos ⟨f2View_faithful.read_of_regList Fp2.canonical_zero hx, f2View_faithful.read_of_regList Fp2.canonical_zero hy⟩
    | aff x y =>
      obtain ⟨hx, hy⟩ := regList_split (m := 2) (n := 2) h rfl
      have ex : s.fp2 b = x := f2View_faithful.read_of_regList hQ.1.1 hx
      have ey : s.fp2 (b + 2) = y := f2View_faithful.read_of_regList hQ.1.2 hy
      exact (congrArg₂ pointOf2 ex ey).trans (pointOf2_ne_zero fun h0 => hQ.y_ne_zero h0.2)

theorem smul_r_inf2 : (Point.inf : Point Fp2).smul fp2Ops Config.r = .inf := by decide +kernel

theorem inSub2_inf : inSub2 .inf = true := (inSub2_iff _).2 ⟨rfl, smul_r_inf2⟩

theorem requireSub2_inSub2 {Q : Point Fp2} (h : onCurve2 Q = true) : Answers (inSub2 · = true) (requireSub2 Q) :=
  answers_guard fun hsub => answers_ok ((inSub2_iff Q).2 ⟨h, hsub⟩)

theorem selectRoot1_root (x : Nat) (sign : Bool) : Answers (fun y => fpMul y y = rhs1 x) (selectRoot fpNeg fpSgn (fpSqrt (rhs1 x)) sign) := by
  obtain ⟨-, hr⟩ | ⟨y, -, hy, -, hr⟩ := selectRoot1 x sign <;> rw [hr]
  · exact answers_error _
  · exact answers_ok hy

theorem selectRoot2_root (x : Fp2) (sign : Bool) :
    Answers (fun y => y.mul y = rhs2 x) (selectRoot Fp2.neg Fp2.sgn (rhs2 x).sqrt sign) := by
  obtain ⟨-, hr⟩ | ⟨y, -, hy, -, hr⟩ := selectRoot2 x sign <;> rw [hr]
  · exact answers_error _
  · exact answers_ok hy

theorem decG1U_onE (xs : List Byte) : Answers OnE (decG1U xs) := by
  have hcurve : Answers (onCurve1 · = true) (decG1U xs) := by
    unfold decG1U
    split
    · exact answers_error _
    · split
      · exact answers_error _
      · split
        · exact answers_ok rfl
        · exact answers_guard fun hc => answers_ok hc
  exact fun P hP => ⟨decG1U_canonical xs P hP, hcurve P hP⟩

theorem decG1C_onE (xs : List Byte) : Answers OnE (decG1C xs) := by
  have hcurve : Answers (onCurve1 · = true) (decG1C xs) := by
    unfold decG1C
    extract_lets h x
    split
    · exact answers_guard_not fun _ => answers_ok rfl
    · refine answers_guard fun _ => ?_
      split
      · exact answers_error _
      · rename_i y hy
        exact answers_ok (decide_eq_true (selectRoot1_root _ _ y hy))
  exact fun P hP => ⟨decG1C_canonical xs P hP, hcurve P hP⟩

theorem decG2U_inG2 (ord : Bool) (xs : List Byte) : Answers InG2 (decG2U ord xs) := by
  have hsub : Answers (inSub2 · = true) (decG2U ord xs) := by
    unfold decG2U
    split
    · exact answers_error _
    · split
      · exact answers_error _
      · split
        · exact answers_ok inSub2_inf
        · exact answers_guard fun hc => requireSub2_inSub2 hc
  exact fun Q hQ => ⟨decG2U_canonical ord xs Q hQ, hsub Q hQ⟩

/-- As a variable `root` the square root is not evaluated. -/
theorem decG2C_inG2 (ord : Bool) (xs : List Byte) : Answers InG2 (decG2C ord xs) := by
  have hsub : Answers (inSub2 · = true) (decG2C ord xs) := by
    have hroot := selectRoot2_root
    unfold decG2C
    obtain ⟨root, hr⟩ : ∃ root, root = Fp2.sqrt := ⟨_, rfl⟩
    rw [← hr] at hroot ⊢
    extract_lets h0 h1
    split
    · exact answers_guard_not fun _ => answers_ok inSub2_inf
    · split
      · exact answers_error _
      · split
        · exact answers_error _
        · rename_i y hy
          exact requireSub2_inSub2 (onCurve2_aff_iff.2 (hroot _ _ y hy))
  exact fun Q hQ => ⟨decG2C_canonical ord xs Q hQ, hsub Q hQ⟩

/-! ### Decoders -/

/-- The command is the decoder `op` of the `len` bytes at `off` into the view at `r`. -/
structure Decodes {β : Type} (i : Instr) (W : View β) (len : Nat) (op : Bool → List Byte → Except ErrKind β) (r : RegIdx) (off : Half) :
    Prop where
  run : ∀ s, exec i s = cmdDecode W len op r off s
  windows : windowsOf i = [W.extent r, .iobuf off.toNat len]
  sources : sourcesOf i = []

theorem fpDec_decodes (r : RegIdx) (off : Half) : Decodes (.fpDec r off) fpView 32 (fun _ => decFp) r off := ⟨fun _ => rfl, rfl, rfl⟩

theorem f2Dec_decodes (r : RegIdx) (off : Half) : Decodes (.f2Dec r off) f2View 64 decFp2 r off := ⟨fun _ => rfl, rfl, rfl⟩

theorem g1Decu_decodes (r : RegIdx) (off : Half) : Decodes (.g1Decu r off) g1View 64 (fun _ => decG1U) r off := ⟨fun _ => rfl, rfl, rfl⟩

theorem g1Decc_decodes (r : RegIdx) (off : Half) : Decodes (.g1Decc r off) g1View 32 (fun _ => decG1C) r off := ⟨fun _ => rfl, rfl, rfl⟩

theorem g2Decu_decodes (r : RegIdx) (off : Half) : Decodes (.g2Decu r off) g2View 128 decG2U r off := ⟨fun _ => rfl, rfl, rfl⟩

theorem g2Decc_decodes (r : RegIdx) (off : Half) : Decodes (.g2Decc r off) g2View 64 decG2C r off := ⟨fun _ => rfl, rfl, rfl⟩

section
variable {β : Type} {i : Instr} {s t : State} {W : View β} {len : Nat} {op : Bool → List Byte → Except ErrKind β} {r : RegIdx} {off : Half}

theorem Decodes.run_perform (hd : Decodes i W len op r off) (s : State) :
    exec i s = perform (windowsOf i) (sourcesOf i) (fun s => W.put r (op s.fp2ordCmd (s.iobuf.readBytes off.toNat len))) s := by
  rw [hd.run, hd.windows, hd.sources]
  rfl

/-- A decoder that sets DONE has written a value of its answers. -/
theorem Decodes.valid {C : β → Prop} (hd : Decodes i W len op r off) (hW : W.Faithful C) (hop : ∀ ord xs, Answers C (op ord xs))
    (h0 : s.done = false) (h1 : t.done = true) (ht : exec i s = .next t) : C (W.read t r.toNat) := by
  have ne_raise (k : ErrKind) : exec i s ≠ .next (s.raise k) := fun hk => by
    obtain rfl := Host.Outcome.next.inj (ht.symm.trans hk)
    exact absurd (h0.symm.trans h1) (by decide)
  obtain ⟨k, hk⟩ | ⟨e, -, h, -⟩ := exec_outcome i s
  · exact absurd hk (ne_raise k)
  · cases hy : op s.fp2ordCmd (s.iobuf.readBytes off.toNat len) with
    | error k => exact absurd (exec_of_ready h (hd.run_perform s) (congrArg (W.put r) hy)) (ne_raise k)
    | ok y =>
      obtain ⟨t', ht', -, -, hread⟩ := exec_writes_element hW h hd.windows (hd.run_perform s) hy (hop _ _ y hy)
      obtain rfl := Host.Outcome.next.inj (ht.symm.trans ht')
      exact hread ▸ hop _ _ y hy

end

/-- Settles O59: DONE rises only when the decoder answers a point, and its answers are points of the curve, of G2 for the G2 decoders. -/
theorem decodedPointsValid : Obligations.DecodedPointsValid := fun r off _ _ h0 h1 =>
  ⟨(g1Decu_decodes r off).valid g1View_faithful (fun _ => decG1U_onE) h0 h1,
    (g1Decc_decodes r off).valid g1View_faithful (fun _ => decG1C_onE) h0 h1,
    (g2Decu_decodes r off).valid g2View_faithful decG2U_inG2 h0 h1,
    (g2Decc_decodes r off).valid g2View_faithful decG2C_inG2 h0 h1⟩

/-! ### The byte strings of the encoders decode to their values -/

section
variable {ord : Bool}

theorem decFp_be32 {x : Nat} (h : x < Config.p) : decFp (be32 x) = .ok x := by
  have e : beNat (be32 x) = x := beNat_be32 x (h.trans (by decide))
  exact (decFp_ok (e.symm ▸ h)).trans (congrArg Except.ok e)

theorem fp2OfHalves_halves {a : Fp2} (h : a.canonical) : fp2OfHalves ord (a.first ord) (a.second ord) = .ok a := by
  obtain ⟨h0, h1⟩ := Fp2.halves_lt ord h
  refine (fp2OfHalves_ok h0 h1).trans ?_
  cases ord <;> rfl

theorem decFp2_wire2 {a : Fp2} (h : a.canonical) : decFp2 ord (wire2 ord a) = .ok a := by
  obtain ⟨h0, h1⟩ := a.halves_fit ord (Fp2.fits_of_canonical h)
  rw [wire2_eq, decFp2, List.take_left' (length_be32 _), List.drop_left' (length_be32 _), beNat_be32 _ h0, beNat_be32 _ h1,
    fp2OfHalves_halves h]

theorem decG1U_be32 {x y : Nat} (hx : x < Config.p) (hy : y < Config.p) (hc : onCurve1 (pointOf1 x y) = true) :
    decG1U (be32 x ++ be32 y) = .ok (pointOf1 x y) :=
  decG1U_ok (by rw [List.take_left' (length_be32 x), decFp_be32 hx]) (by rw [List.drop_left' (length_be32 x), decFp_be32 hy]) hc

/-- On the twist the subgroup check decides. -/
theorem decG2U_wire2 {x y : Fp2} (hx : x.canonical) (hy : y.canonical) (hc : onCurve2 (pointOf2 x y) = true) :
    decG2U ord (wire2 ord x ++ wire2 ord y) = requireSub2 (pointOf2 x y) := by
  have ex : decFp2 ord ((wire2 ord x ++ wire2 ord y).take 64) = .ok x := by rw [List.take_left' (length_wire2 ord x), decFp2_wire2 hx]
  have ey : decFp2 ord ((wire2 ord x ++ wire2 ord y).drop 64) = .ok y := by rw [List.drop_left' (length_wire2 ord x), decFp2_wire2 hy]
  by_cases h0 : x = Fp2.zero ∧ y = Fp2.zero
  · obtain ⟨rfl, rfl⟩ := h0
    rw [decG2U_zero ex ey, pointOf2_zero, requireSub2_ok smul_r_inf2]
  · rw [pointOf2_ne_zero h0] at hc ⊢
    exact decG2U_on_twist ex ey h0 hc

end

/-- The same of a view of canonical registers. -/
theorem decG2U_g2 {s : State} {b : Nat} (ord : Bool) (h : CanonicalRegs s b 4) (hc : onCurve2 (s.g2 b) = true) :
    decG2U ord (wire2 ord (s.fp2 b) ++ wire2 ord (s.fp2 (b + 2))) = requireSub2 (s.g2 b) :=
  decG2U_wire2 (canonical_fp2 (h.sub 0 2 (by decide))) (canonical_fp2 (h.sub 2 2 (by decide))) hc

/-! ### Compressed points -/

/-- INF and SIGN of x with a sign in bit 254, and x without them. -/
theorem flags_add_signBit {x : Nat} (h : x < 2 ^ 254) (c : Bool) :
    infBit (x + if c then 2 ^ 254 else 0) = false ∧ signBit (x + if c then 2 ^ 254 else 0) = c ∧
      clearFlags (x + if c then 2 ^ 254 else 0) = x := by
  simp only [infBit, signBit, clearFlags, Nat.testBit_eq_decide_div_mod_eq]
  cases c with
  | false =>
    rw [if_neg Bool.false_ne_true, Nat.add_zero]
    exact ⟨decide_eq_false (by omega), decide_eq_false (by omega), Nat.mod_eq_of_lt h⟩
  | true =>
    rw [if_pos rfl]
    exact ⟨decide_eq_false (by omega), decide_eq_true (by omega), by omega⟩

theorem flags_inf : infBit (2 ^ 255) = true ∧ signBit (2 ^ 255) = false ∧ clearFlags (2 ^ 255) = 0 := by decide

/-- A sum is 0 only for opposite elements. -/
theorem eq_neg_of_add_eq_zero {A K : Type} [Field K] {F : FieldOps A} {φ : A → K} {C : A → Prop} (m : Models F φ C) {y z : A} (hz : C z)
    (h : F.add z y = F.zero) : z = F.neg y := by
  refine m.inj _ _ hz (m.neg_mem _) ?_
  rw [m.neg]
  exact eq_neg_of_add_eq_zero_left (by rw [← m.add, h, m.zero])

/-- Two points of E with one x and one sign of y are equal. -/
theorem y_unique1 {x y z : Nat} (hy : y < Config.p) (hz : z < Config.p) (cy : onCurve1 (.aff x y) = true) (cz : onCurve1 (.aff x z) = true)
    (h : fpSgn z = fpSgn y) : z = y := by
  have := fact_p
  obtain heq | hsum := same_x models_fp cz cy hz hy
  · exact heq
  · have hneg : z = fpNeg y := eq_neg_of_add_eq_zero models_fp hz hsum
    rw [hneg, fpSgn_fpNeg y hy (g1_y_ne_zero cy)] at h
    exact absurd h (Bool.not_ne_self _)

/-- The same on the twist. -/
theorem y_unique2 {x y z : Fp2} (hy : y.canonical) (hz : z.canonical) (cy : onCurve2 (.aff x y) = true) (cz : onCurve2 (.aff x z) = true)
    (h : z.sgn = y.sgn) : z = y := by
  have := fact_p
  have := fact_k2
  obtain heq | hsum := same_x models_fp2 cz cy hz hy
  · exact heq
  · have hneg : z = y.neg := eq_neg_of_add_eq_zero models_fp2 hz hsum
    rw [hneg, Fp2.sgn_neg y hy (twist_y_ne_zero cy)] at h
    exact absurd h (Bool.not_ne_self _)

theorem decG1C_compressed1 {P : Point Nat} (hP : OnE P) : decG1C (be32 (compressed1 P)) = .ok P := by
  have hn : beNat (be32 (compressed1 P)) = compressed1 P := beNat_be32 _ (compressed1_lt hP.1)
  cases P with
  | inf =>
    obtain ⟨hinf, hsign, hx⟩ := flags_inf
    exact decG1C_inf ((congrArg infBit hn).trans hinf) ((congrArg signBit hn).trans hsign) ((congrArg clearFlags hn).trans hx)
  | aff x y =>
    obtain ⟨⟨hx, hy⟩, hc⟩ := hP
    obtain ⟨hinf, hsign, hclear⟩ := flags_add_signBit (hx.trans p_lt) (fpSgn y)
    replace hsign := (congrArg signBit hn).trans hsign
    replace hclear := (congrArg clearFlags hn).trans hclear
    have hroot := decG1C_root ((congrArg infBit hn).trans hinf) (hclear.symm ▸ hx)
    rw [hsign, hclear] at hroot
    obtain ⟨hnone, -⟩ | ⟨z, hz, heq, hsgn, hdec⟩ := hroot
    · exact absurd (of_decide_eq_true hc) (hnone y)
    · rw [hdec, y_unique1 hy hz hc (decide_eq_true heq) hsgn]

theorem decG2C_compressed {ord : Bool} {Q : Point Fp2} (hQ : InG2 Q) :
    decG2C ord (be32 (compressedFirst ord Q) ++ be32 (compressedSecond ord Q)) = .ok Q := by
  obtain ⟨hcan, hsub⟩ := hQ
  obtain ⟨hc, hsmul⟩ := (inSub2_iff Q).1 hsub
  have h0 : beNat ((be32 (compressedFirst ord Q) ++ be32 (compressedSecond ord Q)).take 32) = compressedFirst ord Q := by
    rw [List.take_left' (length_be32 _), beNat_be32 _ (compressedFirst_lt hcan)]
  have h1 : beNat ((be32 (compressedFirst ord Q) ++ be32 (compressedSecond ord Q)).drop 32) = compressedSecond ord Q := by
    rw [List.drop_left' (length_be32 _), beNat_be32 _ (compressedSecond_lt hcan)]
  cases Q with
  | inf =>
    obtain ⟨hinf, hsign, hx⟩ := flags_inf
    exact decG2C_inf ((congrArg infBit h0).trans hinf) ((congrArg signBit h0).trans hsign) ((congrArg clearFlags h0).trans hx) h1
  | aff x y =>
    obtain ⟨hx, hy⟩ := hcan
    obtain ⟨hinf, hsign, hclear⟩ := flags_add_signBit ((Fp2.halves_lt ord hx).1.trans p_lt) y.sgn
    have hhalves := (congrArg₂ (fp2OfHalves ord) ((congrArg clearFlags h0).trans hclear) h1).trans (fp2OfHalves_halves hx)
    obtain ⟨hnone, -⟩ | ⟨z, hz, heq, hsgn, hdec⟩ := decG2C_root ((congrArg infBit h0).trans hinf) hhalves
    · exact absurd (onCurve2_aff_iff.1 hc) (hnone y)
    · have hzy : z = y := y_unique2 hy hz hc (onCurve2_aff_iff.2 heq) (hsgn.trans ((congrArg signBit h0).trans hsign))
      rw [hdec, hzy, requireSub2_ok hsmul]

/-! ### Encoding, then decoding -/

/-- A value read from a view is written back as the registers it was read from. -/
def View.Restores {α : Type} (V : View α) : Prop := ∀ (s : State) (b : Nat), V.write (V.read s b) = s.regList b V.size

theorem fpView_restores : fpView.Restores := fun s b => congrArg (fun x => [x]) (elemOf_fp s b)

theorem f2View_restores : f2View.Restores := fp2_regs

theorem g1View_restores : g1View.Restores := fun s b => (regsOf1_pointOf1 _ _).trans (fp2_regs s b)

theorem g2View_restores : g2View.Restores := fun s b => by
  refine (regsOf2_pointOf2 _ _).trans ?_
  rw [fp2_regs, fp2_regs, ← regList_append]
  rfl

/-- An encoder, then a decoder of its byte string at the same offset. -/
theorem Encodes.roundTrip {α : Type} {i j : Instr} {V : View α} {len : Nat} {enc : Bool → α → Except ErrKind (List Byte)}
    {dec : Bool → List Byte → Except ErrKind α} {r q : RegIdx} {off : Half} {s : State} {xs : List Byte} (he : Encodes i V len enc r off)
    (hd : Decodes j V len dec q off) (hV : V.Restores) (hinv : s.Inv) (h : Ready i s) (hin : InRange j)
    (henc : enc s.fp2ordCmd (V.read s r.toNat) = .ok xs) (hlen : xs.length = len)
    (hdec : dec s.fp2ordCmd xs = .ok (V.read s r.toNat)) :
    ∃ t t' : State, exec i s = .next t ∧ WritesBytes s t off.toNat len ∧ exec j t = .next t' ∧ WritesRegs t t' q.toNat V.size ∧
      ∀ k : Nat, k < V.size → t'.reg (q.toNat + k) = s.reg (r.toNat + k) := by
  obtain ⟨t, ht, hwrites, hbytes⟩ := he.writes hinv h henc hlen
  have hans : dec t.fp2ordCmd (t.iobuf.readBytes off.toNat len) = .ok (V.read s r.toNat) := by rw [hwrites.fp2ordCmd, hbytes, hdec]
  obtain ⟨t', ht', hregs, hlist⟩ := exec_writes_view (ready_of_inRange hin hd.sources) hd.windows (hd.run_perform t) hans
    (by rw [hV, length_regList])
  exact ⟨t, t', ht, hwrites, ht', hregs, regList_inj.1 (hlist.trans (hV s r.toNat))⟩

/-- Settles O60: the byte string of each encoder decodes to the value it was made from; off the subgroup the decoder refuses it. -/
theorem roundTrip : Obligations.RoundTrip := by
  intro r q off s hinv
  refine ⟨fun h hin => ?_, fun h hin => ?_, fun h hc hin => ?_, fun h hc hin => ?_, fun h hsub hin => ?_, fun h hsub hin => ?_,
    fun h hc hsub hin => ?_⟩
  · have hx : s.fp r.toNat < Config.p := canonical_of_ready hinv h rfl 0 Nat.one_pos
    exact (fpEnc_encodes r off).roundTrip (fpDec_decodes q off) fpView_restores hinv h hin rfl (length_be32 _) (decFp_be32 hx)
  · have hx := canonical_fp2 (canonical_of_ready hinv h rfl)
    exact (f2Enc_encodes r off).roundTrip (f2Dec_decodes q off) f2View_restores hinv h hin rfl (length_wire2 _ _) (decFp2_wire2 hx)
  · have hcan := canonical_of_ready hinv h rfl
    exact (g1Encu_encodes r off).roundTrip (g1Decu_decodes q off) g1View_restores hinv h hin (encG1U_pointOf1 hc) (by simp)
      (decG1U_be32 (hcan 0 (by decide)) (hcan 1 (by decide)) hc)
  · have hcan := canonical_g1 (canonical_of_ready hinv h rfl)
    exact (g1Encc_encodes r off).roundTrip (g1Decc_decodes q off) g1View_restores hinv h hin (encG1C_eq hcan hc) (length_be32 _)
      (decG1C_compressed1 ⟨hcan, hc⟩)
  · obtain ⟨hc, hsmul⟩ := (inSub2_iff _).1 hsub
    have hcan := canonical_of_ready hinv h rfl
    have hdec := decG2U_g2 s.fp2ordCmd hcan hc
    exact (g2Encu_encodes r off).roundTrip (g2Decu_decodes q off) g2View_restores hinv h hin (encG2U_pointOf2 hc) (by simp)
      (hdec.trans (requireSub2_ok hsmul))
  · have hcan := canonical_g2 (canonical_of_ready hinv h rfl)
    exact (g2Encc_encodes r off).roundTrip (g2Decc_decodes q off) g2View_restores hinv h hin
      (encG2C_eq hcan ((inSub2_iff _).1 hsub).1) (by simp) (decG2C_compressed ⟨hcan, hsub⟩)
  · have hsmul : (s.g2 r.toNat).smul fp2Ops Config.r ≠ .inf := fun hs => by
      rw [(inSub2_iff _).2 ⟨hc, hs⟩] at hsub
      exact absurd hsub (by decide)
    have hcan := canonical_of_ready hinv h rfl
    have hdec := decG2U_g2 s.fp2ordCmd hcan hc
    obtain ⟨t, ht, hwrites, hbytes⟩ := (g2Encu_encodes r off).writes hinv h (encG2U_pointOf2 hc) (by simp)
    have hans : decG2U t.fp2ordCmd (t.iobuf.readBytes off.toNat 128) = .error .invalidSubgroup := by
      rw [hwrites.fp2ordCmd, hbytes]
      exact hdec.trans (requireSub2_error hsmul)
    refine ⟨t, ht, hwrites, fun w => ?_⟩
    intro t'
    exact exec_raised (s := t') (k := .invalidSubgroup) (ready_of_inRange hin rfl) rfl rfl hans

end Sys2Proof.Machine
end

section
/-! PROOFS. The control commands and F12_ONE: a block copy, no effect, and constants. -/

namespace Sys2Proof.Machine

/-- A ready MOV puts the list of the source registers, as it was read, in the destination window. -/
theorem exec_mov {d a n : RegIdx} {s : State} (h : Ready (.mov d a n) s) :
    ∃ t, exec (.mov d a n) s = .next t ∧ WritesRegs s t d.toNat n.toNat ∧ t.regList d.toNat n.toNat = s.regList a.toNat n.toNat :=
  exec_writes_view (W := rawView n.toNat) h rfl rfl rfl (length_regList s _ _)

/-- NOP has no window and no source, so it is ready in any state (46_control.md R340). -/
theorem ready_nop (s : State) : Ready .nop s := ready_of_inRange (List.forall_mem_nil _) rfl

/-- The one window of LDI is a single register, which is in range (46_control.md R342). -/
theorem ready_ldi (d : RegIdx) (imm : Half) (s : State) : Ready (.ldi d imm) s :=
  ready_of_inRange (List.forall_mem_singleton.2 (decide_eq_true d.isLt)) rfl

/-- A zero-extended immediate is canonical (46_control.md R342). -/
theorem immediate_lt (imm : Half) : imm.toNat < Config.p := imm.isLt.trans (by decide)

/-- Settles O28: the registers of the destination are, one by one, the list read from the source before any write. -/
theorem blockCopy : Obligations.BlockCopy := by
  intro d a n s h
  obtain ⟨t, ht, hwrites, hregs⟩ := exec_mov h
  exact ⟨t, ht, hwrites, regList_inj.1 hregs⟩

/-- Settles O27: NOP commits no effect; LDI and F12_ONE write their constant, and the element 1 is its twelve registers. -/
theorem nopAndConstants : Obligations.NopAndConstants := by
  refine ⟨fun s => exec_of_ready (ready_nop s) rfl rfl, fun d imm s => ?_, fun d s h => ?_⟩
  · obtain ⟨t, ht, hwrites, hfp⟩ := exec_writes_fp (d := d) (ready_ldi d imm s) rfl rfl (immediate_lt imm)
    exact ⟨t, ht, hwrites, hfp, hfp.trans_lt (immediate_lt imm)⟩
  · obtain ⟨t, ht, hwrites, -, hone⟩ := exec_writes_element f12View_faithful h rfl rfl rfl Fp12.canonical_one
    exact ⟨t, ht, hwrites, testIsOne_iff.1 (decide_eq_true hone)⟩

end Sys2Proof.Machine
end

section
/-! PROOFS. Errors: only the completion of a command records one, of a kind its rule lists, and only a reset or a STATUS write ends it. -/

namespace Sys2Proof.Machine

variable {s t : State} {i : Instr} {w : Word}

/-! ### The turns of a step -/

/-- A step takes the first turn off the agenda: it is the engine's, also when none is left, or the host's. -/
theorem step_cases (h : step s = .next t) : engineTurn { s with agenda := s.agenda.tail } = .next t ∨
    ∃ (a : Access) (rest : List Turn), s.agenda = .host a :: rest ∧ hostTurn a { s with agenda := rest } = .next t := by
  unfold step at h
  split at h
  · rename_i ha
    have htail : s.agenda.tail = s.agenda := by rw [ha, List.tail_nil]
    exact .inl (by rw [htail]; exact h)
  · rename_i rest ha
    exact .inl (by rw [ha, List.tail_cons, h])
  · rename_i a rest ha
    exact .inr ⟨a, rest, ha, h⟩

/-- Every command word completes, an illegal one with an error (30_encoding.md R117, R118). -/
theorem execWord_next (w : Word) (s : State) : ∃ r : Except ErrKind Effect, execWord w s = .next (s.complete r) := by
  unfold execWord
  split
  · exact exec_next _ s
  · exact ⟨.error .illegalCommand, rfl⟩

/-- The engine completes the command in flight (70_reset_and_hazards.md R401). -/
theorem engineTurn_busy (hb : s.busy = true) (hc : s.cur = some w) :
    ∃ r : Except ErrKind Effect, engineTurn s = .next (s.complete r) := by
  rw [engineTurn, hb, hc]
  exact execWord_next w s

/-- "When idle (BUSY = 0) the engine does nothing" (60_exceptions.md R372). -/
theorem engineTurn_idle (ht : engineTurn s = .next t) (hb : s.busy = false) : t = s := by
  rw [engineTurn, hb] at ht
  exact (Host.Outcome.next.inj ht).symm

/-! ### ERRF through a completion and a host access -/

/-- A completion without error leaves ERRF at 0. -/
theorem commit_errf_clear (he : s.errf = false) (e : Effect) : (s.commit e).errf = false :=
  (completes_commit s e).errf.trans he

/-- A completion that sets ERRF is the record of an error. -/
theorem complete_raises {r : Except ErrKind Effect} (he : s.errf = false) (ht : (s.complete r).errf = true) :
    ∃ k, s.complete r = s.raise k := by
  cases r with
  | ok e => exact absurd ((commit_errf_clear he e).symm.trans ht) (by decide)
  | error k => exact ⟨k, rfl⟩

theorem State.accept_errf (s : State) (w : Word) : (s.accept w).errf = s.errf := by
  unfold State.accept
  split <;> rfl

theorem State.writeStatus_errf (s : State) (w : Word) : (s.writeStatus w).errf = (s.errf && !w.getLsbD 2) := by
  rw [State.writeStatus_eq]

theorem State.writeCtrl_errf (s : State) (w : Word) : (s.writeCtrl w).errf = (s.errf && !w.getLsbD 0) := by
  unfold State.writeCtrl
  cases w.getLsbD 0 <;> simp

/-- No host access raises an error (60_exceptions.md R356). -/
theorem hostTurn_errf_clear {a : Access} (ht : hostTurn a s = .next t) (he : s.errf = false) : t.errf = false := by
  obtain ⟨x, rfl⟩ | ⟨x, -, rfl⟩ | ⟨x, -, rfl⟩ | ⟨x, -, rfl⟩ | ⟨-, m, rfl, -⟩ | ⟨draw, -, rfl⟩ | rfl := hostTurn_cases ht
  · exact he
  · rw [State.writeCtrl_errf, he, Bool.false_and]
  · rw [State.writeStatus_errf, he, Bool.false_and]
  · rw [State.accept_errf, he]
  · exact he
  · rfl
  · exact he

/-- An engine's turn that sets ERRF is the error record of the word in flight (60_exceptions.md R356). -/
theorem engineTurn_raises (h : s.Inv) (ht : engineTurn s = .next t) (he : s.errf = false) (hte : t.errf = true) :
    ∃ (w : Word) (k : ErrKind), s.busy = true ∧ s.cur = some w ∧ t = s.raised w k.code := by
  cases hb : s.busy with
  | false =>
    obtain rfl := engineTurn_idle ht hb
    exact absurd (he.symm.trans hte) (by decide)
  | true =>
    obtain ⟨w, hw⟩ := Option.isSome_iff_exists.1 (h.cur_busy.symm.trans hb)
    obtain ⟨r, hr⟩ := engineTurn_busy hb hw
    obtain rfl := Host.Outcome.next.inj (ht.symm.trans hr)
    obtain ⟨k, hk⟩ := complete_raises he hte
    exact ⟨w, k, rfl, hw, hk.trans (raise_eq_raised s k w hw)⟩

/-- Settles O12: the turn is the engine's, which then records the error of the word in flight; no host access raises one. -/
theorem errorEntry : Obligations.ErrorEntry := by
  intro s t h he ht hte
  obtain heng | ⟨a, rest, -, hhost⟩ := step_cases ht
  · exact engineTurn_raises (h.setAgenda _) heng he hte
  · exact absurd ((hostTurn_errf_clear hhost he).symm.trans hte) (by decide)

/-! ### A recorded error -/

/-- The record of `s` stands in `t`: the error, the idle engine, and what commands write of F, V and FLAG (60_exceptions.md R360). -/
def KeepsRecord (s t : State) : Prop :=
  t.errf = true ∧ t.errcode = s.errcode ∧ t.errcmd = s.errcmd ∧ t.busy = false ∧ t.f = s.f ∧ t.v = s.v ∧ t.flag = s.flag

/-- The accesses that end a recorded error: a hard reset, a soft reset, a STATUS write of bit 2 (60_exceptions.md R359). -/
def EndsError (a : Access) : Prop :=
  (∃ draw, a = .hardReset draw) ∨ (∃ x : Word, a = .write .w32 0x004 x ∧ x.getLsbD 0 = true) ∨
    (∃ x : Word, a = .write .w32 0x008 x ∧ x.getLsbD 2 = true)

/-- A CMD write with an error recorded is dropped (70_reset_and_hazards.md R400). -/
theorem State.accept_dropped (w : Word) (he : s.errf = true) : s.accept w = { s with ovr := true } := by
  simp [State.accept, he]

/-- A host access leaves the record as it is or is one of the three that end it. -/
theorem hostTurn_record {a : Access} (ht : hostTurn a s = .next t) (hb : s.busy = false) (he : s.errf = true) :
    KeepsRecord s t ∨ (t.errf = false ∧ EndsError a) := by
  have hkeep : KeepsRecord s s := ⟨he, rfl, rfl, hb, rfl, rfl, rfl⟩
  obtain ⟨x, rfl⟩ | ⟨x, rfl, rfl⟩ | ⟨x, rfl, rfl⟩ | ⟨x, -, rfl⟩ | ⟨-, m, rfl, -⟩ | ⟨draw, rfl, rfl⟩ | rfl := hostTurn_cases ht
  · exact .inl hkeep
  · cases hx : x.getLsbD 0 with
    | false =>
      rw [s.writeCtrl_update hx]
      exact .inl hkeep
    | true => exact .inr ⟨by rw [State.writeCtrl_errf, hx, Bool.not_true, Bool.and_false], .inr (.inl ⟨x, rfl, hx⟩)⟩
  · cases hx : x.getLsbD 2 with
    | false =>
      rw [State.writeStatus_eq, hx]
      exact .inl ⟨by simp [he], rfl, rfl, hb, rfl, rfl, rfl⟩
    | true => exact .inr ⟨by rw [State.writeStatus_errf, hx, Bool.not_true, Bool.and_false], .inr (.inr ⟨x, rfl, hx⟩)⟩
  · rw [State.accept_dropped x he]
    exact .inl hkeep
  · exact .inl hkeep
  · exact .inr ⟨rfl, .inl ⟨draw, rfl⟩⟩
  · exact .inl hkeep

/-- With an error recorded the engine is idle (70_reset_and_hazards.md R400). -/
theorem State.Inv.idle_of_errf (h : s.Inv) (he : s.errf = true) : s.busy = false :=
  Bool.eq_false_iff.2 fun hb => absurd ((h.busy_idle hb).2.symm.trans he) (by decide)

/-- Settles O13: the engine is idle while an error is recorded, and a host access keeps the record or ends it. -/
theorem recordedErrorPersists : Obligations.RecordedErrorPersists := by
  intro s t h he ht
  have hb := h.idle_of_errf he
  obtain heng | ⟨a, rest, ha, hhost⟩ := step_cases ht
  · obtain rfl := engineTurn_idle heng hb
    exact .inl ⟨he, rfl, rfl, hb, rfl, rfl, rfl⟩
  · exact (hostTurn_record hhost hb he).imp_right fun ⟨hclear, hends⟩ => ⟨hclear, a, rest, ha, hends⟩

/-! ### Every command completes -/

theorem legalErrcode_code (k : ErrKind) : legalErrcode k.code := by cases k <;> decide

/-- Settles O14: the engine's turn is a completion, which commits or records a kind that has a code in R351. -/
theorem noPanics : Obligations.NoPanics := by
  intro s w hb hc hd he
  obtain ⟨r, hr⟩ := engineTurn_busy hb hc
  refine ⟨_, hr, ?_⟩
  cases r with
  | ok e => exact ⟨rfl, .inl ⟨rfl, commit_errf_clear he e⟩⟩
  | error k => exact ⟨rfl, .inr ⟨hd, rfl, legalErrcode_code k⟩⟩

/-! ### The kinds a command raises -/

/-- One register, whatever its index, is in range. -/
theorem inRange_register (b : RegIdx) : (Extent.regs b.toNat 1).inRange = true := decide_eq_true b.isLt

/-- A rule that does not list OperandRange is that of a command with single registers only, or with no window. -/
theorem operandRange_listed (h : ¬InRange i) : .operandRange ∈ exceptionsOf i := by
  cases i with
  | nop | ldi | fpAdd | fpSub | fpNeg | fpMul | fpSqr | fpInv | fpEq => exact absurd (by simp [InRange, windowsOf, inRange_register]) h
  | _ => exact List.mem_cons_self

/-- A rule that does not list UnwrittenRegister is that of a command with no source. -/
theorem unwrittenRegister_listed (h : ¬SourcesWritten i s) : .unwrittenRegister ∈ exceptionsOf i := by
  cases i with
  | nop | ldi | f12One | fpDec | scDec | f2Dec | g1Decu | g1Decc | g2Decu | g2Decc => exact absurd (List.forall_mem_nil _) h
  | _ => simp [exceptionsOf]

/-- Settles O20: the kind of each stage of 60_exceptions.md R354 is listed for every command in which that stage can fail. -/
theorem raisesOnlyListed : Obligations.RaisesOnlyListed := by
  intro i s t w hw he ht hte
  obtain ⟨e, hx⟩ | ⟨k, hx, hk⟩ := exec_raises i s
  · obtain rfl := Host.Outcome.next.inj (ht.symm.trans hx)
    exact absurd ((commit_errf_clear he e).symm.trans hte) (by decide)
  · obtain rfl := Host.Outcome.next.inj (ht.symm.trans hx)
    refine ⟨k, ?_, raise_eq_raised s k w hw⟩
    obtain ⟨rfl, hrange⟩ | ⟨rfl, -, hunwritten⟩ | ⟨hoperation, -⟩ := hk
    · exact operandRange_listed hrange
    · exact unwrittenRegister_listed hunwritten
    · exact List.mem_of_mem_filter hoperation

end Sys2Proof.Machine
end

section
/-! PROOFS. Reset, acceptance and completion: what a command reads, what the host can change while it is in flight, and which turn runs it. -/

namespace Sys2Proof.Machine

variable {s : State} {w : Word}

/-! ### What a command reads -/

/-- The state as a command sees it: F, V, IOBUF and the sampled FP2ORD of `s`, and every other field as after a reset
(70_reset_and_hazards.md R401). -/
def State.inputs (s : State) : State := { State.resetWith s.iobuf with f := s.f, v := s.v, fp2ordCmd := s.fp2ordCmd }

/-- The operation of every command reads registers, bytes of IOBUF and the sampled FP2ORD, which the inputs of the state keep. -/
theorem exec_operation_inputs (i : Instr) :
    ∃ op, (∀ s, exec i s = perform (windowsOf i) (sourcesOf i) op s) ∧ ∀ s : State, op s = op s.inputs := by
  cases i <;> exact ⟨_, fun _ => rfl, fun _ => rfl⟩

/-- The checks of 60_exceptions.md R354 read the valid bits only. -/
theorem checked_inputs {op : State → Except ErrKind Effect} (h : op s = op s.inputs) (es : List Extent) (ws : List (Nat × Nat)) :
    s.checked es ws op = s.inputs.checked es ws op := by
  unfold State.checked
  rw [h]
  rfl

/-- A command completes with an answer to the inputs of the state. -/
theorem exec_eq_complete_inputs (i : Instr) :
    ∃ answer : State → Except ErrKind Effect, ∀ s, exec i s = .next (s.complete (answer s.inputs)) := by
  obtain ⟨op, hrun, hop⟩ := exec_operation_inputs i
  exact ⟨fun x => x.checked (windowsOf i) (sourcesOf i) op, fun s => by rw [hrun, perform, checked_inputs (hop s)]⟩

/-- Settles O15: the answer is one function of the inputs, and these are the same on both states. -/
theorem execInputs : Obligations.ExecInputs := by
  intro i s1 s2 hf hv hm ho
  obtain ⟨answer, hrun⟩ := exec_eq_complete_inputs i
  have heq : s2.inputs = s1.inputs := by rw [State.inputs, State.inputs, hf, hv, hm, ho]
  exact ⟨answer s1.inputs, hrun s1, by rw [hrun, heq]⟩

/-! ### CMD and CTRL writes -/

/-- A CMD write while BUSY or ERRF is 1 sets OVR and does nothing else (70_reset_and_hazards.md R400). -/
theorem State.accept_overrun (w : Word) (h : s.busy = true ∨ s.errf = true) : s.accept w = { s with ovr := true } :=
  if_pos (by rwa [Bool.or_eq_true])

/-- A CTRL write with SRST = 1 (70_reset_and_hazards.md R392). -/
theorem State.writeCtrl_softReset (s : State) {x : Word} (h : x.getLsbD 0 = true) : s.writeCtrl x = s.softReset := if_pos h

/-- Settles O16: of what a host access can do, IOBUF writes need an idle engine, a CMD write is dropped, and a CTRL write keeps FP2ORD. -/
theorem inputsClosed : Obligations.InputsClosed := by
  intro s t a hb ht hhard hsoft
  obtain ⟨x, rfl⟩ | ⟨x, rfl, rfl⟩ | ⟨x, -, rfl⟩ | ⟨x, -, rfl⟩ | ⟨hidle, -⟩ | ⟨draw, rfl, -⟩ | rfl := hostTurn_cases ht
  · exact ⟨rfl, rfl, rfl, rfl, hb, rfl, rfl⟩
  · have h0 : x.getLsbD 0 = false := Bool.eq_false_iff.2 fun h => hsoft x h rfl
    rw [s.writeCtrl_update h0]
    exact ⟨rfl, rfl, rfl, rfl, hb, if_pos hb, rfl⟩
  · rw [s.writeStatus_eq]
    exact ⟨rfl, rfl, rfl, rfl, hb, rfl, rfl⟩
  · rw [State.accept_overrun x (.inl hb)]
    exact ⟨rfl, rfl, rfl, rfl, hb, rfl, rfl⟩
  · exact absurd (hb.symm.trans hidle) (by decide)
  · exact absurd rfl (hhard draw)
  · exact ⟨rfl, rfl, rfl, rfl, hb, rfl, rfl⟩

/-- The engine's turn with BUSY = 0 (60_exceptions.md R372). -/
theorem engineTurn_of_idle (hb : s.busy = false) : engineTurn s = .next s := by rw [engineTurn, hb]

/-- Settles O7: the write is the soft reset, which leaves the engine idle. -/
theorem softReset : Obligations.SoftReset := fun s x h =>
  ⟨s.softReset, (write_register s x (by decide) (by decide)).trans (congrArg _ (s.writeCtrl_softReset h)), rfl, engineTurn_of_idle rfl⟩

/-- Settles O11: the write is the two branches of acceptance; the word is first decoded at its completion. -/
theorem acceptance : Obligations.Acceptance := by
  intro s w
  have hwrite : hostTurn (.write .w32 0x014 w) s = .next (s.accept w) := write_register s w (by decide) (by decide)
  refine ⟨fun h => ?_, fun hb he => ⟨?_, fun e hw => ?_⟩⟩
  · rw [hwrite, State.accept_overrun w h]
  · rw [hwrite, s.accept_idle w hb he]
    rfl
  · exact engineTurn_illegal rfl rfl (decode_error_iff.1 hw)

/-! ### The turn that a step runs -/

/-- The engine moves when its turn is first on the agenda, and when no turn is left (logs 1, 2). -/
theorem step_engine (h : s.agenda = [] ∨ ∃ rest, s.agenda = .engine :: rest) :
    step s = engineTurn { s with agenda := s.agenda.tail } := by
  obtain h | ⟨rest, h⟩ := h
  · have hturn : step s = engineTurn s := by rw [step, h]
    have htail : s.agenda.tail = s.agenda := by rw [h, List.tail_nil]
    rw [hturn, htail]
  · rw [step, h, List.tail_cons]

theorem step_host {a : Access} {rest : List Turn} (h : s.agenda = .host a :: rest) : step s = hostTurn a { s with agenda := rest } := by
  rw [step, h]

/-- The engine's turn runs the command that the word in CUR decodes to (70_reset_and_hazards.md R401). -/
theorem engineTurn_decoded {i : Instr} (hb : s.busy = true) (hc : s.cur = some w) (h : decode w = .ok i) : engineTurn s = exec i s := by
  rw [engineTurn, hb, hc]
  dsimp only
  rw [execWord, h]

/-- A command word given as a number is accepted as it is (log 13). -/
theorem withFetchWord_eq (s : State) (w : Word) : s.withFetchWord 32 w.toNat = { s.latch w with agenda := .engine :: s.agenda } := by
  rw [State.withFetchWord, Nat.mod_eq_of_lt w.isLt, BitVec.ofNat_toNat, BitVec.setWidth_eq]

/-- Settles O10: the turn is the engine's, which runs, refuses or has no command, or the host's. -/
theorem stepRunsCommand : Obligations.StepRunsCommand := by
  refine ⟨fun s w ha hb hc => ⟨fun i hi => ?_, fun e he => ?_⟩, fun s ha hb => ?_, fun s a rest ha => step_host ha, fun s w i hi => ?_⟩
  · exact (step_engine ha).trans (engineTurn_decoded hb hc hi)
  · exact (step_engine ha).trans (engineTurn_illegal hb hc (decode_error_iff.1 he))
  · exact (step_engine ha).trans (engineTurn_of_idle hb)
  · rw [withFetchWord_eq]
    exact (step_engine (.inr ⟨s.agenda, rfl⟩)).trans (engineTurn_decoded rfl rfl hi)

end Sys2Proof.Machine
end
